-- ==== Sys2Proof/Word.lean ====
section
/-! DEFINITION. The numbers and levels every file speaks of: bytes, the indices of entries, lines, inputs, ports and
burst engines (00_scope.md 4, Numbering of things), the two levels, the name of a session, and a part of a frame. -/

namespace Sys2Proof

/-- A byte of a frame (R174). -/
abbrev Byte := BitVec 8

/-- A host port, P0 to P3. -/
abbrev Port := Fin 4

/-- A reservation-table entry, 0 to 47 (R1). -/
abbrev EntryIx := Fin 48

/-- An output line, 0 to 15 (R95). -/
abbrev LineIx := Fin 16

/-- An input line, IN0 to IN7. -/
abbrev InputIx := Fin 8

/-- A burst engine, 0 or 1 (R104). -/
abbrev EngineIx := Fin 2

/-- A cycle number: 32 bits, wrapping (R56). -/
abbrev CycleNumber := BitVec 32

/-- The level of a line or an input. -/
inductive Level where
  | low
  | high
  deriving DecidableEq, Repr

/-- A session is named by its port and its session number (R128). -/
structure SessionId where
  port : Port
  number : Byte
  deriving DecidableEq, Repr

/-- A part of a frame (R174): CSn falls if it is high; these whole bytes pass, as the host sends them, the frame code being
the first of the frame; and then CSn rises if `rise`. Otherwise the frame stays in progress, for a later part to go on with.
A part without bytes is the fall of CSn alone, or the rise. -/
structure FramePart where
  bytes : List Byte
  rise : Bool
  deriving DecidableEq, Repr

end Sys2Proof
end

