-- ==== Sys2Proof/Syntax.lean ====
section
/-! DEFINITION. The commands: one constructor per row of spec/opcode_table.json, in the table's order. The table gives no
operands; those below are what each row's rule names. -/

namespace Sys2Proof

/-- A command to the part: the taking of a request or claim, the completion of a flight, a frame, or an event.

* The takings name the port whose request (or claim) the arbiter takes; the request itself is the head of that port's
  request queue (R184).
* The frames come in parts (`FramePart`), so that any event may come between two bytes.
* `submit`, `abandon`, `malformedFrame`: `mosi` is the part, with the bytes the host sends.
* `collect`, `fetch`, `status`: the number of bytes in the part, and whether CSn then rises; what the host sends after the
  frame code is ignored.
* `malformedFrame`: `bits` is the bits of one further byte before the rise.
* `resetRelease`: the samples of IN0 to IN7 (bit i set for HIGH), whether INH is sampled LOW, and the ports whose CSn is
  low (bit n set for CSn low) at the release (R127, R174). -/
inductive Instr where
  | attach (port : Port)
  | detach (port : Port)
  | renew (port : Port)
  | setNotices (port : Port)
  | add (port : Port)
  | addCompletion
  | withdraw (port : Port)
  | replace (port : Port)
  | replaceCompletion
  | query (port : Port)
  | scan (port : Port)
  | claimLine (port : Port)
  | releaseLine (port : Port)
  | lineInfo (port : Port)
  | run (port : Port)
  | halt (port : Port)
  | setHub (port : Port)
  | setHubCompletion
  | readHub (port : Port)
  | badKind (port : Port)
  | cleanupClaim (port : Port)
  | submit (port : Port) (mosi : FramePart)
  | collect (port : Port) (bytes : Nat) (rise : Bool)
  | fetch (port : Port) (bytes : Nat) (rise : Bool)
  | status (port : Port) (bytes : Nat) (rise : Bool)
  | abandon (port : Port) (mosi : FramePart)
  | malformedFrame (port : Port) (mosi : FramePart) (bits : Nat)
  | cycleEnd
  | spacingEnd
  | inhAsserted
  | inhReleased
  | rawChange (input : InputIx)
  | qualification (input : InputIx)
  | windowBoundaryEvent
  | highTimeElapses (engine : EngineIx)
  | lowTimeElapses (engine : EngineIx)
  | leaseExpiry (port : Port)
  | powerOnReset
  | rstnAsserted
  | resetRelease (inputs : BitVec 8) (inhLow : Bool) (csLow : BitVec 4)
  | csnRiseAfterReset (port : Port)
  deriving DecidableEq, Repr

end Sys2Proof
end

