-- ==== Sys2Proof/Config.lean ====
section
/-! DEFINITION. The free values: what the spec leaves open and the machine goes on with. None has a body, so no proof can
see what it is, and a claim holds whatever it is. Each is applied to `State.freeCount`, a counter the step advances. -/

namespace Sys2Proof.Config

/-- Which of several events due at the same tick is taken first (00_scope.md 4, Events: "depends on which is taken
first"; R69, R74, R86, R93, R116, R120, R138). Read modulo the number of events due. Log 2. -/
opaque freeOrder : Nat → Nat

/-- Whether the operation in flight completes at this tick; it completes at the latest when 40 ticks have passed (R46,
R164: "at most 40 µs later"). Log 3. -/
opaque freeCompletion : Nat → Bool

/-- Whether a RAIL_OVER report of SET_HUB carries rail A's sum (else rail B's) when both rails fail at the first failing
point (R34 takes the failing points of both rails together and R166 speaks of one sum). Log 12. -/
opaque freeRailSumIsA : Nat → Bool

end Sys2Proof.Config
end

