-- ==== Sys2Proof/Machine/Table.lean ====
section
/-! DEFINITION. A table of a fixed number of like records: plain data (a list with its length), read and written by index.
The reservation table, the line table, the ports' records and the inputs are such tables. -/

namespace Sys2Proof.Machine

/-- `n` records of one kind, in index order. -/
structure Table (α : Type) (n : Nat) where
  cells : List α
  size_eq : cells.length = n
  deriving DecidableEq, Repr

/-- The record at an index. -/
def Table.get {α : Type} {n : Nat} (t : Table α n) (i : Fin n) : α :=
  t.cells[i.val]'(by rw [t.size_eq]; exact i.isLt)

/-- The table with one record replaced. -/
def Table.set {α : Type} {n : Nat} (t : Table α n) (i : Fin n) (x : α) : Table α n :=
  ⟨t.cells.set i.val x, by rw [List.length_set]; exact t.size_eq⟩

/-- The table with one record changed. -/
def Table.modify {α : Type} {n : Nat} (t : Table α n) (i : Fin n) (f : α → α) : Table α n :=
  t.set i (f (t.get i))

/-- The same record at every index. -/
def Table.fill {α : Type} (n : Nat) (x : α) : Table α n :=
  ⟨List.replicate n x, List.length_replicate⟩

/-- Every record changed alike. -/
def Table.map {α β : Type} {n : Nat} (f : α → β) (t : Table α n) : Table β n :=
  ⟨t.cells.map f, by rw [List.length_map]; exact t.size_eq⟩

/-- A record computed from each index. -/
def Table.build {α : Type} {n : Nat} (f : Fin n → α) : Table α n :=
  ⟨(List.finRange n).map f, by rw [List.length_map, List.length_finRange]⟩

end Sys2Proof.Machine
end

