-- ==== Sys2Proof/Machine/Records.lean ====
section
/-! DEFINITION. The records the blocks hold, each with its values after reset: the reservation table's entry, the line
table's entry, the hub configuration record, the cycle engine, the planned window, the burst engine, the input, the
session record, the notice queue, the link port and the arbiter. -/

namespace Sys2Proof.Machine

/-! ### The reservation table (Chapter 1) -/

/-- A lamp power rail. An entry's rail NONE is the absence of one (R1). -/
inductive Rail where
  | a
  | b
  deriving DecidableEq, Repr

/-- The cadence period: 1, 2, 4 or 8 (R1). -/
inductive Period where
  | one
  | two
  | four
  | eight
  deriving DecidableEq, Repr

/-- A gate: one filtered input at one level (R124). -/
structure Gate where
  input : InputIx
  level : Level
  deriving DecidableEq, Repr

/-- The burst part (R1): times in ticks; the count is a number from 1 to 254, or UNBOUNDED (`none`). -/
structure BurstPart where
  highTime : Nat
  lowTime : Nat
  count : Option Nat
  deriving DecidableEq, Repr

/-- The kind of a window, with the burst part, which is present exactly for BURST (R1). -/
inductive WindowKind where
  | solid
  | burst (part : BurstPart)
  deriving DecidableEq, Repr

/-- The descriptor: the fields of an entry from line to burst part (R1). -/
structure Descriptor where
  line : LineIx
  kind : WindowKind
  start : Nat
  duration : Nat
  period : Period
  pattern : BitVec 8
  rail : Option Rail
  draw : Nat
  notify : Bool
  label : BitVec 16
  gate : Option Gate
  deriving DecidableEq, Repr

/-- The descriptor fields of every entry after reset (R4). -/
def Descriptor.afterReset : Descriptor :=
  { line := 0, kind := .solid, start := 0, duration := 1, period := .one, pattern := 1, rail := none, draw := 0,
    notify := false, label := 0, gate := none }

/-- Why an entry is RETIRING (R1). -/
inductive RetireReason where
  | withdrawn
  | replaced
  deriving DecidableEq, Repr

/-- The state of an entry with what is present in that state: the owner when it is not FREE, the retire reason when it is
RETIRING (R1, R3). -/
inductive EntryState where
  | free
  | pending (owner : SessionId)
  | active (owner : SessionId)
  | retiring (owner : SessionId) (reason : RetireReason)
  deriving DecidableEq, Repr

/-- An entry of the reservation table (R1). -/
structure Entry where
  state : EntryState
  generation : BitVec 4
  descriptor : Descriptor
  fireCount : BitVec 16
  deriving DecidableEq, Repr

/-- Every entry after reset (R4). -/
def Entry.afterReset : Entry :=
  { state := .free, generation := 0, descriptor := .afterReset, fireCount := 0 }

/-- The handle of an entry: its index and a generation (R5). The handle NONE is the absence of one. -/
structure Handle where
  index : EntryIx
  generation : BitVec 4
  deriving DecidableEq, Repr

/-- The peak load of each rail (R54). -/
structure RailPeaks where
  a : Nat
  b : Nat
  deriving DecidableEq, Repr

/-! ### The line table and the hub configuration record (Chapters 4 and 9) -/

/-- A line-table entry (R95): the access is CLAIMED exactly when there is a holder. -/
structure Line where
  holder : Option SessionId
  idle : Level
  gap : Nat
  deriving DecidableEq, Repr

/-- Every line-table entry after reset (R103). -/
def Line.afterReset : Line := { holder := none, idle := .low, gap := 0 }

inductive StartMode where
  | internal
  | external
  deriving DecidableEq, Repr

/-- The direction of an edge (R121). -/
inductive Edge where
  | rising
  | falling
  deriving DecidableEq, Repr

/-- The hub configuration record (R163). -/
structure HubRecord where
  cycleLength : Nat
  startMode : StartMode
  startLine : InputIx
  startEdge : Edge
  capacityA : Nat
  capacityB : Nat
  widths : Table Nat 8
  deriving DecidableEq, Repr

/-- The hub configuration record after reset (R163). -/
def HubRecord.afterReset : HubRecord :=
  { cycleLength := 20000, startMode := .internal, startLine := 0, startEdge := .rising, capacityA := 0, capacityB := 0,
    widths := .fill 8 4 }

/-! ### The cycle engine (Chapter 3) -/

inductive EngineState where
  | stopped
  | waiting
  | running
  | halting
  | held
  deriving DecidableEq, Repr

inductive Spacing where
  | clear
  | counting
  deriving DecidableEq, Repr

/-- The cycle engine's state (R56). The cycle timer is `none` while it is stopped. -/
structure CycleEngine where
  state : EngineState
  number : Option CycleNumber
  restart : Bool
  timer : Option Nat
  span : Nat
  spacing : Spacing
  inhAsserted : Bool
  earlyEdges : BitVec 16
  inhibitEpisodes : BitVec 16
  cuts : BitVec 16
  deriving DecidableEq, Repr

/-- The cycle engine after reset, with the INH level sampled at the release (R57). -/
def CycleEngine.afterReset (inhAsserted : Bool) : CycleEngine :=
  { state := .stopped, number := none, restart := true, timer := none, span := 20000, spacing := .clear,
    inhAsserted := inhAsserted, earlyEdges := 0, inhibitEpisodes := 0, cuts := 0 }

/-! ### The window sequencer and the burst engines (Chapters 4 and 5) -/

/-- The state of a planned window with what is present in it: the gate open flag while it is OPEN, the assigned engine
while a BURST window is OPEN (R79, R81). -/
inductive WindowState where
  | scheduled
  | opened (gateOpen : Bool) (engine : Option EngineIx)
  | closed
  | cut
  deriving DecidableEq, Repr

/-- A planned window: an entry, by index, and a window state (R79). -/
structure PlannedWindow where
  entry : EntryIx
  state : WindowState
  deriving DecidableEq, Repr

/-- The phase of a busy burst engine, with the phase timer where it counts (R104). -/
inductive BusyPhase where
  | gateWait
  | high (timer : Nat)
  | low (timer : Nat)
  | spent
  deriving DecidableEq, Repr

/-- What a busy burst engine holds (R104). `idle` is the idle level copied with the line, the active level is its
opposite; `gate` is absent when the window has no gate, else whether it is open; count reached is set exactly in SPENT. -/
structure BurstJob where
  phase : BusyPhase
  window : EntryIx
  part : BurstPart
  line : LineIx
  idle : Level
  gate : Option Bool
  pulses : BitVec 16
  closures : BitVec 8
  deriving DecidableEq, Repr

/-- A burst engine: IDLE, with every item absent, stopped, 0 or clear, or busy (R104). -/
inductive BurstEngine where
  | idle
  | busy (job : BurstJob)
  deriving DecidableEq, Repr

/-! ### The input conditioner (Chapter 6) -/

/-- The items of one input (R118, R119). The qualification timer is `none` while it is stopped. -/
structure InputChannel where
  raw : Level
  filtered : Level
  timer : Option Nat
  deriving DecidableEq, Repr

/-- An input after reset: the sampled level is both the raw and the filtered level (R127). -/
def InputChannel.afterReset (sample : Level) : InputChannel :=
  { raw := sample, filtered := sample, timer := none }

/-! ### The session table (Chapter 7) -/

/-- A notice mask (R128): a set of the four mask kinds. -/
structure Mask where
  window : Bool
  lifecycle : Bool
  early : Bool
  engine : Bool
  deriving DecidableEq, Repr

/-- What a session record holds while it is ATTACHED (R128): the lease in ms, the lease timer in ticks, the run vote and
the notice mask. While DETACHED the lease is absent, the timer stopped, the vote absent and the mask empty (R139). -/
structure Attachment where
  lease : Nat
  timer : Nat
  vote : Bool
  mask : Mask
  deriving DecidableEq, Repr

/-- A session record (R128): ATTACHED exactly when there is an attachment. -/
structure Session where
  number : Byte
  attachment : Option Attachment
  deriving DecidableEq, Repr

/-- Every session record after reset (R129). -/
def Session.afterReset : Session := { number := 0, attachment := none }

/-! ### The notice unit (Chapter 8) -/

/-- A notice's kind and the fields of its kind (R148). A RETIRED notice carries the cycle number of the boundary, or
`none` for the marker STOP. -/
inductive NoticeBody where
  | fire (handle : Handle) (label : BitVec 16) (n : BitVec 16) (k : Nat) (start : Nat) (inputs : BitVec 8)
      (gateOpen : Bool)
  | tally (handle : Handle) (label : BitVec 16) (n : CycleNumber) (pulses : BitVec 16) (closures : BitVec 8)
      (engine : EngineIx) (countReached : Bool)
  | cut (handle : Handle) (label : BitVec 16) (n : CycleNumber) (ticks : Nat) (pulses : BitVec 16)
  | activated (handle : Handle) (label : BitVec 16) (n : CycleNumber)
  | retired (handle : Handle) (label : BitVec 16) (reason : RetireReason) (boundary : Option CycleNumber)
  | early (n : CycleNumber) (offset : Nat)
  | engine (state : EngineState) (n : CycleNumber)
  | expired (session : Byte)
  | lost (dropped : BitVec 16)
  deriving DecidableEq, Repr

/-- A queued notice record: its sequence number and its body (R146). -/
structure Notice where
  seq : Byte
  body : NoticeBody
  deriving DecidableEq, Repr

/-- One port's notice queue, oldest record first, with its sequence number, loss counter and record in transfer (R146,
R154, R155, R158). -/
structure NoticeQueue where
  records : List Notice
  seq : Byte
  losses : BitVec 16
  inTransfer : Option Notice
  deriving DecidableEq, Repr

/-- Every notice queue after reset (R147). -/
def NoticeQueue.afterReset : NoticeQueue := { records := [], seq := 0, losses := 0, inTransfer := none }

/-! ### The link ports and the arbiter (Chapter 10) -/

/-- The status of a reply (10.8). -/
inductive Status where
  | ok
  | noSession
  | attached
  | badKind
  | badField
  | noEntry
  | stale
  | notOwner
  | retiring
  | lineHeld
  | lineBusy
  | lineClash
  | railOver
  | enginesOver
  | engineRunning
  | span
  deriving DecidableEq, Repr

/-- A request as submitted: its tag, its request code and its field bytes (R177, R184). -/
structure Request where
  tag : Byte
  code : Byte
  fields : List Byte
  deriving DecidableEq, Repr

/-- A reply (R185): the tag and request code of its request, a status and a payload. -/
structure Reply where
  tag : Byte
  code : Byte
  status : Status
  payload : List Byte
  deriving DecidableEq, Repr

/-- The frame state of a port (R174): idle (CSn high); ignoring SCLK and MOSI until CSn rises (after reset); or the
progress of the frame in progress.

* `opened status`: CSn has fallen and the frame code is still to come; the port status byte as sampled at the fall (R175).
* `submit received`: the bytes after the frame code of a SUBMIT that is not complete (R177).
* `answered result`: a SUBMIT whose length was bad or whose credit check is made; the byte due next, then 0x00.
* `collect rest`: the bytes of the reply in transfer still to be shifted out (none when there is no reply).
* `fetch count rest`: the record count, until it is shifted out; then the bytes left of the present 16-byte position.
* `status shifted losses`: how many bytes after the frame code have gone, and the loss counter taken with the third.
* `abandon session`: the session byte of an ABANDON, once received (R182).
* `unknown`: a frame whose code is none of the five (R175). -/
inductive FrameState where
  | idle
  | ignoring
  | opened (status : Byte)
  | submit (received : List Byte)
  | answered (result : Byte)
  | collect (rest : List Byte)
  | fetch (count : Option Byte) (rest : List Byte)
  | status (shifted : Nat) (losses : BitVec 16)
  | abandon (session : Option Byte)
  | unknown
  deriving DecidableEq, Repr

/-- One link port (10_host_links.md, head table). `miso` is the model's record of an output: the bytes shifted out on MISO
in the last frame that shifted out a whole byte, which may be the one in progress (log 7). -/
structure Link where
  requests : List Request
  inService : Option Request
  replies : List Reply
  credits : Nat
  malformed : BitVec 8
  frame : FrameState
  miso : List Byte
  deriving DecidableEq, Repr

/-- A link port after reset; `csLow` says whether its CSn is low at the release (R174). -/
def Link.afterReset (csLow : Bool) : Link :=
  { requests := [], inService := none, replies := [], credits := 4, malformed := 0,
    frame := if csLow then .ignoring else .idle, miso := [] }

/-- What the checks judged at the taking (R47): they passed with a value, or refuse with a status and a payload. -/
inductive Verdict (α : Type) where
  | pass (value : α)
  | refuse (status : Status) (payload : List Byte)
  deriving DecidableEq, Repr

/-- A REPLACE that passed: the old entry, the new descriptor, and whether the engine was STOPPED at the taking (R41). -/
structure Replacement where
  old : EntryIx
  descriptor : Descriptor
  stoppedAtTaking : Bool
  deriving DecidableEq, Repr

/-- The operation in flight (R46, R164). -/
inductive FlightOp where
  | add (verdict : Verdict Descriptor)
  | replace (verdict : Verdict Replacement)
  | setHub (verdict : Verdict HubRecord)
  deriving DecidableEq, Repr

/-- A flight: the requesting session as it was at the taking (R51), its request, the operation, and the ticks that have
passed since the taking (the model's own count, log 3). -/
structure Flight where
  session : SessionId
  request : Request
  op : FlightOp
  age : Nat
  deriving DecidableEq, Repr

/-- The request arbiter (R183): the executor is free (`none`) or held by a flight; each port has at most one pending
cleanup claim, which names the session that ended by its number. -/
structure Arbiter where
  executor : Option Flight
  lastServed : Port
  claims : Table (Option Byte) 4
  deriving DecidableEq, Repr

/-- The arbiter after reset (R183). -/
def Arbiter.afterReset : Arbiter := { executor := none, lastServed := 3, claims := .fill 4 none }

/-- The kind of a reset (R171). -/
inductive ResetCause where
  | power
  | pin
  deriving DecidableEq, Repr

end Sys2Proof.Machine
end

