-- ==== Sys2Proof/Machine/State.lean ====
section
/-! DEFINITION. The state of the part: every block's state as the spec gives it, the queue of waiting commands, and the
counter the free values are read at. Also the reasons a step can stop, and the state after reset. -/

namespace Sys2Proof.Machine

/-- The machine's state, as plain data.

* `entries`, `lines`, `hub`, `peaks`: the schedule controller's tables (R1, R95, R163, R54).
* `engine`: the cycle engine (R56).
* `plan`, `holding`, `driven`: the window sequencer; `driven` is the level of each output pin (R79, R96).
* `bursts`: the burst engines (R104). `inputs`: the input conditioner (R118, R119).
* `sessions`: the session table (R128). `notices`: the notice unit (R146). `links`: the link ports (R174).
* `arbiter`: the request arbiter with the executor (R183).
* `resetCause`: the kind of the last reset (R171). `hold`: while the part is held in reset, the cause that the release
  will record (R172).
* `pending`: the commands waiting, first in, first out. `freeCount`: the model's own counter for the free values. -/
structure State where
  entries : Table Entry 48
  lines : Table Line 16
  hub : HubRecord
  peaks : RailPeaks
  engine : CycleEngine
  plan : Option (List PlannedWindow)
  holding : Table (Option EntryIx) 16
  driven : Table Level 16
  bursts : Table BurstEngine 2
  inputs : Table InputChannel 8
  sessions : Table Session 4
  notices : Table NoticeQueue 4
  links : Table Link 4
  arbiter : Arbiter
  resetCause : ResetCause
  hold : Option ResetCause
  pending : List Instr
  freeCount : Nat
  deriving DecidableEq, Repr

/-- The faults that stop the machine: none. The spec gives the part no fault that stops it; every refusal is a reply, an
ignored frame or a counted frame (R174, R176, 10.8). Nothing raises one. -/
inductive Fault where
  deriving DecidableEq, Repr

/-- The refusals. No command is refused: every row of the table has its meaning. -/
inductive Refusal where
  /-- A command that has no meaning yet; raised by no arm of `exec`. Safe: the machine stops instead of going on. -/
  | notModelled (mnemonic : String)
  deriving DecidableEq, Repr

/-- The state right after the release of a reset (R172): the cause it records, the samples of the inputs and of INH taken
at the release, and the ports whose CSn is low then. -/
def State.afterRelease (cause : ResetCause) (inputs : BitVec 8) (inhLow : Bool) (csLow : BitVec 4)
    (pending : List Instr) (freeCount : Nat) : State :=
  { entries := .fill 48 .afterReset
    lines := .fill 16 .afterReset
    hub := .afterReset
    peaks := { a := 0, b := 0 }
    engine := .afterReset inhLow
    plan := none
    holding := .fill 16 none
    driven := .fill 16 .low
    bursts := .fill 2 .idle
    inputs := .build fun i => .afterReset (if inputs.getLsbD i.val then .high else .low)
    sessions := .fill 4 .afterReset
    notices := .fill 4 .afterReset
    links := .build fun p => .afterReset (csLow.getLsbD p.val)
    arbiter := .afterReset
    resetCause := cause
    hold := none
    pending := pending
    freeCount := freeCount }

/-- The machine right after a power-on reset, with nothing in the queue. The pins at that release are not the spec's to
say: IN0 to IN7 LOW, INH released, every CSn high (DESIGN CHOICE, log 8). -/
def State.reset : State := .afterRelease .power 0 false 0 [] 0

end Sys2Proof.Machine
end

