-- ==== Sys2Proof/Machine/Flags.lean ====
section
/-! DEFINITION. The flag and counter computations: saturating counters, levels, the mask bits, the port status byte and
the ATTN lines (R161, R175, R187). -/

namespace Sys2Proof.Machine

/-- A saturating counter stays at its largest value (00_scope.md 4, Counters). -/
def saturatingInc {w : Nat} (c : BitVec w) : BitVec w :=
  if c = BitVec.allOnes w then c else c + 1

/-- The opposite of a level: a line's active level from its idle level (R96). -/
def oppositeLevel : Level → Level
  | .low => .high
  | .high => .low

/-- The byte of a level (R187, Enumerations). -/
def levelByte : Level → Byte
  | .low => 0
  | .high => 1

/-- The byte of a flag: 0 off, 1 on (R187, Enumerations). -/
def flagByte (b : Bool) : Byte := if b then 1 else 0

/-- The mask kinds a notice can be governed by (R148). -/
inductive MaskKind where
  | window
  | lifecycle
  | early
  | engine
  deriving DecidableEq, Repr

/-- Whether a mask holds a kind (R128). -/
def Mask.holds (m : Mask) : MaskKind → Bool
  | .window => m.window
  | .lifecycle => m.lifecycle
  | .early => m.early
  | .engine => m.engine

/-- The mask a byte spells; bits 4 to 7 are reserved, and a set one names no kind (R187, R132, R135). -/
def maskOfByte (b : Byte) : Option Mask :=
  if b.toNat < 16 then
    some { window := b.getLsbD 0, lifecycle := b.getLsbD 1, early := b.getLsbD 2, engine := b.getLsbD 3 }
  else none

/-- The engine-running bit of the status byte: RUNNING, HALTING or WAITING (R175). -/
def engineRunningFlag : EngineState → Bool
  | .stopped => false
  | .waiting => true
  | .running => true
  | .halting => true
  | .held => false

/-- A bit's weight in a byte, when it is set. -/
def weigh (b : Bool) (weight : Nat) : Nat := if b then weight else 0

/-- The port status byte as the state stands (R175, R187): attached, reply ready, notices pending, engine running, loss
counter non-zero, and the credits in bits 2 to 0. -/
def State.statusByte (s : State) (p : Port) : Byte :=
  BitVec.ofNat 8
    (weigh (s.sessions.get p).attachment.isSome 128
      + weigh (!(s.links.get p).replies.isEmpty) 64
      + weigh (!(s.notices.get p).records.isEmpty) 32
      + weigh (engineRunningFlag s.engine.state) 16
      + weigh ((s.notices.get p).losses != 0) 8
      + (s.links.get p).credits)

/-- ATTNn is asserted while the port's reply queue or notice queue holds a record, and released during a reset (R161,
R172). An asserted output is driven LOW. -/
def State.attnAsserted (s : State) (p : Port) : Bool :=
  s.hold.isNone && (!(s.links.get p).replies.isEmpty || !(s.notices.get p).records.isEmpty)

/-- The level of the pin ATTNn (R161): LOW when asserted, HIGH when released. -/
def State.attnLevel (s : State) (p : Port) : Level :=
  if s.attnAsserted p then .low else .high

/-- MISO of a port is high-impedance while its CSn is high, and from the start of a reset to its release (R174). For a port
that ignores SCLK because its CSn was low at the release, the spec does not say; there MISO is not high-impedance, since
CSn is low and no reset is in progress (DESIGN CHOICE, log 18). -/
def State.misoHighImpedance (s : State) (p : Port) : Bool :=
  s.hold.isSome || decide ((s.links.get p).frame = .idle)

end Sys2Proof.Machine
end

