-- ==== Sys2Proof/Machine/Operands.lean ====
section
/-! DEFINITION. Reading the bytes a host sends: the shape of a frame (R175 to R177, R182), the kinds of requests (10.8),
and the fields of every request with the checks of range and agreement (R6, R25, R26, R97, R132, R165, R187). A field
whose byte names nothing, or a payload shorter than the request needs, reads as `none`: BAD_FIELD. -/

namespace Sys2Proof.Machine

/-! ### Bytes -/

/-- The byte at a place of a payload. -/
def byteAt (f : List Byte) (i : Nat) : Byte := f.getD i 0

/-- A quantity of two bytes, least significant byte first (R187). -/
def word16At (f : List Byte) (i : Nat) : Nat :=
  (byteAt f i).toNat + 256 * (byteAt f (i + 1)).toNat

/-- A quantity of three bytes, least significant byte first (R187). -/
def word24At (f : List Byte) (i : Nat) : Nat :=
  (byteAt f i).toNat + 256 * (byteAt f (i + 1)).toNat + 65536 * (byteAt f (i + 2)).toNat

/-! ### Frames -/

/-- What a SUBMIT frame's bytes after the code amount to (R177). -/
inductive SubmitShape where
  | incomplete
  | badLength
  | complete (tag : Byte) (code : Byte) (fields : List Byte)
  deriving DecidableEq, Repr

/-- A SUBMIT frame: the length byte, which is bad below 2 or above 40, then that many payload bytes, tag and code first;
bytes after them are ignored (R177). -/
def submitShape : List Byte → SubmitShape
  | [] => .incomplete
  | n :: rest =>
    if n.toNat < 2 ∨ 40 < n.toNat then .badLength
    else if rest.length < n.toNat then .incomplete
    else .complete (byteAt rest 0) (byteAt rest 1) ((rest.take n.toNat).drop 2)

/-! ### Requests -/

/-- The requests (10.8), with `unknown` for a code that names none. -/
inductive RequestKind where
  | attach
  | detach
  | renew
  | setNotices
  | add
  | withdraw
  | replace
  | query
  | scan
  | claimLine
  | releaseLine
  | lineInfo
  | run
  | halt
  | setHub
  | readHub
  | unknown
  deriving DecidableEq, Repr

/-- The request a code names (10.8). -/
def kindOfCode (code : Byte) : RequestKind :=
  match code.toNat with
  | 0x01 => .attach
  | 0x02 => .detach
  | 0x03 => .renew
  | 0x04 => .setNotices
  | 0x10 => .add
  | 0x11 => .withdraw
  | 0x12 => .replace
  | 0x13 => .query
  | 0x14 => .scan
  | 0x20 => .claimLine
  | 0x21 => .releaseLine
  | 0x22 => .lineInfo
  | 0x30 => .run
  | 0x31 => .halt
  | 0x40 => .setHub
  | 0x41 => .readHub
  | _ => .unknown

/-! ### Single fields (R187, Enumerations) -/

def lineOfByte (b : Byte) : Option LineIx :=
  if h : b.toNat < 16 then some ⟨b.toNat, h⟩ else none

def inputOfByte (b : Byte) : Option InputIx :=
  if h : b.toNat < 8 then some ⟨b.toNat, h⟩ else none

def entryOfByte (b : Byte) : Option EntryIx :=
  if h : b.toNat < 48 then some ⟨b.toNat, h⟩ else none

def generationOfByte (b : Byte) : Option (BitVec 4) :=
  if b.toNat < 16 then some (BitVec.ofNat 4 b.toNat) else none

def levelOfByte (b : Byte) : Option Level :=
  match b.toNat with
  | 0 => some .low
  | 1 => some .high
  | _ => none

def flagOfByte (b : Byte) : Option Bool :=
  match b.toNat with
  | 0 => some false
  | 1 => some true
  | _ => none

def startModeOfByte (b : Byte) : Option StartMode :=
  match b.toNat with
  | 0 => some .internal
  | 1 => some .external
  | _ => none

def startEdgeOfByte (b : Byte) : Option Edge :=
  match b.toNat with
  | 0 => some .rising
  | 1 => some .falling
  | _ => none

def periodOfByte (b : Byte) : Option Period :=
  match b.toNat with
  | 1 => some .one
  | 2 => some .two
  | 4 => some .four
  | 8 => some .eight
  | _ => none

/-- A rail: 0 NONE, 1 A, 2 B; the outer `none` is a byte that names nothing. -/
def railOfByte (b : Byte) : Option (Option Rail) :=
  match b.toNat with
  | 0 => some none
  | 1 => some (some .a)
  | 2 => some (some .b)
  | _ => none

/-! ### The descriptor (R25, R26, R187) -/

/-- The number a period stands for. -/
def Period.ticks : Period → Nat
  | .one => 1
  | .two => 2
  | .four => 4
  | .eight => 8

/-- The kind and burst part of a descriptor: the flag of byte 12 bit 3 says whether the burst part is present, which it
must be for BURST and must not be for SOLID; its times are at least 1 and its count is 1 to 254, or 255 for UNBOUNDED. -/
def windowKindOf (f : List Byte) : Option WindowKind :=
  match (byteAt f 1).toNat, (byteAt f 12).getLsbD 3 with
  | 0, false => some .solid
  | 1, true =>
    if word16At f 16 = 0 ∨ word16At f 18 = 0 ∨ (byteAt f 20).toNat = 0 then none
    else some (.burst
      { highTime := word16At f 16
        lowTime := word16At f 18
        count := if (byteAt f 20).toNat = 255 then none else some (byteAt f 20).toNat })
  | _, _ => none

/-- The gate of a descriptor: present when byte 12 bit 1 is set, with the input of byte 15 and the level of byte 12 bit 2.
With the gate absent its bytes are not read (R187). The outer `none` is an input above 7. -/
def gateOf (f : List Byte) : Option (Option Gate) :=
  if (byteAt f 12).getLsbD 1 then
    match inputOfByte (byteAt f 15) with
    | some i => some (some { input := i, level := if (byteAt f 12).getLsbD 2 then .high else .low })
    | none => none
  else some none

/-- The ranges and constraints of R1 that concern more than one field's own encoding, against a cycle length L: S below L,
D from 1 to L, S + D at most L, a pattern that holds a position and none at or above P, a draw of at most 15, and a draw
of 0 when the rail is NONE (R25, R26). -/
def Descriptor.fits (d : Descriptor) (cycleLength : Nat) : Bool :=
  decide (d.start < cycleLength) && decide (1 ≤ d.duration) && decide (d.duration ≤ cycleLength)
    && decide (d.start + d.duration ≤ cycleLength)
    && decide (d.pattern ≠ 0) && decide (d.pattern.toNat < 2 ^ d.period.ticks)
    && decide (d.draw ≤ 15) && (d.rail.isSome || decide (d.draw = 0))

/-- A descriptor offered in ADD or REPLACE, judged by step 1 of R24 against a cycle length: `none` is BAD_FIELD. -/
def descriptorOf (cycleLength : Nat) (f : List Byte) : Option Descriptor :=
  if f.length < 21 ∨ 16 ≤ (byteAt f 12).toNat then none
  else
    match lineOfByte (byteAt f 0), windowKindOf f, periodOfByte (byteAt f 8), railOfByte (byteAt f 10), gateOf f with
    | some line, some kind, some period, some rail, some gate =>
      let d : Descriptor :=
        { line := line, kind := kind, start := word24At f 2, duration := word24At f 5, period := period,
          pattern := byteAt f 9, rail := rail, draw := (byteAt f 11).toNat, notify := (byteAt f 12).getLsbD 0,
          label := BitVec.ofNat 16 (word16At f 13), gate := gate }
      if d.fits cycleLength then some d else none
    | _, _, _, _, _ => none

/-! ### The fields of the other requests -/

/-- ATTACH (R132): a lease of 10 to 60,000 ms and a mask. -/
def attachFields (f : List Byte) : Option (Nat × Mask) :=
  if f.length < 3 ∨ word16At f 0 < 10 ∨ 60000 < word16At f 0 then none
  else (maskOfByte (byteAt f 2)).map fun m => (word16At f 0, m)

/-- SET_NOTICES (R135): a mask. -/
def setNoticesFields (f : List Byte) : Option Mask :=
  if f.length < 1 then none else maskOfByte (byteAt f 0)

/-- A handle (R6, step 1): an index of at most 47 and a generation of at most 15. -/
def handleFields (f : List Byte) : Option Handle :=
  if f.length < 2 then none
  else
    match entryOfByte (byteAt f 0), generationOfByte (byteAt f 1) with
    | some e, some g => some { index := e, generation := g }
    | _, _ => none

/-- SCAN (R23): an index of at most 47. -/
def scanFields (f : List Byte) : Option EntryIx :=
  if f.length < 1 then none else entryOfByte (byteAt f 0)

/-- CLAIM_LINE (R97, step 1): a line, an idle level and a recovery gap. -/
def claimLineFields (f : List Byte) : Option (LineIx × Level × Nat) :=
  if f.length < 4 then none
  else
    match lineOfByte (byteAt f 0), levelOfByte (byteAt f 1) with
    | some l, some v => some (l, v, word16At f 2)
    | _, _ => none

/-- RELEASE_LINE and LINE_INFO (R100, R102): a line. -/
def lineFields (f : List Byte) : Option LineIx :=
  if f.length < 1 then none else lineOfByte (byteAt f 0)

/-- READ_HUB (R169): the clear flag. -/
def clearFlagFields (f : List Byte) : Option Bool :=
  if f.length < 1 then none else flagOfByte (byteAt f 0)

/-- SET_HUB (R165, R187): a value for every field of the hub configuration record. -/
def hubFields (f : List Byte) : Option HubRecord :=
  if f.length < 16 ∨ word24At f 0 < 100 ∨ 1000000 < word24At f 0 then none
  else
    match startModeOfByte (byteAt f 3), inputOfByte (byteAt f 4), startEdgeOfByte (byteAt f 5) with
    | some mode, some line, some edge =>
      some
        { cycleLength := word24At f 0, startMode := mode, startLine := line, startEdge := edge,
          capacityA := (byteAt f 6).toNat, capacityB := (byteAt f 7).toNat,
          widths := .build fun i => (byteAt f (8 + i.val)).toNat }
    | _, _, _ => none

end Sys2Proof.Machine
end

