-- ==== Sys2Proof/Machine/Layout.lean ====
section
/-! DEFINITION. The byte layouts of what the part shifts out (R187): handles, descriptors, entry records, the hub record,
replies and notice records, and the codes of the enumerations. Absent parts, reserved bits and unused bytes are 0. -/

namespace Sys2Proof.Machine

/-- `n` bytes of a quantity, least significant byte first (R187). -/
def bytesOf : Nat → Nat → List Byte
  | 0, _ => []
  | n + 1, v => BitVec.ofNat 8 v :: bytesOf n (v / 256)

/-- A handle: the index, then the generation; NONE is 0xFF, 0xFF (R187). -/
def handleBytes : Option Handle → List Byte
  | some h => [BitVec.ofNat 8 h.index.val, BitVec.ofNat 8 h.generation.toNat]
  | none => [0xFF, 0xFF]

def entryStateByte : EntryState → Byte
  | .free => 0
  | .pending _ => 1
  | .active _ => 2
  | .retiring _ _ => 3

def retireReasonByte : RetireReason → Byte
  | .withdrawn => 1
  | .replaced => 2

/-- The retire reason of an entry: 0 when it is absent. -/
def entryReasonByte : EntryState → Byte
  | .retiring _ reason => retireReasonByte reason
  | _ => 0

def engineStateByte : EngineState → Byte
  | .stopped => 0
  | .waiting => 1
  | .running => 2
  | .halting => 3
  | .held => 4

def railByte : Option Rail → Byte
  | none => 0
  | some .a => 1
  | some .b => 2

def startModeByte : StartMode → Byte
  | .internal => 0
  | .external => 1

def startEdgeByte : Edge → Byte
  | .rising => 0
  | .falling => 1

def resetCauseByte : ResetCause → Byte
  | .power => 0
  | .pin => 1

/-- The status codes (10.8). -/
def statusCode : Status → Byte
  | .ok => 0x00
  | .noSession => 0x01
  | .attached => 0x02
  | .badKind => 0x03
  | .badField => 0x04
  | .noEntry => 0x05
  | .stale => 0x06
  | .notOwner => 0x07
  | .retiring => 0x08
  | .lineHeld => 0x09
  | .lineBusy => 0x0A
  | .lineClash => 0x0B
  | .railOver => 0x0C
  | .enginesOver => 0x0D
  | .engineRunning => 0x0E
  | .span => 0x0F

def kindByte : WindowKind → Byte
  | .solid => 0
  | .burst _ => 1

/-- The burst part of a descriptor: high time, low time and count, all 0 when it is absent. -/
def burstBytes : WindowKind → List Byte
  | .solid => [0, 0, 0, 0, 0]
  | .burst part => bytesOf 2 part.highTime ++ bytesOf 2 part.lowTime ++ [BitVec.ofNat 8 (part.count.getD 255)]

def kindHasBurst : WindowKind → Bool
  | .solid => false
  | .burst _ => true

/-- The gate's level bit: set for a gate at level HIGH. -/
def gateIsHigh (gate : Option Gate) : Bool :=
  match gate with
  | some g => decide (g.level = .high)
  | none => false

/-- The flags byte of a descriptor: notify, gate present, gate level HIGH, burst part present. -/
def descriptorFlags (d : Descriptor) : Byte :=
  BitVec.ofNat 8
    (weigh d.notify 1 + weigh d.gate.isSome 2 + weigh (gateIsHigh d.gate) 4 + weigh (kindHasBurst d.kind) 8)

/-- The reservation descriptor, 21 bytes (R187). -/
def descriptorBytes (d : Descriptor) : List Byte :=
  [BitVec.ofNat 8 d.line.val, kindByte d.kind] ++ bytesOf 3 d.start ++ bytesOf 3 d.duration
    ++ [BitVec.ofNat 8 d.period.ticks, d.pattern, railByte d.rail, BitVec.ofNat 8 d.draw, descriptorFlags d]
    ++ bytesOf 2 d.label.toNat
    ++ [match d.gate with
        | some g => BitVec.ofNat 8 g.input.val
        | none => 0]
    ++ burstBytes d.kind

/-- The owner of an entry, absent when it is FREE (R1). -/
def EntryState.owner : EntryState → Option SessionId
  | .free => none
  | .pending o => some o
  | .active o => some o
  | .retiring o _ => some o

/-- The owner port and owner session bytes of an entry record. -/
def ownerBytes : Option SessionId → List Byte
  | some o => [BitVec.ofNat 8 o.port.val, o.number]
  | none => [0, 0]

/-- The entry record, 29 bytes (R187): the payload of QUERY, and of SCAN when an entry is found. -/
def entryRecordBytes (e : EntryIx) (x : Entry) : List Byte :=
  handleBytes (some { index := e, generation := x.generation }) ++ [entryStateByte x.state]
    ++ ownerBytes x.state.owner ++ descriptorBytes x.descriptor ++ bytesOf 2 x.fireCount.toNat
    ++ [entryReasonByte x.state]

/-- The hub record, 16 bytes (R187). -/
def hubBytes (h : HubRecord) : List Byte :=
  bytesOf 3 h.cycleLength
    ++ [startModeByte h.startMode, BitVec.ofNat 8 h.startLine.val, startEdgeByte h.startEdge,
        BitVec.ofNat 8 h.capacityA, BitVec.ofNat 8 h.capacityB]
    ++ h.widths.cells.map (BitVec.ofNat 8)

/-- A reply: tag, request code, status, payload (R187). -/
def replyBytes (r : Reply) : List Byte := r.tag :: r.code :: statusCode r.status :: r.payload

/-- What COLLECT shifts out for a reply: its length, then the reply (R179). -/
def collectBytes (r : Reply) : List Byte := BitVec.ofNat 8 (replyBytes r).length :: replyBytes r

/-- The kind byte of a notice record (R187). -/
def noticeKindByte : NoticeBody → Byte
  | .fire .. => 1
  | .tally .. => 2
  | .cut .. => 3
  | .activated .. => 4
  | .retired .. => 5
  | .early .. => 6
  | .engine .. => 7
  | .expired .. => 8
  | .lost .. => 9

/-- The bytes from byte 2 on of a notice record, without the zeros that fill it (R187). -/
def noticeFieldBytes : NoticeBody → List Byte
  | .fire h label n k start inputs gateOpen =>
    handleBytes (some h) ++ bytesOf 2 label.toNat ++ bytesOf 2 n.toNat ++ [BitVec.ofNat 8 k] ++ bytesOf 3 start
      ++ [inputs, flagByte gateOpen]
  | .tally h label n pulses closures engine reached =>
    handleBytes (some h) ++ bytesOf 2 label.toNat ++ bytesOf 4 n.toNat ++ bytesOf 2 pulses.toNat
      ++ [closures, BitVec.ofNat 8 engine.val, flagByte reached]
  | .cut h label n ticks pulses =>
    handleBytes (some h) ++ bytesOf 2 label.toNat ++ bytesOf 4 n.toNat ++ bytesOf 3 ticks ++ bytesOf 2 pulses.toNat
  | .activated h label n => handleBytes (some h) ++ bytesOf 2 label.toNat ++ bytesOf 4 n.toNat
  | .retired h label reason (some n) =>
    handleBytes (some h) ++ bytesOf 2 label.toNat ++ [retireReasonByte reason, 0] ++ bytesOf 4 n.toNat
  | .retired h label reason none =>
    handleBytes (some h) ++ bytesOf 2 label.toNat ++ [retireReasonByte reason, 1]
  | .early n offset => bytesOf 4 n.toNat ++ bytesOf 3 offset
  | .engine state n => engineStateByte state :: bytesOf 4 n.toNat
  | .expired session => [session]
  | .lost dropped => bytesOf 2 dropped.toNat

/-- A notice record, 16 bytes (R187): kind, sequence number, fields, zeros. -/
def noticeBytes (n : Notice) : List Byte :=
  let listed := noticeKindByte n.body :: n.seq :: noticeFieldBytes n.body
  listed ++ List.replicate (16 - listed.length) 0

/-- A FETCH position with no record: 16 bytes of 0x00 (R180). -/
def emptyPosition : List Byte := List.replicate 16 0

end Sys2Proof.Machine
end

