-- ==== Sys2Proof/Machine/Conflict.lean ====
section
/-! DEFINITION. Judging a set of entries: fire sets (R7), the four conditions (R9 to R12), failing points with the members
involved (R33), the first failing point (R34), the conflict report (R35) and the rail peak load (R54). -/

namespace Sys2Proof.Machine

/-- A member of a set under judgement: a descriptor, with the handle of its entry, or none for the candidate (R29). -/
structure Member where
  handle : Option Handle
  d : Descriptor
  deriving DecidableEq, Repr

/-- The super-cycle indices, 0 to 7. -/
def superIndices : List Nat := List.range 8

/-- An entry fires in k when position k mod P of its pattern is set (R7). -/
def Descriptor.fires (d : Descriptor) (k : Nat) : Bool := d.pattern.getLsbD (k % d.period.ticks)

/-- The end of the window, S + D. -/
def Descriptor.stop (d : Descriptor) : Nat := d.start + d.duration

/-- The window covers tick t: S ≤ t < S + D. -/
def Descriptor.covers (d : Descriptor) (t : Nat) : Bool := decide (d.start ≤ t) && decide (t < d.stop)

def Descriptor.isBurst (d : Descriptor) : Bool := kindHasBurst d.kind

/-- A place where a condition breaks, with the members involved (R33) and, under condition (c), the sum of draws. -/
structure Failure where
  k : Nat
  t : Nat
  involved : List (Option Handle)
  sum : Nat
  deriving DecidableEq, Repr

/-! ### Conditions (a) and (b) -/

/-- Two windows of one line in one cycle break condition (a): they start together, or the later one starts before the
earlier one's end and the recovery gap have passed (R9). -/
def tooClose (gap : Nat) (d e : Descriptor) : Bool :=
  decide (d.start = e.start)
    || (decide (d.start < e.start) && decide (e.start < d.stop + gap))
    || (decide (e.start < d.start) && decide (d.start < e.stop + gap))

/-- Every two distinct members of a list, each pair once. -/
def pairsOf {α : Type} : List α → List (α × α)
  | [] => []
  | x :: xs => xs.map (fun y => (x, y)) ++ pairsOf xs

/-- The failures of condition (a) at k: for each breaking pair, the start of the window that starts later (R9, R33). -/
def sameLineFailures (gapOf : LineIx → Nat) (ms : List Member) (k : Nat) : List Failure :=
  (pairsOf ms).filterMap fun (m, w) =>
    if m.d.line = w.d.line ∧ m.d.fires k = true ∧ w.d.fires k = true ∧ tooClose (gapOf m.d.line) m.d w.d = true then
      some { k := k, t := max m.d.start w.d.start, involved := [m.handle, w.handle], sum := 0 }
    else none

/-- The gap from a window of one cycle to a window of the next: (L - (S1 + D1)) + S2 (R10). -/
def boundaryGap (cycleLength : Nat) (d e : Descriptor) : Nat := (cycleLength - d.stop) + e.start

/-- The failures of condition (b) from k into the next index: for each breaking pair, the next index and the start of the
second window (R10, R33). The two members may be the same. -/
def boundaryFailures (gapOf : LineIx → Nat) (cycleLength : Nat) (ms : List Member) (k : Nat) : List Failure :=
  ms.flatMap fun m => ms.filterMap fun w =>
    if m.d.line = w.d.line ∧ m.d.fires k = true ∧ w.d.fires ((k + 1) % 8) = true
        ∧ boundaryGap cycleLength m.d w.d < gapOf m.d.line then
      some { k := (k + 1) % 8, t := w.d.start, involved := [m.handle, w.handle], sum := 0 }
    else none

/-- The failures of conditions (a) and (b) together, at every index (R30). -/
def lineFailures (gapOf : LineIx → Nat) (cycleLength : Nat) (ms : List Member) : List Failure :=
  superIndices.flatMap fun k => sameLineFailures gapOf ms k ++ boundaryFailures gapOf cycleLength ms k

/-! ### Condition (c) -/

/-- The members on a rail that fire in k and whose window covers t. -/
def railMembers (ms : List Member) (rail : Rail) (k t : Nat) : List Member :=
  ms.filter fun m => decide (m.d.rail = some rail) && m.d.fires k && m.d.covers t

/-- The sum of draws on a rail at k and t (R11). -/
def railSum (ms : List Member) (rail : Rail) (k t : Nat) : Nat :=
  ((railMembers ms rail k t).map fun m => m.d.draw).sum

/-- The start points of a rail at k: the starts of its members that fire in k (R11). -/
def railStarts (ms : List Member) (rail : Rail) (k : Nat) : List Nat :=
  (ms.filter fun m => decide (m.d.rail = some rail) && m.d.fires k).map fun m => m.d.start

/-- The failures of condition (c) on one rail at k (R11, R33). -/
def railFailuresAt (capacity : Nat) (ms : List Member) (rail : Rail) (k : Nat) : List Failure :=
  (railStarts ms rail k).filterMap fun t =>
    if capacity < railSum ms rail k t then
      some { k := k, t := t, involved := (railMembers ms rail k t).map fun m => m.handle, sum := railSum ms rail k t }
    else none

/-- The failures of condition (c) on both rails, at every index (R31). -/
def railFailures (capacityA capacityB : Nat) (ms : List Member) : List Failure :=
  superIndices.flatMap fun k => railFailuresAt capacityA ms .a k ++ railFailuresAt capacityB ms .b k

/-- The peak load of a rail: the largest sum that condition (c) forms, 0 when there is none (R54). -/
def railPeak (ms : List Member) (rail : Rail) : Nat :=
  (superIndices.flatMap fun k => (railStarts ms rail k).map fun t => railSum ms rail k t).foldl max 0

/-! ### Condition (d) -/

/-- The BURST members that fire in k and whose window covers t. -/
def burstMembers (ms : List Member) (k t : Nat) : List Member :=
  ms.filter fun m => m.d.isBurst && m.d.fires k && m.d.covers t

/-- The failures of condition (d) at k: more than two BURST members cover a start point (R12, R33). -/
def burstFailuresAt (ms : List Member) (k : Nat) : List Failure :=
  (ms.filter fun m => m.d.isBurst && m.d.fires k).filterMap fun m =>
    if 2 < (burstMembers ms k m.d.start).length then
      some
        { k := k, t := m.d.start, involved := (burstMembers ms k m.d.start).map fun w => w.handle, sum := 0 }
    else none

/-- The failures of condition (d), at every index (R32). -/
def burstFailures (ms : List Member) : List Failure :=
  superIndices.flatMap fun k => burstFailuresAt ms k

/-! ### The first failing point and the report -/

/-- A point comes before another: smaller k, or the same k and smaller t (R34). -/
def pointBefore (p q : Nat × Nat) : Bool :=
  decide (p.1 < q.1) || (decide (p.1 = q.1) && decide (p.2 < q.2))

/-- The first failing point of a step: smallest k, then smallest t (R34). -/
def firstPoint : List Failure → Option (Nat × Nat)
  | [] => none
  | x :: xs =>
    match firstPoint xs with
    | none => some (x.k, x.t)
    | some q => if pointBefore q (x.k, x.t) then some q else some (x.k, x.t)

/-- The handle with the lowest index in a list, the candidate apart; NONE when there is no other (R35). -/
def lowestHandle : List (Option Handle) → Option Handle
  | [] => none
  | none :: hs => lowestHandle hs
  | some h :: hs =>
    match lowestHandle hs with
    | none => some h
    | some g => if g.index < h.index then some g else some h

/-- A conflict report (R35). -/
structure ConflictReport where
  blocking : Option Handle
  k : Nat
  t : Nat
  sum : Nat
  deriving DecidableEq, Repr

/-- The failures of a step that lie at one point. -/
def failuresAtPoint (fs : List Failure) (p : Nat × Nat) : List Failure :=
  fs.filter fun f => decide ((f.k, f.t) = p)

/-- The sum a report carries: that of the failing rail. When both rails fail at the one point with different sums the spec
does not say which, and a free value decides (log 12). -/
def reportSum (free : Nat) (hits : List Failure) : Nat :=
  match hits.head?, hits.getLast? with
  | some f, some g => if f.sum = g.sum then f.sum else if Config.freeRailSumIsA free then f.sum else g.sum
  | _, _ => 0

/-- The conflict report of a failing step (R34, R35); `none` when the step has no failing point, that is, passes. -/
def conflictReport (free : Nat) (fs : List Failure) : Option ConflictReport :=
  (firstPoint fs).map fun p =>
    let hits := failuresAtPoint fs p
    { blocking := lowestHandle (hits.flatMap fun f => f.involved), k := p.1, t := p.2, sum := reportSum free hits }

/-- A LINE_CLASH or ENGINES_OVER report: handle, k, t (R187). -/
def reportBytes (r : ConflictReport) : List Byte :=
  handleBytes r.blocking ++ [BitVec.ofNat 8 r.k] ++ bytesOf 3 r.t

/-- A RAIL_OVER report, with the sum (R187). -/
def railReportBytes (r : ConflictReport) : List Byte := reportBytes r ++ bytesOf 2 r.sum

end Sys2Proof.Machine
end

