-- ==== Sys2Proof/Machine/Ops.lean ====
section
/-! DEFINITION. The named operations over the state's tables: reading and writing one record of each block, the entry
states (R5), the two sets of entries (R8), the notice unit's queueing and routing (R149 to R155), and replies (R178,
R185). -/

namespace Sys2Proof.Machine

/-! ### One record of a block -/

def State.entry (s : State) (e : EntryIx) : Entry := s.entries.get e

def State.setEntry (s : State) (e : EntryIx) (x : Entry) : State := { s with entries := s.entries.set e x }

def State.line (s : State) (l : LineIx) : Line := s.lines.get l

def State.setLine (s : State) (l : LineIx) (x : Line) : State := { s with lines := s.lines.set l x }

def State.session (s : State) (p : Port) : Session := s.sessions.get p

def State.setSession (s : State) (p : Port) (x : Session) : State := { s with sessions := s.sessions.set p x }

def State.queue (s : State) (p : Port) : NoticeQueue := s.notices.get p

def State.setQueue (s : State) (p : Port) (q : NoticeQueue) : State := { s with notices := s.notices.set p q }

def State.link (s : State) (p : Port) : Link := s.links.get p

def State.setLink (s : State) (p : Port) (x : Link) : State := { s with links := s.links.set p x }

def State.burst (s : State) (g : EngineIx) : BurstEngine := s.bursts.get g

def State.setBurst (s : State) (g : EngineIx) (x : BurstEngine) : State := { s with bursts := s.bursts.set g x }

def State.input (s : State) (i : InputIx) : InputChannel := s.inputs.get i

def State.setInput (s : State) (i : InputIx) (x : InputChannel) : State := { s with inputs := s.inputs.set i x }

def State.setDriven (s : State) (l : LineIx) (v : Level) : State := { s with driven := s.driven.set l v }

def State.setHolding (s : State) (l : LineIx) (w : Option EntryIx) : State :=
  { s with holding := s.holding.set l w }

def allEntries : List EntryIx := List.finRange 48

def allLines : List LineIx := List.finRange 16

def allPorts : List Port := List.finRange 4

def allInputs : List InputIx := List.finRange 8

def allEngines : List EngineIx := List.finRange 2

/-! ### The cycle number and the super-cycle index -/

/-- The cycle number as reports carry it: 0 when it is absent (R56). -/
def CycleEngine.reportedNumber (c : CycleEngine) : CycleNumber := c.number.getD 0

/-- The super-cycle index of a cycle number (R56). -/
def superIndex (n : CycleNumber) : Nat := n.toNat % 8

/-- A cycle is in progress while the engine is RUNNING or HALTING (R56). -/
def EngineState.inProgress : EngineState → Bool
  | .running => true
  | .halting => true
  | _ => false

/-! ### Entries -/

/-- The handle of an entry as it stands (R5). -/
def State.handleOf (s : State) (e : EntryIx) : Handle := { index := e, generation := (s.entry e).generation }

/-- The owner of a non-FREE entry (R14). -/
def State.ownerOf (s : State) (e : EntryIx) : Option SessionId := (s.entry e).state.owner

/-- The handle check's second step: the entry a handle names, when it is not FREE and has the handle's generation; else
STALE (R6). -/
def State.matchesHandle (s : State) (h : Handle) : Bool :=
  decide ((s.entry h.index).state ≠ .free) && decide ((s.entry h.index).generation = h.generation)

/-- An entry becomes FREE: its generation increases by 1 modulo 16, and its owner and retire reason become absent (R2, R5).
What its descriptor and its fire count hold while it is FREE the spec leaves open; here they stay as they were, until the
entry next becomes PENDING (DESIGN CHOICE, log 22). -/
def freedEntry (x : Entry) : Entry := { x with state := .free, generation := x.generation + 1 }

def State.freeEntry (s : State) (e : EntryIx) : State := s.setEntry e (freedEntry (s.entry e))

/-- A new reservation is written: PENDING, the generation left as it is, the owner, the descriptor, fire count 0, no retire
reason (R36). -/
def State.writePending (s : State) (e : EntryIx) (o : SessionId) (d : Descriptor) : State :=
  s.setEntry e { state := .pending o, generation := (s.entry e).generation, descriptor := d, fireCount := 0 }

/-- The lowest-numbered FREE entry (R36). -/
def State.lowestFree (s : State) : Option EntryIx :=
  allEntries.find? fun e => decide ((s.entry e).state = .free)

/-- The member of a set that an entry is. -/
def State.memberOf (s : State) (e : EntryIx) : Member :=
  { handle := some (s.handleOf e), d := (s.entry e).descriptor }

def EntryState.inNextEpoch : EntryState → Bool
  | .pending _ => true
  | .active _ => true
  | _ => false

def EntryState.inFiring : EntryState → Bool
  | .active _ => true
  | .retiring _ _ => true
  | _ => false

/-- The entries of the next-epoch set, PENDING and ACTIVE, in ascending order (R8). -/
def State.nextEpochEntries (s : State) : List EntryIx :=
  allEntries.filter fun e => (s.entry e).state.inNextEpoch

/-- The next-epoch set as members (R8). -/
def State.nextEpochSet (s : State) : List Member := s.nextEpochEntries.map s.memberOf

/-- The entries of the firing set, ACTIVE and RETIRING, in ascending order (R8). -/
def State.firingEntries (s : State) : List EntryIx :=
  allEntries.filter fun e => (s.entry e).state.inFiring

/-- The firing set as members (R8). -/
def State.firingSet (s : State) : List Member := s.firingEntries.map s.memberOf

/-- The recovery gap of a line, from the line table as it stands. -/
def State.gapOf (s : State) (l : LineIx) : Nat := (s.line l).gap

/-- The controller recomputes both rail peak loads over the next-epoch set (R54). -/
def State.recomputePeaks (s : State) : State :=
  { s with peaks := { a := railPeak s.nextEpochSet .a, b := railPeak s.nextEpochSet .b } }

/-- How many entries satisfy a test on their state (R102, R169). -/
def State.countEntries (s : State) (test : Entry → Bool) : Nat :=
  (allEntries.filter fun e => test (s.entry e)).length

/-! ### Sessions as other blocks see them -/

/-- The session attached at a port, if any (R128). -/
def State.attachedSession (s : State) (p : Port) : Option SessionId :=
  if (s.session p).attachment.isSome then some { port := p, number := (s.session p).number } else none

/-- A session is attached under its port and number (R14, R51, R84). -/
def State.isAttached (s : State) (o : SessionId) : Bool := decide (s.attachedSession o.port = some o)

/-- The attached session at a port holds a run vote (R58). -/
def State.hasVote (s : State) (p : Port) : Bool :=
  match (s.session p).attachment with
  | some a => a.vote
  | none => false

/-- At least one attached session holds a run vote (R58). -/
def State.anyVote (s : State) : Bool := allPorts.any s.hasVote

/-- The record at a port is ATTACHED and its notice mask holds a kind (R149, R150). -/
def State.maskHolds (s : State) (p : Port) (kind : MaskKind) : Bool :=
  match (s.session p).attachment with
  | some a => a.mask.holds kind
  | none => false

/-! ### The notice unit -/

/-- The capacity of a notice queue (R146). -/
def queueCapacity : Nat := 32

/-- A notice arrives at a queue: it joins at the tail with the present sequence number, which then increases by 1; at a
full queue it is dropped and the loss counter increases (R154, R155). -/
def NoticeQueue.arrive (q : NoticeQueue) (b : NoticeBody) : NoticeQueue :=
  if q.records.length < queueCapacity then
    { q with records := q.records ++ [{ seq := q.seq, body := b }], seq := q.seq + 1 }
  else { q with losses := saturatingInc q.losses }

/-- The clear: every record is removed, the record in transfer among them, and the loss counter is set to 0 (R160). -/
def NoticeQueue.cleared (q : NoticeQueue) : NoticeQueue := { q with records := [], losses := 0, inTransfer := none }

/-- The removal of the record in transfer at its 16th byte: the head leaves; with losses counted, a LOST notice takes the
freed place and the loss counter is set to 0 (R156, R158). When the queue was cleared in the middle of the transfer,
nothing is removed (R159). -/
def NoticeQueue.removeTransferred (q : NoticeQueue) : NoticeQueue :=
  match q.inTransfer with
  | none => q
  | some _ =>
    let q1 : NoticeQueue := { q with records := q.records.tail, inTransfer := none }
    if q.losses = 0 then q1 else { q1.arrive (.lost q.losses) with losses := 0 }

/-- A notice is handed to one port's queue. -/
def State.queueNotice (s : State) (p : Port) (b : NoticeBody) : State := s.setQueue p ((s.queue p).arrive b)

/-- An owner notice: it is routed to the owner port when that port's session is attached with the owner's number and its
mask holds the kind; else it is not produced (R149). -/
def State.ownerNotice (s : State) (owner : Option SessionId) (kind : MaskKind) (b : NoticeBody) : State :=
  match owner with
  | none => s
  | some o => if s.isAttached o && s.maskHolds o.port kind then s.queueNotice o.port b else s

/-- An owner notice of a window: it also needs the entry's notify flag (R84, R149). -/
def State.windowNotice (s : State) (e : EntryIx) (b : NoticeBody) : State :=
  if (s.entry e).descriptor.notify then s.ownerNotice (s.ownerOf e) .window b else s

/-- A broadcast notice: one copy for each attached session whose mask holds the kind (R150). -/
def State.broadcast (s : State) (kind : MaskKind) (b : NoticeBody) : State :=
  allPorts.foldl (fun t p => if t.maskHolds p kind then t.queueNotice p b else t) s

/-! ### Replies -/

/-- A reply joins the tail of its port's reply queue and the in-service marker becomes absent (R184, R185). -/
def State.reply (s : State) (p : Port) (r : Request) (status : Status) (payload : List Byte) : State :=
  let k := s.link p
  s.setLink p
    { k with
      inService := none
      replies := k.replies ++ [{ tag := r.tag, code := r.code, status := status, payload := payload }] }

/-- The reply of a flight whose requester has ended is discarded: the marker is cleared and the credit returns (R51,
R185). -/
def State.discardReply (s : State) (p : Port) : State :=
  let k := s.link p
  s.setLink p { k with inService := none, credits := k.credits + 1 }

end Sys2Proof.Machine
end

