-- ==== Sys2Proof/Machine/Sequencer.lean ====
section
/-! DEFINITION. The window sequencer and the burst engines: the plan (R80), window starts, ends and cuts (R83, R88, R91),
gates (R86), and the engine's assignment, phases and release (R106 to R113). -/

namespace Sys2Proof.Machine

/-! ### Levels of a line -/

def State.idleLevel (s : State) (l : LineIx) : Level := (s.line l).idle

/-- The active level of a line, the opposite of its idle level (R96). -/
def State.activeLevel (s : State) (l : LineIx) : Level := oppositeLevel (s.line l).idle

/-- The level of a line with a SOLID window: active while the gate open flag is open, else idle (R85). -/
def State.solidLevel (s : State) (l : LineIx) (gateOpen : Bool) : Level :=
  if gateOpen then s.activeLevel l else s.idleLevel l

/-- The filtered levels of IN0 to IN7, bit i set when INi is HIGH: the snapshot of a FIRE notice (R125, R187). -/
def State.inputSnapshot (s : State) : BitVec 8 :=
  BitVec.ofNat 8
    ((allInputs.map fun i => weigh (decide ((s.input i).filtered = .high)) (2 ^ i.val)).sum)

/-- A gate is open while the filtered level of its input equals its level; with no gate the flag is open (R83, R124). -/
def State.gateIsOpen (s : State) (gate : Option Gate) : Bool :=
  match gate with
  | none => true
  | some g => decide ((s.input g.input).filtered = g.level)

/-! ### The plan -/

def State.planList (s : State) : List PlannedWindow := s.plan.getD []

/-- Plan order: by start S, then by ascending entry index (R80). -/
def State.planBefore (s : State) (e f : EntryIx) : Bool :=
  decide ((s.entry e).descriptor.start < (s.entry f).descriptor.start) ||
    (decide ((s.entry e).descriptor.start = (s.entry f).descriptor.start) && decide (e ≤ f))

/-- The entries planned for a cycle with index k, in plan order: the members of the firing set that fire in k (R80). -/
def State.plannedEntries (s : State) (k : Nat) : List EntryIx :=
  (s.firingEntries.filter fun e => (s.entry e).descriptor.fires k).insertionSort fun e f => s.planBefore e f = true

/-- The cycle plan is built: every planned window begins SCHEDULED (R80). -/
def State.buildPlan (s : State) (k : Nat) : State :=
  { s with plan := some ((s.plannedEntries k).map fun e => { entry := e, state := .scheduled }) }

/-- The state of an entry's window in the plan, if it has one. -/
def State.windowState (s : State) (e : EntryIx) : Option WindowState :=
  (s.planList.find? fun w => decide (w.entry = e)).map fun w => w.state

/-- An entry's window in the plan changes state. -/
def State.setWindowState (s : State) (e : EntryIx) (x : WindowState) : State :=
  { s with plan := s.plan.map fun ws => ws.map fun w => if w.entry = e then { w with state := x } else w }

def WindowState.isOpen : WindowState → Bool
  | .opened _ _ => true
  | _ => false

/-- The assigned engine of a window (R79). -/
def WindowState.engine : WindowState → Option EngineIx
  | .opened _ g => g
  | _ => none

/-- The OPEN windows of the plan, in plan order. -/
def State.openEntries (s : State) : List EntryIx :=
  (s.planList.filter fun w => w.state.isOpen).map fun w => w.entry

/-- The OPEN windows whose end S+D is t, in plan order (R82, step 1). -/
def State.endingAt (s : State) (t : Nat) : List EntryIx :=
  s.openEntries.filter fun e => decide ((s.entry e).descriptor.stop = t)

/-- The SCHEDULED windows whose start S is t, in plan order (R82, step 2). -/
def State.startingAt (s : State) (t : Nat) : List EntryIx :=
  ((s.planList.filter fun w => decide (w.state = .scheduled)).map fun w => w.entry).filter
    fun e => decide ((s.entry e).descriptor.start = t)

/-! ### The burst engines -/

/-- The lowest-numbered IDLE engine (R87). -/
def State.idleEngine (s : State) : Option EngineIx :=
  allEngines.find? fun g => decide (s.burst g = .idle)

/-- The level a job's engine gives its line: the active level in HIGH, the idle level in every other phase (R87). -/
def BurstJob.level (j : BurstJob) : Level :=
  match j.phase with
  | .high _ => oppositeLevel j.idle
  | _ => j.idle

/-- Count reached, set when the engine enters SPENT (R104). -/
def BurstJob.countReached (j : BurstJob) : Bool := decide (j.phase = .spent)

/-- An engine takes a job: the job is recorded and the line takes the level of its phase. -/
def State.setJob (s : State) (g : EngineIx) (j : BurstJob) : State :=
  (s.setBurst g (.busy j)).setDriven j.line j.level

/-- The job of a fresh assignment (R106): the entry's index and burst part, the line with its levels, the gate as the
window's flag stands, both counts 0; the first phase is GATE_WAIT when the gate is present and closed, else HIGH from 0. -/
def State.freshJob (s : State) (e : EntryIx) (part : BurstPart) (gateOpen : Bool) : BurstJob :=
  { phase := if gateOpen then .high 0 else .gateWait
    window := e
    part := part
    line := (s.entry e).descriptor.line
    idle := s.idleLevel (s.entry e).descriptor.line
    gate := (s.entry e).descriptor.gate.map fun _ => gateOpen
    pulses := 0
    closures := 0 }

/-- The high time elapses (R107): the pulse is counted; with the count now reached the engine enters SPENT, else LOW. -/
def BurstJob.highElapsed (j : BurstJob) : BurstJob :=
  let pulses := saturatingInc j.pulses
  { j with
    pulses := pulses
    phase := if j.part.count = some pulses.toNat then .spent else .low 0 }

/-- The low time elapses (R109): HIGH when the gate is absent or open, GATE_WAIT when it is closed. -/
def BurstJob.lowElapsed (j : BurstJob) : BurstJob :=
  { j with phase := if j.gate = some false then .gateWait else .high 0 }

/-- A gate event reaches the engine (R108 to R111): the gate's state is recorded; a closing gate ends a HIGH phase at once,
uncounted, with a gate closure; an opening gate moves GATE_WAIT to HIGH; LOW and SPENT only record it. -/
def BurstJob.gateEvent (j : BurstJob) (gateOpen : Bool) : BurstJob :=
  let k := { j with gate := some gateOpen }
  match j.phase, gateOpen with
  | .high _, false => { k with phase := .gateWait, closures := saturatingInc j.closures }
  | .gateWait, true => { k with phase := .high 0 }
  | _, _ => k

/-- The job of an engine, if it is busy. -/
def BurstEngine.job : BurstEngine → Option BurstJob
  | .idle => none
  | .busy j => some j

/-- The job of the engine that serves a window (R79, R104). -/
def State.jobOf (s : State) (e : EntryIx) : Option (EngineIx × BurstJob) :=
  match (s.windowState e).bind WindowState.engine with
  | none => none
  | some g => (s.burst g).job.map fun j => (g, j)

/-! ### Window starts -/

/-- The FIRE notice of a window start (R84). -/
def State.fireNotice (s : State) (e : EntryIx) (gateOpen : Bool) : NoticeBody :=
  .fire (s.handleOf e) (s.entry e).descriptor.label (BitVec.ofNat 16 s.engine.reportedNumber.toNat)
    (superIndex s.engine.reportedNumber) (s.entry e).descriptor.start s.inputSnapshot gateOpen

/-- Step 5 of a window start (R83): a SOLID window sets the line's level; a BURST window takes the lowest-numbered IDLE
engine, which sets it (R87, R106). Condition (d) keeps an engine IDLE for every BURST start; in a state no run reaches,
with none IDLE, the window opens with no engine and its line idle (log 13). -/
def State.driveWindow (s : State) (e : EntryIx) (gateOpen : Bool) : State :=
  match (s.entry e).descriptor.kind, s.idleEngine with
  | .solid, _ =>
    (s.setWindowState e (.opened gateOpen none)).setDriven (s.entry e).descriptor.line
      (s.solidLevel (s.entry e).descriptor.line gateOpen)
  | .burst part, some g =>
    (s.setWindowState e (.opened gateOpen (some g))).setJob g (s.freshJob e part gateOpen)
  | .burst _, none =>
    (s.setWindowState e (.opened gateOpen none)).setDriven (s.entry e).descriptor.line
      (s.idleLevel (s.entry e).descriptor.line)

/-- The fire count of an entry increases by 1, wrapping (R83, step 2). -/
def State.countFire (s : State) (e : EntryIx) : State :=
  s.setEntry e { s.entry e with fireCount := (s.entry e).fireCount + 1 }

/-- A SCHEDULED window starts (R83): OPEN, the fire count, the holding window, the gate open flag, the line, the notice. -/
def State.startWindow (s : State) (e : EntryIx) : State :=
  let gateOpen := s.gateIsOpen (s.entry e).descriptor.gate
  let t := ((s.countFire e).setHolding (s.entry e).descriptor.line (some e)).driveWindow e gateOpen
  t.windowNotice e (t.fireNotice e gateOpen)

def State.startWindows (s : State) (es : List EntryIx) : State := es.foldl State.startWindow s

/-! ### Window ends and cuts -/

/-- The line of an ended window has no holding window and is idle (R88, R91). -/
def State.dropLine (s : State) (e : EntryIx) : State :=
  (s.setHolding (s.entry e).descriptor.line none).setDriven (s.entry e).descriptor.line
    (s.idleLevel (s.entry e).descriptor.line)

/-- The TALLY notice of a BURST window's end, from what the engine hands over (R112, R117). -/
def State.tallyNotice (s : State) (e : EntryIx) (g : EngineIx) (j : BurstJob) : NoticeBody :=
  .tally (s.handleOf e) (s.entry e).descriptor.label s.engine.reportedNumber j.pulses j.closures g j.countReached

/-- An OPEN window ends (R88): CLOSED, the line dropped; a BURST window's engine is released and its TALLY produced. -/
def State.endWindow (s : State) (e : EntryIx) : State :=
  let t := (s.setWindowState e .closed).dropLine e
  match s.jobOf e with
  | none => t
  | some (g, j) => (t.setBurst g .idle).windowNotice e (s.tallyNotice e g j)

def State.endWindows (s : State) (es : List EntryIx) : State := es.foldl State.endWindow s

/-- The CUT notice of a window cut at offset c: the ticks driven are c less S; the pulses are the engine's (R92). -/
def State.cutNotice (s : State) (c : Nat) (e : EntryIx) (pulses : BitVec 16) : NoticeBody :=
  .cut (s.handleOf e) (s.entry e).descriptor.label s.engine.reportedNumber
    (c - (s.entry e).descriptor.start) pulses

def State.countCut (s : State) : State :=
  { s with engine := { s.engine with cuts := saturatingInc s.engine.cuts } }

/-- An OPEN window is cut at offset c (R91): CUT, the line dropped, the engine released with no TALLY, the CUT notice, and
the cut counter. -/
def State.cutWindow (c : Nat) (s : State) (e : EntryIx) : State :=
  let t := (s.setWindowState e .cut).dropLine e
  match s.jobOf e with
  | none => (t.windowNotice e (s.cutNotice c e 0)).countCut
  | some (g, j) => ((t.setBurst g .idle).windowNotice e (s.cutNotice c e j.pulses)).countCut

/-- Every line goes to its idle level and has no holding window (R70, R94). -/
def State.idleAllLines (s : State) : State :=
  { s with holding := .fill 16 none, driven := .build fun l => s.idleLevel l }

/-- The plan is discarded (R81). -/
def State.discardPlan (s : State) : State := { s with plan := none }

/-- The cut of the cycle in progress at offset c (R91): the OPEN windows in plan order, then the plan, and every line is
idle. -/
def State.cutCycle (s : State) (c : Nat) : State :=
  (s.openEntries.foldl (State.cutWindow c) s).discardPlan.idleAllLines

/-! ### Gate edges -/

/-- The gate open flag of one OPEN window gated on input i takes the new filtered level (R86); a SOLID window whose flag
changes sets its line, a BURST window hands the event to its engine. -/
def State.gateWindow (i : InputIx) (s : State) (w : PlannedWindow) : State :=
  match w.state, (s.entry w.entry).descriptor.gate with
  | .opened flag engine, some g =>
    if g.input = i ∧ flag ≠ s.gateIsOpen (some g) then
      let t := s.setWindowState w.entry (.opened (s.gateIsOpen (some g)) engine)
      match engine with
      | none =>
        if (s.entry w.entry).descriptor.isBurst then t
        else
          t.setDriven (s.entry w.entry).descriptor.line
            (s.solidLevel (s.entry w.entry).descriptor.line (s.gateIsOpen (some g)))
      | some b =>
        match (s.burst b).job with
        | none => t
        | some j => t.setJob b (j.gateEvent (s.gateIsOpen (some g)))
    else s
  | _, _ => s

/-- An edge of input i reaches the window sequencer (R86). -/
def State.gateEdge (s : State) (i : InputIx) : State := s.planList.foldl (State.gateWindow i) s

end Sys2Proof.Machine
end

