-- ==== Sys2Proof/Machine/Engine.lean ====
section
/-! DEFINITION. The cycle engine: state changes with their ENGINE notices (R76), cycle starts and numbering (R62, R63),
epoch processing (R15), the entry into STOPPED (R73, R16), the votes (R59, R60), cycle and spacing ends (R64 to R66),
edges of the start line (R67, R68) and INH (R70 to R72). -/

namespace Sys2Proof.Machine

def State.setEngineState (s : State) (x : EngineState) : State := { s with engine := { s.engine with state := x } }

/-- A change of the engine state, with its one ENGINE notice (R76). -/
def State.changeEngine (s : State) (x : EngineState) : State :=
  (s.setEngineState x).broadcast .engine (.engine x s.engine.reportedNumber)

/-! ### Entries at an epoch boundary and at the entry into STOPPED -/

/-- A RETIRING entry becomes FREE, with a RETIRED notice for its owner carrying the handle from before the increment
(R15, R16, R43): `boundary` is the cycle number of the boundary, or `none` for the marker STOP. -/
def State.freeWithNotice (s : State) (e : EntryIx) (reason : RetireReason) (boundary : Option CycleNumber) : State :=
  (s.freeEntry e).ownerNotice (s.ownerOf e) .lifecycle
    (.retired (s.handleOf e) (s.entry e).descriptor.label reason boundary)

/-- A PENDING entry becomes ACTIVE: its fire count is set to 0 and an ACTIVATED notice is produced for its owner (R15). -/
def State.activate (s : State) (e : EntryIx) (o : SessionId) (n : CycleNumber) : State :=
  (s.setEntry e { s.entry e with state := .active o, fireCount := 0 }).ownerNotice (some o) .lifecycle
    (.activated (s.handleOf e) (s.entry e).descriptor.label n)

/-- Epoch processing at one entry (R15). -/
def State.epochEntry (n : CycleNumber) (s : State) (e : EntryIx) : State :=
  match (s.entry e).state with
  | .retiring _ reason => s.freeWithNotice e reason (some n)
  | .pending o => s.activate e o n
  | _ => s

/-- Epoch processing: every entry in ascending order (R15). -/
def State.epochProcessing (s : State) (n : CycleNumber) : State := allEntries.foldl (State.epochEntry n) s

/-- The freeing at one entry on the entry into STOPPED (R16). -/
def State.stopEntry (s : State) (e : EntryIx) : State :=
  match (s.entry e).state with
  | .retiring _ reason => s.freeWithNotice e reason none
  | _ => s

/-- The schedule controller frees every RETIRING entry in ascending order (R16). -/
def State.stoppedFreeing (s : State) : State := allEntries.foldl State.stopEntry s

/-- The engine enters STOPPED (R73): the restart flag, the ENGINE notice, then the freeing. -/
def State.enterStopped (s : State) : State :=
  (({ s with engine := { s.engine with restart := true } } : State).changeEngine .stopped).stoppedFreeing

/-! ### Cycle starts -/

/-- The smallest multiple of 8 strictly greater than a cycle number, modulo 2^32 (R63). -/
def nextMultipleOf8 (n : CycleNumber) : CycleNumber := BitVec.ofNat 32 ((n.toNat / 8 + 1) * 8)

/-- The number of a new cycle, by the restart flag (R63). -/
def CycleEngine.nextNumber (c : CycleEngine) : CycleNumber :=
  match c.number with
  | none => 0
  | some n => if c.restart then nextMultipleOf8 n else n + 1

/-- Steps 1 to 3 of a cycle start (R62): the number, the restart flag, the span, the timer and the spacing. -/
def State.numberCycle (s : State) : State :=
  { s with
    engine :=
      { s.engine with
        number := some s.engine.nextNumber
        restart := false
        span := s.hub.cycleLength
        timer := some 0
        spacing := .counting } }

/-- Step 4 of a cycle start (R62): RUNNING, with the ENGINE notice when the state changes. -/
def State.enterRunning (s : State) : State :=
  if s.engine.state = .running then s else s.changeEngine .running

/-- Step 5 of a cycle start (R62): epoch processing when k is 0. -/
def State.processBoundary (s : State) (n : CycleNumber) : State :=
  if superIndex n = 0 then s.epochProcessing n else s

/-- A cycle start, as one event (R62): number, RUNNING, epoch processing at k = 0, the plan, and the windows with S = 0. -/
def State.cycleStart (s : State) : State :=
  let n := s.engine.nextNumber
  let t := (s.numberCycle.enterRunning.processBoundary n).buildPlan (superIndex n)
  t.startWindows (t.startingAt 0)

/-! ### Votes -/

/-- The first vote (R59). -/
def State.firstVote (s : State) : State :=
  match s.engine.state with
  | .stopped =>
    if s.engine.inhAsserted then s.changeEngine .held
    else
      match s.hub.startMode, s.engine.spacing with
      | .internal, .clear => s.cycleStart
      | .internal, .counting => s.changeEngine .waiting
      | .external, _ => s.changeEngine .waiting
  | .halting => s.changeEngine .running
  | _ => s

/-- The last vote cleared (R60). -/
def State.lastVoteCleared (s : State) : State :=
  match s.engine.state with
  | .waiting => s.enterStopped
  | .running => s.changeEngine .halting
  | .held => s.enterStopped
  | _ => s

/-! ### The cycle timer's events -/

/-- The cycle timer has reached the span (R64, R65). -/
def CycleEngine.timerDone (c : CycleEngine) : Bool :=
  match c.timer with
  | some t => decide (c.span ≤ t)
  | none => false

/-- The cycle end is due: a cycle is in progress and its timer has reached the span (R64). -/
def State.cycleEndDue (s : State) : Bool := s.engine.state.inProgress && s.engine.timerDone

/-- The spacing end is due: no cycle is in progress and the timer of the cut cycle has reached the span (R65). -/
def State.spacingEndDue (s : State) : Bool := !s.engine.state.inProgress && s.engine.timerDone

def State.clearSpacing (s : State) : State := { s with engine := { s.engine with spacing := .clear } }

def State.stopTimer (s : State) : State := { s with engine := { s.engine with timer := none } }

/-- The cycle end (R64): the windows still OPEN end, the plan is discarded, the spacing becomes CLEAR, and the engine acts
by its state and the start mode. -/
def State.cycleEnd (s : State) : State :=
  let t := (s.endWindows s.openEntries).discardPlan.clearSpacing
  match s.engine.state, s.hub.startMode with
  | .running, .internal => t.cycleStart
  | .running, .external => t.stopTimer.changeEngine .waiting
  | _, _ => t.stopTimer.enterStopped

/-- The spacing end (R65): the spacing becomes CLEAR and the timer stops; a WAITING engine in INTERNAL mode starts a cycle
(R66). -/
def State.spacingEnd (s : State) : State :=
  let t := s.clearSpacing.stopTimer
  match s.engine.state, s.hub.startMode with
  | .waiting, .internal => t.cycleStart
  | _, _ => t

/-! ### Window boundary events and the offset -/

/-- The count of the cycle timer, 0 while it is stopped. -/
def CycleEngine.count (c : CycleEngine) : Nat := c.timer.getD 0

/-- A window boundary event is due: a cycle is in progress, the count is from 1 to span - 1, and a window of the plan ends
or starts there and has not yet done so (R82). -/
def State.boundaryDue (s : State) : Bool :=
  s.engine.state.inProgress && decide (1 ≤ s.engine.count) && decide (s.engine.count < s.engine.span)
    && (!(s.endingAt s.engine.count).isEmpty || !(s.startingAt s.engine.count).isEmpty)

/-- The offset at which an event other than the timer's own finds the cycle: the count, or one less while the timer's
event at this count (a window boundary event, the cycle end or the spacing end) is still to be taken, since the count has
then not yet been reached for it (R69, R74, R91; log 5). -/
def State.eventOffset (s : State) : Nat :=
  if s.boundaryDue || s.engine.timerDone then s.engine.count - 1 else s.engine.count

/-- The window boundary event at the present count (R82): the ends, then the starts, in plan order. -/
def State.windowBoundary (s : State) : State :=
  let t := s.endWindows (s.endingAt s.engine.count)
  t.startWindows (t.startingAt s.engine.count)

/-! ### The start line -/

/-- An early edge (R68): counted, with an EARLY notice for every attached session that has the EARLY mask. -/
def State.earlyEdge (s : State) : State :=
  ({ s with engine := { s.engine with earlyEdges := saturatingInc s.engine.earlyEdges } } : State).broadcast .early
    (.early s.engine.reportedNumber s.eventOffset)

/-- A qualifying edge reaches the cycle engine (R67). -/
def State.qualifyingEdge (s : State) : State :=
  match s.hub.startMode, s.engine.state, s.engine.spacing with
  | .internal, _, _ => s
  | .external, .waiting, .clear => s.cycleStart
  | .external, .waiting, .counting => s.earlyEdge
  | .external, .running, _ => s.earlyEdge
  | .external, .halting, _ => s.earlyEdge
  | .external, .stopped, _ => s
  | .external, .held, _ => s

/-! ### INH -/

def State.setInh (s : State) (asserted : Bool) : State := { s with engine := { s.engine with inhAsserted := asserted } }

def State.countEpisode (s : State) : State :=
  { s with engine := { s.engine with inhibitEpisodes := saturatingInc s.engine.inhibitEpisodes } }

/-- INH is asserted (R70 to R72): RUNNING is cut and HELD, WAITING is HELD, HALTING is cut and enters STOPPED, each counted
as an episode; in STOPPED and HELD only the level is recorded. -/
def State.inhAssert (s : State) : State :=
  let t := s.setInh true
  match s.engine.state with
  | .running => ((t.cutCycle s.eventOffset).countEpisode).changeEngine .held
  | .waiting => t.countEpisode.changeEngine .held
  | .halting => ((t.cutCycle s.eventOffset).countEpisode).enterStopped
  | .stopped => t
  | .held => t

/-- INH is released (R72): a HELD engine starts a cycle or enters WAITING; in any other state only the level is
recorded. -/
def State.inhRelease (s : State) : State :=
  let t := s.setInh false
  match s.engine.state, s.hub.startMode, s.engine.spacing with
  | .held, .internal, .clear => t.cycleStart
  | .held, .internal, .counting => t.changeEngine .waiting
  | .held, .external, _ => t.changeEngine .waiting
  | _, _, _ => t

/-! ### Edges of the inputs (R121) -/

/-- The direction of a change to a level. -/
def edgeTo : Level → Edge
  | .low => .falling
  | .high => .rising

/-- An edge of input i to a new level is a qualifying edge (R121). -/
def State.edgeQualifies (s : State) (i : InputIx) (level : Level) : Bool :=
  decide (s.hub.startLine = i) && decide (s.hub.startEdge = edgeTo level)

/-- The conditioner hands an edge to the window sequencer and, when it qualifies, to the cycle engine (R121). Neither
waits for the other, and either order gives the same state (R122; log 14). -/
def State.handEdge (s : State) (i : InputIx) : State :=
  let t := s.gateEdge i
  if s.edgeQualifies i (s.input i).filtered then t.qualifyingEdge else t

/-- A change qualifies (R119): the filtered level takes the raw level, the timer stops, and the edge is handed on. -/
def State.qualify (s : State) (i : InputIx) : State :=
  (s.setInput i { s.input i with filtered := (s.input i).raw, timer := none }).handEdge i

/-- A raw change (R118, R119): with width 0 it qualifies at once; with the timer stopped the timer starts; with the timer
counting the level is back and the change is discarded. The width is the one held when the change is taken, also at the tick
of a SET_HUB completion (DEDUCED, log 20). -/
def State.rawChange (s : State) (i : InputIx) : State :=
  let c := s.input i
  let t := s.setInput i { c with raw := oppositeLevel c.raw }
  if s.hub.widths.get i = 0 then t.qualify i
  else
    match c.timer with
    | none => t.setInput i { c with raw := oppositeLevel c.raw, timer := some 0 }
    | some _ => t.setInput i { c with raw := oppositeLevel c.raw, timer := none }

/-- A qualification is due: the timer has reached the width while the raw level differs from the filtered level (R119). -/
def State.qualificationDue (s : State) (i : InputIx) : Bool :=
  match (s.input i).timer with
  | none => false
  | some t => decide (s.hub.widths.get i ≤ t) && decide ((s.input i).raw ≠ (s.input i).filtered)

/-- The pending change of one input is judged against a new width: at or above it, the change qualifies (R123). -/
def State.rejudgeInput (s : State) (i : InputIx) : State := if s.qualificationDue i then s.qualify i else s

end Sys2Proof.Machine
end

