-- ==== Sys2Proof/Machine/Arbiter.lean ====
section
/-! DEFINITION. The end of a session (R139 to R143), the request arbiter (R183), the taking of a request (R130, R184), and
the beginning and the completion of a flight (R46, R51). -/

namespace Sys2Proof.Machine

/-! ### Session records -/

/-- The lease timer restarts at 0, when the record is ATTACHED (R130). -/
def Session.restartLease (x : Session) : Session :=
  { x with attachment := x.attachment.map fun a => { a with timer := 0 } }

/-- The record of a session that has ended: DETACHED, the number kept (R139, step 1). -/
def Session.ended (x : Session) : Session := { x with attachment := none }

/-- The run vote of an attached session is set or cleared (R58). -/
def Session.withVote (x : Session) (v : Bool) : Session :=
  { x with attachment := x.attachment.map fun a => { a with vote := v } }

/-- The vote of port p's session is cleared, or goes with its record; when it was the last, the engine acts on it (R58,
R60). `x` is the record as it becomes. -/
def State.dropVote (s : State) (p : Port) (x : Session) : State :=
  let t := s.setSession p x
  if s.hasVote p && !t.anyVote then t.lastVoteCleared else t

/-- A session ends (R139): the record and the vote, the notices, the EXPIRED notice at an expiry, and the cleanup claim. -/
def State.endSession (s : State) (p : Port) (expired : Bool) : State :=
  let number := (s.session p).number
  let t := s.dropVote p (s.session p).ended
  let u := t.setQueue p (t.queue p).cleared
  let v := if expired then u.queueNotice p (.expired number) else u
  { v with arbiter := { v.arbiter with claims := v.arbiter.claims.set p (some number) } }

/-! ### The arbiter -/

/-- What the arbiter takes next: a claim or a request of a port. -/
inductive Taking where
  | claim (port : Port)
  | request (port : Port)
  deriving DecidableEq, Repr

/-- The ports in the order that follows the last port served: p + 1, p + 2, p + 3 and p (R183). -/
def portsAfter (p : Port) : List Port := [p + 1, p + 2, p + 3, p]

/-- The arbiter's choice (R183): nothing while the executor is held or the part is in reset; else the pending claim of the
lowest port; else the oldest request of the first port, after the last one served, that has one. -/
def State.nextTaking (s : State) : Option Taking :=
  if s.arbiter.executor.isSome || s.hold.isSome then none
  else
    match allPorts.find? fun p => (s.arbiter.claims.get p).isSome with
    | some p => some (.claim p)
    | none =>
      ((portsAfter s.arbiter.lastServed).find? fun p => !(s.link p).requests.isEmpty).map Taking.request

/-- The request that is taken when the arbiter's next taking is of a request of this kind from port p. -/
def State.takenRequest (s : State) (p : Port) (kind : RequestKind) : Option Request :=
  if s.nextTaking = some (.request p) then
    match (s.link p).requests with
    | r :: _ => if kindOfCode r.code = kind then some r else none
    | [] => none
  else none

/-- A request is taken: it leaves the head of its queue, its port is the last one served, and the lease timer of an
ATTACHED record restarts (R130, R183, R184). -/
def State.take (s : State) (p : Port) : State :=
  let t := s.setLink p { s.link p with requests := (s.link p).requests.tail }
  let u := t.setSession p (t.session p).restartLease
  { u with arbiter := { u.arbiter with lastServed := p } }

/-- The answer to a request that completes when it is taken: a state, a status and a payload. -/
structure Answer where
  state : State
  status : Status
  payload : List Byte

/-- The taking of a request that completes when it is taken (R130, R184): NO_SESSION from a DETACHED port; else it acts for
the attached session. When the arbiter takes no such request from the port, the event does not happen (log 4). -/
def State.answerRequest (s : State) (p : Port) (kind : RequestKind) (act : State → SessionId → List Byte → Answer) :
    State :=
  match s.takenRequest p kind with
  | none => s
  | some r =>
    match (s.take p).attachedSession p with
    | none => (s.take p).reply p r .noSession []
    | some me =>
      let a := act (s.take p) me r.fields
      a.state.reply p r a.status a.payload

/-- An operation in flight begins: the request is the port's request in service and the executor is held (R46, R184). The
free-value counter advances, so that what each flight leaves open is open anew. -/
def State.beginFlight (s : State) (p : Port) (me : SessionId) (r : Request) (op : FlightOp) : State :=
  let t := s.setLink p { s.link p with inService := some r }
  { t with
    arbiter := { t.arbiter with executor := some { session := me, request := r, op := op, age := 0 } }
    freeCount := t.freeCount + 1 }

/-- The taking of an ADD, REPLACE or SET_HUB (R130, R184): NO_SESSION from a DETACHED port, else the checks are judged and
the flight begins. -/
def State.flyRequest (s : State) (p : Port) (kind : RequestKind)
    (judge : State → SessionId → List Byte → FlightOp) : State :=
  match s.takenRequest p kind with
  | none => s
  | some r =>
    match (s.take p).attachedSession p with
    | none => (s.take p).reply p r .noSession []
    | some me => (s.take p).beginFlight p me r (judge (s.take p) me r.fields)

def State.releaseExecutor (s : State) : State := { s with arbiter := { s.arbiter with executor := none } }

/-- The completion of a flight (R46, R51): the executor is free; when the requester is still attached under its number the
changes are made and the reply joins the queue, else nothing changes and the reply is discarded. -/
def State.complete (s : State) (f : Flight) (act : State → Answer) : State :=
  if s.isAttached f.session then
    let a := act s.releaseExecutor
    a.state.reply f.session.port f.request a.status a.payload
  else s.releaseExecutor.discardReply f.session.port

/-- The verdict of the first check that fails, or the next check. -/
def failWhen {α : Type} (b : Bool) (status : Status) (next : Verdict α) : Verdict α :=
  if b then .refuse status [] else next

/-- A step that carries a conflict report: it refuses when it has a failing point (R24, R35). -/
def failWithReport {α : Type} (report : Option ConflictReport) (status : Status) (bytes : ConflictReport → List Byte)
    (next : Verdict α) : Verdict α :=
  match report with
  | some r => .refuse status (bytes r)
  | none => next

end Sys2Proof.Machine
end

