-- ==== Sys2Proof/Machine/Admission.lean ====
section
/-! DEFINITION. Admission: the six checks (R24 to R32) on the trial set (R29, R40), the handle checks of REPLACE (R38), the
completions (R36, R41 to R45), and the judgement of SET_HUB (R164 to R166) with its completion (R167). -/

namespace Sys2Proof.Machine

/-! ### The judgement -/

/-- Two sessions are the same when their port and number are equal: the line is CLAIMED by a session other than `me`
(R27). -/
def State.lineHeldByOther (s : State) (l : LineIx) (me : SessionId) : Bool :=
  match (s.line l).holder with
  | some o => decide (o ≠ me)
  | none => false

/-- Steps 4, 5 and 6 on a trial set (R29 to R32), then the value that passes. -/
def State.judgeTrial {α : Type} (s : State) (trial : List Member) (value : α) : Verdict α :=
  failWithReport (conflictReport s.freeCount (lineFailures s.gapOf s.hub.cycleLength trial)) .lineClash reportBytes
    (failWithReport (conflictReport s.freeCount (railFailures s.hub.capacityA s.hub.capacityB trial)) .railOver
      railReportBytes
      (failWithReport (conflictReport s.freeCount (burstFailures trial)) .enginesOver reportBytes (.pass value)))

/-- The candidate as a member of the trial set (R29). -/
def candidate (d : Descriptor) : Member := { handle := none, d := d }

/-- Steps 1 to 6 of an ADD (R24). -/
def State.judgeAdd (s : State) (me : SessionId) (fields : List Byte) : Verdict Descriptor :=
  match descriptorOf s.hub.cycleLength fields with
  | none => .refuse .badField []
  | some d =>
    failWhen (s.lineHeldByOther d.line me) .lineHeld
      (failWhen s.lowestFree.isNone .noEntry (s.judgeTrial (s.nextEpochSet ++ [candidate d]) d))

/-- The next-epoch set with one entry left out (R40). -/
def State.nextEpochWithout (s : State) (old : EntryIx) : List Member :=
  (s.nextEpochEntries.filter fun e => decide (e ≠ old)).map s.memberOf

/-- Step 3 of a REPLACE: an old entry that is ACTIVE while the engine is not STOPPED stays occupied, so another entry must
be FREE (R39). -/
def State.replaceLacksEntry (s : State) (old : EntryIx) : Bool :=
  match (s.entry old).state, s.engine.state with
  | .active _, .stopped => false
  | .active _, _ => s.lowestFree.isNone
  | _, _ => false

/-- Steps 1 to 6 of a REPLACE whose handle check has passed (R38 to R40). -/
def State.judgeReplacement (s : State) (me : SessionId) (old : EntryIx) (fields : List Byte) : Verdict Replacement :=
  match descriptorOf s.hub.cycleLength fields with
  | none => .refuse .badField []
  | some d =>
    failWhen (s.lineHeldByOther d.line me) .lineHeld
      (failWhen (s.replaceLacksEntry old) .noEntry
        (s.judgeTrial (s.nextEpochWithout old ++ [candidate d])
          { old := old, descriptor := d, stoppedAtTaking := decide (s.engine.state = .stopped) }))

def EntryState.isRetiring : EntryState → Bool
  | .retiring _ _ => true
  | _ => false

/-- A REPLACE at its taking (R38): the handle, the owner, RETIRING, then the six steps. A payload shorter than the request
needs is BAD_FIELD before the handle is looked up (R184; log 10). -/
def State.judgeReplace (s : State) (me : SessionId) (fields : List Byte) : Verdict Replacement :=
  if fields.length < 23 then .refuse .badField []
  else
    match handleFields fields with
    | none => .refuse .badField []
    | some h =>
      failWhen (!s.matchesHandle h) .stale
        (failWhen (decide (s.ownerOf h.index ≠ some me)) .notOwner
          (failWhen (s.entry h.index).state.isRetiring .retiring
            (s.judgeReplacement me h.index (fields.drop 2))))

/-! ### The completions -/

/-- The completion of an ADD whose requester is attached (R36): the lowest FREE entry becomes PENDING. Step 3 found a FREE
entry, and none stops being FREE in a flight (R28); in a state no run reaches, with none FREE, the reply is NO_ENTRY
(log 13). -/
def State.completeAdd (s : State) (me : SessionId) : Verdict Descriptor → Answer
  | .refuse status payload => { state := s, status := status, payload := payload }
  | .pass d =>
    match s.lowestFree with
    | none => { state := s, status := .noEntry, payload := [] }
    | some e =>
      { state := (s.writePending e me d).recomputePeaks
        status := .ok
        payload := handleBytes (some (s.handleOf e)) }

/-- The reply of a REPLACE that succeeded: the new handle and the old entry's state after (R41). -/
def replaceAnswer (s : State) (new : Handle) (oldState : Byte) : Answer :=
  { state := s.recomputePeaks, status := .ok, payload := handleBytes (some new) ++ [oldState] }

/-- The new entry of a REPLACE whose old entry has become FREE: the lowest FREE entry, possibly the old index (R42,
R44). -/
def State.replaceFreed (s : State) (me : SessionId) (d : Descriptor) : Answer :=
  match s.lowestFree with
  | none => { state := s, status := .noEntry, payload := [] }
  | some e => replaceAnswer (s.writePending e me d) (s.handleOf e) (entryStateByte .free)

/-- The old entry of a REPLACE taken while the engine was not STOPPED (R43, step 3): RETIRING with reason REPLACED; if the
engine has entered STOPPED, FREE at once with a RETIRED notice carrying STOP. -/
def State.retireReplaced (s : State) (old : EntryIx) (o : SessionId) : State :=
  if s.engine.state = .stopped then s.freeWithNotice old .replaced none
  else s.setEntry old { s.entry old with state := .retiring o .replaced }

/-- The completion of a REPLACE of an ACTIVE entry taken while the engine was not STOPPED (R43): refused with NO_ENTRY when
no entry is FREE with the old one still occupied. -/
def State.replaceInForce (s : State) (me : SessionId) (old : EntryIx) (o : SessionId) (d : Descriptor) : Answer :=
  match s.lowestFree with
  | none => { state := s, status := .noEntry, payload := [] }
  | some e =>
    let t := (s.writePending e me d).retireReplaced old o
    replaceAnswer t (s.handleOf e) (entryStateByte (t.entry old).state)

/-- The completion of a REPLACE whose requester is attached (R41): R42 for a PENDING old entry; R43 or R44 for an ACTIVE
one, by the engine state at the taking. The old entry can be neither FREE nor RETIRING at a completion (R47); in a state no
run reaches the reply is STALE or RETIRING, as the handle check would give (log 13). -/
def State.completeReplace (s : State) (me : SessionId) : Verdict Replacement → Answer
  | .refuse status payload => { state := s, status := status, payload := payload }
  | .pass r =>
    match (s.entry r.old).state with
    | .pending _ => (s.freeEntry r.old).replaceFreed me r.descriptor
    | .active o =>
      if r.stoppedAtTaking then (s.freeEntry r.old).replaceFreed me r.descriptor
      else s.replaceInForce me r.old o r.descriptor
    | .free => { state := s, status := .stale, payload := [] }
    | .retiring _ _ => { state := s, status := .retiring, payload := [] }

/-! ### SET_HUB -/

/-- The lowest-numbered non-FREE entry whose S + D is greater than a cycle length (R165, step 2). -/
def State.firstTooLong (s : State) (cycleLength : Nat) : Option EntryIx :=
  allEntries.find? fun e =>
    decide ((s.entry e).state ≠ .free) && decide (cycleLength < (s.entry e).descriptor.stop)

/-- Steps 2 to 4 of a SET_HUB (R164 to R166): SPAN with the offending handle, then the next-epoch set under the new values,
with no candidate. -/
def State.judgeHub (s : State) (h : HubRecord) : Verdict HubRecord :=
  match s.firstTooLong h.cycleLength with
  | some e => .refuse .span (handleBytes (some (s.handleOf e)))
  | none =>
    failWithReport (conflictReport s.freeCount (lineFailures s.gapOf h.cycleLength s.nextEpochSet)) .lineClash
      reportBytes
      (failWithReport (conflictReport s.freeCount (railFailures h.capacityA h.capacityB s.nextEpochSet)) .railOver
        railReportBytes (.pass h))

/-- A SET_HUB at its taking (R164): the engine STOPPED, then the ranges, then steps 2 to 4. A payload shorter than the
request needs fails at step 1 (R165; log 11). -/
def State.judgeSetHub (s : State) (fields : List Byte) : Verdict HubRecord :=
  failWhen (decide (s.engine.state ≠ .stopped)) .engineRunning
    (match hubFields fields with
     | none => .refuse .badField []
     | some h => s.judgeHub h)

/-- The completion of a SET_HUB whose requester is attached (R167): all seven fields are replaced together, and each input
with a pending change is judged against its new width (R123). A raw change at the same tick acts by R119 with the width held
when it is taken, also where the two orders then differ (DEDUCED, log 20). -/
def State.completeSetHub (s : State) : Verdict HubRecord → Answer
  | .refuse status payload => { state := s, status := status, payload := payload }
  | .pass h =>
    { state := allInputs.foldl State.rejudgeInput { s with hub := h }
      status := .ok
      payload := [] }

end Sys2Proof.Machine
end

