-- ==== Sys2Proof/Machine/FrameOps.lean ====
section
/-! DEFINITION. The frames on a port (R174 to R182), byte by byte: the fall of CSn, the frame code, what each later byte
does, the rise of CSn, and a part of a frame as a command gives it. -/

namespace Sys2Proof.Machine

/-! ### The bytes shifted out -/

/-- One byte is shifted out, and the frame goes on. -/
def State.emit (s : State) (p : Port) (b : Byte) (frame : FrameState) : State :=
  s.setLink p { s.link p with frame := frame, miso := (s.link p).miso ++ [b] }

/-- The malformed-frame counter increases by 1, stopping at 255 (R176). -/
def State.countMalformed (s : State) (p : Port) : State :=
  s.setLink p { s.link p with malformed := saturatingInc (s.link p).malformed }

/-! ### SUBMIT (R177) -/

/-- The credit check (R177): with a credit the request joins the tail of the queue and the credits decrease by 1. -/
def State.creditCheck (s : State) (p : Port) (r : Request) : State :=
  if 0 < (s.link p).credits then
    s.setLink p
      { s.link p with requests := (s.link p).requests ++ [r], credits := (s.link p).credits - 1 }
  else s

/-- The result byte of the credit check: ACCEPTED or NO_CREDIT (R177). -/
def State.creditResult (s : State) (p : Port) : Byte := if 0 < (s.link p).credits then 0x00 else 0x01

/-- One byte of a SUBMIT that is not complete: a bad length is answered BAD_LENGTH in the byte that follows; with the last
payload byte the credit check is made, and its result follows. -/
def State.takeSubmitByte (s : State) (p : Port) (received : List Byte) (b : Byte) : State :=
  match submitShape (received ++ [b]) with
  | .incomplete => s.emit p 0 (.submit (received ++ [b]))
  | .badLength => s.emit p 0 (.answered 0x02)
  | .complete tag code fields =>
    (s.creditCheck p { tag := tag, code := code, fields := fields }).emit p 0 (.answered (s.creditResult p))

/-! ### COLLECT (R179) -/

/-- What a COLLECT whose frame code is received now will shift out: the head reply's length and bytes, or nothing. -/
def State.collectFirst (s : State) (p : Port) : FrameState :=
  match (s.link p).replies with
  | [] => .collect []
  | r :: _ => .collect (collectBytes r)

/-- The last byte of the reply in transfer has been shifted out: the reply is removed and its credit returns. -/
def State.removeReply (s : State) (p : Port) : State :=
  match (s.link p).replies with
  | [] => s
  | _ :: rest => s.setLink p { s.link p with replies := rest, credits := (s.link p).credits + 1 }

/-- One byte of a COLLECT. -/
def State.shiftReply (s : State) (p : Port) : List Byte → State
  | [] => s.emit p 0 (.collect [])
  | [b] => (s.emit p b (.collect [])).removeReply p
  | b :: rest => s.emit p b (.collect rest)

/-! ### FETCH (R158, R159, R180) -/

/-- The bytes of the position that starts now: the head record's, or 16 bytes of 0x00. -/
def NoticeQueue.positionBytes (q : NoticeQueue) : List Byte :=
  match q.records with
  | [] => emptyPosition
  | r :: _ => noticeBytes r

/-- The head record is handed over as the record in transfer, when there is one. -/
def NoticeQueue.handOver (q : NoticeQueue) : NoticeQueue := { q with inTransfer := q.records.head? }

/-- The 16th byte of a position has been shifted out. -/
def State.endPosition (s : State) (p : Port) : State := s.setQueue p (s.queue p).removeTransferred

/-- One byte of the present position; at the 16th the record in transfer is removed. -/
def State.shiftPosition (s : State) (p : Port) : List Byte → State
  | [] => s
  | [b] => (s.emit p b (.fetch none [])).endPosition p
  | b :: rest => s.emit p b (.fetch none rest)

/-- A FETCH whose frame code is received now takes the number of records (R180). A record that joined between the fall of
CSn and the frame code is therefore counted, where R158's last words on the count read otherwise (DESIGN CHOICE, log 21). -/
def State.fetchFirst (s : State) (p : Port) : FrameState :=
  .fetch (some (BitVec.ofNat 8 (s.queue p).records.length)) []

/-- One byte of a FETCH: the count, then the positions; a position that starts has the head record handed over. -/
def State.shiftFetch (s : State) (p : Port) : Option Byte → List Byte → State
  | some count, rest => s.emit p count (.fetch none rest)
  | none, [] => (s.setQueue p (s.queue p).handOver).shiftPosition p (s.queue p).positionBytes
  | none, rest => s.shiftPosition p rest

/-- CSn rises in a FETCH: a record in transfer stays at the head of its queue, no longer in transfer (R159). -/
def State.dropTransfer (s : State) (p : Port) : State := s.setQueue p { s.queue p with inTransfer := none }

/-! ### STATUS (R181) -/

/-- One byte of a STATUS: the status byte sampled again, the session number, the loss counter taken whole with its first
byte, then 0x00. The spec gives no moment at which the session number is taken; here it is the one held when its byte is
shifted out (DESIGN CHOICE, log 19). -/
def State.shiftStatus (s : State) (p : Port) : Nat → BitVec 16 → State
  | 0, l => s.emit p (s.statusByte p) (.status 1 l)
  | 1, l => s.emit p (s.session p).number (.status 2 l)
  | 2, _ => s.emit p (BitVec.ofNat 8 (s.queue p).losses.toNat) (.status 3 (s.queue p).losses)
  | 3, l => s.emit p (BitVec.ofNat 8 (l.toNat / 256)) (.status 4 l)
  | n, l => s.emit p 0 (.status n l)

/-! ### ABANDON (R141, R182) -/

/-- The link port clears the request queue and the reply queue, and their credits return at once; a request in service
keeps its marker and its credit (R141). -/
def Link.abandoned (k : Link) : Link :=
  { k with requests := [], replies := [], credits := k.credits + k.requests.length + k.replies.length }

/-- A matching ABANDON (R141): an attached session ends, with no EXPIRED notice; then the queues are cleared, the loss
counter and the sequence number are 0. -/
def State.abandonPort (s : State) (p : Port) : State :=
  let t := if (s.session p).attachment.isSome then s.endSession p false else s
  let u := t.setQueue p { (t.queue p).cleared with seq := 0 }
  u.setLink p (u.link p).abandoned

/-- The session byte of an ABANDON is judged at the rise of CSn (R182): a match acts by R141, a mismatch is counted as
malformed. -/
def State.judgeAbandon (s : State) (p : Port) (b : Byte) : State :=
  if b = (s.session p).number then s.abandonPort p else s.countMalformed p

/-! ### A frame from the fall to the rise of CSn -/

/-- CSn falls at a port with no frame in progress: the port status byte is sampled (R174, R175). -/
def State.fallCs (s : State) (p : Port) : State :=
  if (s.link p).frame = .idle then s.setLink p { s.link p with frame := .opened (s.statusByte p) } else s

/-- What the frame is, once its code is received (R175, 10.8). -/
def State.frameOfCode (s : State) (p : Port) (code : Byte) : FrameState :=
  if code = 0x51 then .submit []
  else if code = 0x52 then s.collectFirst p
  else if code = 0x53 then s.fetchFirst p
  else if code = 0x54 then .status 0 0
  else if code = 0x5A then .abandon none
  else .unknown

/-- One byte passes: byte b is received on MOSI, and the byte that is due is shifted out on MISO. The first byte is the frame
code, with the status byte as sampled at the fall (R175). What a byte takes when it is due it takes as it passes (log 6). -/
def State.exchange (p : Port) (s : State) (b : Byte) : State :=
  match (s.link p).frame with
  | .opened status => s.setLink p { s.link p with frame := s.frameOfCode p b, miso := [status] }
  | .submit received => s.takeSubmitByte p received b
  | .answered result => s.emit p result (.answered 0)
  | .collect rest => s.shiftReply p rest
  | .fetch count rest => s.shiftFetch p count rest
  | .status shifted losses => s.shiftStatus p shifted losses
  | .abandon none => s.emit p 0 (.abandon (some b))
  | .abandon (some session) => s.emit p 0 (.abandon (some session))
  | .unknown => s.emit p 0 .unknown
  | .idle => s
  | .ignoring => s

/-- Whether a frame that ends here, after this many bits of a further byte, counts as malformed for its form: ended before its
frame code, with an unknown code, a SUBMIT ended before it was complete, or an ABANDON ended before its session byte
(R175, R176). With no bit of a frame code there was no SCLK edge, and the frame is no frame (R174). -/
def FrameState.endsMalformed (bits : Nat) : FrameState → Bool
  | .opened _ => decide (0 < bits)
  | .submit _ => true
  | .abandon none => true
  | .unknown => true
  | _ => false

/-- CSn rises after this many bits of a further byte: the frame ends, with what its end does (R159, R174, R176, R182). -/
def State.raiseCs (s : State) (p : Port) (bits : Nat) : State :=
  let t := s.setLink p { s.link p with frame := .idle }
  match (s.link p).frame with
  | .fetch _ _ => t.dropTransfer p
  | .abandon (some b) => t.judgeAbandon p b
  | f => if f.endsMalformed bits then t.countMalformed p else t

/-- A part of a frame, as one command gives it: CSn falls if it is high, the bytes pass, and, if told so, CSn rises. A part
is taken when the frame is then one that the command's row can be, `mine`; else no such event can come, and nothing
happens (log 4). In a reset, and at a port that ignores SCLK and MOSI, no frame is taken (R174). -/
def State.runFrame (s : State) (p : Port) (mine : FrameState → Bool) (part : FramePart) (bits : Nat) : State :=
  if s.hold.isSome ∨ (s.link p).frame = .ignoring then s
  else
    let t := part.bytes.foldl (State.exchange p) (s.fallCs p)
    if mine (t.link p).frame then if part.rise then t.raiseCs p bits else t else s

/-! ### Which frames a row can be: any until the frame code is received -/

def FrameState.fitsSubmit : FrameState → Bool
  | .opened _ => true
  | .submit _ => true
  | .answered _ => true
  | _ => false

def FrameState.fitsCollect : FrameState → Bool
  | .opened _ => true
  | .collect _ => true
  | _ => false

def FrameState.fitsFetch : FrameState → Bool
  | .opened _ => true
  | .fetch _ _ => true
  | _ => false

def FrameState.fitsStatus : FrameState → Bool
  | .opened _ => true
  | .status _ _ => true
  | _ => false

def FrameState.fitsAbandon : FrameState → Bool
  | .opened _ => true
  | .abandon _ => true
  | _ => false

end Sys2Proof.Machine
end

