-- ==== Sys2Proof/Machine/EngineCommands.lean ====
section
/-! DEFINITION. The engine's requests and events (Chapter 3): RUN, HALT, CYCLE_END, SPACING_END, INH_ASSERTED and
INH_RELEASED. -/

namespace Sys2Proof.Machine

/-- RUN (R77): the vote is set; when no attached session held one the engine acts on the first vote; the reply carries the
engine state after. -/
def runAct (s : State) (me : SessionId) (_ : List Byte) : Answer :=
  let t := s.setSession me.port ((s.session me.port).withVote true)
  let u := if s.anyVote then t else t.firstVote
  { state := u, status := .ok, payload := [engineStateByte u.engine.state] }

def execRun (p : Port) (s : State) : Host.Outcome State Fault Refusal :=
  .next (s.answerRequest p .run runAct)

/-- HALT (R78): the vote is cleared; when it was the last the engine acts on it; the reply carries the engine state
after. -/
def haltAct (s : State) (me : SessionId) (_ : List Byte) : Answer :=
  let u := s.dropVote me.port ((s.session me.port).withVote false)
  { state := u, status := .ok, payload := [engineStateByte u.engine.state] }

def execHalt (p : Port) (s : State) : Host.Outcome State Fault Refusal :=
  .next (s.answerRequest p .halt haltAct)

/-- CYCLE_END (R64). -/
def execCycleEnd (s : State) : Host.Outcome State Fault Refusal :=
  if s.hold.isNone && s.cycleEndDue then .next s.cycleEnd else .next s

/-- SPACING_END (R65). -/
def execSpacingEnd (s : State) : Host.Outcome State Fault Refusal :=
  if s.hold.isNone && s.spacingEndDue then .next s.spacingEnd else .next s

/-- INH_ASSERTED (R70, R71, R126): the sample is LOW where the previous one was HIGH. -/
def execInhAsserted (s : State) : Host.Outcome State Fault Refusal :=
  if s.hold.isNone && !s.engine.inhAsserted then .next s.inhAssert else .next s

/-- INH_RELEASED (R72, R126): the sample is HIGH where the previous one was LOW. -/
def execInhReleased (s : State) : Host.Outcome State Fault Refusal :=
  if s.hold.isNone && s.engine.inhAsserted then .next s.inhRelease else .next s

end Sys2Proof.Machine
end

