-- ==== Sys2Proof/Machine/EventCommands.lean ====
section
/-! DEFINITION. The events of the inputs, the windows and the burst engines (Chapters 4 to 6): RAW_CHANGE, QUALIFICATION,
WINDOW_BOUNDARY_EVENT, HIGH_TIME_ELAPSES and LOW_TIME_ELAPSES. -/

namespace Sys2Proof.Machine

/-- RAW_CHANGE (R118, R119): the sample of the input differs from its raw level. -/
def execRawChange (i : InputIx) (s : State) : Host.Outcome State Fault Refusal :=
  if s.hold.isNone then .next (s.rawChange i) else .next s

/-- QUALIFICATION (R119). -/
def execQualification (i : InputIx) (s : State) : Host.Outcome State Fault Refusal :=
  if s.hold.isNone && s.qualificationDue i then .next (s.qualify i) else .next s

/-- WINDOW_BOUNDARY_EVENT (R82). -/
def execWindowBoundaryEvent (s : State) : Host.Outcome State Fault Refusal :=
  if s.hold.isNone && s.boundaryDue then .next s.windowBoundary else .next s

/-- The high time has been reached in HIGH (R107). -/
def BurstJob.highDue (j : BurstJob) : Bool :=
  match j.phase with
  | .high t => decide (j.part.highTime ≤ t)
  | _ => false

/-- The low time has been reached in LOW (R109). -/
def BurstJob.lowDue (j : BurstJob) : Bool :=
  match j.phase with
  | .low t => decide (j.part.lowTime ≤ t)
  | _ => false

def State.highDue (s : State) (g : EngineIx) : Bool :=
  match (s.burst g).job with
  | some j => j.highDue
  | none => false

def State.lowDue (s : State) (g : EngineIx) : Bool :=
  match (s.burst g).job with
  | some j => j.lowDue
  | none => false

/-- HIGH_TIME_ELAPSES (R107). -/
def execHighTimeElapses (g : EngineIx) (s : State) : Host.Outcome State Fault Refusal :=
  match (s.burst g).job with
  | some j => if s.hold.isNone && j.highDue then .next (s.setJob g j.highElapsed) else .next s
  | none => .next s

/-- LOW_TIME_ELAPSES (R109). -/
def execLowTimeElapses (g : EngineIx) (s : State) : Host.Outcome State Fault Refusal :=
  match (s.burst g).job with
  | some j => if s.hold.isNone && j.lowDue then .next (s.setJob g j.lowElapsed) else .next s
  | none => .next s

end Sys2Proof.Machine
end

