-- ==== Sys2Proof/Machine/FrameCommands.lean ====
section
/-! DEFINITION. The frames as commands (Chapter 10): SUBMIT, COLLECT, FETCH, STATUS, ABANDON, MALFORMED_FRAME and the rise
of CSn after reset. -/

namespace Sys2Proof.Machine

/-- SUBMIT (R177). -/
def execSubmit (p : Port) (mosi : FramePart) (s : State) : Host.Outcome State Fault Refusal :=
  .next (s.runFrame p FrameState.fitsSubmit mosi 0)

/-- COLLECT (R179); what the host sends after the frame code is ignored (R174). -/
def execCollect (p : Port) (bytes : Nat) (rise : Bool) (s : State) : Host.Outcome State Fault Refusal :=
  .next (s.runFrame p FrameState.fitsCollect ⟨List.replicate bytes 0x52, rise⟩ 0)

/-- FETCH (R158, R180); what the host sends after the frame code is ignored (R174). -/
def execFetch (p : Port) (bytes : Nat) (rise : Bool) (s : State) : Host.Outcome State Fault Refusal :=
  .next (s.runFrame p FrameState.fitsFetch ⟨List.replicate bytes 0x53, rise⟩ 0)

/-- STATUS (R181); what the host sends after the frame code is ignored (R174). -/
def execStatus (p : Port) (bytes : Nat) (rise : Bool) (s : State) : Host.Outcome State Fault Refusal :=
  .next (s.runFrame p FrameState.fitsStatus ⟨List.replicate bytes 0x54, rise⟩ 0)

/-- ABANDON (R141, R182). -/
def execAbandon (p : Port) (mosi : FramePart) (s : State) : Host.Outcome State Fault Refusal :=
  .next (s.runFrame p FrameState.fitsAbandon mosi 0)

/-- MALFORMED_FRAME (R175, R176): a frame, or the part of one that has not ended, that is malformed for its form if it ends
here; one that goes on may still be short of its frame code. -/
def execMalformedFrame (p : Port) (mosi : FramePart) (bits : Nat) (s : State) : Host.Outcome State Fault Refusal :=
  .next (s.runFrame p (FrameState.endsMalformed (if mosi.rise then bits else 1)) mosi bits)

/-- CSN_RISE_AFTER_RESET (R174): the port stops ignoring SCLK and MOSI; nothing is counted. -/
def execCsnRiseAfterReset (p : Port) (s : State) : Host.Outcome State Fault Refusal :=
  if s.hold.isNone && decide ((s.link p).frame = .ignoring) then
    .next (s.setLink p { s.link p with frame := .idle })
  else .next s

end Sys2Proof.Machine
end

