-- ==== Sys2Proof/Machine/HubCommands.lean ====
section
/-! DEFINITION. The hub requests (Chapter 9): SET_HUB, its completion, and READ_HUB. -/

namespace Sys2Proof.Machine

/-- SET_HUB (R164): the operation in flight begins. -/
def execSetHub (p : Port) (s : State) : Host.Outcome State Fault Refusal :=
  .next (s.flyRequest p .setHub fun t _ f => .setHub (t.judgeSetHub f))

/-- SET_HUB_COMPLETION (R167, R168). -/
def execSetHubCompletion (s : State) : Host.Outcome State Fault Refusal :=
  match s.arbiter.executor with
  | some f =>
    match f.op with
    | .setHub v => if s.hold.isNone then .next (s.complete f fun t => t.completeSetHub v) else .next s
    | .add _ => .next s
    | .replace _ => .next s
  | none => .next s

/-- The identity code and the revision, fixed in the part (R171). -/
def identityCode : Nat := 0x4D16

def revision : Byte := 1

/-- One port's bytes of the hub status: record state, session number, vote. -/
def State.portStatusBytes (s : State) (p : Port) : List Byte :=
  [flagByte (s.session p).attachment.isSome, (s.session p).number, flagByte (s.hasVote p)]

def EntryState.isFree : EntryState → Bool
  | .free => true
  | _ => false

def EntryState.isPending : EntryState → Bool
  | .pending _ => true
  | _ => false

def EntryState.isActive : EntryState → Bool
  | .active _ => true
  | _ => false

/-- The hub status, 54 bytes (R169, R187). -/
def State.hubStatusBytes (s : State) (p : Port) : List Byte :=
  bytesOf 2 identityCode ++ [revision, resetCauseByte s.resetCause, engineStateByte s.engine.state]
    ++ bytesOf 4 s.engine.reportedNumber.toNat
    ++ [BitVec.ofNat 8 (superIndex s.engine.reportedNumber), flagByte s.engine.restart,
        flagByte s.engine.inhAsserted]
    ++ hubBytes s.hub
    ++ allPorts.flatMap s.portStatusBytes
    ++ [BitVec.ofNat 8 (s.countEntries fun x => x.state.isFree),
        BitVec.ofNat 8 (s.countEntries fun x => x.state.isPending),
        BitVec.ofNat 8 (s.countEntries fun x => x.state.isActive),
        BitVec.ofNat 8 (s.countEntries fun x => x.state.isRetiring)]
    ++ [BitVec.ofNat 8 s.peaks.a, BitVec.ofNat 8 s.peaks.b]
    ++ [BitVec.ofNat 8
          (weigh (decide (s.burst 0 ≠ .idle)) 1 + weigh (decide (s.burst 1 ≠ .idle)) 2)]
    ++ bytesOf 2 s.engine.earlyEdges.toNat ++ bytesOf 2 s.engine.inhibitEpisodes.toNat
    ++ bytesOf 2 s.engine.cuts.toNat
    ++ [(s.link p).malformed]

/-- The early-edge, inhibit-episode and cut counters are set to 0 (R170). -/
def State.clearCounters (s : State) : State :=
  { s with engine := { s.engine with earlyEdges := 0, inhibitEpisodes := 0, cuts := 0 } }

/-- READ_HUB (R169, R170). -/
def readHubAct (s : State) (me : SessionId) (fields : List Byte) : Answer :=
  match clearFlagFields fields with
  | none => { state := s, status := .badField, payload := [] }
  | some clear =>
    { state := if clear then s.clearCounters else s, status := .ok, payload := s.hubStatusBytes me.port }

def execReadHub (p : Port) (s : State) : Host.Outcome State Fault Refusal :=
  .next (s.answerRequest p .readHub readHubAct)

end Sys2Proof.Machine
end

