-- ==== Sys2Proof/Machine/LineCommands.lean ====
section
/-! DEFINITION. The line requests (Chapter 4): CLAIM_LINE, RELEASE_LINE and LINE_INFO. -/

namespace Sys2Proof.Machine

/-- A non-FREE entry is on a line. -/
def Entry.isOn (x : Entry) (l : LineIx) : Bool := decide (x.state ≠ .free) && decide (x.descriptor.line = l)

/-- A non-FREE entry on the line belongs to a session other than `me` (R97, step 3). -/
def State.lineUsedByOther (s : State) (l : LineIx) (me : SessionId) : Bool :=
  allEntries.any fun e => (s.entry e).isOn l && decide (s.ownerOf e ≠ some me)

/-- A non-FREE entry exists on the line (R97, step 4). -/
def State.lineInUse (s : State) (l : LineIx) : Bool := allEntries.any fun e => (s.entry e).isOn l

/-- The claim of a line (R98): access, holder, idle level and gap; the driven level follows a changed idle level at once. -/
def State.claimLine (s : State) (l : LineIx) (me : SessionId) (idle : Level) (gap : Nat) : State :=
  let t := s.setLine l { holder := some me, idle := idle, gap := gap }
  if idle = (s.line l).idle then t else t.setDriven l idle

/-- CLAIM_LINE (R97). -/
def claimLineAct (s : State) (me : SessionId) (fields : List Byte) : Answer :=
  match claimLineFields fields with
  | none => { state := s, status := .badField, payload := [] }
  | some (l, idle, gap) =>
    if s.lineHeldByOther l me then { state := s, status := .lineHeld, payload := [] }
    else if s.lineUsedByOther l me then { state := s, status := .lineBusy, payload := [] }
    else if (idle ≠ (s.line l).idle ∨ gap ≠ (s.line l).gap) ∧ s.lineInUse l = true then
      { state := s, status := .lineBusy, payload := [] }
    else { state := s.claimLine l me idle gap, status := .ok, payload := [] }

def execClaimLine (p : Port) (s : State) : Host.Outcome State Fault Refusal :=
  .next (s.answerRequest p .claimLine claimLineAct)

/-- RELEASE_LINE (R100). -/
def releaseLineAct (s : State) (me : SessionId) (fields : List Byte) : Answer :=
  match lineFields fields with
  | none => { state := s, status := .badField, payload := [] }
  | some l =>
    if (s.line l).holder = some me then
      { state := s.setLine l { s.line l with holder := none }, status := .ok, payload := [] }
    else { state := s, status := .notOwner, payload := [] }

def execReleaseLine (p : Port) (s : State) : Host.Outcome State Fault Refusal :=
  .next (s.answerRequest p .releaseLine releaseLineAct)

/-- The LINE_INFO payload (R102, 10.8): access, holder, idle level, recovery gap, driven level, non-FREE entries. -/
def State.lineInfoBytes (s : State) (l : LineIx) : List Byte :=
  [flagByte (s.line l).holder.isSome] ++ ownerBytes (s.line l).holder ++ [levelByte (s.line l).idle]
    ++ bytesOf 2 (s.line l).gap
    ++ [levelByte (s.driven.get l), BitVec.ofNat 8 (s.countEntries fun x => x.isOn l)]

/-- LINE_INFO (R102). -/
def lineInfoAct (s : State) (_ : SessionId) (fields : List Byte) : Answer :=
  match lineFields fields with
  | none => { state := s, status := .badField, payload := [] }
  | some l => { state := s, status := .ok, payload := s.lineInfoBytes l }

def execLineInfo (p : Port) (s : State) : Host.Outcome State Fault Refusal :=
  .next (s.answerRequest p .lineInfo lineInfoAct)

end Sys2Proof.Machine
end

