-- ==== Sys2Proof/Machine/ReservationCommands.lean ====
section
/-! DEFINITION. The reservation commands (Chapters 1 and 2): ADD, REPLACE and their completions, WITHDRAW, QUERY, SCAN and
the cleanup claim. -/

namespace Sys2Proof.Machine

/-- ADD (R24): the admission begins. -/
def execAdd (p : Port) (s : State) : Host.Outcome State Fault Refusal :=
  .next (s.flyRequest p .add fun t me f => .add (t.judgeAdd me f))

/-- ADD_COMPLETION (R36, R51). -/
def execAddCompletion (s : State) : Host.Outcome State Fault Refusal :=
  match s.arbiter.executor with
  | some f =>
    match f.op with
    | .add v => if s.hold.isNone then .next (s.complete f fun t => t.completeAdd f.session v) else .next s
    | .replace _ => .next s
    | .setHub _ => .next s
  | none => .next s

/-- REPLACE (R38): the admission begins. -/
def execReplace (p : Port) (s : State) : Host.Outcome State Fault Refusal :=
  .next (s.flyRequest p .replace fun t me f => .replace (t.judgeReplace me f))

/-- REPLACE_COMPLETION (R41, R51). -/
def execReplaceCompletion (s : State) : Host.Outcome State Fault Refusal :=
  match s.arbiter.executor with
  | some f =>
    match f.op with
    | .replace v => if s.hold.isNone then .next (s.complete f fun t => t.completeReplace f.session v) else .next s
    | .add _ => .next s
    | .setHub _ => .next s
  | none => .next s

/-- An ACTIVE entry that is withdrawn or cleaned up: RETIRING with reason WITHDRAWN while the engine is not STOPPED, else
FREE at once (R18, R20). -/
def State.retireWithdrawn (s : State) (e : EntryIx) (o : SessionId) : State :=
  if s.engine.state = .stopped then s.freeEntry e
  else s.setEntry e { s.entry e with state := .retiring o .withdrawn }

/-- WITHDRAW of an entry whose handle matches (R18). -/
def State.withdrawEntry (s : State) (me : SessionId) (e : EntryIx) : Answer :=
  if s.ownerOf e ≠ some me then { state := s, status := .notOwner, payload := [] }
  else
    match (s.entry e).state with
    | .retiring _ _ => { state := s, status := .retiring, payload := [] }
    | .pending _ =>
      { state := (s.freeEntry e).recomputePeaks, status := .ok, payload := [entryStateByte .free] }
    | .active o =>
      { state := (s.retireWithdrawn e o).recomputePeaks
        status := .ok
        payload := [entryStateByte ((s.retireWithdrawn e o).entry e).state] }
    | .free => { state := s, status := .stale, payload := [] }

/-- WITHDRAW (R18): the handle check of R6, then its cases. -/
def withdrawAct (s : State) (me : SessionId) (fields : List Byte) : Answer :=
  match handleFields fields with
  | none => { state := s, status := .badField, payload := [] }
  | some h =>
    if s.matchesHandle h then s.withdrawEntry me h.index
    else { state := s, status := .stale, payload := [] }

def execWithdraw (p : Port) (s : State) : Host.Outcome State Fault Refusal :=
  .next (s.answerRequest p .withdraw withdrawAct)

/-- QUERY (R22): the entry record of the entry the handle names. -/
def queryAct (s : State) (_ : SessionId) (fields : List Byte) : Answer :=
  match handleFields fields with
  | none => { state := s, status := .badField, payload := [] }
  | some h =>
    if s.matchesHandle h then
      { state := s, status := .ok, payload := entryRecordBytes h.index (s.entry h.index) }
    else { state := s, status := .stale, payload := [] }

def execQuery (p : Port) (s : State) : Host.Outcome State Fault Refusal :=
  .next (s.answerRequest p .query queryAct)

/-- The lowest-numbered non-FREE entry at or above an index (R23). -/
def State.scanFrom (s : State) (start : EntryIx) : Option EntryIx :=
  allEntries.find? fun e => decide (start ≤ e) && decide ((s.entry e).state ≠ .free)

/-- SCAN (R23): the record of the entry found, or handle NONE. -/
def scanAct (s : State) (_ : SessionId) (fields : List Byte) : Answer :=
  match scanFields fields with
  | none => { state := s, status := .badField, payload := [] }
  | some start =>
    match s.scanFrom start with
    | some e => { state := s, status := .ok, payload := entryRecordBytes e (s.entry e) }
    | none => { state := s, status := .ok, payload := handleBytes none }

def execScan (p : Port) (s : State) : Host.Outcome State Fault Refusal :=
  .next (s.answerRequest p .scan scanAct)

/-- The cleanup of one entry of an ended session (R20): PENDING becomes FREE, ACTIVE is retired or freed, RETIRING stays.
No notice. -/
def State.cleanEntry (o : SessionId) (s : State) (e : EntryIx) : State :=
  if s.ownerOf e = some o then
    match (s.entry e).state with
    | .pending _ => s.freeEntry e
    | .active w => s.retireWithdrawn e w
    | .retiring _ _ => s
    | .free => s
  else s

/-- A line CLAIMED by the ended session becomes OPEN, idle level and gap unchanged (R101). -/
def State.cleanLine (o : SessionId) (s : State) (l : LineIx) : State :=
  if (s.line l).holder = some o then s.setLine l { s.line l with holder := none } else s

/-- The cleanup claim of an ended session (R20, R101, R143): its entries, its lines, the peaks. -/
def State.cleanup (s : State) (o : SessionId) : State :=
  (allLines.foldl (State.cleanLine o) (allEntries.foldl (State.cleanEntry o) s)).recomputePeaks

/-- The claim of a port is taken. -/
def State.takeClaim (s : State) (p : Port) : State :=
  { s with arbiter := { s.arbiter with claims := s.arbiter.claims.set p none } }

/-- CLEANUP_CLAIM (R143). -/
def execCleanupClaim (p : Port) (s : State) : Host.Outcome State Fault Refusal :=
  if s.nextTaking = some (.claim p) then
    match s.arbiter.claims.get p with
    | some number => .next ((s.takeClaim p).cleanup { port := p, number := number })
    | none => .next s
  else .next s

end Sys2Proof.Machine
end

