-- ==== Sys2Proof/Machine/ResetCommands.lean ====
section
/-! DEFINITION. The resets (R171, R172): POWER_ON_RESET, RSTN_ASSERTED and RESET_RELEASE. -/

namespace Sys2Proof.Machine

/-- A frame in progress is discarded without effect and without a count (R174), and no record is in transfer (R147). -/
def State.discardFrame (s : State) (p : Port) : State :=
  (s.setLink p { s.link p with frame := .idle }).dropTransfer p

/-- The input conditioner from the start of a reset on (R127): every qualification timer is stopped, which discards the
change that was qualifying, and the filter widths hold their reset values. -/
def State.stopConditioner (s : State) : State :=
  { s with
    inputs := s.inputs.map fun c => { c with timer := none }
    hub := { s.hub with widths := HubRecord.afterReset.widths } }

/-- The part is held in reset (R172): the cause the release will record, every output LOW, the input conditioner stopped, and
the frames discarded. No timer counts and nothing is sampled while it is held; every other register takes its reset value
at the release (log 9). -/
def State.holdReset (s : State) (cause : ResetCause) : State :=
  allPorts.foldl State.discardFrame { s.stopConditioner with hold := some cause, driven := .fill 16 .low }

/-- POWER_ON_RESET (R171): the supply comes up. -/
def execPowerOnReset (s : State) : Host.Outcome State Fault Refusal := .next (s.holdReset .power)

/-- RSTN_ASSERTED (R171, R172): RSTN goes low with the supply up. While a power-on reset is still in progress it lengthens
that reset, which stays a power-on reset. -/
def execRstnAsserted (s : State) : Host.Outcome State Fault Refusal :=
  match s.hold with
  | none => .next (s.holdReset .pin)
  | some _ => .next s

/-- RESET_RELEASE (R172, R127, R174): every block takes its reset values as one event, and the inputs and INH are sampled
once. -/
def execResetRelease (inputs : BitVec 8) (inhLow : Bool) (csLow : BitVec 4) (s : State) :
    Host.Outcome State Fault Refusal :=
  match s.hold with
  | none => .next s
  | some cause => .next (.afterRelease cause inputs inhLow csLow s.pending s.freeCount)

end Sys2Proof.Machine
end

