-- ==== Sys2Proof/Machine/SessionCommands.lean ====
section
/-! DEFINITION. The session requests and BAD_KIND (Chapter 7): ATTACH, DETACH, RENEW, SET_NOTICES, and the lease expiry. -/

namespace Sys2Proof.Machine

/-- A new session is attached (R132): the next number, the lease, the timer at 0, no vote, the mask; the port's sequence
number and loss counter are 0. -/
def State.attachSession (s : State) (p : Port) (lease : Nat) (mask : Mask) : State :=
  let t := s.setSession p
    { number := (s.session p).number + 1
      attachment := some { lease := lease, timer := 0, vote := false, mask := mask } }
  t.setQueue p { t.queue p with seq := 0, losses := 0 }

/-- ATTACH on a request that has been taken (R132): BAD_FIELD, then ATTACHED, else the new session. -/
def State.attachTaken (s : State) (p : Port) (r : Request) : State :=
  match attachFields r.fields with
  | none => s.reply p r .badField []
  | some (lease, mask) =>
    if (s.session p).attachment.isSome then s.reply p r .attached []
    else (s.attachSession p lease mask).reply p r .ok [(s.session p).number + 1]

/-- ATTACH (R132). -/
def execAttach (p : Port) (s : State) : Host.Outcome State Fault Refusal :=
  match s.takenRequest p .attach with
  | none => .next s
  | some r => .next ((s.take p).attachTaken p r)

/-- DETACH (R136): the session ends with no EXPIRED notice; then OK. -/
def detachAct (s : State) (me : SessionId) (_ : List Byte) : Answer :=
  { state := s.endSession me.port false, status := .ok, payload := [] }

def execDetach (p : Port) (s : State) : Host.Outcome State Fault Refusal :=
  .next (s.answerRequest p .detach detachAct)

/-- RENEW (R134): the lease timer has restarted at the taking; nothing else. -/
def renewAct (s : State) (_ : SessionId) (_ : List Byte) : Answer := { state := s, status := .ok, payload := [] }

def execRenew (p : Port) (s : State) : Host.Outcome State Fault Refusal :=
  .next (s.answerRequest p .renew renewAct)

/-- The notice mask of an attached session is replaced (R135). -/
def Session.withMask (x : Session) (m : Mask) : Session :=
  { x with attachment := x.attachment.map fun a => { a with mask := m } }

/-- SET_NOTICES (R135). -/
def setNoticesAct (s : State) (me : SessionId) (fields : List Byte) : Answer :=
  match setNoticesFields fields with
  | none => { state := s, status := .badField, payload := [] }
  | some m =>
    { state := s.setSession me.port ((s.session me.port).withMask m), status := .ok, payload := [] }

def execSetNotices (p : Port) (s : State) : Host.Outcome State Fault Refusal :=
  .next (s.answerRequest p .setNotices setNoticesAct)

/-- BAD_KIND (R130): a request whose code names no request, from an attached or a detached port. -/
def execBadKind (p : Port) (s : State) : Host.Outcome State Fault Refusal :=
  match s.takenRequest p .unknown with
  | none => .next s
  | some r => .next ((s.take p).reply p r .badKind [])

/-- The lease expiry is due: the timer's count has reached the lease, m ms being m × 1000 ticks (R137). -/
def State.leaseDue (s : State) (p : Port) : Bool :=
  match (s.session p).attachment with
  | none => false
  | some a => decide (a.lease * 1000 ≤ a.timer)

/-- LEASE_EXPIRY (R137): the session ends and an EXPIRED notice is queued. -/
def execLeaseExpiry (p : Port) (s : State) : Host.Outcome State Fault Refusal :=
  if s.hold.isNone && s.leaseDue p then .next (s.endSession p true) else .next s

end Sys2Proof.Machine
end

