-- ==== Sys2Proof/Machine/Dispatch.lean ====
section
/-! DEFINITION. The effect of every command on everything but the queue: one arm per row of spec/opcode_table.json. -/

namespace Sys2Proof.Machine

def exec (i : Instr) (s : State) : Host.Outcome State Fault Refusal :=
  match i with
  | .attach p => Sys2Proof.Machine.execAttach p s
  | .detach p => Sys2Proof.Machine.execDetach p s
  | .renew p => Sys2Proof.Machine.execRenew p s
  | .setNotices p => Sys2Proof.Machine.execSetNotices p s
  | .add p => Sys2Proof.Machine.execAdd p s
  | .addCompletion => Sys2Proof.Machine.execAddCompletion s
  | .withdraw p => Sys2Proof.Machine.execWithdraw p s
  | .replace p => Sys2Proof.Machine.execReplace p s
  | .replaceCompletion => Sys2Proof.Machine.execReplaceCompletion s
  | .query p => Sys2Proof.Machine.execQuery p s
  | .scan p => Sys2Proof.Machine.execScan p s
  | .claimLine p => Sys2Proof.Machine.execClaimLine p s
  | .releaseLine p => Sys2Proof.Machine.execReleaseLine p s
  | .lineInfo p => Sys2Proof.Machine.execLineInfo p s
  | .run p => Sys2Proof.Machine.execRun p s
  | .halt p => Sys2Proof.Machine.execHalt p s
  | .setHub p => Sys2Proof.Machine.execSetHub p s
  | .setHubCompletion => Sys2Proof.Machine.execSetHubCompletion s
  | .readHub p => Sys2Proof.Machine.execReadHub p s
  | .badKind p => Sys2Proof.Machine.execBadKind p s
  | .cleanupClaim p => Sys2Proof.Machine.execCleanupClaim p s
  | .submit p mosi => Sys2Proof.Machine.execSubmit p mosi s
  | .collect p bytes rise => Sys2Proof.Machine.execCollect p bytes rise s
  | .fetch p bytes rise => Sys2Proof.Machine.execFetch p bytes rise s
  | .status p bytes rise => Sys2Proof.Machine.execStatus p bytes rise s
  | .abandon p mosi => Sys2Proof.Machine.execAbandon p mosi s
  | .malformedFrame p mosi bits => Sys2Proof.Machine.execMalformedFrame p mosi bits s
  | .cycleEnd => Sys2Proof.Machine.execCycleEnd s
  | .spacingEnd => Sys2Proof.Machine.execSpacingEnd s
  | .inhAsserted => Sys2Proof.Machine.execInhAsserted s
  | .inhReleased => Sys2Proof.Machine.execInhReleased s
  | .rawChange input => Sys2Proof.Machine.execRawChange input s
  | .qualification input => Sys2Proof.Machine.execQualification input s
  | .windowBoundaryEvent => Sys2Proof.Machine.execWindowBoundaryEvent s
  | .highTimeElapses engine => Sys2Proof.Machine.execHighTimeElapses engine s
  | .lowTimeElapses engine => Sys2Proof.Machine.execLowTimeElapses engine s
  | .leaseExpiry p => Sys2Proof.Machine.execLeaseExpiry p s
  | .powerOnReset => Sys2Proof.Machine.execPowerOnReset s
  | .rstnAsserted => Sys2Proof.Machine.execRstnAsserted s
  | .resetRelease inputs inhLow csLow => Sys2Proof.Machine.execResetRelease inputs inhLow csLow s
  | .csnRiseAfterReset p => Sys2Proof.Machine.execCsnRiseAfterReset p s

end Sys2Proof.Machine
end

