-- ==== Sys2Proof/Machine/Clock.lean ====
section
/-! DEFINITION. What the part does when no command waits (log 1): the events due at the present tick, the choice among them,
and the passing of one tick. -/

namespace Sys2Proof.Machine

/-- The command that is the taking of a request of a kind from a port. -/
def takingCommand (p : Port) : RequestKind → Instr
  | .attach => .attach p
  | .detach => .detach p
  | .renew => .renew p
  | .setNotices => .setNotices p
  | .add => .add p
  | .withdraw => .withdraw p
  | .replace => .replace p
  | .query => .query p
  | .scan => .scan p
  | .claimLine => .claimLine p
  | .releaseLine => .releaseLine p
  | .lineInfo => .lineInfo p
  | .run => .run p
  | .halt => .halt p
  | .setHub => .setHub p
  | .readHub => .readHub p
  | .unknown => .badKind p

/-- A command, when its condition holds. -/
def dueWhen (b : Bool) (c : Instr) : List Instr := if b then [c] else []

/-- What the arbiter takes at once (R183). -/
def State.dueTaking (s : State) : List Instr :=
  match s.nextTaking with
  | none => []
  | some (.claim p) => [.cleanupClaim p]
  | some (.request p) =>
    match (s.link p).requests with
    | r :: _ => [takingCommand p (kindOfCode r.code)]
    | [] => []

/-- The longest flight, in ticks: 40 µs (R46, R164). -/
def longestFlight : Nat := 40

/-- The completion of a flight. -/
def completionCommand : FlightOp → Instr
  | .add _ => .addCompletion
  | .replace _ => .replaceCompletion
  | .setHub _ => .setHubCompletion

/-- The flight completes now: 40 ticks have passed, or the free value says so (log 3). -/
def State.dueCompletion (s : State) : List Instr :=
  match s.arbiter.executor with
  | none => []
  | some f =>
    if longestFlight ≤ f.age then [completionCommand f.op]
    else if Config.freeCompletion s.freeCount then [completionCommand f.op]
    else []

/-- The events due at the present tick. -/
def State.dueEvents (s : State) : List Instr :=
  dueWhen s.cycleEndDue .cycleEnd ++ dueWhen s.spacingEndDue .spacingEnd
    ++ dueWhen s.boundaryDue .windowBoundaryEvent
    ++ allEngines.flatMap (fun g => dueWhen (s.highDue g) (.highTimeElapses g))
    ++ allEngines.flatMap (fun g => dueWhen (s.lowDue g) (.lowTimeElapses g))
    ++ allInputs.flatMap (fun i => dueWhen (s.qualificationDue i) (.qualification i))
    ++ allPorts.flatMap (fun p => dueWhen (s.leaseDue p) (.leaseExpiry p))
    ++ s.dueCompletion ++ s.dueTaking

/-- The phase timer of a busy engine counts in HIGH and LOW (R104). -/
def BurstEngine.tick : BurstEngine → BurstEngine
  | .idle => .idle
  | .busy j =>
    match j.phase with
    | .high t => .busy { j with phase := .high (t + 1) }
    | .low t => .busy { j with phase := .low (t + 1) }
    | .gateWait => .busy j
    | .spent => .busy j

/-- A counting qualification timer increases by 1 at each tick (R119). -/
def InputChannel.tick (c : InputChannel) : InputChannel := { c with timer := c.timer.map (· + 1) }

/-- The lease timer counts ticks while ATTACHED (R128, R137). -/
def Session.tick (x : Session) : Session :=
  { x with attachment := x.attachment.map fun a => { a with timer := a.timer + 1 } }

/-- The cycle timer counts ticks while it is not stopped (R65). -/
def CycleEngine.tick (c : CycleEngine) : CycleEngine := { c with timer := c.timer.map (· + 1) }

/-- One tick passes: every counting timer counts it. -/
def State.tick (s : State) : State :=
  { s with
    engine := s.engine.tick
    bursts := s.bursts.map BurstEngine.tick
    inputs := s.inputs.map InputChannel.tick
    sessions := s.sessions.map Session.tick
    arbiter := { s.arbiter with executor := s.arbiter.executor.map fun f => { f with age := f.age + 1 } }
    freeCount := s.freeCount + 1 }

/-- The command at a place of a list, counted modulo its length. -/
def chooseFrom (c : Instr) (cs : List Instr) (n : Nat) : Instr := (c :: cs).getD (n % (cs.length + 1)) c

/-- A step with no command waiting: nothing in reset; else an event that is due, the free value choosing among several
(log 2); else one tick. -/
def State.idleStep (s : State) : Host.Outcome State Fault Refusal :=
  if s.hold.isSome then .next s
  else
    match s.dueEvents with
    | [] => .next s.tick
    | [c] => exec c s
    | c :: cs => exec (chooseFrom c cs (Config.freeOrder s.freeCount)) { s with freeCount := s.freeCount + 1 }

/-- The command that a word spells, put at the front of the queue. -/
def State.withCommand (s : State) (c : Option Instr) : State :=
  match c with
  | some i => { s with pending := i :: s.pending }
  | none => s

end Sys2Proof.Machine
end

