-- ==== Sys2Proof/Safety.lean ====
section
/-! DEFINITION. What the statements speak of beside the model's own functions: the two frame relations, the state after a
request has been answered, the notices of one event port by port, what votes, session ends and window ends leave, the
conditions of a conflict-free set as the spec words them (R9 to R13), and the invariants. -/

namespace Sys2Proof.Machine

/-! ### Frames -/

/-- Only the notice queues may differ. -/
def NoticesOnly (s t : State) : Prop := t = { s with notices := t.notices }

/-- Only the schedule in motion may differ: the reservation table, the cycle engine, the plan, the lines' holders and
levels, the burst engines and the notice queues. The line table, the hub record, the peak loads, the inputs, the sessions,
the links, the arbiter, the reset fields, the queue of commands and the free count stand. -/
def ScheduleOnly (s t : State) : Prop :=
  t = { s with
    entries := t.entries, engine := t.engine, plan := t.plan, holding := t.holding, driven := t.driven,
    bursts := t.bursts, notices := t.notices }

/-! ### Requests taken and answered (R130, R184, R185) -/

/-- The link after its oldest request has been taken and answered: the request is gone, its reply is the newest, and the
credits, the malformed-frame counter and the frame are as before. -/
def Link.answered (k : Link) (r : Request) (status : Status) (payload : List Byte) : Link :=
  { k with
    requests := k.requests.tail
    inService := none
    replies := k.replies ++ [{ tag := r.tag, code := r.code, status := status, payload := payload }] }

/-- The state after the oldest request of port p has been taken and answered, and nothing else has changed: the link, the
lease timer of an ATTACHED record back at 0, the last port served. -/
def State.answered (s : State) (p : Port) (r : Request) (status : Status) (payload : List Byte) : State :=
  { s with
    links := s.links.set p ((s.link p).answered r status payload)
    sessions := s.sessions.set p
      { s.session p with attachment := (s.session p).attachment.map fun a => { a with timer := 0 } }
    arbiter := { s.arbiter with lastServed := p } }

/-- The state after the oldest request of port p has been taken and has begun a flight, and nothing else has changed: it is
in service, the executor is held, and the lease timer is back at 0. -/
def State.inFlight (s : State) (p : Port) (me : SessionId) (r : Request) (op : FlightOp) : State :=
  { s with
    links := s.links.set p { s.link p with requests := (s.link p).requests.tail, inService := some r }
    sessions := s.sessions.set p
      { s.session p with attachment := (s.session p).attachment.map fun a => { a with timer := 0 } }
    arbiter :=
      { s.arbiter with
        executor := some { session := me, request := r, op := op, age := 0 }
        lastServed := p }
    freeCount := s.freeCount + 1 }

/-- The state after the flight f has completed with a reply, and nothing else has changed: the executor is free, the reply
is the newest of the requester's port, and no request of that port is in service. -/
def State.landed (s : State) (f : Flight) (status : Status) (payload : List Byte) : State :=
  { s with
    links := s.links.set f.session.port
      { s.link f.session.port with
        inService := none
        replies := (s.link f.session.port).replies
          ++ [{ tag := f.request.tag, code := f.request.code, status := status, payload := payload }] }
    arbiter := { s.arbiter with executor := none } }

/-- The state after the flight f has completed for a session that has ended (R51, R168): the reply is discarded, the credit
returns, the executor is free, and nothing else has changed. -/
def State.discarded (s : State) (f : Flight) : State :=
  { s with
    links := s.links.set f.session.port
      { s.link f.session.port with inService := none, credits := (s.link f.session.port).credits + 1 }
    arbiter := { s.arbiter with executor := none } }

/-- The mask whose kinds are the low four bits of a byte (R187). -/
def maskBits (b : Byte) : Mask :=
  { window := b.getLsbD 0, lifecycle := b.getLsbD 1, early := b.getLsbD 2, engine := b.getLsbD 3 }

/-! ### The notices of one event, port by port (R15, R73, R76, R84, R92, R112, R117) -/

/-- A notice queue after notices have arrived in order. -/
def NoticeQueue.after (q : NoticeQueue) (bs : List NoticeBody) : NoticeQueue := bs.foldl NoticeQueue.arrive q

/-- The ENGINE notice of port p for a change to state x under the number n (R76, R150). -/
def State.engineNotices (s : State) (p : Port) (x : EngineState) (n : CycleNumber) : List NoticeBody :=
  if s.maskHolds p .engine then [.engine x n] else []

/-- The session attached at port p is o, and its mask holds LIFECYCLE (R15, R149). -/
def State.hearsLifecycle (s : State) (p : Port) (o : SessionId) : Bool :=
  decide (s.attachedSession p = some o) && s.maskHolds p .lifecycle

/-- The notices of port p from epoch processing at the boundary n, in ascending entry order (R15). -/
def State.boundaryNotices (s : State) (p : Port) (n : CycleNumber) : List NoticeBody :=
  allEntries.filterMap fun e =>
    match (s.entry e).state with
    | .retiring o why =>
      if s.hearsLifecycle p o then some (.retired (s.handleOf e) (s.entry e).descriptor.label why (some n)) else none
    | .pending o =>
      if s.hearsLifecycle p o then some (.activated (s.handleOf e) (s.entry e).descriptor.label n) else none
    | _ => none

/-- The RETIRED notices of port p, with the marker STOP, from the entry into STOPPED, in ascending entry order (R16, R73). -/
def State.stopNotices (s : State) (p : Port) : List NoticeBody :=
  allEntries.filterMap fun e =>
    match (s.entry e).state with
    | .retiring o why =>
      if s.hearsLifecycle p o then some (.retired (s.handleOf e) (s.entry e).descriptor.label why none) else none
    | _ => none

/-- A notice of entry e's window is produced for port p: notify is on, the session attached at p is the entry's owner, and
its mask holds WINDOW (R84). -/
def State.hearsWindow (s : State) (p : Port) (e : EntryIx) : Bool :=
  (s.entry e).descriptor.notify && decide (s.ownerOf e = s.attachedSession p) && s.maskHolds p .window

/-- The gate open flag of a window that starts: open without a gate, else by the filtered level of its input (R83). -/
def State.startFlag (s : State) (e : EntryIx) : Bool :=
  match (s.entry e).descriptor.gate with
  | none => true
  | some g => decide ((s.input g.input).filtered = g.level)

/-- The FIRE notice of a window start (R84). -/
def State.fireBody (s : State) (e : EntryIx) : NoticeBody :=
  .fire (s.handleOf e) (s.entry e).descriptor.label (BitVec.ofNat 16 s.engine.reportedNumber.toNat)
    (s.engine.reportedNumber.toNat % 8) (s.entry e).descriptor.start s.inputSnapshot (s.startFlag e)

/-- The FIRE notices of port p for the windows that start, in order. -/
def State.firesFor (s : State) (p : Port) (es : List EntryIx) : List NoticeBody :=
  (es.filter (s.hearsWindow p)).map s.fireBody

/-- The TALLY notices of port p for the BURST windows among those that end, in order (R112, R117). -/
def State.talliesFor (s : State) (p : Port) (es : List EntryIx) : List NoticeBody :=
  (es.filter (s.hearsWindow p)).filterMap fun e =>
    (s.jobOf e).map fun (g, j) =>
      .tally (s.handleOf e) (s.entry e).descriptor.label s.engine.reportedNumber j.pulses j.closures g
        (decide (j.phase = .spent))

/-- The CUT notices of port p for the windows cut at offset c, in order; the pulses are 0 without an engine (R92). -/
def State.cutsFor (s : State) (p : Port) (c : Nat) (es : List EntryIx) : List NoticeBody :=
  (es.filter (s.hearsWindow p)).map fun e =>
    .cut (s.handleOf e) (s.entry e).descriptor.label s.engine.reportedNumber (c - (s.entry e).descriptor.start)
      (match s.jobOf e with
       | some (_, j) => j.pulses
       | none => 0)

/-! ### What the engine and the window sequencer leave -/

/-- The engine has moved to state x: each port has its ENGINE notice (R76), and no entry, window, line or burst engine has
changed. -/
structure EngineMoved (s t : State) (x : EngineState) : Prop where
  state : t.engine.state = x
  notices : ∀ p, t.queue p = (s.queue p).after (s.engineNotices p x s.engine.reportedNumber)
  entries : t.entries = s.entries
  windows : t.plan = s.plan ∧ t.holding = s.holding ∧ t.driven = s.driven ∧ t.bursts = s.bursts

/-- The OPEN windows of the entries es have ended, in this order (R88): they are CLOSED, their lines free and idle, their
engines IDLE, with their TALLY notices in that order; every other window, line and engine, and all else, is as it was. -/
structure WindowsEnded (s t : State) (es : List EntryIx) : Prop where
  frame : t = { s with
    plan := t.plan, holding := t.holding, driven := t.driven, bursts := t.bursts, notices := t.notices }
  closed : ∀ e ∈ es, t.windowState e = some .closed
  windows : ∀ e, e ∉ es → t.windowState e = s.windowState e
  lines : ∀ e ∈ es, t.holding.get (s.entry e).descriptor.line = none
    ∧ t.driven.get (s.entry e).descriptor.line = s.idleLevel (s.entry e).descriptor.line
  otherLines : ∀ l, (∀ e ∈ es, (s.entry e).descriptor.line ≠ l) →
    t.holding.get l = s.holding.get l ∧ t.driven.get l = s.driven.get l
  engines : ∀ e ∈ es, ∀ g j, s.jobOf e = some (g, j) → t.burst g = .idle
  otherEngines : ∀ g, (∀ e ∈ es, ∀ j, s.jobOf e ≠ some (g, j)) → t.burst g = s.burst g
  notices : ∀ p, t.queue p = (s.queue p).after (s.talliesFor p es)

/-! ### The last vote cleared and the end of a session (R58, R60, R139) -/

/-- The vote of port p's session is the only one. -/
def State.lastVoteAt (s : State) (p : Port) : Prop := s.hasVote p = true ∧ ∀ q, q ≠ p → s.hasVote q = false

/-- The engine state after the last vote has been cleared (R60). -/
def stateAfterLastVote : EngineState → EngineState
  | .waiting => .stopped
  | .running => .halting
  | .held => .stopped
  | .stopped => .stopped
  | .halting => .halting

/-- What the clearing of port p's vote leaves (R58, R60). The engine's number, timer, span, spacing, INH level and counters
stand. The last vote cleared in WAITING or HELD is an entry into STOPPED, with its freeing and its notices; in RUNNING the
engine becomes HALTING, with its ENGINE notice; in every other case nothing has changed. Of the notices, those of the ports
other than p are given. -/
structure VoteGone (s t : State) (p : Port) : Prop where
  engine : t.engine = { s.engine with state := t.engine.state, restart := t.engine.restart }
  last : s.lastVoteAt p → t.engine.state = stateAfterLastVote s.engine.state
  restart : s.lastVoteAt p →
    t.engine.restart = (s.engine.restart || decide (stateAfterLastVote s.engine.state = .stopped ∧ s.engine.state ≠ .stopped))
  stopped : s.lastVoteAt p → s.engine.state = .waiting ∨ s.engine.state = .held →
    t.entries = s.enterStopped.entries ∧ ∀ q, q ≠ p → t.queue q = s.enterStopped.queue q
  halting : s.lastVoteAt p → s.engine.state = .running →
    t.entries = s.entries
      ∧ ∀ q, q ≠ p → t.queue q = (s.queue q).after (s.engineNotices q .halting s.engine.reportedNumber)
  still : ¬ s.lastVoteAt p ∨ s.engine.state = .stopped ∨ s.engine.state = .halting →
    t.engine = s.engine ∧ t.entries = s.entries ∧ ∀ q, q ≠ p → t.queue q = s.queue q

/-- What the end of port p's session leaves (R139): the record DETACHED with its number kept, the port's queue as given, a
cleanup claim for the session, the vote gone; every other record, the windows and the rest of the part as they were. -/
structure SessionEnded (s t : State) (p : Port) (queue : NoticeQueue) : Prop where
  sessions : t.sessions = s.sessions.set p { number := (s.session p).number, attachment := none }
  queue : t.queue p = queue
  claims : t.arbiter.claims = s.arbiter.claims.set p (some (s.session p).number)
  executor : t.arbiter.executor = s.arbiter.executor
  vote : VoteGone s t p
  windows : t.plan = s.plan ∧ t.holding = s.holding ∧ t.driven = s.driven ∧ t.bursts = s.bursts
  rest : t.lines = s.lines ∧ t.hub = s.hub ∧ t.peaks = s.peaks ∧ t.inputs = s.inputs ∧ t.resetCause = s.resetCause
    ∧ t.hold = s.hold ∧ t.pending = s.pending ∧ t.freeCount = s.freeCount

/-! ### Frames -/

/-- A frame of port p stands before its code: the part is not in reset, and CSn is high, so that a fall now would sample the
status byte st, or has fallen and sampled st (R174, R175). -/
def State.beforeCode (s : State) (p : Port) (st : Byte) : Prop :=
  s.hold = none ∧ ((s.link p).frame = .idle ∧ st = s.statusByte p ∨ (s.link p).frame = .opened st)

/-- The bytes after the frame code of a SUBMIT that is not complete: none, or a length from 2 to 40 with fewer payload bytes
than it says (R177). -/
def SubmitShort (bytes : List Byte) : Prop :=
  bytes = [] ∨ ∃ n rest, bytes = n :: rest ∧ 2 ≤ n.toNat ∧ n.toNat ≤ 40 ∧ rest.length < n.toNat

/-- A frame of these bytes, and this many bits of a further one, is malformed by its form: it ends before its frame code,
though not without an SCLK edge, or has a code that is none of the five, or is a SUBMIT that is not complete, or an ABANDON
without its session byte (R174, R175, R176). -/
def MalformedForm (mosi : List Byte) (bits : Nat) : Prop :=
  (mosi = [] ∧ 0 < bits)
    ∨ ∃ code rest, mosi = code :: rest
        ∧ (code ∉ [(0x51 : Byte), 0x52, 0x53, 0x54, 0x5A] ∨ (code = 0x51 ∧ SubmitShort rest) ∨ (code = 0x5A ∧ rest = []))

/-! ### Conflict-free sets (R9 to R13) -/

/-- Two windows on one line do not start together, and the later one starts no sooner than the gap after the earlier one's
end (R9). -/
def Descriptor.Apart (gap : Nat) (d e : Descriptor) : Prop :=
  d.start ≠ e.start ∧ (d.start < e.start → d.stop + gap ≤ e.start) ∧ (e.start < d.start → e.stop + gap ≤ d.start)

/-- Condition (a) (R9): every two distinct members on one line that both fire in k are apart. -/
def ConditionA (gapOf : LineIx → Nat) (ms : List Member) : Prop :=
  ∀ k < 8, ms.Pairwise fun m w =>
    m.d.line = w.d.line → m.d.fires k = true → w.d.fires k = true → Descriptor.Apart (gapOf m.d.line) m.d w.d

/-- Condition (b) (R10): from a member that fires in k into one on the same line that fires in the next index, the gap
across the cycle boundary is at least the line's recovery gap. -/
def ConditionB (gapOf : LineIx → Nat) (cycleLength : Nat) (ms : List Member) : Prop :=
  ∀ k < 8, ∀ m ∈ ms, ∀ w ∈ ms,
    m.d.line = w.d.line → m.d.fires k = true → w.d.fires ((k + 1) % 8) = true →
      gapOf m.d.line ≤ (cycleLength - m.d.stop) + w.d.start

/-- Condition (c) on one rail (R11): at the start of each of its members that fires in k, the draws of its members that
fire in k and cover that tick sum to no more than the capacity. -/
def ConditionC (capacity : Nat) (rail : Rail) (ms : List Member) : Prop :=
  ∀ k < 8, ∀ m ∈ ms, m.d.rail = some rail → m.d.fires k = true → railSum ms rail k m.d.start ≤ capacity

/-- Condition (d) (R12): at the start of each BURST member that fires in k, at most two BURST members that fire in k cover
that tick. -/
def ConditionD (ms : List Member) : Prop :=
  ∀ k < 8, ∀ m ∈ ms, m.d.isBurst = true → m.d.fires k = true → (burstMembers ms k m.d.start).length ≤ 2

/-- A set is conflict-free under a hub record and the lines' recovery gaps (R13). -/
structure ConflictFree (h : HubRecord) (gapOf : LineIx → Nat) (ms : List Member) : Prop where
  a : ConditionA gapOf ms
  b : ConditionB gapOf h.cycleLength ms
  railA : ConditionC h.capacityA .a ms
  railB : ConditionC h.capacityB .b ms
  d : ConditionD ms

/-- Steps 4, 5 and 6 of an admission on a trial set (R29 to R35, R40): the first that fails refuses with its status and the
conflict report of its failing points, whatever the later ones say; a set that fails none passes. -/
structure TrialJudged {α : Type} (s : State) (trial : List Member) (value : α) (v : Verdict α) : Prop where
  lineClash : ¬ (ConditionA s.gapOf trial ∧ ConditionB s.gapOf s.hub.cycleLength trial) →
    ∃ c, conflictReport s.freeCount (lineFailures s.gapOf s.hub.cycleLength trial) = some c
      ∧ v = .refuse .lineClash (reportBytes c)
  railOver : ConditionA s.gapOf trial → ConditionB s.gapOf s.hub.cycleLength trial →
    ¬ (ConditionC s.hub.capacityA .a trial ∧ ConditionC s.hub.capacityB .b trial) →
      ∃ c, conflictReport s.freeCount (railFailures s.hub.capacityA s.hub.capacityB trial) = some c
        ∧ v = .refuse .railOver (railReportBytes c)
  enginesOver : ConditionA s.gapOf trial → ConditionB s.gapOf s.hub.cycleLength trial →
    ConditionC s.hub.capacityA .a trial → ConditionC s.hub.capacityB .b trial → ¬ ConditionD trial →
      ∃ c, conflictReport s.freeCount (burstFailures trial) = some c ∧ v = .refuse .enginesOver (reportBytes c)
  pass : ConflictFree s.hub s.gapOf trial → v = .pass value

/-- The ranges and constraints of R1 on a descriptor, against a cycle length (R25, R26). -/
structure Descriptor.InRange (cycleLength : Nat) (d : Descriptor) : Prop where
  start : d.start < cycleLength
  duration : 1 ≤ d.duration
  stop : d.start + d.duration ≤ cycleLength
  pattern : d.pattern ≠ 0
  positions : ∀ i < 8, d.period.ticks ≤ i → d.pattern.getLsbD i = false
  draw : d.draw ≤ 15
  rail : d.rail = none → d.draw = 0
  burst :
    match d.kind with
    | .solid => True
    | .burst part =>
      1 ≤ part.highTime ∧ part.highTime ≤ 65535 ∧ 1 ≤ part.lowTime ∧ part.lowTime ≤ 65535
        ∧ ∀ c ∈ part.count, 1 ≤ c ∧ c ≤ 254

/-- The ranges of the hub configuration record (R163, R165). -/
structure HubRecord.InRange (h : HubRecord) : Prop where
  short : 100 ≤ h.cycleLength
  long : h.cycleLength ≤ 1000000
  capacityA : h.capacityA ≤ 255
  capacityB : h.capacityB ≤ 255
  widths : ∀ i, h.widths.get i ≤ 255

/-! ### Invariants -/

/-- How many requests a port has in service. -/
def Link.serving (k : Link) : Nat := if k.inService.isSome then 1 else 0

/-- R178, and R184 on the in-service marker: the credits of a port are 4 less what is queued, in service or uncollected, and
a request is in service at a port exactly while the executor is held by the port's flight. -/
structure CreditsAccounted (s : State) : Prop where
  sum : ∀ p, (s.link p).credits + (s.link p).requests.length + (s.link p).serving + (s.link p).replies.length = 4
  service : ∀ p,
    (s.link p).inService =
      s.arbiter.executor.bind fun f => if f.session.port = p then some f.request else none

/-- R146, R155, R156, R158: a notice queue holds at most 32 records, one with losses counted is full, and a record in
transfer is the head. -/
structure QueuesBounded (s : State) : Prop where
  size : ∀ p, (s.queue p).records.length ≤ 32
  losses : ∀ p, (s.queue p).losses ≠ 0 → (s.queue p).records.length = 32
  transfer : ∀ p, ∀ r ∈ (s.queue p).inTransfer, (s.queue p).records.head? = some r

/-- R58, R72, R56, R63: the engine is STOPPED or HALTING exactly when no attached session holds a vote; INH is asserted
throughout HELD and released throughout WAITING, RUNNING and HALTING; the cycle timer counts exactly while the spacing is
COUNTING, and a cycle in progress has it counting; the restart flag is set in STOPPED and until the first cycle. -/
structure EngineFollowsVotes (s : State) : Prop where
  votes : (s.engine.state = .stopped ∨ s.engine.state = .halting) ↔ s.anyVote = false
  held : s.engine.state = .held → s.engine.inhAsserted = true
  released : s.engine.state ≠ .stopped → s.engine.state ≠ .held → s.engine.inhAsserted = false
  spacing : s.engine.spacing = .counting ↔ s.engine.timer.isSome = true
  progress : s.engine.state.inProgress = true → s.engine.timer.isSome = true ∧ s.engine.number.isSome = true
  restart : s.engine.state = .stopped → s.engine.restart = true
  first : s.engine.number = none → s.engine.restart = true

/-- What the flight in progress found at its taking and no event of the flight changes (R47): the executor's operation, with
the sets its verdict was judged on as they stand now. -/
def FlightStands (s : State) : FlightOp → Prop
  | .add (.pass d) =>
    d.InRange s.hub.cycleLength ∧ ConflictFree s.hub s.gapOf (s.nextEpochSet ++ [candidate d])
  | .replace (.pass r) =>
    r.descriptor.InRange s.hub.cycleLength ∧ (s.entry r.old).state.inNextEpoch = true
      ∧ (r.stoppedAtTaking = true → s.engine.state = .stopped)
      ∧ ConflictFree s.hub s.gapOf (s.nextEpochWithout r.old ++ [candidate r.descriptor])
  | .setHub (.pass h) =>
    s.engine.state = .stopped
      ∧ (∀ e, (s.entry e).state ≠ .free → (s.entry e).descriptor.InRange h.cycleLength)
      ∧ ConditionA s.gapOf s.nextEpochSet ∧ ConditionB s.gapOf h.cycleLength s.nextEpochSet
      ∧ ConditionC h.capacityA .a s.nextEpochSet ∧ ConditionC h.capacityB .b s.nextEpochSet
  | _ => True

/-- R13, with R2, R8 and R47: both sets are conflict-free, every reservation's descriptor is in range, no entry is RETIRING
in STOPPED, and what a flight has found stands. -/
structure ScheduleSound (s : State) : Prop where
  nextEpoch : ConflictFree s.hub s.gapOf s.nextEpochSet
  firing : ConflictFree s.hub s.gapOf s.firingSet
  ranges : ∀ e, (s.entry e).state ≠ .free → (s.entry e).descriptor.InRange s.hub.cycleLength
  stopped : s.engine.state = .stopped → ∀ e, (s.entry e).state.isRetiring = false
  flight : ∀ f ∈ s.arbiter.executor, FlightStands s f.op

/-- R54: each rail's peak load is the largest sum of draws that condition (c) forms over the next-epoch set as it stands. -/
structure PeaksCurrent (s : State) : Prop where
  a : s.peaks.a = railPeak s.nextEpochSet .a
  b : s.peaks.b = railPeak s.nextEpochSet .b

/-- R79, R81, R94, R104, R114, R17: there is a plan exactly while a cycle is in progress; its entries are distinct and in
force; a line is held only by an OPEN window on it, and away from its idle level only with one; a busy burst engine and the
OPEN window it serves name each other. -/
structure LinesServed (s : State) : Prop where
  plan : s.plan.isSome = s.engine.state.inProgress
  distinct : (s.planList.map fun w => w.entry).Nodup
  inForce : ∀ w ∈ s.planList, (s.entry w.entry).state.inFiring = true
  holder : ∀ l, ∀ e ∈ s.holding.get l,
    ∃ w ∈ s.planList, w.entry = e ∧ w.state.isOpen = true ∧ (s.entry e).descriptor.line = l
  driven : s.hold = none → ∀ l, s.driven.get l ≠ s.idleLevel l →
    ∃ w ∈ s.planList, w.state.isOpen = true ∧ (s.entry w.entry).descriptor.line = l
  engine : ∀ g, ∀ j ∈ (s.burst g).job,
    (∃ w ∈ s.planList, w.entry = j.window ∧ w.state.engine = some g)
      ∧ j.line = (s.entry j.window).descriptor.line ∧ j.idle = s.idleLevel j.line
      ∧ (s.entry j.window).descriptor.isBurst = true
  served : ∀ w ∈ s.planList, ∀ g ∈ w.state.engine, ∃ j ∈ (s.burst g).job, j.window = w.entry
  flight : ∀ f ∈ s.arbiter.executor,
    match f.op with
    | .replace (.pass r) => r.stoppedAtTaking = true → s.engine.state = .stopped
    | _ => True

/-- R82, R87 and R56: the windows of the plan fire in the index of the cycle; a SCHEDULED one has its start ahead, an OPEN
one has started and not passed its end, and all OPEN ones cover one offset; an OPEN BURST window has an engine; the span is
the cycle length in force and the timer is within it. -/
structure WindowsTimed (s : State) : Prop where
  fires : ∀ w ∈ s.planList, (s.entry w.entry).descriptor.fires (superIndex s.engine.reportedNumber) = true
  scheduled : ∀ w ∈ s.planList, w.state = .scheduled →
    s.engine.count ≤ (s.entry w.entry).descriptor.start
      ∧ (s.engine.count = 0 → 0 < (s.entry w.entry).descriptor.start)
  opened : ∀ w ∈ s.planList, w.state.isOpen = true →
    (s.entry w.entry).descriptor.start ≤ s.engine.count ∧ s.engine.count ≤ (s.entry w.entry).descriptor.stop
  together :
    (∀ w ∈ s.planList, w.state.isOpen = true → s.engine.count < (s.entry w.entry).descriptor.stop)
      ∨ (∀ w ∈ s.planList, w.state.isOpen = true → (s.entry w.entry).descriptor.start < s.engine.count)
  served : ∀ w ∈ s.planList, w.state.isOpen = true → (s.entry w.entry).descriptor.isBurst = true →
    w.state.engine.isSome = true
  timer : s.engine.state.inProgress = true →
    s.engine.timer.isSome = true ∧ s.engine.count ≤ s.engine.span ∧ s.engine.span = s.hub.cycleLength

/-- R99, with R27 and R46: on a CLAIMED line every non-FREE entry belongs to the holder, and a flight that has passed is for
a line that no other session holds. -/
structure ClaimsRespected (s : State) : Prop where
  owners : ∀ l, ∀ o ∈ (s.line l).holder, ∀ e, (s.entry e).isOn l = true → s.ownerOf e = some o
  flight : ∀ f ∈ s.arbiter.executor,
    match f.op with
    | .add (.pass d) => ∀ o ∈ (s.line d.line).holder, o = f.session
    | .replace (.pass r) => ∀ o ∈ (s.line r.descriptor.line).holder, o = f.session
    | _ => True

/-- A session is attached, or has ended with its cleanup claim still pending (R14). -/
def State.accountable (s : State) (o : SessionId) : Prop :=
  s.attachedSession o.port = some o ∨ s.arbiter.claims.get o.port = some o.number

/-- R14, R101, R143: every PENDING or ACTIVE entry and every CLAIMED line belongs to an attached session or to one whose
cleanup claim is pending, and a pending claim names the last session of a DETACHED port. -/
structure OwnersAccountable (s : State) : Prop where
  entries : ∀ e, (s.entry e).state.inNextEpoch = true → ∀ o ∈ s.ownerOf e, s.accountable o
  lines : ∀ l, ∀ o ∈ (s.line l).holder, s.accountable o
  claims : ∀ p, ∀ n ∈ s.arbiter.claims.get p,
    (s.session p).attachment = none ∧ (s.session p).number = n

/-- R46, R65, R104, R119, R127, R128: no timer counts past the count at which its event is due; outside a reset a
qualification timer counts exactly while the raw level differs from the filtered level; no flight is older than 40 ticks. -/
structure TimersBounded (s : State) : Prop where
  cycle : ∀ t ∈ s.engine.timer, t ≤ s.engine.span
  burst : ∀ g, ∀ j ∈ (s.burst g).job,
    match j.phase with
    | .high t => t ≤ j.part.highTime
    | .low t => t ≤ j.part.lowTime
    | _ => True
  pendingChange : s.hold = none → ∀ i, (s.input i).timer = none ↔ (s.input i).raw = (s.input i).filtered
  input : ∀ i, ∀ t ∈ (s.input i).timer, t ≤ s.hub.widths.get i
  lease : ∀ p, ∀ a ∈ (s.session p).attachment, a.timer ≤ a.lease * 1000
  flight : ∀ f ∈ s.arbiter.executor, f.age ≤ 40

/-- The draws of the OPEN windows on a rail (R90). -/
def State.openDraw (s : State) (rail : Rail) : Nat :=
  ((s.openEntries.filter fun e => decide ((s.entry e).descriptor.rail = some rail)).map fun e =>
    (s.entry e).descriptor.draw).sum

end Sys2Proof.Machine
end

