-- ==== Sys2Proof/Certificates/Slice0/Obligations.lean ====
section
/-! DEFINITION. The statements: what each command does, what taking, answering and completing a request leave, how windows,
bursts, notices and frames go, and the invariants every step keeps. A hypothesis `s.takenRequest p kind = some r` says that
the arbiter's next taking is of port p's oldest request r, and that its code names this kind. -/

open Sys2Proof Sys2Proof.Machine

/-! ### Steps, the queue, and the arbiter -/

/-- A step takes the command at the front of the queue and runs it on the state with the rest of the queue. -/
def Obligations.StepRunsFrontCommand : Prop :=
  ∀ (c : Instr) (rest : List Instr) (s : State), s.pending = c :: rest →
    step s = exec c { s with pending := rest }

/-- Every command answers a next state in every state, and leaves the queue alone. -/
def Obligations.EveryCommandAnswersNext : Prop :=
  ∀ (c : Instr) (s : State), ∃ t, exec c s = .next t ∧ t.pending = s.pending

/-- The model's choice (logs 1 and 2): with no command waiting nothing happens in reset; else the one event that is due;
else one of those due; else one tick passes. A tick adds 1 to every counting timer (R65, R104, R119, R128), to the
model's own count of a flight's ticks and to the free count, and to nothing else. -/
def Obligations.EmptyQueueTakesADueEventOrATick : Prop :=
  (∀ s : State, s.pending = [] →
     (s.hold.isSome = true → step s = .next s)
     ∧ (s.hold = none → s.dueEvents = [] → step s = .next s.tick)
     ∧ (∀ c, s.hold = none → s.dueEvents = [c] → step s = exec c s)
     ∧ (s.hold = none → 2 ≤ s.dueEvents.length →
         ∃ c ∈ s.dueEvents, step s = exec c { s with freeCount := s.freeCount + 1 }))
  ∧ (∀ s : State,
     s.tick =
         { s with
           engine := s.tick.engine, bursts := s.tick.bursts, inputs := s.tick.inputs, sessions := s.tick.sessions,
           arbiter := s.tick.arbiter, freeCount := s.freeCount + 1 }
     ∧ s.tick.engine = { s.engine with timer := s.engine.timer.map (· + 1) }
     ∧ (∀ g, s.burst g = .idle → s.tick.burst g = .idle)
     ∧ (∀ g j t, s.burst g = .busy j → j.phase = .high t → s.tick.burst g = .busy { j with phase := .high (t + 1) })
     ∧ (∀ g j t, s.burst g = .busy j → j.phase = .low t → s.tick.burst g = .busy { j with phase := .low (t + 1) })
     ∧ (∀ g j, s.burst g = .busy j → j.phase = .gateWait ∨ j.phase = .spent → s.tick.burst g = .busy j)
     ∧ (∀ i, s.tick.input i = { s.input i with timer := (s.input i).timer.map (· + 1) })
     ∧ (∀ p, s.tick.session p =
         { s.session p with attachment := (s.session p).attachment.map fun a => { a with timer := a.timer + 1 } })
     ∧ s.tick.arbiter =
         { s.arbiter with executor := s.arbiter.executor.map fun f => { f with age := f.age + 1 } })

/-- R183: while the executor is held nothing is taken; else the pending claim of the lowest port; else the oldest
request of the first port, in the order after the last one served, that has one. -/
def Obligations.ArbiterTakesClaimsThenPortsInTurn : Prop :=
  ∀ s : State,
    (s.arbiter.executor.isSome = true ∨ s.hold.isSome = true → s.nextTaking = none)
    ∧ (s.arbiter.executor = none → s.hold = none →
        (∀ p, (s.arbiter.claims.get p).isSome = true → (∀ q < p, s.arbiter.claims.get q = none) →
          s.nextTaking = some (.claim p))
        ∧ ((∀ p, s.arbiter.claims.get p = none) →
            (∀ d : Nat, 1 ≤ d → d ≤ 4 →
              (∀ c : Nat, 1 ≤ c → c < d → (s.link (s.arbiter.lastServed + Fin.ofNat 4 c)).requests = []) →
              ∀ r rest, (s.link (s.arbiter.lastServed + Fin.ofNat 4 d)).requests = r :: rest →
                s.nextTaking = some (.request (s.arbiter.lastServed + Fin.ofNat 4 d))
                ∧ s.takenRequest (s.arbiter.lastServed + Fin.ofNat 4 d) (kindOfCode r.code) = some r)
            ∧ ((∀ p, (s.link p).requests = []) → s.nextTaking = none)))

/-- R130, steps 1 and 3: a request whose code names no request is answered BAD_KIND, from an ATTACHED port (whose lease
timer restarts) and from a DETACHED one alike; a request other than ATTACH from a DETACHED port is answered NO_SESSION;
nothing else changes. -/
def Obligations.UnknownCodesAndDetachedPortsAnswered : Prop :=
  (∀ (s : State) (p : Port) (r : Request), s.takenRequest p .unknown = some r →
     exec (.badKind p) s = .next (s.answered p r .badKind []))
  ∧ (∀ (s : State) (p : Port) (kind : RequestKind) (r : Request),
     kind ≠ .attach → kind ≠ .unknown → s.takenRequest p kind = some r → (s.session p).attachment = none →
       exec (takingCommand p kind) s = .next (s.answered p r .noSession []))

/-- The model's choice (log 4): a command whose event cannot happen in the state changes nothing: a taking that is not the
arbiter's next, a timer's event before its time, a completion with no flight of its kind, a frame at a port that has
another frame in progress or ignores SCLK, a frame of another row's code, a MALFORMED_FRAME of good form, CSN_RISE_AFTER_RESET at a port that ignores
nothing, and a release with no reset in progress. -/
def Obligations.CommandWithoutItsEventStutters : Prop :=
  ∀ s : State,
    (∀ p kind, s.takenRequest p kind = none → exec (takingCommand p kind) s = .next s)
    ∧ (∀ p, s.nextTaking ≠ some (.claim p) → exec (.cleanupClaim p) s = .next s)
    ∧ (s.cycleEndDue = false → exec .cycleEnd s = .next s)
    ∧ (s.spacingEndDue = false → exec .spacingEnd s = .next s)
    ∧ (s.boundaryDue = false → exec .windowBoundaryEvent s = .next s)
    ∧ (∀ i, s.qualificationDue i = false → exec (.qualification i) s = .next s)
    ∧ (∀ g, s.highDue g = false → exec (.highTimeElapses g) s = .next s)
    ∧ (∀ g, s.lowDue g = false → exec (.lowTimeElapses g) s = .next s)
    ∧ (∀ p, s.leaseDue p = false → exec (.leaseExpiry p) s = .next s)
    ∧ (s.engine.inhAsserted = true → exec .inhAsserted s = .next s)
    ∧ (s.engine.inhAsserted = false → exec .inhReleased s = .next s)
    ∧ ((∀ f ∈ s.arbiter.executor, ∀ v, f.op ≠ .add v) → exec .addCompletion s = .next s)
    ∧ ((∀ f ∈ s.arbiter.executor, ∀ v, f.op ≠ .replace v) → exec .replaceCompletion s = .next s)
    ∧ ((∀ f ∈ s.arbiter.executor, ∀ v, f.op ≠ .setHub v) → exec .setHubCompletion s = .next s)
    ∧ (∀ p, (s.link p).frame ≠ .idle → ∀ mosi bits n rise,
        ((s.link p).frame.fitsSubmit = false → exec (.submit p ⟨mosi, rise⟩) s = .next s)
        ∧ ((s.link p).frame.fitsAbandon = false → exec (.abandon p ⟨mosi, rise⟩) s = .next s)
        ∧ ((s.link p).frame.endsMalformed 1 = false → exec (.malformedFrame p ⟨mosi, rise⟩ bits) s = .next s)
        ∧ ((s.link p).frame.fitsCollect = false → exec (.collect p n rise) s = .next s)
        ∧ ((s.link p).frame.fitsFetch = false → exec (.fetch p n rise) s = .next s)
        ∧ ((s.link p).frame.fitsStatus = false → exec (.status p n rise) s = .next s))
    ∧ (∀ p st code mosi rise, s.beforeCode p st →
        (code ≠ 0x51 → exec (.submit p ⟨code :: mosi, rise⟩) s = .next s)
        ∧ (code ≠ 0x5A → exec (.abandon p ⟨code :: mosi, rise⟩) s = .next s))
    ∧ (∀ p st mosi bits, s.beforeCode p st → ¬ MalformedForm mosi bits →
        exec (.malformedFrame p ⟨mosi, true⟩ bits) s = .next s)
    ∧ (∀ p, (s.link p).frame ≠ .ignoring → exec (.csnRiseAfterReset p) s = .next s)
    ∧ (s.hold = none → ∀ inputs inh cs, exec (.resetRelease inputs inh cs) s = .next s)

/-! ### Sessions -/

/-- R132: ATTACH. BAD_FIELD for a lease outside 10 to 60,000 ms, an unknown mask kind or a short payload; then ATTACHED;
else the next session number, the lease, the mask, no vote, the lease timer at 0, and the port's sequence number and
loss counter at 0. -/
def Obligations.AttachGivesNextSession : Prop :=
  ∀ (s : State) (p : Port) (r : Request), s.takenRequest p .attach = some r →
    if r.fields.length < 3 ∨ word16At r.fields 0 < 10 ∨ 60000 < word16At r.fields 0 ∨ 16 ≤ (byteAt r.fields 2).toNat then
      exec (.attach p) s = .next (s.answered p r .badField [])
    else if (s.session p).attachment.isSome then
      exec (.attach p) s = .next (s.answered p r .attached [])
    else
      exec (.attach p) s = .next
        { s.answered p r .ok [(s.session p).number + 1] with
          sessions := s.sessions.set p
            { number := (s.session p).number + 1
              attachment := some
                { lease := word16At r.fields 0, timer := 0, vote := false, mask := maskBits (byteAt r.fields 2) } }
          notices := s.notices.set p { s.queue p with seq := 0, losses := 0 } }

/-- R134: RENEW restarts the lease timer, and nothing else; the reply is OK with no payload, whatever bytes follow. -/
def Obligations.RenewRestartsTheLeaseTimer : Prop :=
  ∀ (s : State) (p : Port) (r : Request), s.takenRequest p .renew = some r → (s.session p).attachment.isSome = true →
    exec (.renew p) s = .next (s.answered p r .ok [])

/-- R135: SET_NOTICES replaces the mask, or is BAD_FIELD for a short payload or an unknown kind. -/
def Obligations.SetNoticesReplacesTheMask : Prop :=
  ∀ (s : State) (p : Port) (r : Request) (a : Attachment),
    s.takenRequest p .setNotices = some r → (s.session p).attachment = some a →
      if r.fields.length < 1 ∨ 16 ≤ (byteAt r.fields 0).toNat then
        exec (.setNotices p) s = .next (s.answered p r .badField [])
      else
        exec (.setNotices p) s = .next
          { s.answered p r .ok [] with
            sessions := s.sessions.set p
              { s.session p with attachment := some { a with timer := 0, mask := maskBits (byteAt r.fields 0) } } }

/-- R136, R137, R139, R140: DETACH ends the session with no EXPIRED notice, the sequence number kept, and is answered
OK. At m × 1000 ticks of a lease of m ms the session ends, and one EXPIRED notice with the next sequence number stands
in the cleared queue; that a LEASE_EXPIRY before that changes nothing is log 4's (DESIGN CHOICE). A session end that
clears the last vote moves the engine (R60), with the freed entries and the notices of the other ports (R16, R73, R76). -/
def Obligations.SessionsEndByDetachAndByExpiry : Prop :=
  (∀ (s : State) (p : Port) (r : Request), s.takenRequest p .detach = some r → (s.session p).attachment.isSome = true →
     ∃ t, exec (.detach p) s = .next t
       ∧ SessionEnded s t p { s.queue p with records := [], losses := 0, inTransfer := none }
       ∧ t.links = s.links.set p ((s.link p).answered r .ok [])
       ∧ t.arbiter.lastServed = p)
  ∧ (∀ (s : State) (p : Port) (a : Attachment), s.hold = none → (s.session p).attachment = some a →
     (a.lease * 1000 ≤ a.timer →
       ∃ t, exec (.leaseExpiry p) s = .next t
         ∧ SessionEnded s t p
             { records := [{ seq := (s.queue p).seq, body := .expired (s.session p).number }]
               seq := (s.queue p).seq + 1
               losses := 0
               inTransfer := none }
         ∧ t.links = s.links
         ∧ t.arbiter.lastServed = s.arbiter.lastServed)
     ∧ (a.timer < a.lease * 1000 → exec (.leaseExpiry p) s = .next s))

/-- R141, R182: an ABANDON whose byte is the session number at the rise of CSn ends an attached session, the engine acting on
the last vote cleared as at any session end (R60), clears the port's queues with their credits and sets its sequence number
to 0; on a DETACHED port it clears the same with no session end; a wrong byte is counted as malformed and changes nothing
else. Nothing is done before the rise, whatever else falls between. -/
def Obligations.AbandonClearsThePort : Prop :=
  ∀ (s : State) (p : Port) (b : Byte) (more : List Byte),
    let zeros := fun n : Nat => List.replicate n (0 : Byte)
    let judged := fun (c : Instr) (miso : List Byte) =>
      let cleared : Link :=
        { s.link p with
          frame := .idle, requests := [], replies := [], miso := miso
          credits := (s.link p).credits + (s.link p).requests.length + (s.link p).replies.length }
      let empty : NoticeQueue := { records := [], seq := 0, losses := 0, inTransfer := none }
      (b = (s.session p).number → (s.session p).attachment.isSome = true →
        ∃ t, exec c s = .next t ∧ SessionEnded s t p empty
          ∧ t.links = s.links.set p cleared ∧ t.arbiter.lastServed = s.arbiter.lastServed)
      ∧ (b = (s.session p).number → (s.session p).attachment = none →
        exec c s = .next { s with links := s.links.set p cleared, notices := s.notices.set p empty })
      ∧ (b ≠ (s.session p).number →
        exec c s = .next
          { s with
            links := s.links.set p
              { s.link p with frame := .idle, miso := miso, malformed := saturatingInc (s.link p).malformed } })
    (∀ st, s.beforeCode p st →
      judged (.abandon p ⟨0x5A :: b :: more, true⟩) (st :: zeros (more.length + 1))
      ∧ exec (.abandon p ⟨0x5A :: b :: more, false⟩) s = .next
          { s with
            links := s.links.set p
              { s.link p with frame := .abandon (some b), miso := st :: zeros (more.length + 1) } })
    ∧ (s.hold = none → (s.link p).frame = .abandon none →
        judged (.abandon p ⟨b :: more, true⟩) ((s.link p).miso ++ zeros (more.length + 1)))
    ∧ (s.hold = none → (s.link p).frame = .abandon (some b) →
        judged (.abandon p ⟨more, true⟩) ((s.link p).miso ++ zeros more.length))

/-! ### The reservation table -/

/-- R18: WITHDRAW, refused in its order, then by the entry's state and the engine's; the generation of a freed entry goes up
by 1, no notice is produced, and the peak loads follow. That a freed entry's descriptor and fire count stay as they were is
log 22's (DESIGN CHOICE). -/
def Obligations.WithdrawFreesOrRetires : Prop :=
  ∀ (s : State) (p : Port) (r : Request) (me : SessionId),
    s.takenRequest p .withdraw = some r → s.attachedSession p = some me →
      match handleFields r.fields with
      | none => exec (.withdraw p) s = .next (s.answered p r .badField [])
      | some h =>
        if (s.entry h.index).state = .free ∨ (s.entry h.index).generation ≠ h.generation then
          exec (.withdraw p) s = .next (s.answered p r .stale [])
        else if s.ownerOf h.index ≠ some me then exec (.withdraw p) s = .next (s.answered p r .notOwner [])
        else if (s.entry h.index).state.isRetiring = true then
          exec (.withdraw p) s = .next (s.answered p r .retiring [])
        else if (s.entry h.index).state = .pending me ∨ s.engine.state = .stopped then
          exec (.withdraw p) s = .next
            (State.recomputePeaks
              { s.answered p r .ok [0] with
                entries := s.entries.set h.index
                  { s.entry h.index with state := .free, generation := (s.entry h.index).generation + 1 } })
        else
          exec (.withdraw p) s = .next
            (State.recomputePeaks
              { s.answered p r .ok [3] with
                entries := s.entries.set h.index { s.entry h.index with state := .retiring me .withdrawn } })

/-- R22, R23, R6: QUERY reports the entry a handle names, whoever owns it; a handle is two bytes, an index of at most 47
and a generation of at most 15, and anything else, NONE included, is BAD_FIELD; SCAN reports the lowest-numbered non-
FREE entry at or above its index, or NONE. Both change nothing else. -/
def Obligations.QueryAndScanReadTheTable : Prop :=
  (∀ (s : State) (p : Port) (r : Request),
     s.takenRequest p .query = some r → (s.session p).attachment.isSome = true →
       match handleFields r.fields with
       | none => exec (.query p) s = .next (s.answered p r .badField [])
       | some h =>
         if (s.entry h.index).state = .free ∨ (s.entry h.index).generation ≠ h.generation then
           exec (.query p) s = .next (s.answered p r .stale [])
         else
           exec (.query p) s = .next (s.answered p r .ok (entryRecordBytes h.index (s.entry h.index))))
  ∧ (∀ f : List Byte,
     (f.length < 2 ∨ 47 < (byteAt f 0).toNat ∨ 15 < (byteAt f 1).toNat → handleFields f = none)
     ∧ (2 ≤ f.length → (byteAt f 0).toNat ≤ 47 → (byteAt f 1).toNat ≤ 15 →
         ∃ h, handleFields f = some h ∧ h.index.val = (byteAt f 0).toNat ∧ h.generation.toNat = (byteAt f 1).toNat))
  ∧ (∀ (s : State) (p : Port) (r : Request),
     s.takenRequest p .scan = some r → (s.session p).attachment.isSome = true →
       (r.fields = [] ∨ 47 < (byteAt r.fields 0).toNat → exec (.scan p) s = .next (s.answered p r .badField []))
       ∧ (r.fields ≠ [] → ∀ e : EntryIx, (byteAt r.fields 0).toNat ≤ e.val → (s.entry e).state ≠ .free →
           (∀ f : EntryIx, (byteAt r.fields 0).toNat ≤ f.val → f < e → (s.entry f).state = .free) →
           exec (.scan p) s = .next (s.answered p r .ok (entryRecordBytes e (s.entry e))))
       ∧ (r.fields ≠ [] → (byteAt r.fields 0).toNat ≤ 47 →
           (∀ f : EntryIx, (byteAt r.fields 0).toNat ≤ f.val → (s.entry f).state = .free) →
           exec (.scan p) s = .next (s.answered p r .ok [0xFF, 0xFF])))

/-- R20, R101, R143: the cleanup claim of an ended session. Its PENDING entries are freed, its ACTIVE entries retired or,
with the engine STOPPED, freed, its RETIRING entries kept; its lines are opened; every other entry and line stands, no
notice is produced, the last port served stays, and the peak loads follow. That a freed entry's descriptor and fire count
stay as they were is log 22's (DESIGN CHOICE). -/
def Obligations.CleanupClaimRemovesTheSession : Prop :=
  ∀ (s : State) (p : Port) (n : Byte), s.nextTaking = some (.claim p) → s.arbiter.claims.get p = some n →
    ∃ t, exec (.cleanupClaim p) s = .next t
      ∧ t = { s with
          entries := t.entries, lines := t.lines
          peaks := { a := railPeak t.nextEpochSet .a, b := railPeak t.nextEpochSet .b }
          arbiter := { s.arbiter with claims := s.arbiter.claims.set p none } }
      ∧ (∀ e, t.entry e =
          if (s.entry e).state = .pending { port := p, number := n }
              ∨ ((s.entry e).state = .active { port := p, number := n } ∧ s.engine.state = .stopped) then
            { s.entry e with state := .free, generation := (s.entry e).generation + 1 }
          else if (s.entry e).state = .active { port := p, number := n } then
            { s.entry e with state := .retiring { port := p, number := n } .withdrawn }
          else s.entry e)
      ∧ (∀ l, t.line l =
          if (s.line l).holder = some { port := p, number := n } then { s.line l with holder := none } else s.line l)

/-! ### Admission -/

/-- R24, R38, R164, R130: an ADD, REPLACE or SET_HUB from an attached port begins a flight with its verdict judged on
the state at the taking, and changes nothing else. -/
def Obligations.AdmissionsAndSetHubBeginFlights : Prop :=
  ∀ (s : State) (p : Port) (r : Request) (me : SessionId), s.attachedSession p = some me →
    (s.takenRequest p .add = some r →
      exec (.add p) s = .next (s.inFlight p me r (.add (s.judgeAdd me r.fields))))
    ∧ (s.takenRequest p .replace = some r →
      exec (.replace p) s = .next (s.inFlight p me r (.replace (s.judgeReplace me r.fields))))
    ∧ (s.takenRequest p .setHub = some r →
      exec (.setHub p) s = .next (s.inFlight p me r (.setHub (s.judgeSetHub r.fields))))

/-- R24, R27 to R32: the six checks of an ADD in their order: the first that fails gives its status and, for steps 4 to 6,
the report of its failing points, whatever the later ones say, and an ADD that fails none passes with its descriptor. -/
def Obligations.AddChecksInOrder : Prop :=
  ∀ (s : State) (me : SessionId) (f : List Byte),
    (descriptorOf s.hub.cycleLength f = none → s.judgeAdd me f = .refuse .badField [])
    ∧ ∀ d, descriptorOf s.hub.cycleLength f = some d →
        ((∃ o, (s.line d.line).holder = some o ∧ o ≠ me) → s.judgeAdd me f = .refuse .lineHeld [])
        ∧ ((∀ o, (s.line d.line).holder = some o → o = me) →
          ((∀ e, (s.entry e).state ≠ .free) → s.judgeAdd me f = .refuse .noEntry [])
          ∧ ((∃ e, (s.entry e).state = .free) →
            TrialJudged s (s.nextEpochSet ++ [candidate d]) d (s.judgeAdd me f)))

/-- R25, R26, R165, R187: a descriptor that reads is in range, with its numbers from the bytes the layout gives; a short
payload, a byte that names nothing, a reserved flag bit, a gate input above 7 with the gate present, a burst part present
for SOLID or absent for BURST, or a burst number of 0 does not read. A hub record reads exactly when its 16 bytes are
there and its cycle length, start mode, line and edge are in range, and is then in range. Every descriptor in range reads
back from its own 21 bytes, whatever the bytes of an absent gate or burst part hold and whatever follows them, and every hub
record in range from its own 16, whatever follows. -/
def Obligations.DescriptorsAndHubRecordsRead : Prop :=
  (∀ (cycleLength : Nat) (f : List Byte),
     (∀ d, descriptorOf cycleLength f = some d →
       d.InRange cycleLength
         ∧ d.line.val = (byteAt f 0).toNat ∧ d.start = word24At f 2 ∧ d.duration = word24At f 5
         ∧ d.period.ticks = (byteAt f 8).toNat ∧ d.pattern = byteAt f 9 ∧ railByte d.rail = byteAt f 10
         ∧ d.draw = (byteAt f 11).toNat ∧ d.notify = (byteAt f 12).getLsbD 0 ∧ d.label.toNat = word16At f 13
         ∧ d.gate.isSome = (byteAt f 12).getLsbD 1 ∧ d.isBurst = (byteAt f 12).getLsbD 3
         ∧ (∀ g ∈ d.gate,
             g.input.val = (byteAt f 15).toNat ∧ (g.level = .high ↔ (byteAt f 12).getLsbD 2 = true))
         ∧ ∀ part, d.kind = .burst part →
             part.highTime = word16At f 16 ∧ part.lowTime = word16At f 18
               ∧ part.count = if (byteAt f 20).toNat = 255 then none else some (byteAt f 20).toNat)
     ∧ (f.length < 21 ∨ 15 < (byteAt f 0).toNat ∨ 1 < (byteAt f 1).toNat ∨ (byteAt f 8).toNat ∉ [1, 2, 4, 8]
           ∨ 2 < (byteAt f 10).toNat ∨ 15 < (byteAt f 12).toNat →
         descriptorOf cycleLength f = none)
     ∧ ((byteAt f 12).getLsbD 1 = true → 7 < (byteAt f 15).toNat → descriptorOf cycleLength f = none)
     ∧ ((byteAt f 12).getLsbD 3 ≠ decide ((byteAt f 1).toNat = 1) → descriptorOf cycleLength f = none)
     ∧ ((byteAt f 12).getLsbD 3 = true →
         word16At f 16 = 0 ∨ word16At f 18 = 0 ∨ (byteAt f 20).toNat = 0 → descriptorOf cycleLength f = none))
  ∧ (∀ f : List Byte,
     (∀ h, hubFields f = some h → h.InRange)
     ∧ (hubFields f = none ↔
         f.length < 16 ∨ word24At f 0 < 100 ∨ 1000000 < word24At f 0 ∨ 1 < (byteAt f 3).toNat
           ∨ 7 < (byteAt f 4).toNat ∨ 1 < (byteAt f 5).toNat))
  ∧ ((∀ (cycleLength : Nat) (d : Descriptor), cycleLength ≤ 1000000 → d.InRange cycleLength →
     descriptorOf cycleLength (descriptorBytes d) = some d
     ∧ ∀ f : List Byte, 21 ≤ f.length → (∀ i < 15, byteAt f i = byteAt (descriptorBytes d) i) →
         (d.gate.isSome = true → byteAt f 15 = byteAt (descriptorBytes d) 15) →
         (d.isBurst = true → ∀ i < 5, byteAt f (16 + i) = byteAt (descriptorBytes d) (16 + i)) →
           descriptorOf cycleLength f = some d)
   ∧ (∀ h : HubRecord, h.InRange → ∀ more, hubFields (hubBytes h ++ more) = some h))

/-- R33 to R35: the failing points of each condition, with the members involved and, under condition (c), the sum: for (a) k
and the start of the window that starts later; for (b) the next index and the start of the second window; for (c) and (d)
the start points. A step's report names its first failing point, the smallest k and then the smallest t, and the lowest-indexed
member involved there other than the candidate, with a sum formed at that point. Where both rails fail at that one point,
that the members involved are those of both rails and the sum that of either is log 12's (DESIGN CHOICE). -/
def Obligations.ReportNamesTheFirstFailingPoint : Prop :=
  (∀ (d : Descriptor) (k : Nat), d.fires k = d.pattern.getLsbD (k % d.period.ticks))
  ∧ (∀ (gapOf : LineIx → Nat) (cycleLength : Nat) (ms : List Member) (f : Failure),
      f ∈ lineFailures gapOf cycleLength ms ↔
        f.sum = 0 ∧ ∃ k m w, k < 8 ∧ m.d.line = w.d.line ∧ m.d.fires k = true ∧ f.involved = [m.handle, w.handle]
          ∧ (([m, w].Sublist ms ∧ w.d.fires k = true ∧ ¬ Descriptor.Apart (gapOf m.d.line) m.d w.d
                ∧ f.k = k ∧ f.t = max m.d.start w.d.start)
              ∨ (m ∈ ms ∧ w ∈ ms ∧ w.d.fires ((k + 1) % 8) = true
                ∧ (cycleLength - (m.d.start + m.d.duration)) + w.d.start < gapOf m.d.line
                ∧ f.k = (k + 1) % 8 ∧ f.t = w.d.start)))
  ∧ (∀ (capacityA capacityB : Nat) (ms : List Member) (f : Failure),
      f ∈ railFailures capacityA capacityB ms ↔
        f.k < 8 ∧ ∃ rail capacity, ((rail, capacity) = (Rail.a, capacityA) ∨ (rail, capacity) = (Rail.b, capacityB))
          ∧ let covering := ms.filter fun w =>
              decide (w.d.rail = some rail ∧ w.d.fires f.k = true ∧ w.d.start ≤ f.t ∧ f.t < w.d.start + w.d.duration)
            (∃ m ∈ ms, m.d.rail = some rail ∧ m.d.fires f.k = true ∧ m.d.start = f.t)
              ∧ capacity < f.sum ∧ f.sum = (covering.map fun w => w.d.draw).sum
              ∧ f.involved = covering.map fun w => w.handle)
  ∧ (∀ (ms : List Member) (f : Failure),
      f ∈ burstFailures ms ↔
        f.k < 8 ∧ f.sum = 0
          ∧ let covering := ms.filter fun w =>
              decide (w.d.isBurst = true ∧ w.d.fires f.k = true ∧ w.d.start ≤ f.t ∧ f.t < w.d.start + w.d.duration)
            (∃ m ∈ ms, m.d.isBurst = true ∧ m.d.fires f.k = true ∧ m.d.start = f.t)
              ∧ 2 < covering.length ∧ f.involved = covering.map fun w => w.handle)
  ∧ ∀ (free : Nat) (fs : List Failure) (c : ConflictReport), conflictReport free fs = some c →
    (∃ f ∈ fs, f.k = c.k ∧ f.t = c.t)
    ∧ (∀ f ∈ fs, c.k < f.k ∨ (c.k = f.k ∧ c.t ≤ f.t))
    ∧ (∀ h, c.blocking = some h → ∃ f ∈ fs, f.k = c.k ∧ f.t = c.t ∧ some h ∈ f.involved)
    ∧ (∀ f ∈ fs, f.k = c.k → f.t = c.t → ∀ g, some g ∈ f.involved →
        ∃ h, c.blocking = some h ∧ h.index ≤ g.index)
    ∧ (∃ f ∈ fs, f.k = c.k ∧ f.t = c.t ∧ c.sum = f.sum)

/-- R11, R12, R55: a set that satisfies condition (c) has at every tick, not only at starts, a sum of draws within the
capacity, and one that satisfies condition (d) at most two BURST windows; condition (c) holds exactly when the capacity
is at least the peak load, and a candidate whose draw is at most the capacity less the peak load keeps it. -/
def Obligations.ConditionsHoldAtEveryTickAndPeaksBoundThem : Prop :=
  (∀ (ms : List Member) (k t : Nat), k < 8 →
     (∀ capacity rail, ConditionC capacity rail ms → railSum ms rail k t ≤ capacity)
     ∧ (ConditionD ms → (burstMembers ms k t).length ≤ 2))
  ∧ (∀ (ms : List Member) (rail : Rail) (capacity : Nat),
     (ConditionC capacity rail ms ↔ railPeak ms rail ≤ capacity)
     ∧ ∀ d : Descriptor, railPeak ms rail + d.draw ≤ capacity → ConditionC capacity rail (ms ++ [candidate d]))

/-- R36, R51: the completion of an ADD. Passed, it writes the lowest-numbered FREE entry and replies its handle;
refused, it replies what the check said; for a requester that has ended, it changes no entry and discards the reply. -/
def Obligations.AddCompletionWritesTheLowestFreeEntry : Prop :=
  ∀ (s : State) (f : Flight) (v : Verdict Descriptor),
    s.hold = none → s.arbiter.executor = some f → f.op = .add v →
      (s.attachedSession f.session.port ≠ some f.session → exec .addCompletion s = .next (s.discarded f))
      ∧ (s.attachedSession f.session.port = some f.session →
          (∀ st b, v = .refuse st b → exec .addCompletion s = .next (s.landed f st b))
          ∧ (∀ d e, v = .pass d → (s.entry e).state = .free → (∀ g < e, (s.entry g).state ≠ .free) →
              exec .addCompletion s = .next
                (State.recomputePeaks
                  { s.landed f .ok [BitVec.ofNat 8 e.val, BitVec.ofNat 8 (s.entry e).generation.toNat] with
                    entries := s.entries.set e
                      { state := .pending f.session
                        generation := (s.entry e).generation
                        descriptor := d
                        fireCount := 0 } })))

/-- R38 to R40: the handle checks of a REPLACE in their order (the short payload is log 10's); past them the six steps in
theirs: BAD_FIELD, LINE_HELD, NO_ENTRY where an ACTIVE old entry stays occupied and no entry is FREE, then steps 4 to 6
with their reports on the next-epoch set without the old entry and with the candidate. It passes exactly when it fails
none of them. -/
def Obligations.ReplaceChecksTheHandleThenTheTrialSet : Prop :=
  (∀ (s : State) (me : SessionId) (f : List Byte),
     (f.length < 23 → s.judgeReplace me f = .refuse .badField [])
     ∧ (23 ≤ f.length →
         match handleFields f with
         | none => s.judgeReplace me f = .refuse .badField []
         | some h =>
           if (s.entry h.index).state = .free ∨ (s.entry h.index).generation ≠ h.generation then
             s.judgeReplace me f = .refuse .stale []
           else if s.ownerOf h.index ≠ some me then s.judgeReplace me f = .refuse .notOwner []
           else if (s.entry h.index).state.isRetiring = true then s.judgeReplace me f = .refuse .retiring []
           else s.judgeReplace me f = s.judgeReplacement me h.index (f.drop 2)))
  ∧ (∀ (s : State) (me : SessionId) (old : EntryIx) (f : List Byte),
     (descriptorOf s.hub.cycleLength f = none → s.judgeReplacement me old f = .refuse .badField [])
     ∧ ∀ d, descriptorOf s.hub.cycleLength f = some d →
         ((∃ o, (s.line d.line).holder = some o ∧ o ≠ me) → s.judgeReplacement me old f = .refuse .lineHeld [])
         ∧ ((∀ o, (s.line d.line).holder = some o → o = me) →
           ((s.entry old).state.isActive = true → s.engine.state ≠ .stopped → (∀ e, (s.entry e).state ≠ .free) →
             s.judgeReplacement me old f = .refuse .noEntry [])
           ∧ ((s.entry old).state.isActive = false ∨ s.engine.state = .stopped ∨ (∃ e, (s.entry e).state = .free) →
             TrialJudged s (s.nextEpochWithout old ++ [candidate d])
               { old := old, descriptor := d, stoppedAtTaking := decide (s.engine.state = .stopped) }
               (s.judgeReplacement me old f))))
  ∧ (∀ (s : State) (me : SessionId) (old : EntryIx) (f : List Byte) (x : Replacement),
     s.judgeReplacement me old f = .pass x ↔
       x.old = old ∧ x.stoppedAtTaking = decide (s.engine.state = .stopped)
         ∧ descriptorOf s.hub.cycleLength f = some x.descriptor
         ∧ (∀ o, (s.line x.descriptor.line).holder = some o → o = me)
         ∧ ((s.entry old).state.isActive = true → s.engine.state ≠ .stopped → ∃ e, (s.entry e).state = .free)
         ∧ ConflictFree s.hub s.gapOf (s.nextEpochWithout old ++ [candidate x.descriptor]))

/-- R41 to R45, R51: the completion of a REPLACE. A refusal or an ended requester changes no entry. A PENDING old entry, or
an ACTIVE one judged with the engine STOPPED, is freed and the new entry takes the lowest-numbered FREE entry, possibly the
old one; an ACTIVE one judged with the engine not STOPPED stays occupied: it retires, or, with the engine since STOPPED, is
freed with a RETIRED notice that carries STOP; with no other entry FREE the reply is NO_ENTRY. That a freed entry's
descriptor and fire count stay as they were is log 22's (DESIGN CHOICE). -/
def Obligations.ReplaceCompletionSwapsTheEntries : Prop :=
  ∀ (s : State) (f : Flight) (v : Verdict Replacement),
    s.hold = none → s.arbiter.executor = some f → f.op = .replace v →
      (s.attachedSession f.session.port ≠ some f.session → exec .replaceCompletion s = .next (s.discarded f))
      ∧ (s.attachedSession f.session.port = some f.session →
          (∀ st b, v = .refuse st b → exec .replaceCompletion s = .next (s.landed f st b))
          ∧ (∀ (x : Replacement) (o : SessionId), v = .pass x →
              (s.entry x.old).state = .pending o
                ∨ ((s.entry x.old).state = .active o ∧ x.stoppedAtTaking = true) →
              ∀ e, (e = x.old ∨ (s.entry e).state = .free) →
                (∀ g < e, g ≠ x.old ∧ (s.entry g).state ≠ .free) →
              ∃ t, exec .replaceCompletion s = .next t
                ∧ t = State.recomputePeaks
                    { s.landed f .ok [BitVec.ofNat 8 e.val, BitVec.ofNat 8 (t.entry e).generation.toNat, 0] with
                      entries := t.entries }
                ∧ (∀ g, g ≠ e → g ≠ x.old → t.entry g = s.entry g)
                ∧ t.entry e =
                    { state := .pending f.session
                      generation :=
                        if e = x.old then (s.entry e).generation + 1 else (s.entry e).generation
                      descriptor := x.descriptor
                      fireCount := 0 }
                ∧ (e ≠ x.old → t.entry x.old =
                    { s.entry x.old with state := .free, generation := (s.entry x.old).generation + 1 }))
          ∧ (∀ (x : Replacement) (o : SessionId), v = .pass x →
              (s.entry x.old).state = .active o → x.stoppedAtTaking = false →
              ((∀ e, (s.entry e).state ≠ .free) → exec .replaceCompletion s = .next (s.landed f .noEntry []))
              ∧ ∀ e, (s.entry e).state = .free → (∀ g < e, (s.entry g).state ≠ .free) →
                ∃ t, exec .replaceCompletion s = .next t
                  ∧ (∀ g, g ≠ e → g ≠ x.old → t.entry g = s.entry g)
                  ∧ t.entry e =
                      { state := .pending f.session
                        generation := (s.entry e).generation
                        descriptor := x.descriptor
                        fireCount := 0 }
                  ∧ (s.engine.state ≠ .stopped →
                      t.entry x.old = { s.entry x.old with state := .retiring o .replaced }
                      ∧ t = State.recomputePeaks
                          { s.landed f .ok [BitVec.ofNat 8 e.val, BitVec.ofNat 8 (s.entry e).generation.toNat, 3] with
                            entries := t.entries })
                  ∧ (s.engine.state = .stopped →
                      t.entry x.old =
                        { s.entry x.old with state := .free, generation := (s.entry x.old).generation + 1 }
                      ∧ t = State.recomputePeaks
                          { s.landed f .ok [BitVec.ofNat 8 e.val, BitVec.ofNat 8 (s.entry e).generation.toNat, 0] with
                            entries := t.entries
                            notices := (s.ownerNotice (some o) .lifecycle
                              (.retired (s.handleOf x.old) (s.entry x.old).descriptor.label .replaced none)).notices })))

/-! ### The hub configuration record -/

/-- R164 to R166: SET_HUB passes exactly when the engine is STOPPED, the fields are in range, every reservation fits the
new cycle length, and the next-epoch set keeps conditions (a) and (b) with the new length and (c) with the new
capacities. It is refused with ENGINE_RUNNING (for a short payload too, by log 11, DEDUCED), then BAD_FIELD, then SPAN
with the handle of the lowest-numbered reservation that does not fit, then LINE_CLASH, then RAIL_OVER, each of these two
with the report of its failing points. -/
def Obligations.SetHubChecksInOrder : Prop :=
  (∀ (s : State) (f : List Byte) (h : HubRecord),
     s.judgeSetHub f = .pass h ↔
       s.engine.state = .stopped ∧ hubFields f = some h
         ∧ (∀ e, (s.entry e).state ≠ .free → (s.entry e).descriptor.stop ≤ h.cycleLength)
         ∧ ConditionA s.gapOf s.nextEpochSet ∧ ConditionB s.gapOf h.cycleLength s.nextEpochSet
         ∧ ConditionC h.capacityA .a s.nextEpochSet ∧ ConditionC h.capacityB .b s.nextEpochSet)
  ∧ (∀ (s : State) (f : List Byte),
     (s.engine.state ≠ .stopped → s.judgeSetHub f = .refuse .engineRunning [])
     ∧ (s.engine.state = .stopped →
         (hubFields f = none → s.judgeSetHub f = .refuse .badField [])
         ∧ ∀ h, hubFields f = some h →
             (∀ e, (s.entry e).state ≠ .free → h.cycleLength < (s.entry e).descriptor.stop →
               (∀ g < e, (s.entry g).state ≠ .free → (s.entry g).descriptor.stop ≤ h.cycleLength) →
               s.judgeSetHub f =
                 .refuse .span [BitVec.ofNat 8 e.val, BitVec.ofNat 8 (s.entry e).generation.toNat])
             ∧ ((∀ e, (s.entry e).state ≠ .free → (s.entry e).descriptor.stop ≤ h.cycleLength) →
               (¬ (ConditionA s.gapOf s.nextEpochSet ∧ ConditionB s.gapOf h.cycleLength s.nextEpochSet) →
                 ∃ c, conflictReport s.freeCount (lineFailures s.gapOf h.cycleLength s.nextEpochSet) = some c
                   ∧ s.judgeSetHub f = .refuse .lineClash (reportBytes c))
               ∧ (ConditionA s.gapOf s.nextEpochSet → ConditionB s.gapOf h.cycleLength s.nextEpochSet →
                 ¬ (ConditionC h.capacityA .a s.nextEpochSet ∧ ConditionC h.capacityB .b s.nextEpochSet) →
                 ∃ c, conflictReport s.freeCount (railFailures h.capacityA h.capacityB s.nextEpochSet) = some c
                   ∧ s.judgeSetHub f = .refuse .railOver (railReportBytes c)))))

/-- R167, R168, R123: the completion of a SET_HUB. Passed, all seven fields are replaced at once, and each pending
change of an input whose count is at or above its new width qualifies; refused, it replies what the check said; for a
requester that has ended it changes nothing and discards the reply. The premise that the engine is STOPPED with no plan
holds of every flight that has passed (`ScheduleSound`, `LinesServed`). -/
def Obligations.SetHubCompletionReplacesTheRecord : Prop :=
  ∀ (s : State) (f : Flight) (v : Verdict HubRecord),
    s.hold = none → s.arbiter.executor = some f → f.op = .setHub v →
      (s.attachedSession f.session.port ≠ some f.session → exec .setHubCompletion s = .next (s.discarded f))
      ∧ (s.attachedSession f.session.port = some f.session →
          (∀ st b, v = .refuse st b → exec .setHubCompletion s = .next (s.landed f st b))
          ∧ (∀ h, v = .pass h → s.engine.state = .stopped → s.plan = none →
              ∃ t, exec .setHubCompletion s = .next t
                ∧ t = { s.landed f .ok [] with hub := h, inputs := t.inputs }
                ∧ ∀ i,
                    (∀ c, (s.input i).timer = some c → h.widths.get i ≤ c → (s.input i).raw ≠ (s.input i).filtered →
                      t.input i = { s.input i with filtered := (s.input i).raw, timer := none })
                    ∧ ((s.input i).timer = none ∨ (s.input i).raw = (s.input i).filtered
                        ∨ (∃ c, (s.input i).timer = some c ∧ c < h.widths.get i) →
                      t.input i = s.input i)))

/-- R169, R170: READ_HUB reports the state as it stands, and with the clear flag on the three counters are 0 afterwards.
-/
def Obligations.ReadHubReportsAndClears : Prop :=
  ∀ (s : State) (p : Port) (r : Request),
    s.takenRequest p .readHub = some r → (s.session p).attachment.isSome = true →
      (r.fields = [] ∨ 1 < (byteAt r.fields 0).toNat → exec (.readHub p) s = .next (s.answered p r .badField []))
      ∧ (r.fields ≠ [] → (byteAt r.fields 0).toNat = 0 →
          exec (.readHub p) s = .next (s.answered p r .ok (s.hubStatusBytes p)))
      ∧ (r.fields ≠ [] → (byteAt r.fields 0).toNat = 1 →
          exec (.readHub p) s = .next
            { s.answered p r .ok (s.hubStatusBytes p) with
              engine := { s.engine with earlyEdges := 0, inhibitEpisodes := 0, cuts := 0 } })

/-- R187, 10.8: quantities are least significant byte first; the codes of the requests, of the statuses and of the enumerations; the 54 bytes of
the hub status stand where the layout puts them, as do the 16 of the hub record, the 21 of a descriptor with its flag bits,
the 29 of an entry record (handle, state, owner, descriptor, fire count, retire reason), a conflict report, and the reply
that a COLLECT shifts out (length, tag, code, status, payload); every notice record is 16 bytes, its kind code and its
sequence number first, then the fields of its kind, then zeros. -/
def Obligations.LayoutsOfRecords : Prop :=
  (∀ (s : State) (p : Port),
     let b := s.hubStatusBytes p
     b.length = 54
     ∧ b.take 5 = [0x16, 0x4D, 1, resetCauseByte s.resetCause, engineStateByte s.engine.state]
     ∧ (b.drop 5).take 7 =
         bytesOf 4 s.engine.reportedNumber.toNat
           ++ [BitVec.ofNat 8 (s.engine.reportedNumber.toNat % 8), flagByte s.engine.restart,
               flagByte s.engine.inhAsserted]
     ∧ (b.drop 12).take 16 = hubBytes s.hub
     ∧ (∀ q : Port, (b.drop (28 + 3 * q.val)).take 3 =
         [flagByte (s.session q).attachment.isSome, (s.session q).number, flagByte (s.hasVote q)])
     ∧ ((b.drop 40).take 4).map BitVec.toNat =
         [((allEntries.filter fun e => (s.entry e).state.isFree).length),
          ((allEntries.filter fun e => (s.entry e).state.isPending).length),
          ((allEntries.filter fun e => (s.entry e).state.isActive).length),
          ((allEntries.filter fun e => (s.entry e).state.isRetiring).length)]
     ∧ (b.drop 44).take 2 = [BitVec.ofNat 8 s.peaks.a, BitVec.ofNat 8 s.peaks.b]
     ∧ ((b.getD 46 0).getLsbD 0 = decide (s.burst 0 ≠ .idle)) ∧ ((b.getD 46 0).getLsbD 1 = decide (s.burst 1 ≠ .idle))
     ∧ (b.drop 47).take 6 =
         bytesOf 2 s.engine.earlyEdges.toNat ++ bytesOf 2 s.engine.inhibitEpisodes.toNat ++ bytesOf 2 s.engine.cuts.toNat
     ∧ b.getD 53 0 = (s.link p).malformed)
  ∧ ((∀ (e : EntryIx) (x : Entry),
     (entryRecordBytes e x).length = 29 ∧ (descriptorBytes x.descriptor).length = 21
     ∧ (entryRecordBytes e x).take 5 =
         [BitVec.ofNat 8 e.val, BitVec.ofNat 8 x.generation.toNat, entryStateByte x.state] ++ ownerBytes x.state.owner
     ∧ ((entryRecordBytes e x).drop 5).take 21 = descriptorBytes x.descriptor
     ∧ (entryRecordBytes e x).drop 26 = bytesOf 2 x.fireCount.toNat ++ [entryReasonByte x.state])
   ∧ (∀ d : Descriptor, ∃ flags : Byte,
     flags.toNat < 16 ∧ flags.getLsbD 0 = d.notify ∧ flags.getLsbD 1 = d.gate.isSome
     ∧ flags.getLsbD 2 = decide (∃ i, d.gate = some { input := i, level := .high }) ∧ flags.getLsbD 3 = d.isBurst
     ∧ descriptorBytes d =
         [BitVec.ofNat 8 d.line.val, if d.isBurst then 1 else 0] ++ bytesOf 3 d.start ++ bytesOf 3 d.duration
           ++ [BitVec.ofNat 8 d.period.ticks, d.pattern, railByte d.rail, BitVec.ofNat 8 d.draw, flags]
           ++ bytesOf 2 d.label.toNat ++ [BitVec.ofNat 8 ((d.gate.map fun g => g.input.val).getD 0)]
           ++ burstBytes d.kind)
   ∧ (burstBytes .solid = [0, 0, 0, 0, 0]
     ∧ ∀ part : BurstPart, burstBytes (.burst part) =
         bytesOf 2 part.highTime ++ bytesOf 2 part.lowTime ++ [BitVec.ofNat 8 (part.count.getD 255)])
   ∧ (∀ h : HubRecord, (hubBytes h).length = 16
     ∧ (hubBytes h).take 8 =
         bytesOf 3 h.cycleLength
           ++ [startModeByte h.startMode, BitVec.ofNat 8 h.startLine.val, startEdgeByte h.startEdge,
               BitVec.ofNat 8 h.capacityA, BitVec.ofNat 8 h.capacityB]
     ∧ ∀ i : InputIx, (hubBytes h).getD (8 + i.val) 0 = BitVec.ofNat 8 (h.widths.get i))
   ∧ (handleBytes none = [0xFF, 0xFF]
     ∧ (∀ h : Handle, handleBytes (some h) = [BitVec.ofNat 8 h.index.val, BitVec.ofNat 8 h.generation.toNat])
     ∧ ∀ c : ConflictReport,
         reportBytes c = handleBytes c.blocking ++ [BitVec.ofNat 8 c.k] ++ bytesOf 3 c.t
         ∧ railReportBytes c = reportBytes c ++ bytesOf 2 c.sum)
   ∧ (∀ r : Reply,
     collectBytes r =
       BitVec.ofNat 8 (3 + r.payload.length) :: r.tag :: r.code :: statusCode r.status :: r.payload))
  ∧ (∀ (q : Byte) (h : Handle) (label : BitVec 16) (n : CycleNumber) (pulses : BitVec 16),
     let who := [BitVec.ofNat 8 h.index.val, BitVec.ofNat 8 h.generation.toNat] ++ bytesOf 2 label.toNat
     let number := bytesOf 4 n.toNat
     let bytes := fun body : NoticeBody => noticeBytes { seq := q, body := body }
     (∀ (low : BitVec 16) (k start : Nat) (inputs : BitVec 8) (gate : Bool),
       bytes (.fire h label low k start inputs gate) =
         [1, q] ++ who ++ bytesOf 2 low.toNat ++ [BitVec.ofNat 8 k] ++ bytesOf 3 start
           ++ [inputs, flagByte gate, 0, 0])
     ∧ (∀ (closures : BitVec 8) (g : EngineIx) (reached : Bool),
       bytes (.tally h label n pulses closures g reached) =
         [2, q] ++ who ++ number ++ bytesOf 2 pulses.toNat ++ [closures, BitVec.ofNat 8 g.val, flagByte reached, 0])
     ∧ (∀ ticks : Nat,
       bytes (.cut h label n ticks pulses) =
         [3, q] ++ who ++ number ++ bytesOf 3 ticks ++ bytesOf 2 pulses.toNat ++ [0])
     ∧ bytes (.activated h label n) = [4, q] ++ who ++ number ++ List.replicate 6 0
     ∧ (∀ why : RetireReason,
       bytes (.retired h label why (some n)) =
         [5, q] ++ who ++ [retireReasonByte why, 0] ++ number ++ List.replicate 4 0
       ∧ bytes (.retired h label why none) = [5, q] ++ who ++ [retireReasonByte why, 1] ++ List.replicate 8 0)
     ∧ (∀ offset : Nat, bytes (.early n offset) = [6, q] ++ number ++ bytesOf 3 offset ++ List.replicate 7 0)
     ∧ (∀ x : EngineState, bytes (.engine x n) = [7, q, engineStateByte x] ++ number ++ List.replicate 9 0)
     ∧ (∀ number : Byte, bytes (.expired number) = [8, q, number] ++ List.replicate 13 0)
     ∧ (∀ dropped : BitVec 16, bytes (.lost dropped) = [9, q] ++ bytesOf 2 dropped.toNat ++ List.replicate 12 0))
  ∧ ((∀ n v : Nat, (bytesOf n v).length = n
       ∧ ∀ i < n, (bytesOf n v).getD i 0 = BitVec.ofNat 8 (v / 256 ^ i))
   ∧ [Status.ok, .noSession, .attached, .badKind, .badField, .noEntry, .stale, .notOwner, .retiring, .lineHeld,
        .lineBusy, .lineClash, .railOver, .enginesOver, .engineRunning, .span].map statusCode =
       (List.range 16).map (BitVec.ofNat 8)
   ∧ (let codes : List Byte :=
        [0x01, 0x02, 0x03, 0x04, 0x10, 0x11, 0x12, 0x13, 0x14, 0x20, 0x21, 0x22, 0x30, 0x31, 0x40, 0x41]
      codes.map kindOfCode =
          [.attach, .detach, .renew, .setNotices, .add, .withdraw, .replace, .query, .scan, .claimLine, .releaseLine,
            .lineInfo, .run, .halt, .setHub, .readHub]
        ∧ ∀ c ∉ codes, kindOfCode c = .unknown)
   ∧ [EngineState.stopped, .waiting, .running, .halting, .held].map engineStateByte = [0, 1, 2, 3, 4]
   ∧ (∀ (o : SessionId) (why : RetireReason),
       [EntryState.free, .pending o, .active o, .retiring o why].map entryStateByte = [0, 1, 2, 3]
       ∧ [EntryState.free, .pending o, .active o, .retiring o .withdrawn, .retiring o .replaced].map entryReasonByte
           = [0, 0, 0, 1, 2])
   ∧ [RetireReason.withdrawn, .replaced].map retireReasonByte = [1, 2]
   ∧ [none, some Rail.a, some .b].map railByte = [0, 1, 2]
   ∧ [Level.low, .high].map levelByte = [0, 1] ∧ [false, true].map flagByte = [0, 1]
   ∧ [StartMode.internal, .external].map startModeByte = [0, 1] ∧ [Edge.rising, .falling].map startEdgeByte = [0, 1]
   ∧ [ResetCause.power, .pin].map resetCauseByte = [0, 1]
   ∧ ownerBytes none = [0, 0] ∧ ∀ o : SessionId, ownerBytes (some o) = [BitVec.ofNat 8 o.port.val, o.number])

/-! ### Lines -/

/-- R97, R98: CLAIM_LINE, refused in its order, else the line is CLAIMED with the values asked for, and its driven level
follows a changed idle level at once. -/
def Obligations.ClaimLineTakesTheLine : Prop :=
  ∀ (s : State) (p : Port) (r : Request) (me : SessionId),
    s.takenRequest p .claimLine = some r → s.attachedSession p = some me →
      (r.fields.length < 4 ∨ 15 < (byteAt r.fields 0).toNat ∨ 1 < (byteAt r.fields 1).toNat →
        exec (.claimLine p) s = .next (s.answered p r .badField []))
      ∧ ∀ (l : LineIx) (idle : Level), 4 ≤ r.fields.length → (byteAt r.fields 0).toNat = l.val →
          byteAt r.fields 1 = levelByte idle →
          ((∃ o, (s.line l).holder = some o ∧ o ≠ me) →
            exec (.claimLine p) s = .next (s.answered p r .lineHeld []))
          ∧ ((∀ o, (s.line l).holder = some o → o = me) →
              ((∃ e, (s.entry e).isOn l = true ∧ s.ownerOf e ≠ some me)
                  ∨ ((idle ≠ (s.line l).idle ∨ word16At r.fields 2 ≠ (s.line l).gap)
                      ∧ ∃ e, (s.entry e).isOn l = true) →
                exec (.claimLine p) s = .next (s.answered p r .lineBusy []))
              ∧ ((∀ e, (s.entry e).isOn l = true → s.ownerOf e = some me) →
                  (idle = (s.line l).idle ∧ word16At r.fields 2 = (s.line l).gap)
                      ∨ (∀ e, (s.entry e).isOn l = false) →
                exec (.claimLine p) s = .next
                  { s.answered p r .ok [] with
                    lines := s.lines.set l { holder := some me, idle := idle, gap := word16At r.fields 2 }
                    driven := if idle = (s.line l).idle then s.driven else s.driven.set l idle }))

/-- R100, R102: RELEASE_LINE by the holder opens the line and keeps its idle level and gap, and by any other is
NOT_OWNER; LINE_INFO reports the line and changes nothing else. -/
def Obligations.LinesAreReleasedAndReported : Prop :=
  (∀ (s : State) (p : Port) (r : Request) (me : SessionId),
     s.takenRequest p .releaseLine = some r → s.attachedSession p = some me →
       (r.fields = [] ∨ 15 < (byteAt r.fields 0).toNat →
         exec (.releaseLine p) s = .next (s.answered p r .badField []))
       ∧ ∀ l : LineIx, r.fields ≠ [] → (byteAt r.fields 0).toNat = l.val →
           ((s.line l).holder = some me →
             exec (.releaseLine p) s = .next
               { s.answered p r .ok [] with lines := s.lines.set l { s.line l with holder := none } })
           ∧ ((s.line l).holder ≠ some me → exec (.releaseLine p) s = .next (s.answered p r .notOwner [])))
  ∧ (∀ (s : State) (p : Port) (r : Request),
     s.takenRequest p .lineInfo = some r → (s.session p).attachment.isSome = true →
       (r.fields = [] ∨ 15 < (byteAt r.fields 0).toNat → exec (.lineInfo p) s = .next (s.answered p r .badField []))
       ∧ ∀ l : LineIx, r.fields ≠ [] → (byteAt r.fields 0).toNat = l.val →
           exec (.lineInfo p) s = .next
             (s.answered p r .ok
               ([flagByte (s.line l).holder.isSome] ++ ownerBytes (s.line l).holder ++ [levelByte (s.line l).idle]
                 ++ bytesOf 2 (s.line l).gap
                 ++ [levelByte (s.driven.get l),
                     BitVec.ofNat 8 (allEntries.filter fun e => (s.entry e).isOn l).length])))

/-! ### The cycle engine -/

/-- R63: the number of a new cycle: 0 when none has started, the smallest multiple of 8 above the last one at a restart,
the last one plus 1 otherwise, all modulo 2^32. -/
def Obligations.CyclesAreNumbered : Prop :=
  ∀ c : CycleEngine,
    (c.number = none → c.nextNumber = 0)
    ∧ (∀ n, c.number = some n → c.restart = false → c.nextNumber = n + 1)
    ∧ (∀ n, c.number = some n → c.restart = true → n.toNat < 4294967288 →
        c.nextNumber.toNat % 8 = 0 ∧ n.toNat < c.nextNumber.toNat ∧ c.nextNumber.toNat ≤ n.toNat + 8)
    ∧ (∀ n, c.number = some n → c.restart = true → 4294967288 ≤ n.toNat → c.nextNumber = 0)

/-- R15, R16, R73, R76: epoch processing frees every RETIRING entry at the next generation, makes every PENDING one ACTIVE
with fire count 0 and keeps every other; the entry into STOPPED sets the restart flag, frees every RETIRING entry and keeps
every other. Each port's queue receives, in ascending entry order, the RETIRED and ACTIVATED notices of its attached
session's entries when its mask holds LIFECYCLE, at the entry into STOPPED after the ENGINE notice. Nothing else changes.
That a freed entry's descriptor and fire count stay as they were is log 22's (DESIGN CHOICE). -/
def Obligations.EpochBoundaryAndStopFreeTheRetiring : Prop :=
  (∀ (s : State) (n : CycleNumber),
     s.epochProcessing n = { s with entries := (s.epochProcessing n).entries, notices := (s.epochProcessing n).notices }
     ∧ (∀ e,
         (∀ o why, (s.entry e).state = .retiring o why →
           (s.epochProcessing n).entry e =
             { s.entry e with state := .free, generation := (s.entry e).generation + 1 })
         ∧ (∀ o, (s.entry e).state = .pending o →
           (s.epochProcessing n).entry e = { s.entry e with state := .active o, fireCount := 0 })
         ∧ ((s.entry e).state = .free ∨ (∃ o, (s.entry e).state = .active o) →
           (s.epochProcessing n).entry e = s.entry e))
     ∧ ∀ p, (s.epochProcessing n).queue p = (s.queue p).after (s.boundaryNotices p n))
  ∧ (∀ s : State,
     s.enterStopped =
         { s with
           entries := s.enterStopped.entries, notices := s.enterStopped.notices
           engine := { s.engine with state := .stopped, restart := true } }
     ∧ (∀ e,
         (∀ o why, (s.entry e).state = .retiring o why →
           s.enterStopped.entry e = { s.entry e with state := .free, generation := (s.entry e).generation + 1 })
         ∧ ((s.entry e).state.isRetiring = false → s.enterStopped.entry e = s.entry e))
     ∧ ∀ p, s.enterStopped.queue p =
         (s.queue p).after (s.engineNotices p .stopped s.engine.reportedNumber ++ s.stopNotices p))

/-- R62, R80, R15, R83, R84, R153: a cycle start. The engine is RUNNING under the new number with the restart flag clear, the
span latched, the timer at 0 and the spacing COUNTING; epoch processing at index 0; then the plan holds, in plan order, the
entries then in force that fire in the index, all SCHEDULED; then those with start 0 start, in plan order. So an entry is
as epoch processing left it, but for the fire count of one that started, which is 1 more; and each port receives the ENGINE
notice, if the engine was not RUNNING, then the notices of the boundary, then the FIRE notices. Everything outside the
schedule stands. -/
def Obligations.CycleStartPlansTheCycle : Prop :=
  ∀ s : State,
    let n := s.engine.nextNumber
    let t := s.cycleStart
    let inForce := fun e => if n.toNat % 8 = 0 then (s.epochProcessing n).entry e else s.entry e
    let notices := fun p =>
      (if s.engine.state = .running then [] else s.engineNotices p .running n)
        ++ (if n.toNat % 8 = 0 then s.boundaryNotices p n else [])
    let engine : CycleEngine :=
      { s.engine with
        state := .running, number := some n, restart := false, span := s.hub.cycleLength, timer := some 0,
        spacing := .counting }
    ScheduleOnly s t ∧ t.engine = engine
    ∧ ∃ (planned : State) (es : List EntryIx),
        let starts := es.filter fun e => decide ((inForce e).descriptor.start = 0)
        planned = { s with
          entries := planned.entries, notices := planned.notices, engine := engine
          plan := some (es.map fun e => { entry := e, state := .scheduled }) }
        ∧ (∀ e, planned.entry e = inForce e) ∧ (∀ p, planned.queue p = (s.queue p).after (notices p))
        ∧ es.Pairwise (fun e g =>
            (inForce e).descriptor.start < (inForce g).descriptor.start
              ∨ ((inForce e).descriptor.start = (inForce g).descriptor.start ∧ e < g))
        ∧ (∀ e, e ∈ es ↔ (inForce e).state.inFiring = true ∧ (inForce e).descriptor.fires (n.toNat % 8) = true)
        ∧ t = starts.foldl State.startWindow planned
        ∧ (∃ ws, t.plan = some ws ∧ ws.map (fun w => w.entry) = es
            ∧ ∀ w ∈ ws,
                (w.state = .scheduled ↔ w.entry ∉ starts) ∧ (w.state.isOpen = true ↔ w.entry ∈ starts))
        ∧ (∀ e, t.entry e =
            if e ∈ starts then { inForce e with fireCount := (inForce e).fireCount + 1 } else inForce e)
        ∧ ∀ p, t.queue p = (s.queue p).after (notices p ++ t.firesFor p starts)

/-- R77, R59, R78, R60: RUN sets the vote; at the first vote a STOPPED engine starts a cycle, whole as `State.cycleStart`,
waits or is held, and a HALTING one goes on, each with its ENGINE notice; with a vote already held nothing moves. HALT
clears the vote, and when it was the last the engine acts on it. Each reply carries the engine state after. -/
def Obligations.RunAndHaltActOnTheVotes : Prop :=
  (∀ (s : State) (p : Port) (r : Request) (a : Attachment),
     s.takenRequest p .run = some r → (s.session p).attachment = some a →
       let voted : State :=
         { s with
           sessions := s.sessions.set p { s.session p with attachment := some { a with timer := 0, vote := true } }
           links := s.links.set p { s.link p with requests := (s.link p).requests.tail }
           arbiter := { s.arbiter with lastServed := p } }
       ∃ t, exec (.run p) s = .next t
         ∧ t.sessions = voted.sessions
         ∧ t.links = s.links.set p ((s.link p).answered r .ok [engineStateByte t.engine.state])
         ∧ t.arbiter = { s.arbiter with lastServed := p }
         ∧ (t.lines = s.lines ∧ t.hub = s.hub ∧ t.peaks = s.peaks ∧ t.inputs = s.inputs ∧ t.resetCause = s.resetCause
             ∧ t.hold = s.hold ∧ t.pending = s.pending ∧ t.freeCount = s.freeCount)
         ∧ (s.anyVote = true →
             t.engine = s.engine ∧ t.entries = s.entries ∧ t.plan = s.plan ∧ t.holding = s.holding
               ∧ t.driven = s.driven ∧ t.bursts = s.bursts ∧ t.notices = s.notices)
         ∧ (s.anyVote = false →
             match s.engine.state with
             | .stopped =>
               if s.engine.inhAsserted = true then
                 t.engine = { s.engine with state := .held } ∧ EngineMoved s t .held
               else if s.hub.startMode = .internal ∧ s.engine.spacing = .clear then
                 t = { voted.cycleStart with links := s.links.set p ((s.link p).answered r .ok [2]) }
               else t.engine = { s.engine with state := .waiting } ∧ EngineMoved s t .waiting
             | .halting => t.engine = { s.engine with state := .running } ∧ EngineMoved s t .running
             | _ => t.engine = s.engine))
  ∧ (∀ (s : State) (p : Port) (r : Request) (a : Attachment),
     s.takenRequest p .halt = some r → (s.session p).attachment = some a →
       ∃ t, exec (.halt p) s = .next t
         ∧ t.sessions = s.sessions.set p
             { s.session p with attachment := some { a with timer := 0, vote := false } }
         ∧ t.links = s.links.set p ((s.link p).answered r .ok [engineStateByte t.engine.state])
         ∧ t.arbiter = { s.arbiter with lastServed := p }
         ∧ VoteGone s t p
         ∧ (s.lastVoteAt p →
             (s.engine.state = .running → EngineMoved s t .halting)
             ∧ (s.engine.state = .waiting ∨ s.engine.state = .held → t.queue p = s.enterStopped.queue p))
         ∧ (¬ s.lastVoteAt p → t.notices = s.notices)
         ∧ (t.plan = s.plan ∧ t.holding = s.holding ∧ t.driven = s.driven ∧ t.bursts = s.bursts)
         ∧ (t.lines = s.lines ∧ t.hub = s.hub ∧ t.peaks = s.peaks ∧ t.inputs = s.inputs ∧ t.resetCause = s.resetCause
             ∧ t.hold = s.hold ∧ t.pending = s.pending ∧ t.freeCount = s.freeCount))

/-- R64 to R66, R88: CYCLE_END ends the OPEN windows in plan order, discards the plan and clears the spacing; then, by
state and start mode, the next cycle starts at once, whole as `State.cycleStart`, the engine is WAITING with its ENGINE
notice, or it enters STOPPED, whole as `State.enterStopped`. What the ends leave (lines free and idle, engines IDLE, TALLY
notices) is said of the states that satisfy `LinesServed`. SPACING_END clears the spacing and stops the timer; a WAITING
engine in INTERNAL mode then starts a cycle, any other does no more. -/
def Obligations.CycleAndSpacingEnd : Prop :=
  (∀ (s : State) (n : Nat), s.hold = none → s.engine.state.inProgress = true → s.engine.timer = some n →
     s.engine.span ≤ n →
       let ended := s.openEntries.foldl State.endWindow s
       (s.engine.state = .running → s.hub.startMode = .internal →
         exec .cycleEnd s = .next
           (State.cycleStart { ended with plan := none, engine := { s.engine with spacing := .clear } }))
       ∧ (s.engine.state = .running → s.hub.startMode = .external →
         ∃ t, exec .cycleEnd s = .next t
           ∧ t = { ended with
               plan := none, notices := t.notices
               engine := { s.engine with state := .waiting, timer := none, spacing := .clear } }
           ∧ ∀ p, t.queue p = (ended.queue p).after (s.engineNotices p .waiting s.engine.reportedNumber))
       ∧ (s.engine.state = .halting →
         exec .cycleEnd s = .next
           (State.enterStopped
             { ended with plan := none, engine := { s.engine with timer := none, spacing := .clear } }))
       ∧ (LinesServed s → WindowsEnded s ended s.openEntries ∧ ∀ g, ended.burst g = .idle)
       ∧ ∃ t, exec .cycleEnd s = .next t ∧ ScheduleOnly s t
           ∧ (s.engine.state = .running → s.hub.startMode = .internal →
               t.engine =
                 { s.engine with
                   number := some s.engine.nextNumber, restart := false, span := s.hub.cycleLength, timer := some 0,
                   spacing := .counting })
           ∧ (s.engine.state = .halting →
               t.plan = none ∧ (∀ e, (t.entry e).state.isRetiring = false)
               ∧ t.engine = { s.engine with state := .stopped, restart := true, timer := none, spacing := .clear }))
  ∧ (∀ (s : State) (n : Nat), s.hold = none → s.engine.state.inProgress = false → s.engine.timer = some n →
     s.engine.span ≤ n →
       (s.engine.state = .waiting → s.hub.startMode = .internal →
         exec .spacingEnd s = .next
           (State.cycleStart { s with engine := { s.engine with timer := none, spacing := .clear } }))
       ∧ (s.engine.state ≠ .waiting ∨ s.hub.startMode = .external →
         exec .spacingEnd s = .next { s with engine := { s.engine with timer := none, spacing := .clear } }))

/-- R70 to R72, R75, R91, R92: at an assertion of INH a RUNNING cycle is cut and HELD, WAITING is HELD, HALTING is cut and
STOPPED, each counted as an episode; a cut leaves no plan, every line idle and free, and counts every open window; each
port receives the CUT notices in plan order, then the ENGINE notice, then, at a stop, the RETIRED notices (the notices and
the IDLE engines are said of the states that satisfy `LinesServed`). STOPPED and HELD record the level alone. At a release
HELD starts a cycle, whole as `State.cycleStart`, or waits, by the start mode and the spacing; any other state records the
level alone. The offset of a cut is the timer's count, less 1 while an event of the timer at that count is still to be
taken (R91, R74; for the offset of an early edge it is log 5's, DEDUCED). -/
def Obligations.InhibitCutsAndResumes : Prop :=
  (∀ s : State, s.hold = none → s.engine.inhAsserted = false →
     ∃ t, exec .inhAsserted s = .next t ∧ ScheduleOnly s t
       ∧ (s.engine.state = .running ∨ s.engine.state = .halting →
           t.plan = none ∧ (∀ l, t.holding.get l = none ∧ t.driven.get l = s.idleLevel l)
           ∧ t.engine =
             { s.engine with
               state := if s.engine.state = .running then .held else .stopped
               restart := if s.engine.state = .running then s.engine.restart else true
               inhAsserted := true
               inhibitEpisodes := saturatingInc s.engine.inhibitEpisodes
               cuts := t.engine.cuts }
           ∧ t.engine.cuts.toNat = min 65535 (s.engine.cuts.toNat + s.openEntries.length)
           ∧ t.entries = if s.engine.state = .running then s.entries else s.enterStopped.entries)
       ∧ (LinesServed s →
           (s.engine.state = .running ∨ s.engine.state = .halting → ∀ g, t.burst g = .idle)
           ∧ (s.engine.state = .running → ∀ p, t.queue p =
               (s.queue p).after
                 (s.cutsFor p s.eventOffset s.openEntries ++ s.engineNotices p .held s.engine.reportedNumber))
           ∧ (s.engine.state = .halting → ∀ p, t.queue p =
               (s.queue p).after
                 (s.cutsFor p s.eventOffset s.openEntries ++ s.engineNotices p .stopped s.engine.reportedNumber
                   ++ s.stopNotices p)))
       ∧ (s.engine.state = .waiting →
           t.engine =
               { s.engine with
                 state := .held, inhAsserted := true
                 inhibitEpisodes := saturatingInc s.engine.inhibitEpisodes }
             ∧ EngineMoved s t .held)
       ∧ (s.engine.state = .stopped ∨ s.engine.state = .held →
           t = { s with engine := { s.engine with inhAsserted := true } }))
  ∧ (∀ s : State, s.hold = none → s.engine.inhAsserted = true →
     (s.engine.state = .held →
       (s.hub.startMode = .internal → s.engine.spacing = .clear →
         exec .inhReleased s = .next (State.cycleStart { s with engine := { s.engine with inhAsserted := false } }))
       ∧ (s.hub.startMode = .external ∨ s.engine.spacing = .counting →
         ∃ t, exec .inhReleased s = .next t ∧ ScheduleOnly s t
           ∧ t.engine = { s.engine with state := .waiting, inhAsserted := false } ∧ EngineMoved s t .waiting))
     ∧ (s.engine.state ≠ .held →
       exec .inhReleased s = .next { s with engine := { s.engine with inhAsserted := false } }))
  ∧ (∀ (s : State) (n : Nat), s.engine.timer = some n →
     let untaken := s.engine.span ≤ n
       ∨ (s.engine.state.inProgress = true ∧ 1 ≤ n ∧ n < s.engine.span
           ∧ ∃ w ∈ s.planList, (w.state.isOpen = true ∧ (s.entry w.entry).descriptor.stop = n)
               ∨ (w.state = .scheduled ∧ (s.entry w.entry).descriptor.start = n))
     (untaken → s.eventOffset = n - 1) ∧ (¬ untaken → s.eventOffset = n))

/-! ### Inputs -/

/-- R118, R119: a raw change follows at once with width 0; starts a stopped timer; and is discarded with the timer
counting. A change qualifies when its timer has reached the width while the raw level still differs, and its edge is
handed on; that a QUALIFICATION before that changes nothing is log 4's (DESIGN CHOICE). -/
def Obligations.InputsAreFiltered : Prop :=
  (∀ (s : State) (i : InputIx), s.hold = none →
     let raw := oppositeLevel (s.input i).raw
     (s.hub.widths.get i = 0 →
       exec (.rawChange i) s = .next
         (State.handEdge { s with inputs := s.inputs.set i { raw := raw, filtered := raw, timer := none } } i))
     ∧ (s.hub.widths.get i ≠ 0 → (s.input i).timer = none →
       exec (.rawChange i) s = .next
         { s with inputs := s.inputs.set i { raw := raw, filtered := (s.input i).filtered, timer := some 0 } })
     ∧ (s.hub.widths.get i ≠ 0 → (s.input i).timer.isSome = true →
       exec (.rawChange i) s = .next
         { s with inputs := s.inputs.set i { raw := raw, filtered := (s.input i).filtered, timer := none } }))
  ∧ (∀ (s : State) (i : InputIx) (n : Nat), s.hold = none → (s.input i).timer = some n →
     (s.hub.widths.get i ≤ n → (s.input i).raw ≠ (s.input i).filtered →
       exec (.qualification i) s = .next
         (State.handEdge
           { s with
             inputs := s.inputs.set i { raw := (s.input i).raw, filtered := (s.input i).raw, timer := none } } i))
     ∧ (n < s.hub.widths.get i → exec (.qualification i) s = .next s))

/-- R121, R85, R86, R108, R110, R67, R68: an edge visits the planned windows in plan order and gives every OPEN one that
gates on its input the flag of the new level; where the flag changes, a SOLID window's line is active or idle by it, and a
BURST window's engine takes the gate event; every other window, line and engine stands. The edge reaches the cycle engine
exactly when it qualifies; a qualifying edge starts a cycle in WAITING with the spacing CLEAR in EXTERNAL mode, is early,
counted and noticed, while a cycle is in progress or the spacing counts, and is ignored in INTERNAL mode, STOPPED or HELD.
The offset an early edge carries when a timer's event is still due at its tick is log 5's. -/
def Obligations.EdgesReachGatesAndTheEngine : Prop :=
  (∀ (s : State) (i : InputIx),
     ScheduleOnly s (s.handEdge i)
     ∧ (¬ (s.hub.startLine = i ∧ s.hub.startEdge = edgeTo (s.input i).filtered) → s.handEdge i = s.gateEdge i)
     ∧ (s.hub.startLine = i → s.hub.startEdge = edgeTo (s.input i).filtered →
         s.handEdge i = (s.gateEdge i).qualifyingEdge)
     ∧ (s.plan = none → s.gateEdge i = s)
     ∧ (s.gateEdge i).engine = s.engine ∧ (s.gateEdge i).entries = s.entries ∧ (s.gateEdge i).notices = s.notices
     ∧ s.gateEdge i = s.planList.foldl (State.gateWindow i) s
     ∧ ((s.planList.map fun w => w.entry).Nodup → ∀ w ∈ s.planList, ∀ flag g gate,
         w.state = .opened flag g → (s.entry w.entry).descriptor.gate = some gate →
         (s.gateEdge i).windowState w.entry =
           some (.opened (if gate.input = i then decide ((s.input i).filtered = gate.level) else flag) g)))
  ∧ (∀ (s : State) (i : InputIx) (w : PlannedWindow),
     (w.state.isOpen = false ∨ (∀ g ∈ (s.entry w.entry).descriptor.gate, g.input ≠ i) → State.gateWindow i s w = s)
     ∧ ∀ flag g gate, w.state = .opened flag g → (s.entry w.entry).descriptor.gate = some gate → gate.input = i →
         let d := (s.entry w.entry).descriptor
         let new := decide ((s.input i).filtered = gate.level)
         (flag = new → State.gateWindow i s w = s)
         ∧ (flag ≠ new → d.kind = .solid → g = none →
             State.gateWindow i s w =
               { s.setWindowState w.entry (.opened new none) with
                 driven := s.driven.set d.line
                   (if new then oppositeLevel (s.line d.line).idle else (s.line d.line).idle) })
         ∧ (flag ≠ new → ∀ b j, g = some b → s.burst b = .busy j →
             State.gateWindow i s w =
               { s.setWindowState w.entry (.opened new (some b)) with
                 bursts := s.bursts.set b (.busy (j.gateEvent new))
                 driven := s.driven.set j.line (j.gateEvent new).level }))
  ∧ (∀ (s : State) (i : InputIx), LinesServed s →
     s.openEntries.Pairwise (fun e g => (s.entry e).descriptor.line ≠ (s.entry g).descriptor.line) →
       ∀ w ∈ s.planList, ∀ flag g gate, w.state = .opened flag g → (s.entry w.entry).descriptor.gate = some gate →
         gate.input = i → flag ≠ decide ((s.input i).filtered = gate.level) →
           let d := (s.entry w.entry).descriptor
           let new := decide ((s.input i).filtered = gate.level)
           (d.kind = .solid →
             (s.gateEdge i).driven.get d.line =
               if new then oppositeLevel (s.line d.line).idle else (s.line d.line).idle)
           ∧ ∀ b j, g = some b → s.burst b = .busy j →
               (s.gateEdge i).burst b = .busy (j.gateEvent new)
               ∧ (s.gateEdge i).driven.get d.line = (j.gateEvent new).level)
  ∧ (∀ s : State,
     (s.hub.startMode = .internal ∨ s.engine.state = .stopped ∨ s.engine.state = .held → s.qualifyingEdge = s)
     ∧ (s.hub.startMode = .external → s.engine.state = .waiting → s.engine.spacing = .clear →
         s.qualifyingEdge = s.cycleStart)
     ∧ (s.hub.startMode = .external →
         s.engine.state.inProgress = true ∨ (s.engine.state = .waiting ∧ s.engine.spacing = .counting) →
         s.qualifyingEdge =
             { s with
               engine := { s.engine with earlyEdges := saturatingInc s.engine.earlyEdges }
               notices := s.qualifyingEdge.notices }
         ∧ ∀ p, s.qualifyingEdge.queue p =
             if s.maskHolds p .early then
               (s.queue p).arrive (.early s.engine.reportedNumber s.eventOffset)
             else s.queue p))

/-! ### Windows and burst engines -/

/-- R83, R84, R85, R87, R96, R106: a window start raises the fire count, takes the line and sets the gate open flag from the
filtered level; a SOLID window's line is active while the flag is open; a BURST window takes the lowest-numbered IDLE
engine, in HIGH from 0 with the line active, or in GATE_WAIT with the line idle while the gate is closed; then the FIRE
notice, whose snapshot has the bit of each input that is HIGH. -/
def Obligations.WindowsStart : Prop :=
  (∀ (s : State) (e : EntryIx), (s.entry e).descriptor.kind = .solid →
     let d := (s.entry e).descriptor
     let t : State :=
       { s.setWindowState e (.opened (s.startFlag e) none) with
         entries := s.entries.set e { s.entry e with fireCount := (s.entry e).fireCount + 1 }
         holding := s.holding.set d.line (some e)
         driven := s.driven.set d.line
           (if s.startFlag e then oppositeLevel (s.line d.line).idle else (s.line d.line).idle) }
     s.startWindow e = t.windowNotice e (s.fireBody e))
  ∧ (∀ (s : State) (e : EntryIx) (part : BurstPart) (g : EngineIx), (s.entry e).descriptor.kind = .burst part →
     s.burst g = .idle → (∀ h < g, s.burst h ≠ .idle) →
       let d := (s.entry e).descriptor
       let t : State :=
         { s.setWindowState e (.opened (s.startFlag e) (some g)) with
           entries := s.entries.set e { s.entry e with fireCount := (s.entry e).fireCount + 1 }
           holding := s.holding.set d.line (some e)
           bursts := s.bursts.set g
             (.busy
               { phase := if s.startFlag e then .high 0 else .gateWait
                 window := e
                 part := part
                 line := d.line
                 idle := (s.line d.line).idle
                 gate := if d.gate.isSome then some (s.startFlag e) else none
                 pulses := 0
                 closures := 0 })
           driven := s.driven.set d.line
             (if s.startFlag e then oppositeLevel (s.line d.line).idle else (s.line d.line).idle) }
       s.startWindow e = t.windowNotice e (s.fireBody e))
  ∧ ∀ (s : State) (i : InputIx), s.inputSnapshot.getLsbD i.val = decide ((s.input i).filtered = .high)

/-- R88, R91, R92, R112, R113, R117: an OPEN window that ends is CLOSED, one that is cut is CUT; its line is free and
idle and its engine IDLE; the end of a BURST window carries its counts in a TALLY notice, and a cut gives a CUT notice
with the ticks from its start and the engine's pulses (0 for SOLID), no TALLY, and counts. -/
def Obligations.WindowsEndAndAreCut : Prop :=
  (∀ (s : State) (e : EntryIx) (flag : Bool),
     let d := (s.entry e).descriptor
     let t : State :=
       { s.setWindowState e .closed with
         holding := s.holding.set d.line none
         driven := s.driven.set d.line (s.line d.line).idle }
     (s.windowState e = some (.opened flag none) → s.endWindow e = t)
     ∧ (∀ g j, s.windowState e = some (.opened flag (some g)) → s.burst g = .busy j →
         s.endWindow e =
           State.windowNotice { t with bursts := s.bursts.set g .idle } e
             (.tally (s.handleOf e) d.label s.engine.reportedNumber j.pulses j.closures g
               (decide (j.phase = .spent)))))
  ∧ (∀ (s : State) (e : EntryIx) (c : Nat) (flag : Bool),
     let d := (s.entry e).descriptor
     let t : State :=
       { s.setWindowState e .cut with
         holding := s.holding.set d.line none
         driven := s.driven.set d.line (s.line d.line).idle }
     let notice := fun pulses : BitVec 16 =>
       NoticeBody.cut (s.handleOf e) d.label s.engine.reportedNumber (c - d.start) pulses
     let counted := { s.engine with cuts := saturatingInc s.engine.cuts }
     (s.windowState e = some (.opened flag none) →
       State.cutWindow c s e = { t.windowNotice e (notice 0) with engine := counted })
     ∧ (∀ g j, s.windowState e = some (.opened flag (some g)) → s.burst g = .busy j →
         State.cutWindow c s e =
           { State.windowNotice { t with bursts := s.bursts.set g .idle } e (notice j.pulses) with engine := counted }))

/-- R82, R83, R88, R89: a window boundary event ends the OPEN windows that end at the present offset, in plan order, and
then starts, in the state they leave, the SCHEDULED windows that start there, in plan order; every other window stands, the
fire counts of those that start go up by 1, and no other item of an entry, nor the cycle engine, changes. In the states of
the invariants the ends leave lines free and engines IDLE, each port receives the TALLY notices before the FIRE notices, a
window that starts holds its line, also where another has just ended on it, drives it by its flag, and a BURST one has an
engine of its own. -/
def Obligations.BoundaryEventEndsThenStarts : Prop :=
  ∀ s : State, s.hold = none → s.boundaryDue = true → (s.planList.map fun w => w.entry).Nodup →
    let ends := (s.planList.filter fun w =>
      w.state.isOpen && decide ((s.entry w.entry).descriptor.stop = s.engine.count)).map fun w => w.entry
    let starts := (s.planList.filter fun w =>
      decide (w.state = .scheduled) && decide ((s.entry w.entry).descriptor.start = s.engine.count)).map fun w => w.entry
    let ended := ends.foldl State.endWindow s
    let t := starts.foldl State.startWindow ended
    exec .windowBoundaryEvent s = .next t ∧ ScheduleOnly s t ∧ t.engine = s.engine
      ∧ (∀ w ∈ s.planList,
          (w.state.isOpen = true → (s.entry w.entry).descriptor.stop = s.engine.count →
            t.windowState w.entry = some .closed ∧ t.entry w.entry = s.entry w.entry)
          ∧ (w.state = .scheduled → (s.entry w.entry).descriptor.start = s.engine.count →
            (∃ flag g, t.windowState w.entry = some (.opened flag g))
            ∧ t.entry w.entry = { s.entry w.entry with fireCount := (s.entry w.entry).fireCount + 1 })
          ∧ (¬ (w.state.isOpen = true ∧ (s.entry w.entry).descriptor.stop = s.engine.count) →
            ¬ (w.state = .scheduled ∧ (s.entry w.entry).descriptor.start = s.engine.count) →
            t.windowState w.entry = some w.state ∧ t.entry w.entry = s.entry w.entry))
      ∧ (∀ e, e ∉ s.planList.map (fun w => w.entry) → t.entry e = s.entry e)
      ∧ (LinesServed s →
          WindowsEnded s ended ends
          ∧ ∀ p, t.queue p = (s.queue p).after (s.talliesFor p ends ++ t.firesFor p starts))
      ∧ (ScheduleSound s → LinesServed s → WindowsTimed s → ∀ e ∈ starts,
          let d := (s.entry e).descriptor
          t.holding.get d.line = some e
          ∧ t.driven.get d.line =
              (if s.startFlag e then oppositeLevel (s.line d.line).idle else (s.line d.line).idle)
          ∧ (d.isBurst = true →
              ∃ g j, t.windowState e = some (.opened (s.startFlag e) (some g)) ∧ t.burst g = .busy j ∧ j.window = e))

/-- R107 to R111, R87: the high time counts the pulse, up to 65535, and leads to SPENT at the count, else to LOW; the low
time leads to HIGH, or to GATE_WAIT while the gate is closed; that the commands change nothing before their times is log
4's (DESIGN CHOICE). A closing gate ends HIGH in GATE_WAIT with the closure counted and the pulse not, an opening one ends
GATE_WAIT in HIGH from 0, and in every other case the gate's state alone is recorded. The line is active in HIGH and idle
in every other phase. -/
def Obligations.BurstPhases : Prop :=
  (∀ (s : State) (g : EngineIx) (j : BurstJob) (n : Nat), s.hold = none → s.burst g = .busy j → j.phase = .high n →
     (n < j.part.highTime → exec (.highTimeElapses g) s = .next s)
     ∧ (j.part.highTime ≤ n →
         let pulses := if j.pulses.toNat = 65535 then j.pulses else j.pulses + 1
         exec (.highTimeElapses g) s = .next
           { s with
             bursts := s.bursts.set g
               (.busy
                 { j with
                   pulses := pulses
                   phase := if j.part.count = some pulses.toNat then .spent else .low 0 })
             driven := s.driven.set j.line j.idle }))
  ∧ (∀ (s : State) (g : EngineIx) (j : BurstJob) (n : Nat), s.hold = none → s.burst g = .busy j → j.phase = .low n →
     (n < j.part.lowTime → exec (.lowTimeElapses g) s = .next s)
     ∧ (j.part.lowTime ≤ n → j.gate ≠ some false →
         exec (.lowTimeElapses g) s = .next
           { s with
             bursts := s.bursts.set g (.busy { j with phase := .high 0 })
             driven := s.driven.set j.line (oppositeLevel j.idle) })
     ∧ (j.part.lowTime ≤ n → j.gate = some false →
         exec (.lowTimeElapses g) s = .next
           { s with
             bursts := s.bursts.set g (.busy { j with phase := .gateWait })
             driven := s.driven.set j.line j.idle }))
  ∧ (∀ (j : BurstJob),
     (∀ n, j.phase = .high n →
       j.gateEvent false = { j with gate := some false, phase := .gateWait, closures := saturatingInc j.closures }
       ∧ j.gateEvent true = { j with gate := some true })
     ∧ (j.phase = .gateWait →
       j.gateEvent true = { j with gate := some true, phase := .high 0 }
       ∧ j.gateEvent false = { j with gate := some false })
     ∧ (∀ b, (∃ n, j.phase = .low n) ∨ j.phase = .spent → j.gateEvent b = { j with gate := some b })
     ∧ ((∃ n, j.phase = .high n) → j.level = oppositeLevel j.idle)
     ∧ ((∀ n, j.phase ≠ .high n) → j.level = j.idle))

/-! ### Notices -/

/-- R149, R150, R84: an owner notice joins the owner port's queue when that port's session is attached with the owner's
number and its mask holds the kind, a window's notice only with the notify flag on as well; a broadcast joins the queue
of each attached session whose mask holds the kind; nothing else changes. -/
def Obligations.NoticesAreRouted : Prop :=
  ∀ (s : State) (kind : MaskKind) (b : NoticeBody),
    (NoticesOnly s (s.broadcast kind b)
      ∧ ∀ p, (s.broadcast kind b).queue p = if s.maskHolds p kind then (s.queue p).arrive b else s.queue p)
    ∧ (∀ o : SessionId, NoticesOnly s (s.ownerNotice (some o) kind b)
      ∧ ∀ p, (s.ownerNotice (some o) kind b).queue p =
        if p = o.port ∧ s.attachedSession p = some o ∧ s.maskHolds p kind = true then (s.queue p).arrive b
        else s.queue p)
    ∧ s.ownerNotice none kind b = s
    ∧ (∀ e, s.windowNotice e b =
        if (s.entry e).descriptor.notify = true then s.ownerNotice (s.ownerOf e) .window b else s)

/-- R154 to R156, R158: a notice that arrives at a queue with room joins the tail with the present sequence number; at a
full queue it is dropped, takes no number and is counted, at most to 65535. The removal of the record in transfer takes
the head; with losses counted on a full queue a LOST notice with the count takes the freed place and the counter is 0;
with no record in transfer nothing is removed. -/
def Obligations.NoticesAreQueuedDroppedAndRemoved : Prop :=
  (∀ (q : NoticeQueue) (b : NoticeBody),
     (q.records.length < 32 →
       q.arrive b = { q with records := q.records ++ [{ seq := q.seq, body := b }], seq := q.seq + 1 })
     ∧ (32 ≤ q.records.length →
       q.arrive b = { q with losses := if q.losses.toNat = 65535 then q.losses else q.losses + 1 }))
  ∧ (∀ q : NoticeQueue,
     (q.inTransfer = none → q.removeTransferred = q)
     ∧ (q.inTransfer.isSome = true → q.losses = 0 →
         q.removeTransferred = { q with records := q.records.tail, inTransfer := none })
     ∧ (q.inTransfer.isSome = true → q.losses ≠ 0 → q.records.length = 32 →
         q.removeTransferred =
           { records := q.records.tail ++ [{ seq := q.seq, body := .lost q.losses }]
             seq := q.seq + 1
             losses := 0
             inTransfer := none }))

/-! ### Frames -/

/-- R177: a SUBMIT, from its first byte or gone on with. BAD_LENGTH changes nothing; a frame cut short by the rise of CSn is
counted as malformed; when the last payload byte is received, and not at the rise, a complete one joins the request queue
for a credit held then, and with no credit left is discarded; the result byte follows the last payload byte. -/
def Obligations.SubmitQueuesForACredit : Prop :=
  ∀ (s : State) (p : Port) (mosi : List Byte) (rise : Bool),
    let frame := fun f : FrameState => if rise then .idle else f
    let outcome := fun (c : Instr) (bytes : List Byte) (miso : Nat → Byte → List Byte) =>
      (SubmitShort bytes →
        exec c s = .next
          { s with
            links := s.links.set p
              { s.link p with
                frame := frame (.submit bytes), miso := miso bytes.length 0
                malformed := if rise then saturatingInc (s.link p).malformed else (s.link p).malformed } })
      ∧ ∀ (n : Byte) (payload : List Byte), bytes = n :: payload →
          (n.toNat < 2 ∨ 40 < n.toNat →
            exec c s = .next
              { s with
                links := s.links.set p
                  { s.link p with
                    frame := frame (.answered (if payload = [] then 0x02 else 0)), miso := miso 1 0x02 } })
          ∧ (2 ≤ n.toNat → n.toNat ≤ 40 → n.toNat ≤ payload.length → (s.link p).credits = 0 →
            exec c s = .next
              { s with
                links := s.links.set p
                  { s.link p with
                    frame := frame (.answered (if payload.length = n.toNat then 0x01 else 0))
                    miso := miso (n.toNat + 1) 0x01 } })
          ∧ (2 ≤ n.toNat → n.toNat ≤ 40 → n.toNat ≤ payload.length → 0 < (s.link p).credits →
            exec c s = .next
              { s with
                links := s.links.set p
                  { s.link p with
                    frame := frame (.answered 0)
                    miso := miso (n.toNat + 1) 0x00
                    credits := (s.link p).credits - 1
                    requests := (s.link p).requests
                      ++ [{ tag := byteAt payload 0, code := byteAt payload 1
                            fields := (payload.take n.toNat).drop 2 }] } })
    (∀ st, s.beforeCode p st →
      outcome (.submit p ⟨0x51 :: mosi, rise⟩) mosi fun place result =>
        st :: (List.range mosi.length).map fun i => if i = place then result else 0)
    ∧ (∀ received, s.hold = none → (s.link p).frame = .submit received → SubmitShort received →
        outcome (.submit p ⟨mosi, rise⟩) (received ++ mosi) fun place result =>
          (s.link p).miso ++ (List.range mosi.length).map fun i => if received.length + i = place then result else 0)
    ∧ (∀ result, s.hold = none → (s.link p).frame = .answered result →
        exec (.submit p ⟨mosi, rise⟩) s = .next
          { s with
            links := s.links.set p
              { s.link p with
                frame := frame (.answered (if mosi = [] then result else 0))
                miso := (s.link p).miso
                  ++ (List.range mosi.length).map fun i => if i = 0 then result else 0 } })

/-- R179: a COLLECT, of its frame code and n further bytes, or gone on with for n bytes. The reply's length and bytes are
shifted out and then zeros; the reply leaves the queue and its credit returns exactly when its last byte has gone; with no
reply at the frame code only zeros are shifted out. -/
def Obligations.CollectTakesTheOldestReply : Prop :=
  ∀ (s : State) (p : Port) (n : Nat) (rise : Bool),
    let outcome := fun (c : Instr) (shifted bytes : List Byte) =>
      let link : Link :=
        { s.link p with
          frame := if rise then .idle else .collect (bytes.drop n)
          miso := shifted ++ (List.range n).map fun i => bytes.getD i 0 }
      (bytes = [] ∨ n < bytes.length → exec c s = .next { s with links := s.links.set p link })
      ∧ (bytes ≠ [] → bytes.length ≤ n → ∀ r rest, (s.link p).replies = r :: rest →
          exec c s = .next
            { s with links := s.links.set p { link with replies := rest, credits := (s.link p).credits + 1 } })
    (∀ st, s.beforeCode p st →
      ((s.link p).replies = [] → outcome (.collect p (n + 1) rise) [st] [])
      ∧ ∀ r rest, (s.link p).replies = r :: rest → outcome (.collect p (n + 1) rise) [st] (collectBytes r))
    ∧ (∀ bytes, s.hold = none → (s.link p).frame = .collect bytes →
        outcome (.collect p n rise) (s.link p).miso bytes)

/-- R158, R159, R180: a FETCH of its frame code and n further bytes, up to the end of the first position, and one gone on
with, whatever has come between, before its count, between two positions or within one: the count of records, as at the
frame code, and in each position the head record's 16 bytes, or zeros; the record in transfer is removed exactly when its
16th byte has gone, if it is still there. That a record that joined between the fall of CSn and the frame code is counted is
log 21's (DESIGN CHOICE). -/
def Obligations.FetchRemovesAtTheSixteenthByte : Prop :=
  ∀ (s : State) (p : Port) (n : Nat) (rise : Bool),
    let outcome := fun (c : Instr) (f : FrameState) (miso : List Byte) (q : NoticeQueue) =>
      exec c s = .next
        { s with
          links := s.links.set p { s.link p with frame := if rise then .idle else f, miso := miso }
          notices := s.notices.set p (if rise then { q with inTransfer := none } else q) }
    let queue := s.queue p
    let position := match queue.records with | [] => List.replicate 16 0 | r :: _ => noticeBytes r
    let handed : NoticeQueue := { queue with inTransfer := queue.records.head? }
    (∀ st, s.beforeCode p st → n ≤ 17 →
      let count := BitVec.ofNat 8 queue.records.length
      outcome (.fetch p (n + 1) rise)
        (if n = 0 then .fetch (some count) [] else .fetch none (if n = 1 then [] else position.drop (n - 1)))
        (st :: (count :: position).take n)
        (if n ≤ 1 then queue else if n = 17 then handed.removeTransferred else handed))
    ∧ (∀ count, s.hold = none → (s.link p).frame = .fetch (some count) [] → n = 1 →
        outcome (.fetch p n rise) (.fetch none []) ((s.link p).miso ++ [count]) queue)
    ∧ (s.hold = none → (s.link p).frame = .fetch none [] → 0 < n → n ≤ 16 →
        outcome (.fetch p n rise) (.fetch none (position.drop n)) ((s.link p).miso ++ position.take n)
          (if n = 16 then handed.removeTransferred else handed))
    ∧ (∀ rest, s.hold = none → (s.link p).frame = .fetch none rest → rest ≠ [] → n ≤ rest.length →
        outcome (.fetch p n rise) (.fetch none (rest.drop n)) ((s.link p).miso ++ rest.take n)
          (if n = rest.length then queue.removeTransferred else queue))

/-- R181, R175: a STATUS of its frame code and n further bytes, or gone on with for n bytes, shifts out the status byte
sampled again, the session number, the loss counter taken whole with its first byte, then zeros, and changes no state but
the record of the bytes; the status byte holds attached, reply ready, notices pending, engine running, loss counter
non-zero, and in its low three bits the credits. The moment of the session number is log 19's (DESIGN CHOICE). -/
def Obligations.StatusReadsThePortAndItsByte : Prop :=
  (∀ (s : State) (p : Port) (n : Nat),
     let outcome := fun (c : Instr) (shifted : List Byte) (k : Nat) (losses : BitVec 16) =>
       exec c s = .next
         { s with
           links := s.links.set p
             { s.link p with
               frame := .idle
               miso := shifted ++ (List.range n).map fun i =>
                 ([s.statusByte p, (s.session p).number] ++ bytesOf 2 losses.toNat).getD (k + i) 0 } }
     (∀ st, s.beforeCode p st → outcome (.status p (n + 1) true) [st] 0 (s.queue p).losses)
     ∧ (∀ k losses, s.hold = none → (s.link p).frame = .status k losses →
         outcome (.status p n true) (s.link p).miso k (if k ≤ 2 then (s.queue p).losses else losses)))
  ∧ (∀ (s : State) (p : Port), (s.link p).credits ≤ 4 →
     ((s.statusByte p).getLsbD 7 = (s.session p).attachment.isSome)
     ∧ ((s.statusByte p).getLsbD 6 = decide ((s.link p).replies ≠ []))
     ∧ ((s.statusByte p).getLsbD 5 = decide ((s.queue p).records ≠ []))
     ∧ ((s.statusByte p).getLsbD 4 =
         decide (s.engine.state = .running ∨ s.engine.state = .halting ∨ s.engine.state = .waiting))
     ∧ ((s.statusByte p).getLsbD 3 = decide (0 < (s.queue p).losses.toNat))
     ∧ (s.statusByte p).toNat % 8 = (s.link p).credits)

/-- R174 to R176: the fall of CSn samples the status byte, and no later event changes it; a frame that is malformed by its
form, and no other, is counted, up to 255, and changes nothing else of the part; that a MALFORMED_FRAME of good form leaves
the state as it is, and not only uncounted, is log 4's (DESIGN CHOICE); the rise of CSn after a reset makes an ignoring port
idle and counts nothing, as does a frame without an SCLK edge. The model's granularity (log 6): a frame given in two parts,
the first without the rise of CSn, does what it does in one when nothing comes between. -/
def Obligations.MalformedAndSplitFrames : Prop :=
  (∀ (s : State) (p : Port),
     let counted := fun (miso : List Byte) =>
       Host.Outcome.next
         { s with
           links := s.links.set p
             { s.link p with frame := .idle, miso := miso, malformed := saturatingInc (s.link p).malformed } }
     (s.hold = none → (s.link p).frame = .idle →
       ∀ c ∈ [Instr.submit p ⟨[], false⟩, .collect p 0 false, .fetch p 0 false, .status p 0 false, .abandon p ⟨[], false⟩,
              .malformedFrame p ⟨[], false⟩ 0],
         exec c s = .next { s with links := s.links.set p { s.link p with frame := .opened (s.statusByte p) } })
     ∧ (∀ st, s.beforeCode p st → ∀ (mosi : List Byte) (bits : Nat),
         (MalformedForm mosi bits →
           exec (.malformedFrame p ⟨mosi, true⟩ bits) s =
             counted (if mosi = [] then (s.link p).miso else st :: List.replicate (mosi.length - 1) 0))
         ∧ (¬ MalformedForm mosi bits → exec (.malformedFrame p ⟨mosi, true⟩ bits) s = .next s)
         ∧ ∀ c ∈ [Instr.submit p ⟨[], true⟩, .collect p 0 true, .fetch p 0 true, .status p 0 true, .abandon p ⟨[], true⟩],
             exec c s = .next { s with links := s.links.set p { s.link p with frame := .idle } })
     ∧ (∀ (mosi : List Byte) (bits : Nat), s.hold = none →
         (s.link p).frame = .unknown
             ∨ (∃ received, (s.link p).frame = .submit received ∧ SubmitShort received
                 ∧ SubmitShort (received ++ mosi))
             ∨ ((s.link p).frame = .abandon none ∧ mosi = []) →
           exec (.malformedFrame p ⟨mosi, true⟩ bits) s =
             counted ((s.link p).miso ++ List.replicate mosi.length 0))
     ∧ (s.hold = none → (s.link p).frame = .ignoring →
       exec (.csnRiseAfterReset p) s = .next
         { s with links := s.links.set p { s.link p with frame := .idle } }))
  ∧ (∀ (s t : State) (p : Port) (st : Byte) (m n : Nat) (a b : List Byte) (bits : Nat) (rise : Bool),
     s.beforeCode p st →
     (exec (.collect p m false) s = .next t → exec (.collect p n rise) t = exec (.collect p (m + n) rise) s)
     ∧ (exec (.fetch p m false) s = .next t → exec (.fetch p n rise) t = exec (.fetch p (m + n) rise) s)
     ∧ (exec (.status p m false) s = .next t → exec (.status p n rise) t = exec (.status p (m + n) rise) s)
     ∧ ((a ++ b).head? = some 0x51 → exec (.submit p ⟨a, false⟩) s = .next t →
         exec (.submit p ⟨b, rise⟩) t = exec (.submit p ⟨a ++ b, rise⟩) s)
     ∧ ((a ++ b).head? = some 0x5A → exec (.abandon p ⟨a, false⟩) s = .next t →
         exec (.abandon p ⟨b, rise⟩) t = exec (.abandon p ⟨a ++ b, rise⟩) s)
     ∧ ((∃ code ∈ (a ++ b).head?, code ∉ [(0x51 : Byte), 0x52, 0x53, 0x54, 0x5A]) →
         exec (.malformedFrame p ⟨a, false⟩ 0) s = .next t →
           exec (.malformedFrame p ⟨b, rise⟩ bits) t = exec (.malformedFrame p ⟨a ++ b, rise⟩ bits) s))

/-- R161: ATTNn is driven LOW exactly while the port's reply queue or notice queue holds a record and the part is not in
reset; after a reset every ATTN is released. -/
def Obligations.AttentionFollowsTheQueues : Prop :=
  (∀ (s : State) (p : Port),
    s.attnLevel p = .low ↔ s.hold = none ∧ ((s.link p).replies ≠ [] ∨ (s.queue p).records ≠ []))
  ∧ ∀ cause inputs inh cs cmds n p, (State.afterRelease cause inputs inh cs cmds n).attnLevel p = .high

/-! ### Resets -/

/-- R172, R171, R174, R127: POWER_ON_RESET and RSTN_ASSERTED hold the part, with every output LOW, every qualification timer
stopped, the filter widths at 4, the frames discarded and no record in transfer; a reset already in progress goes on under
RSTN. That a POWER_ON_RESET during a reset by RSTN makes the cause POWER is log 9's (DEDUCED), what else the registers hold
until the release is log 9's (DESIGN CHOICE), and that while the part is held every command but these and the release
changes nothing is log 4's (DESIGN CHOICE). -/
def Obligations.ResetHoldsThePart : Prop :=
  ∀ s : State,
    let held := fun (cause : ResetCause) (t : State) =>
      t = { s with
          hold := some cause, driven := t.driven, links := t.links, notices := t.notices, inputs := t.inputs
          hub := { s.hub with widths := t.hub.widths } }
        ∧ (∀ l, t.driven.get l = .low)
        ∧ (∀ i, t.input i = { s.input i with timer := none } ∧ t.hub.widths.get i = 4)
        ∧ (∀ p, t.link p = { s.link p with frame := .idle } ∧ t.queue p = { s.queue p with inTransfer := none })
    (∃ t, exec .powerOnReset s = .next t ∧ held .power t)
    ∧ (s.hold = none → ∃ t, exec .rstnAsserted s = .next t ∧ held .pin t)
    ∧ (s.hold.isSome = true →
        exec .rstnAsserted s = .next s
        ∧ ∀ c, c ≠ .powerOnReset → (∀ inputs inh cs, c ≠ .resetRelease inputs inh cs) → exec c s = .next s)

/-- R172, R171, R127, R174, R4, R54, R57, R79, R103, R105, R129, R147, R163, R183: the release takes the reset values as one
event, records the cause, and takes the samples of the inputs as both levels and that of INH as its level; and the values
after a reset. That a RESET_RELEASE with no reset in progress changes nothing is log 4's (DESIGN CHOICE). -/
def Obligations.ResetReleaseSetsTheResetValues : Prop :=
  (∀ (s : State) (inputs : BitVec 8) (inh : Bool) (cs : BitVec 4),
     (∀ cause, s.hold = some cause →
       ∃ t, exec (.resetRelease inputs inh cs) s = .next t
         ∧ t.resetCause = cause ∧ t.hold = none ∧ t.engine.inhAsserted = inh ∧ t.pending = s.pending
         ∧ (∀ i, t.input i =
             { raw := if inputs.getLsbD i.val then .high else .low
               filtered := if inputs.getLsbD i.val then .high else .low
               timer := none })
         ∧ (∀ p, (t.link p).frame = if cs.getLsbD p.val then .ignoring else .idle)
         ∧ ∃ cmds n, t = State.afterRelease cause inputs inh cs cmds n)
     ∧ (s.hold = none → exec (.resetRelease inputs inh cs) s = .next s))
  ∧ (∀ (cause : ResetCause) (inputs : BitVec 8) (inh : Bool) (cs : BitVec 4) (cmds : List Instr) (n : Nat),
     let t := State.afterRelease cause inputs inh cs cmds n
     (∀ e, t.entry e =
       { state := .free, generation := 0, fireCount := 0
         descriptor :=
           { line := 0, kind := .solid, start := 0, duration := 1, period := .one, pattern := 1, rail := none, draw := 0,
             notify := false, label := 0, gate := none } })
     ∧ (∀ l, t.line l = { holder := none, idle := .low, gap := 0 } ∧ t.holding.get l = none ∧ t.driven.get l = .low)
     ∧ t.peaks = { a := 0, b := 0 } ∧ t.plan = none ∧ (∀ g, t.burst g = .idle)
     ∧ (t.hub.cycleLength = 20000 ∧ t.hub.startMode = .internal ∧ t.hub.startLine = 0 ∧ t.hub.startEdge = .rising
         ∧ t.hub.capacityA = 0 ∧ t.hub.capacityB = 0 ∧ ∀ i, t.hub.widths.get i = 4)
     ∧ t.engine =
         { state := .stopped, number := none, restart := true, timer := none, span := 20000, spacing := .clear,
           inhAsserted := inh, earlyEdges := 0, inhibitEpisodes := 0, cuts := 0 }
     ∧ (∀ p, t.session p = { number := 0, attachment := none })
     ∧ (∀ p, t.queue p = { records := [], seq := 0, losses := 0, inTransfer := none })
     ∧ (∀ p, (t.link p).requests = [] ∧ (t.link p).inService = none ∧ (t.link p).replies = []
         ∧ (t.link p).credits = 4 ∧ (t.link p).malformed = 0)
     ∧ t.arbiter.executor = none ∧ t.arbiter.lastServed = 3 ∧ ∀ p, t.arbiter.claims.get p = none)

/-! ### Invariants -/

/-- Every invariant below holds right after a reset. -/
def Obligations.InvariantsHoldAfterReset : Prop :=
  ∀ (cause : ResetCause) (inputs : BitVec 8) (inh : Bool) (cs : BitVec 4) (cmds : List Instr) (n : Nat),
    let t := State.afterRelease cause inputs inh cs cmds n
    CreditsAccounted t ∧ QueuesBounded t ∧ EngineFollowsVotes t ∧ ScheduleSound t ∧ LinesServed t ∧ WindowsTimed t
      ∧ ClaimsRespected t ∧ OwnersAccountable t ∧ PeaksCurrent t ∧ TimersBounded t

/-- R178: every step keeps the credits of each port equal to 4 less what is queued, in service or uncollected. -/
def Obligations.StepKeepsCreditsAccounted : Prop :=
  ∀ s t : State, CreditsAccounted s → step s = .next t → CreditsAccounted t

/-- R146, R155, R156: every step keeps each notice queue within 32 records, and full while losses are counted. -/
def Obligations.StepKeepsQueuesBounded : Prop :=
  ∀ s t : State, QueuesBounded s → step s = .next t → QueuesBounded t

/-- R58, R72: every step keeps the engine STOPPED or HALTING exactly when no attached session holds a vote, with INH
asserted throughout HELD and released throughout WAITING, RUNNING and HALTING. -/
def Obligations.StepKeepsEngineFollowingVotes : Prop :=
  ∀ s t : State, EngineFollowsVotes s → step s = .next t → EngineFollowsVotes t

/-- R13: every step keeps the firing set and the next-epoch set conflict-free. -/
def Obligations.StepKeepsScheduleSound : Prop :=
  ∀ s t : State, ScheduleSound s → step s = .next t → ScheduleSound t

/-- R94, R114, R17: every step keeps lines and burst engines served by the OPEN windows of the plan alone. -/
def Obligations.StepKeepsLinesServed : Prop :=
  ∀ s t : State, LinesServed s → step s = .next t → LinesServed t

/-- R82, R87: every step keeps the windows of the plan in time with the cycle timer, and every OPEN BURST window with an
engine of its own. -/
def Obligations.StepKeepsWindowsTimed : Prop :=
  ∀ s t : State, ScheduleSound s → LinesServed s → WindowsTimed s → step s = .next t → WindowsTimed t

/-- R90, R94, R114: the draws of the windows in progress on a rail never exceed its capacity, no more than two BURST
windows and one window of a line are in progress at once; and while no cycle is in progress there is no plan, no line
has a holding window, every line is at its idle level and both burst engines are IDLE. -/
def Obligations.InvariantsGiveIdleLinesAndTheBudget : Prop :=
  (∀ s : State, ScheduleSound s → LinesServed s → WindowsTimed s →
     s.openDraw .a ≤ s.hub.capacityA ∧ s.openDraw .b ≤ s.hub.capacityB
     ∧ (s.openEntries.filter fun e => (s.entry e).descriptor.isBurst).length ≤ 2
     ∧ s.openEntries.Pairwise fun e g => (s.entry e).descriptor.line ≠ (s.entry g).descriptor.line)
  ∧ (∀ s : State, LinesServed s → s.hold = none → s.engine.state.inProgress = false →
     s.plan = none ∧ (∀ l, s.holding.get l = none ∧ s.driven.get l = s.idleLevel l) ∧ ∀ g, s.burst g = .idle)

/-- R99, R14, R143, R54: every step keeps every non-FREE entry on a CLAIMED line the holder's, and every PENDING or ACTIVE
entry and every CLAIMED line with an attached session or one whose cleanup claim is pending; and every step keeps each
rail's peak load equal to the largest sum that condition (c) forms over the next-epoch set. -/
def Obligations.StepKeepsClaimsOwnersAndPeaks : Prop :=
  (∀ s t : State, ClaimsRespected s → step s = .next t → ClaimsRespected t)
  ∧ (∀ s t : State, OwnersAccountable s → step s = .next t → OwnersAccountable t)
  ∧ (∀ s t : State, PeaksCurrent s → step s = .next t → PeaksCurrent t)

/-- R46, R65, R104, R119, R137: every step keeps every timer within the count at which its event is due, and every
flight within 40 ticks. -/
def Obligations.StepKeepsTimersBounded : Prop :=
  ∀ s t : State, TimersBounded s → step s = .next t → TimersBounded t
end

