-- ==== Sys2Proof/Laws/Table.lean ====
section
/-! SUPPORT. Reading a table after each way of writing it. -/

namespace Sys2Proof.Machine.Table

variable {α β : Type} {n : Nat}

@[simp] theorem get_set_self (t : Table α n) (i : Fin n) (x : α) : (t.set i x).get i = x := by
  simp [Table.get, Table.set]

theorem get_set_ne (t : Table α n) {i j : Fin n} (x : α) (h : j ≠ i) : (t.set i x).get j = t.get j := by
  have : i.val ≠ j.val := fun e => h (Fin.ext e.symm)
  simp [Table.get, Table.set, this]

theorem get_set (t : Table α n) (i j : Fin n) (x : α) : (t.set i x).get j = if j = i then x else t.get j := by
  by_cases h : j = i
  · subst h; simp
  · simp [h, get_set_ne t x h]

@[simp] theorem set_set (t : Table α n) (i : Fin n) (x y : α) : (t.set i x).set i y = t.set i y := by
  simp [Table.set]

@[simp] theorem get_fill (x : α) (i : Fin n) : (Table.fill n x).get i = x := by
  simp [Table.get, Table.fill]

@[simp] theorem get_build (f : Fin n → α) (i : Fin n) : (Table.build f).get i = f i := by
  simp [Table.get, Table.build]

@[simp] theorem get_map (f : α → β) (t : Table α n) (i : Fin n) : (t.map f).get i = f (t.get i) := by
  simp [Table.get, Table.map]

/-- Two tables that agree at every index are equal. -/
theorem eq_of_get_eq {t u : Table α n} (h : ∀ i, t.get i = u.get i) : t = u := by
  obtain ⟨a, ha⟩ := t
  obtain ⟨b, hb⟩ := u
  have : a = b := by
    apply List.ext_getElem (by rw [ha, hb])
    intro i hi _
    exact h ⟨i, by rw [← ha]; exact hi⟩
  subst this
  rfl

@[simp] theorem set_get_self (t : Table α n) (i : Fin n) : t.set i (t.get i) = t := by
  apply eq_of_get_eq
  intro j
  rw [get_set]
  by_cases h : j = i
  · subst h; simp
  · simp [h]

end Sys2Proof.Machine.Table
end

