-- ==== Sys2Proof/Laws/State.lean ====
section
/-! SUPPORT. One lemma per field and update of the state, each true by definition: what each named update writes, and that
it leaves every other field as it was. -/

namespace Sys2Proof.Machine.State

variable (s : State)

/-! ### setEntry -/

@[simp] theorem setEntry_entries (e : EntryIx) (x : Entry) : (s.setEntry e x).entries = s.entries.set e x := rfl
@[simp] theorem setEntry_lines (e : EntryIx) (x : Entry) : (s.setEntry e x).lines = s.lines := rfl
@[simp] theorem setEntry_hub (e : EntryIx) (x : Entry) : (s.setEntry e x).hub = s.hub := rfl
@[simp] theorem setEntry_peaks (e : EntryIx) (x : Entry) : (s.setEntry e x).peaks = s.peaks := rfl
@[simp] theorem setEntry_engine (e : EntryIx) (x : Entry) : (s.setEntry e x).engine = s.engine := rfl
@[simp] theorem setEntry_plan (e : EntryIx) (x : Entry) : (s.setEntry e x).plan = s.plan := rfl
@[simp] theorem setEntry_holding (e : EntryIx) (x : Entry) : (s.setEntry e x).holding = s.holding := rfl
@[simp] theorem setEntry_driven (e : EntryIx) (x : Entry) : (s.setEntry e x).driven = s.driven := rfl
@[simp] theorem setEntry_bursts (e : EntryIx) (x : Entry) : (s.setEntry e x).bursts = s.bursts := rfl
@[simp] theorem setEntry_inputs (e : EntryIx) (x : Entry) : (s.setEntry e x).inputs = s.inputs := rfl
@[simp] theorem setEntry_sessions (e : EntryIx) (x : Entry) : (s.setEntry e x).sessions = s.sessions := rfl
@[simp] theorem setEntry_notices (e : EntryIx) (x : Entry) : (s.setEntry e x).notices = s.notices := rfl
@[simp] theorem setEntry_links (e : EntryIx) (x : Entry) : (s.setEntry e x).links = s.links := rfl
@[simp] theorem setEntry_arbiter (e : EntryIx) (x : Entry) : (s.setEntry e x).arbiter = s.arbiter := rfl
@[simp] theorem setEntry_resetCause (e : EntryIx) (x : Entry) : (s.setEntry e x).resetCause = s.resetCause := rfl
@[simp] theorem setEntry_hold (e : EntryIx) (x : Entry) : (s.setEntry e x).hold = s.hold := rfl
@[simp] theorem setEntry_pending (e : EntryIx) (x : Entry) : (s.setEntry e x).pending = s.pending := rfl
@[simp] theorem setEntry_freeCount (e : EntryIx) (x : Entry) : (s.setEntry e x).freeCount = s.freeCount := rfl

/-! ### setLine -/

@[simp] theorem setLine_entries (l : LineIx) (x : Line) : (s.setLine l x).entries = s.entries := rfl
@[simp] theorem setLine_lines (l : LineIx) (x : Line) : (s.setLine l x).lines = s.lines.set l x := rfl
@[simp] theorem setLine_hub (l : LineIx) (x : Line) : (s.setLine l x).hub = s.hub := rfl
@[simp] theorem setLine_peaks (l : LineIx) (x : Line) : (s.setLine l x).peaks = s.peaks := rfl
@[simp] theorem setLine_engine (l : LineIx) (x : Line) : (s.setLine l x).engine = s.engine := rfl
@[simp] theorem setLine_plan (l : LineIx) (x : Line) : (s.setLine l x).plan = s.plan := rfl
@[simp] theorem setLine_holding (l : LineIx) (x : Line) : (s.setLine l x).holding = s.holding := rfl
@[simp] theorem setLine_driven (l : LineIx) (x : Line) : (s.setLine l x).driven = s.driven := rfl
@[simp] theorem setLine_bursts (l : LineIx) (x : Line) : (s.setLine l x).bursts = s.bursts := rfl
@[simp] theorem setLine_inputs (l : LineIx) (x : Line) : (s.setLine l x).inputs = s.inputs := rfl
@[simp] theorem setLine_sessions (l : LineIx) (x : Line) : (s.setLine l x).sessions = s.sessions := rfl
@[simp] theorem setLine_notices (l : LineIx) (x : Line) : (s.setLine l x).notices = s.notices := rfl
@[simp] theorem setLine_links (l : LineIx) (x : Line) : (s.setLine l x).links = s.links := rfl
@[simp] theorem setLine_arbiter (l : LineIx) (x : Line) : (s.setLine l x).arbiter = s.arbiter := rfl
@[simp] theorem setLine_resetCause (l : LineIx) (x : Line) : (s.setLine l x).resetCause = s.resetCause := rfl
@[simp] theorem setLine_hold (l : LineIx) (x : Line) : (s.setLine l x).hold = s.hold := rfl
@[simp] theorem setLine_pending (l : LineIx) (x : Line) : (s.setLine l x).pending = s.pending := rfl
@[simp] theorem setLine_freeCount (l : LineIx) (x : Line) : (s.setLine l x).freeCount = s.freeCount := rfl

/-! ### setSession -/

@[simp] theorem setSession_entries (p : Port) (x : Session) : (s.setSession p x).entries = s.entries := rfl
@[simp] theorem setSession_lines (p : Port) (x : Session) : (s.setSession p x).lines = s.lines := rfl
@[simp] theorem setSession_hub (p : Port) (x : Session) : (s.setSession p x).hub = s.hub := rfl
@[simp] theorem setSession_peaks (p : Port) (x : Session) : (s.setSession p x).peaks = s.peaks := rfl
@[simp] theorem setSession_engine (p : Port) (x : Session) : (s.setSession p x).engine = s.engine := rfl
@[simp] theorem setSession_plan (p : Port) (x : Session) : (s.setSession p x).plan = s.plan := rfl
@[simp] theorem setSession_holding (p : Port) (x : Session) : (s.setSession p x).holding = s.holding := rfl
@[simp] theorem setSession_driven (p : Port) (x : Session) : (s.setSession p x).driven = s.driven := rfl
@[simp] theorem setSession_bursts (p : Port) (x : Session) : (s.setSession p x).bursts = s.bursts := rfl
@[simp] theorem setSession_inputs (p : Port) (x : Session) : (s.setSession p x).inputs = s.inputs := rfl
@[simp] theorem setSession_sessions (p : Port) (x : Session) : (s.setSession p x).sessions = s.sessions.set p x := rfl
@[simp] theorem setSession_notices (p : Port) (x : Session) : (s.setSession p x).notices = s.notices := rfl
@[simp] theorem setSession_links (p : Port) (x : Session) : (s.setSession p x).links = s.links := rfl
@[simp] theorem setSession_arbiter (p : Port) (x : Session) : (s.setSession p x).arbiter = s.arbiter := rfl
@[simp] theorem setSession_resetCause (p : Port) (x : Session) : (s.setSession p x).resetCause = s.resetCause := rfl
@[simp] theorem setSession_hold (p : Port) (x : Session) : (s.setSession p x).hold = s.hold := rfl
@[simp] theorem setSession_pending (p : Port) (x : Session) : (s.setSession p x).pending = s.pending := rfl
@[simp] theorem setSession_freeCount (p : Port) (x : Session) : (s.setSession p x).freeCount = s.freeCount := rfl

/-! ### setQueue -/

@[simp] theorem setQueue_entries (p : Port) (x : NoticeQueue) : (s.setQueue p x).entries = s.entries := rfl
@[simp] theorem setQueue_lines (p : Port) (x : NoticeQueue) : (s.setQueue p x).lines = s.lines := rfl
@[simp] theorem setQueue_hub (p : Port) (x : NoticeQueue) : (s.setQueue p x).hub = s.hub := rfl
@[simp] theorem setQueue_peaks (p : Port) (x : NoticeQueue) : (s.setQueue p x).peaks = s.peaks := rfl
@[simp] theorem setQueue_engine (p : Port) (x : NoticeQueue) : (s.setQueue p x).engine = s.engine := rfl
@[simp] theorem setQueue_plan (p : Port) (x : NoticeQueue) : (s.setQueue p x).plan = s.plan := rfl
@[simp] theorem setQueue_holding (p : Port) (x : NoticeQueue) : (s.setQueue p x).holding = s.holding := rfl
@[simp] theorem setQueue_driven (p : Port) (x : NoticeQueue) : (s.setQueue p x).driven = s.driven := rfl
@[simp] theorem setQueue_bursts (p : Port) (x : NoticeQueue) : (s.setQueue p x).bursts = s.bursts := rfl
@[simp] theorem setQueue_inputs (p : Port) (x : NoticeQueue) : (s.setQueue p x).inputs = s.inputs := rfl
@[simp] theorem setQueue_sessions (p : Port) (x : NoticeQueue) : (s.setQueue p x).sessions = s.sessions := rfl
@[simp] theorem setQueue_notices (p : Port) (x : NoticeQueue) : (s.setQueue p x).notices = s.notices.set p x := rfl
@[simp] theorem setQueue_links (p : Port) (x : NoticeQueue) : (s.setQueue p x).links = s.links := rfl
@[simp] theorem setQueue_arbiter (p : Port) (x : NoticeQueue) : (s.setQueue p x).arbiter = s.arbiter := rfl
@[simp] theorem setQueue_resetCause (p : Port) (x : NoticeQueue) : (s.setQueue p x).resetCause = s.resetCause := rfl
@[simp] theorem setQueue_hold (p : Port) (x : NoticeQueue) : (s.setQueue p x).hold = s.hold := rfl
@[simp] theorem setQueue_pending (p : Port) (x : NoticeQueue) : (s.setQueue p x).pending = s.pending := rfl
@[simp] theorem setQueue_freeCount (p : Port) (x : NoticeQueue) : (s.setQueue p x).freeCount = s.freeCount := rfl

/-! ### setLink -/

@[simp] theorem setLink_entries (p : Port) (x : Link) : (s.setLink p x).entries = s.entries := rfl
@[simp] theorem setLink_lines (p : Port) (x : Link) : (s.setLink p x).lines = s.lines := rfl
@[simp] theorem setLink_hub (p : Port) (x : Link) : (s.setLink p x).hub = s.hub := rfl
@[simp] theorem setLink_peaks (p : Port) (x : Link) : (s.setLink p x).peaks = s.peaks := rfl
@[simp] theorem setLink_engine (p : Port) (x : Link) : (s.setLink p x).engine = s.engine := rfl
@[simp] theorem setLink_plan (p : Port) (x : Link) : (s.setLink p x).plan = s.plan := rfl
@[simp] theorem setLink_holding (p : Port) (x : Link) : (s.setLink p x).holding = s.holding := rfl
@[simp] theorem setLink_driven (p : Port) (x : Link) : (s.setLink p x).driven = s.driven := rfl
@[simp] theorem setLink_bursts (p : Port) (x : Link) : (s.setLink p x).bursts = s.bursts := rfl
@[simp] theorem setLink_inputs (p : Port) (x : Link) : (s.setLink p x).inputs = s.inputs := rfl
@[simp] theorem setLink_sessions (p : Port) (x : Link) : (s.setLink p x).sessions = s.sessions := rfl
@[simp] theorem setLink_notices (p : Port) (x : Link) : (s.setLink p x).notices = s.notices := rfl
@[simp] theorem setLink_links (p : Port) (x : Link) : (s.setLink p x).links = s.links.set p x := rfl
@[simp] theorem setLink_arbiter (p : Port) (x : Link) : (s.setLink p x).arbiter = s.arbiter := rfl
@[simp] theorem setLink_resetCause (p : Port) (x : Link) : (s.setLink p x).resetCause = s.resetCause := rfl
@[simp] theorem setLink_hold (p : Port) (x : Link) : (s.setLink p x).hold = s.hold := rfl
@[simp] theorem setLink_pending (p : Port) (x : Link) : (s.setLink p x).pending = s.pending := rfl
@[simp] theorem setLink_freeCount (p : Port) (x : Link) : (s.setLink p x).freeCount = s.freeCount := rfl

/-! ### setBurst -/

@[simp] theorem setBurst_entries (g : EngineIx) (x : BurstEngine) : (s.setBurst g x).entries = s.entries := rfl
@[simp] theorem setBurst_lines (g : EngineIx) (x : BurstEngine) : (s.setBurst g x).lines = s.lines := rfl
@[simp] theorem setBurst_hub (g : EngineIx) (x : BurstEngine) : (s.setBurst g x).hub = s.hub := rfl
@[simp] theorem setBurst_peaks (g : EngineIx) (x : BurstEngine) : (s.setBurst g x).peaks = s.peaks := rfl
@[simp] theorem setBurst_engine (g : EngineIx) (x : BurstEngine) : (s.setBurst g x).engine = s.engine := rfl
@[simp] theorem setBurst_plan (g : EngineIx) (x : BurstEngine) : (s.setBurst g x).plan = s.plan := rfl
@[simp] theorem setBurst_holding (g : EngineIx) (x : BurstEngine) : (s.setBurst g x).holding = s.holding := rfl
@[simp] theorem setBurst_driven (g : EngineIx) (x : BurstEngine) : (s.setBurst g x).driven = s.driven := rfl
@[simp] theorem setBurst_bursts (g : EngineIx) (x : BurstEngine) : (s.setBurst g x).bursts = s.bursts.set g x := rfl
@[simp] theorem setBurst_inputs (g : EngineIx) (x : BurstEngine) : (s.setBurst g x).inputs = s.inputs := rfl
@[simp] theorem setBurst_sessions (g : EngineIx) (x : BurstEngine) : (s.setBurst g x).sessions = s.sessions := rfl
@[simp] theorem setBurst_notices (g : EngineIx) (x : BurstEngine) : (s.setBurst g x).notices = s.notices := rfl
@[simp] theorem setBurst_links (g : EngineIx) (x : BurstEngine) : (s.setBurst g x).links = s.links := rfl
@[simp] theorem setBurst_arbiter (g : EngineIx) (x : BurstEngine) : (s.setBurst g x).arbiter = s.arbiter := rfl
@[simp] theorem setBurst_resetCause (g : EngineIx) (x : BurstEngine) : (s.setBurst g x).resetCause = s.resetCause := rfl
@[simp] theorem setBurst_hold (g : EngineIx) (x : BurstEngine) : (s.setBurst g x).hold = s.hold := rfl
@[simp] theorem setBurst_pending (g : EngineIx) (x : BurstEngine) : (s.setBurst g x).pending = s.pending := rfl
@[simp] theorem setBurst_freeCount (g : EngineIx) (x : BurstEngine) : (s.setBurst g x).freeCount = s.freeCount := rfl

/-! ### setInput -/

@[simp] theorem setInput_entries (i : InputIx) (x : InputChannel) : (s.setInput i x).entries = s.entries := rfl
@[simp] theorem setInput_lines (i : InputIx) (x : InputChannel) : (s.setInput i x).lines = s.lines := rfl
@[simp] theorem setInput_hub (i : InputIx) (x : InputChannel) : (s.setInput i x).hub = s.hub := rfl
@[simp] theorem setInput_peaks (i : InputIx) (x : InputChannel) : (s.setInput i x).peaks = s.peaks := rfl
@[simp] theorem setInput_engine (i : InputIx) (x : InputChannel) : (s.setInput i x).engine = s.engine := rfl
@[simp] theorem setInput_plan (i : InputIx) (x : InputChannel) : (s.setInput i x).plan = s.plan := rfl
@[simp] theorem setInput_holding (i : InputIx) (x : InputChannel) : (s.setInput i x).holding = s.holding := rfl
@[simp] theorem setInput_driven (i : InputIx) (x : InputChannel) : (s.setInput i x).driven = s.driven := rfl
@[simp] theorem setInput_bursts (i : InputIx) (x : InputChannel) : (s.setInput i x).bursts = s.bursts := rfl
@[simp] theorem setInput_inputs (i : InputIx) (x : InputChannel) : (s.setInput i x).inputs = s.inputs.set i x := rfl
@[simp] theorem setInput_sessions (i : InputIx) (x : InputChannel) : (s.setInput i x).sessions = s.sessions := rfl
@[simp] theorem setInput_notices (i : InputIx) (x : InputChannel) : (s.setInput i x).notices = s.notices := rfl
@[simp] theorem setInput_links (i : InputIx) (x : InputChannel) : (s.setInput i x).links = s.links := rfl
@[simp] theorem setInput_arbiter (i : InputIx) (x : InputChannel) : (s.setInput i x).arbiter = s.arbiter := rfl
@[simp] theorem setInput_resetCause (i : InputIx) (x : InputChannel) : (s.setInput i x).resetCause = s.resetCause := rfl
@[simp] theorem setInput_hold (i : InputIx) (x : InputChannel) : (s.setInput i x).hold = s.hold := rfl
@[simp] theorem setInput_pending (i : InputIx) (x : InputChannel) : (s.setInput i x).pending = s.pending := rfl
@[simp] theorem setInput_freeCount (i : InputIx) (x : InputChannel) : (s.setInput i x).freeCount = s.freeCount := rfl

/-! ### setDriven -/

@[simp] theorem setDriven_entries (l : LineIx) (x : Level) : (s.setDriven l x).entries = s.entries := rfl
@[simp] theorem setDriven_lines (l : LineIx) (x : Level) : (s.setDriven l x).lines = s.lines := rfl
@[simp] theorem setDriven_hub (l : LineIx) (x : Level) : (s.setDriven l x).hub = s.hub := rfl
@[simp] theorem setDriven_peaks (l : LineIx) (x : Level) : (s.setDriven l x).peaks = s.peaks := rfl
@[simp] theorem setDriven_engine (l : LineIx) (x : Level) : (s.setDriven l x).engine = s.engine := rfl
@[simp] theorem setDriven_plan (l : LineIx) (x : Level) : (s.setDriven l x).plan = s.plan := rfl
@[simp] theorem setDriven_holding (l : LineIx) (x : Level) : (s.setDriven l x).holding = s.holding := rfl
@[simp] theorem setDriven_driven (l : LineIx) (x : Level) : (s.setDriven l x).driven = s.driven.set l x := rfl
@[simp] theorem setDriven_bursts (l : LineIx) (x : Level) : (s.setDriven l x).bursts = s.bursts := rfl
@[simp] theorem setDriven_inputs (l : LineIx) (x : Level) : (s.setDriven l x).inputs = s.inputs := rfl
@[simp] theorem setDriven_sessions (l : LineIx) (x : Level) : (s.setDriven l x).sessions = s.sessions := rfl
@[simp] theorem setDriven_notices (l : LineIx) (x : Level) : (s.setDriven l x).notices = s.notices := rfl
@[simp] theorem setDriven_links (l : LineIx) (x : Level) : (s.setDriven l x).links = s.links := rfl
@[simp] theorem setDriven_arbiter (l : LineIx) (x : Level) : (s.setDriven l x).arbiter = s.arbiter := rfl
@[simp] theorem setDriven_resetCause (l : LineIx) (x : Level) : (s.setDriven l x).resetCause = s.resetCause := rfl
@[simp] theorem setDriven_hold (l : LineIx) (x : Level) : (s.setDriven l x).hold = s.hold := rfl
@[simp] theorem setDriven_pending (l : LineIx) (x : Level) : (s.setDriven l x).pending = s.pending := rfl
@[simp] theorem setDriven_freeCount (l : LineIx) (x : Level) : (s.setDriven l x).freeCount = s.freeCount := rfl

/-! ### setHolding -/

@[simp] theorem setHolding_entries (l : LineIx) (x : Option EntryIx) : (s.setHolding l x).entries = s.entries := rfl
@[simp] theorem setHolding_lines (l : LineIx) (x : Option EntryIx) : (s.setHolding l x).lines = s.lines := rfl
@[simp] theorem setHolding_hub (l : LineIx) (x : Option EntryIx) : (s.setHolding l x).hub = s.hub := rfl
@[simp] theorem setHolding_peaks (l : LineIx) (x : Option EntryIx) : (s.setHolding l x).peaks = s.peaks := rfl
@[simp] theorem setHolding_engine (l : LineIx) (x : Option EntryIx) : (s.setHolding l x).engine = s.engine := rfl
@[simp] theorem setHolding_plan (l : LineIx) (x : Option EntryIx) : (s.setHolding l x).plan = s.plan := rfl
@[simp] theorem setHolding_holding (l : LineIx) (x : Option EntryIx) :
    (s.setHolding l x).holding = s.holding.set l x := rfl
@[simp] theorem setHolding_driven (l : LineIx) (x : Option EntryIx) : (s.setHolding l x).driven = s.driven := rfl
@[simp] theorem setHolding_bursts (l : LineIx) (x : Option EntryIx) : (s.setHolding l x).bursts = s.bursts := rfl
@[simp] theorem setHolding_inputs (l : LineIx) (x : Option EntryIx) : (s.setHolding l x).inputs = s.inputs := rfl
@[simp] theorem setHolding_sessions (l : LineIx) (x : Option EntryIx) : (s.setHolding l x).sessions = s.sessions := rfl
@[simp] theorem setHolding_notices (l : LineIx) (x : Option EntryIx) : (s.setHolding l x).notices = s.notices := rfl
@[simp] theorem setHolding_links (l : LineIx) (x : Option EntryIx) : (s.setHolding l x).links = s.links := rfl
@[simp] theorem setHolding_arbiter (l : LineIx) (x : Option EntryIx) : (s.setHolding l x).arbiter = s.arbiter := rfl
@[simp] theorem setHolding_resetCause (l : LineIx) (x : Option EntryIx) :
    (s.setHolding l x).resetCause = s.resetCause := rfl
@[simp] theorem setHolding_hold (l : LineIx) (x : Option EntryIx) : (s.setHolding l x).hold = s.hold := rfl
@[simp] theorem setHolding_pending (l : LineIx) (x : Option EntryIx) : (s.setHolding l x).pending = s.pending := rfl
@[simp] theorem setHolding_freeCount (l : LineIx) (x : Option EntryIx) :
    (s.setHolding l x).freeCount = s.freeCount := rfl

/-! ### recomputePeaks -/

@[simp] theorem recomputePeaks_entries : (s.recomputePeaks).entries = s.entries := rfl
@[simp] theorem recomputePeaks_lines : (s.recomputePeaks).lines = s.lines := rfl
@[simp] theorem recomputePeaks_hub : (s.recomputePeaks).hub = s.hub := rfl
@[simp] theorem recomputePeaks_peaks :
    (s.recomputePeaks).peaks = { a := railPeak s.nextEpochSet .a, b := railPeak s.nextEpochSet .b } := rfl
@[simp] theorem recomputePeaks_engine : (s.recomputePeaks).engine = s.engine := rfl
@[simp] theorem recomputePeaks_plan : (s.recomputePeaks).plan = s.plan := rfl
@[simp] theorem recomputePeaks_holding : (s.recomputePeaks).holding = s.holding := rfl
@[simp] theorem recomputePeaks_driven : (s.recomputePeaks).driven = s.driven := rfl
@[simp] theorem recomputePeaks_bursts : (s.recomputePeaks).bursts = s.bursts := rfl
@[simp] theorem recomputePeaks_inputs : (s.recomputePeaks).inputs = s.inputs := rfl
@[simp] theorem recomputePeaks_sessions : (s.recomputePeaks).sessions = s.sessions := rfl
@[simp] theorem recomputePeaks_notices : (s.recomputePeaks).notices = s.notices := rfl
@[simp] theorem recomputePeaks_links : (s.recomputePeaks).links = s.links := rfl
@[simp] theorem recomputePeaks_arbiter : (s.recomputePeaks).arbiter = s.arbiter := rfl
@[simp] theorem recomputePeaks_resetCause : (s.recomputePeaks).resetCause = s.resetCause := rfl
@[simp] theorem recomputePeaks_hold : (s.recomputePeaks).hold = s.hold := rfl
@[simp] theorem recomputePeaks_pending : (s.recomputePeaks).pending = s.pending := rfl
@[simp] theorem recomputePeaks_freeCount : (s.recomputePeaks).freeCount = s.freeCount := rfl

/-! ### setWindowState -/

@[simp] theorem setWindowState_entries (e : EntryIx) (x : WindowState) :
    (s.setWindowState e x).entries = s.entries := rfl
@[simp] theorem setWindowState_lines (e : EntryIx) (x : WindowState) : (s.setWindowState e x).lines = s.lines := rfl
@[simp] theorem setWindowState_hub (e : EntryIx) (x : WindowState) : (s.setWindowState e x).hub = s.hub := rfl
@[simp] theorem setWindowState_peaks (e : EntryIx) (x : WindowState) : (s.setWindowState e x).peaks = s.peaks := rfl
@[simp] theorem setWindowState_engine (e : EntryIx) (x : WindowState) : (s.setWindowState e x).engine = s.engine := rfl
@[simp] theorem setWindowState_plan (e : EntryIx) (x : WindowState) :
    (s.setWindowState e x).plan = s.plan.map fun ws => ws.map fun w => if w.entry = e then { w with state := x } else w := rfl
@[simp] theorem setWindowState_holding (e : EntryIx) (x : WindowState) :
    (s.setWindowState e x).holding = s.holding := rfl
@[simp] theorem setWindowState_driven (e : EntryIx) (x : WindowState) : (s.setWindowState e x).driven = s.driven := rfl
@[simp] theorem setWindowState_bursts (e : EntryIx) (x : WindowState) : (s.setWindowState e x).bursts = s.bursts := rfl
@[simp] theorem setWindowState_inputs (e : EntryIx) (x : WindowState) : (s.setWindowState e x).inputs = s.inputs := rfl
@[simp] theorem setWindowState_sessions (e : EntryIx) (x : WindowState) :
    (s.setWindowState e x).sessions = s.sessions := rfl
@[simp] theorem setWindowState_notices (e : EntryIx) (x : WindowState) :
    (s.setWindowState e x).notices = s.notices := rfl
@[simp] theorem setWindowState_links (e : EntryIx) (x : WindowState) : (s.setWindowState e x).links = s.links := rfl
@[simp] theorem setWindowState_arbiter (e : EntryIx) (x : WindowState) :
    (s.setWindowState e x).arbiter = s.arbiter := rfl
@[simp] theorem setWindowState_resetCause (e : EntryIx) (x : WindowState) :
    (s.setWindowState e x).resetCause = s.resetCause := rfl
@[simp] theorem setWindowState_hold (e : EntryIx) (x : WindowState) : (s.setWindowState e x).hold = s.hold := rfl
@[simp] theorem setWindowState_pending (e : EntryIx) (x : WindowState) :
    (s.setWindowState e x).pending = s.pending := rfl
@[simp] theorem setWindowState_freeCount (e : EntryIx) (x : WindowState) :
    (s.setWindowState e x).freeCount = s.freeCount := rfl

/-! ### buildPlan -/

@[simp] theorem buildPlan_entries (k : Nat) : (s.buildPlan k).entries = s.entries := rfl
@[simp] theorem buildPlan_lines (k : Nat) : (s.buildPlan k).lines = s.lines := rfl
@[simp] theorem buildPlan_hub (k : Nat) : (s.buildPlan k).hub = s.hub := rfl
@[simp] theorem buildPlan_peaks (k : Nat) : (s.buildPlan k).peaks = s.peaks := rfl
@[simp] theorem buildPlan_engine (k : Nat) : (s.buildPlan k).engine = s.engine := rfl
@[simp] theorem buildPlan_plan (k : Nat) :
    (s.buildPlan k).plan = some ((s.plannedEntries k).map fun e => { entry := e, state := .scheduled }) := rfl
@[simp] theorem buildPlan_holding (k : Nat) : (s.buildPlan k).holding = s.holding := rfl
@[simp] theorem buildPlan_driven (k : Nat) : (s.buildPlan k).driven = s.driven := rfl
@[simp] theorem buildPlan_bursts (k : Nat) : (s.buildPlan k).bursts = s.bursts := rfl
@[simp] theorem buildPlan_inputs (k : Nat) : (s.buildPlan k).inputs = s.inputs := rfl
@[simp] theorem buildPlan_sessions (k : Nat) : (s.buildPlan k).sessions = s.sessions := rfl
@[simp] theorem buildPlan_notices (k : Nat) : (s.buildPlan k).notices = s.notices := rfl
@[simp] theorem buildPlan_links (k : Nat) : (s.buildPlan k).links = s.links := rfl
@[simp] theorem buildPlan_arbiter (k : Nat) : (s.buildPlan k).arbiter = s.arbiter := rfl
@[simp] theorem buildPlan_resetCause (k : Nat) : (s.buildPlan k).resetCause = s.resetCause := rfl
@[simp] theorem buildPlan_hold (k : Nat) : (s.buildPlan k).hold = s.hold := rfl
@[simp] theorem buildPlan_pending (k : Nat) : (s.buildPlan k).pending = s.pending := rfl
@[simp] theorem buildPlan_freeCount (k : Nat) : (s.buildPlan k).freeCount = s.freeCount := rfl

/-! ### discardPlan -/

@[simp] theorem discardPlan_entries : (s.discardPlan).entries = s.entries := rfl
@[simp] theorem discardPlan_lines : (s.discardPlan).lines = s.lines := rfl
@[simp] theorem discardPlan_hub : (s.discardPlan).hub = s.hub := rfl
@[simp] theorem discardPlan_peaks : (s.discardPlan).peaks = s.peaks := rfl
@[simp] theorem discardPlan_engine : (s.discardPlan).engine = s.engine := rfl
@[simp] theorem discardPlan_plan : (s.discardPlan).plan = none := rfl
@[simp] theorem discardPlan_holding : (s.discardPlan).holding = s.holding := rfl
@[simp] theorem discardPlan_driven : (s.discardPlan).driven = s.driven := rfl
@[simp] theorem discardPlan_bursts : (s.discardPlan).bursts = s.bursts := rfl
@[simp] theorem discardPlan_inputs : (s.discardPlan).inputs = s.inputs := rfl
@[simp] theorem discardPlan_sessions : (s.discardPlan).sessions = s.sessions := rfl
@[simp] theorem discardPlan_notices : (s.discardPlan).notices = s.notices := rfl
@[simp] theorem discardPlan_links : (s.discardPlan).links = s.links := rfl
@[simp] theorem discardPlan_arbiter : (s.discardPlan).arbiter = s.arbiter := rfl
@[simp] theorem discardPlan_resetCause : (s.discardPlan).resetCause = s.resetCause := rfl
@[simp] theorem discardPlan_hold : (s.discardPlan).hold = s.hold := rfl
@[simp] theorem discardPlan_pending : (s.discardPlan).pending = s.pending := rfl
@[simp] theorem discardPlan_freeCount : (s.discardPlan).freeCount = s.freeCount := rfl

/-! ### idleAllLines -/

@[simp] theorem idleAllLines_entries : (s.idleAllLines).entries = s.entries := rfl
@[simp] theorem idleAllLines_lines : (s.idleAllLines).lines = s.lines := rfl
@[simp] theorem idleAllLines_hub : (s.idleAllLines).hub = s.hub := rfl
@[simp] theorem idleAllLines_peaks : (s.idleAllLines).peaks = s.peaks := rfl
@[simp] theorem idleAllLines_engine : (s.idleAllLines).engine = s.engine := rfl
@[simp] theorem idleAllLines_plan : (s.idleAllLines).plan = s.plan := rfl
@[simp] theorem idleAllLines_holding : (s.idleAllLines).holding = .fill 16 none := rfl
@[simp] theorem idleAllLines_driven : (s.idleAllLines).driven = .build fun l => s.idleLevel l := rfl
@[simp] theorem idleAllLines_bursts : (s.idleAllLines).bursts = s.bursts := rfl
@[simp] theorem idleAllLines_inputs : (s.idleAllLines).inputs = s.inputs := rfl
@[simp] theorem idleAllLines_sessions : (s.idleAllLines).sessions = s.sessions := rfl
@[simp] theorem idleAllLines_notices : (s.idleAllLines).notices = s.notices := rfl
@[simp] theorem idleAllLines_links : (s.idleAllLines).links = s.links := rfl
@[simp] theorem idleAllLines_arbiter : (s.idleAllLines).arbiter = s.arbiter := rfl
@[simp] theorem idleAllLines_resetCause : (s.idleAllLines).resetCause = s.resetCause := rfl
@[simp] theorem idleAllLines_hold : (s.idleAllLines).hold = s.hold := rfl
@[simp] theorem idleAllLines_pending : (s.idleAllLines).pending = s.pending := rfl
@[simp] theorem idleAllLines_freeCount : (s.idleAllLines).freeCount = s.freeCount := rfl

/-! ### countCut -/

@[simp] theorem countCut_entries : (s.countCut).entries = s.entries := rfl
@[simp] theorem countCut_lines : (s.countCut).lines = s.lines := rfl
@[simp] theorem countCut_hub : (s.countCut).hub = s.hub := rfl
@[simp] theorem countCut_peaks : (s.countCut).peaks = s.peaks := rfl
@[simp] theorem countCut_engine : (s.countCut).engine = { s.engine with cuts := saturatingInc s.engine.cuts } := rfl
@[simp] theorem countCut_plan : (s.countCut).plan = s.plan := rfl
@[simp] theorem countCut_holding : (s.countCut).holding = s.holding := rfl
@[simp] theorem countCut_driven : (s.countCut).driven = s.driven := rfl
@[simp] theorem countCut_bursts : (s.countCut).bursts = s.bursts := rfl
@[simp] theorem countCut_inputs : (s.countCut).inputs = s.inputs := rfl
@[simp] theorem countCut_sessions : (s.countCut).sessions = s.sessions := rfl
@[simp] theorem countCut_notices : (s.countCut).notices = s.notices := rfl
@[simp] theorem countCut_links : (s.countCut).links = s.links := rfl
@[simp] theorem countCut_arbiter : (s.countCut).arbiter = s.arbiter := rfl
@[simp] theorem countCut_resetCause : (s.countCut).resetCause = s.resetCause := rfl
@[simp] theorem countCut_hold : (s.countCut).hold = s.hold := rfl
@[simp] theorem countCut_pending : (s.countCut).pending = s.pending := rfl
@[simp] theorem countCut_freeCount : (s.countCut).freeCount = s.freeCount := rfl

/-! ### setEngineState -/

@[simp] theorem setEngineState_entries (x : EngineState) : (s.setEngineState x).entries = s.entries := rfl
@[simp] theorem setEngineState_lines (x : EngineState) : (s.setEngineState x).lines = s.lines := rfl
@[simp] theorem setEngineState_hub (x : EngineState) : (s.setEngineState x).hub = s.hub := rfl
@[simp] theorem setEngineState_peaks (x : EngineState) : (s.setEngineState x).peaks = s.peaks := rfl
@[simp] theorem setEngineState_engine (x : EngineState) :
    (s.setEngineState x).engine = { s.engine with state := x } := rfl
@[simp] theorem setEngineState_plan (x : EngineState) : (s.setEngineState x).plan = s.plan := rfl
@[simp] theorem setEngineState_holding (x : EngineState) : (s.setEngineState x).holding = s.holding := rfl
@[simp] theorem setEngineState_driven (x : EngineState) : (s.setEngineState x).driven = s.driven := rfl
@[simp] theorem setEngineState_bursts (x : EngineState) : (s.setEngineState x).bursts = s.bursts := rfl
@[simp] theorem setEngineState_inputs (x : EngineState) : (s.setEngineState x).inputs = s.inputs := rfl
@[simp] theorem setEngineState_sessions (x : EngineState) : (s.setEngineState x).sessions = s.sessions := rfl
@[simp] theorem setEngineState_notices (x : EngineState) : (s.setEngineState x).notices = s.notices := rfl
@[simp] theorem setEngineState_links (x : EngineState) : (s.setEngineState x).links = s.links := rfl
@[simp] theorem setEngineState_arbiter (x : EngineState) : (s.setEngineState x).arbiter = s.arbiter := rfl
@[simp] theorem setEngineState_resetCause (x : EngineState) : (s.setEngineState x).resetCause = s.resetCause := rfl
@[simp] theorem setEngineState_hold (x : EngineState) : (s.setEngineState x).hold = s.hold := rfl
@[simp] theorem setEngineState_pending (x : EngineState) : (s.setEngineState x).pending = s.pending := rfl
@[simp] theorem setEngineState_freeCount (x : EngineState) : (s.setEngineState x).freeCount = s.freeCount := rfl

/-! ### clearSpacing -/

@[simp] theorem clearSpacing_entries : (s.clearSpacing).entries = s.entries := rfl
@[simp] theorem clearSpacing_lines : (s.clearSpacing).lines = s.lines := rfl
@[simp] theorem clearSpacing_hub : (s.clearSpacing).hub = s.hub := rfl
@[simp] theorem clearSpacing_peaks : (s.clearSpacing).peaks = s.peaks := rfl
@[simp] theorem clearSpacing_engine : (s.clearSpacing).engine = { s.engine with spacing := .clear } := rfl
@[simp] theorem clearSpacing_plan : (s.clearSpacing).plan = s.plan := rfl
@[simp] theorem clearSpacing_holding : (s.clearSpacing).holding = s.holding := rfl
@[simp] theorem clearSpacing_driven : (s.clearSpacing).driven = s.driven := rfl
@[simp] theorem clearSpacing_bursts : (s.clearSpacing).bursts = s.bursts := rfl
@[simp] theorem clearSpacing_inputs : (s.clearSpacing).inputs = s.inputs := rfl
@[simp] theorem clearSpacing_sessions : (s.clearSpacing).sessions = s.sessions := rfl
@[simp] theorem clearSpacing_notices : (s.clearSpacing).notices = s.notices := rfl
@[simp] theorem clearSpacing_links : (s.clearSpacing).links = s.links := rfl
@[simp] theorem clearSpacing_arbiter : (s.clearSpacing).arbiter = s.arbiter := rfl
@[simp] theorem clearSpacing_resetCause : (s.clearSpacing).resetCause = s.resetCause := rfl
@[simp] theorem clearSpacing_hold : (s.clearSpacing).hold = s.hold := rfl
@[simp] theorem clearSpacing_pending : (s.clearSpacing).pending = s.pending := rfl
@[simp] theorem clearSpacing_freeCount : (s.clearSpacing).freeCount = s.freeCount := rfl

/-! ### stopTimer -/

@[simp] theorem stopTimer_entries : (s.stopTimer).entries = s.entries := rfl
@[simp] theorem stopTimer_lines : (s.stopTimer).lines = s.lines := rfl
@[simp] theorem stopTimer_hub : (s.stopTimer).hub = s.hub := rfl
@[simp] theorem stopTimer_peaks : (s.stopTimer).peaks = s.peaks := rfl
@[simp] theorem stopTimer_engine : (s.stopTimer).engine = { s.engine with timer := none } := rfl
@[simp] theorem stopTimer_plan : (s.stopTimer).plan = s.plan := rfl
@[simp] theorem stopTimer_holding : (s.stopTimer).holding = s.holding := rfl
@[simp] theorem stopTimer_driven : (s.stopTimer).driven = s.driven := rfl
@[simp] theorem stopTimer_bursts : (s.stopTimer).bursts = s.bursts := rfl
@[simp] theorem stopTimer_inputs : (s.stopTimer).inputs = s.inputs := rfl
@[simp] theorem stopTimer_sessions : (s.stopTimer).sessions = s.sessions := rfl
@[simp] theorem stopTimer_notices : (s.stopTimer).notices = s.notices := rfl
@[simp] theorem stopTimer_links : (s.stopTimer).links = s.links := rfl
@[simp] theorem stopTimer_arbiter : (s.stopTimer).arbiter = s.arbiter := rfl
@[simp] theorem stopTimer_resetCause : (s.stopTimer).resetCause = s.resetCause := rfl
@[simp] theorem stopTimer_hold : (s.stopTimer).hold = s.hold := rfl
@[simp] theorem stopTimer_pending : (s.stopTimer).pending = s.pending := rfl
@[simp] theorem stopTimer_freeCount : (s.stopTimer).freeCount = s.freeCount := rfl

/-! ### setInh -/

@[simp] theorem setInh_entries (b : Bool) : (s.setInh b).entries = s.entries := rfl
@[simp] theorem setInh_lines (b : Bool) : (s.setInh b).lines = s.lines := rfl
@[simp] theorem setInh_hub (b : Bool) : (s.setInh b).hub = s.hub := rfl
@[simp] theorem setInh_peaks (b : Bool) : (s.setInh b).peaks = s.peaks := rfl
@[simp] theorem setInh_engine (b : Bool) : (s.setInh b).engine = { s.engine with inhAsserted := b } := rfl
@[simp] theorem setInh_plan (b : Bool) : (s.setInh b).plan = s.plan := rfl
@[simp] theorem setInh_holding (b : Bool) : (s.setInh b).holding = s.holding := rfl
@[simp] theorem setInh_driven (b : Bool) : (s.setInh b).driven = s.driven := rfl
@[simp] theorem setInh_bursts (b : Bool) : (s.setInh b).bursts = s.bursts := rfl
@[simp] theorem setInh_inputs (b : Bool) : (s.setInh b).inputs = s.inputs := rfl
@[simp] theorem setInh_sessions (b : Bool) : (s.setInh b).sessions = s.sessions := rfl
@[simp] theorem setInh_notices (b : Bool) : (s.setInh b).notices = s.notices := rfl
@[simp] theorem setInh_links (b : Bool) : (s.setInh b).links = s.links := rfl
@[simp] theorem setInh_arbiter (b : Bool) : (s.setInh b).arbiter = s.arbiter := rfl
@[simp] theorem setInh_resetCause (b : Bool) : (s.setInh b).resetCause = s.resetCause := rfl
@[simp] theorem setInh_hold (b : Bool) : (s.setInh b).hold = s.hold := rfl
@[simp] theorem setInh_pending (b : Bool) : (s.setInh b).pending = s.pending := rfl
@[simp] theorem setInh_freeCount (b : Bool) : (s.setInh b).freeCount = s.freeCount := rfl

/-! ### countEpisode -/

@[simp] theorem countEpisode_entries : (s.countEpisode).entries = s.entries := rfl
@[simp] theorem countEpisode_lines : (s.countEpisode).lines = s.lines := rfl
@[simp] theorem countEpisode_hub : (s.countEpisode).hub = s.hub := rfl
@[simp] theorem countEpisode_peaks : (s.countEpisode).peaks = s.peaks := rfl
@[simp] theorem countEpisode_engine :
    (s.countEpisode).engine = { s.engine with inhibitEpisodes := saturatingInc s.engine.inhibitEpisodes } := rfl
@[simp] theorem countEpisode_plan : (s.countEpisode).plan = s.plan := rfl
@[simp] theorem countEpisode_holding : (s.countEpisode).holding = s.holding := rfl
@[simp] theorem countEpisode_driven : (s.countEpisode).driven = s.driven := rfl
@[simp] theorem countEpisode_bursts : (s.countEpisode).bursts = s.bursts := rfl
@[simp] theorem countEpisode_inputs : (s.countEpisode).inputs = s.inputs := rfl
@[simp] theorem countEpisode_sessions : (s.countEpisode).sessions = s.sessions := rfl
@[simp] theorem countEpisode_notices : (s.countEpisode).notices = s.notices := rfl
@[simp] theorem countEpisode_links : (s.countEpisode).links = s.links := rfl
@[simp] theorem countEpisode_arbiter : (s.countEpisode).arbiter = s.arbiter := rfl
@[simp] theorem countEpisode_resetCause : (s.countEpisode).resetCause = s.resetCause := rfl
@[simp] theorem countEpisode_hold : (s.countEpisode).hold = s.hold := rfl
@[simp] theorem countEpisode_pending : (s.countEpisode).pending = s.pending := rfl
@[simp] theorem countEpisode_freeCount : (s.countEpisode).freeCount = s.freeCount := rfl

/-! ### numberCycle -/

@[simp] theorem numberCycle_entries : (s.numberCycle).entries = s.entries := rfl
@[simp] theorem numberCycle_lines : (s.numberCycle).lines = s.lines := rfl
@[simp] theorem numberCycle_hub : (s.numberCycle).hub = s.hub := rfl
@[simp] theorem numberCycle_peaks : (s.numberCycle).peaks = s.peaks := rfl
@[simp] theorem numberCycle_engine : (s.numberCycle).engine =
      { s.engine with
        number := some s.engine.nextNumber
        restart := false
        span := s.hub.cycleLength
        timer := some 0
        spacing := .counting } := rfl
@[simp] theorem numberCycle_plan : (s.numberCycle).plan = s.plan := rfl
@[simp] theorem numberCycle_holding : (s.numberCycle).holding = s.holding := rfl
@[simp] theorem numberCycle_driven : (s.numberCycle).driven = s.driven := rfl
@[simp] theorem numberCycle_bursts : (s.numberCycle).bursts = s.bursts := rfl
@[simp] theorem numberCycle_inputs : (s.numberCycle).inputs = s.inputs := rfl
@[simp] theorem numberCycle_sessions : (s.numberCycle).sessions = s.sessions := rfl
@[simp] theorem numberCycle_notices : (s.numberCycle).notices = s.notices := rfl
@[simp] theorem numberCycle_links : (s.numberCycle).links = s.links := rfl
@[simp] theorem numberCycle_arbiter : (s.numberCycle).arbiter = s.arbiter := rfl
@[simp] theorem numberCycle_resetCause : (s.numberCycle).resetCause = s.resetCause := rfl
@[simp] theorem numberCycle_hold : (s.numberCycle).hold = s.hold := rfl
@[simp] theorem numberCycle_pending : (s.numberCycle).pending = s.pending := rfl
@[simp] theorem numberCycle_freeCount : (s.numberCycle).freeCount = s.freeCount := rfl

/-! ### releaseExecutor -/

@[simp] theorem releaseExecutor_entries : (s.releaseExecutor).entries = s.entries := rfl
@[simp] theorem releaseExecutor_lines : (s.releaseExecutor).lines = s.lines := rfl
@[simp] theorem releaseExecutor_hub : (s.releaseExecutor).hub = s.hub := rfl
@[simp] theorem releaseExecutor_peaks : (s.releaseExecutor).peaks = s.peaks := rfl
@[simp] theorem releaseExecutor_engine : (s.releaseExecutor).engine = s.engine := rfl
@[simp] theorem releaseExecutor_plan : (s.releaseExecutor).plan = s.plan := rfl
@[simp] theorem releaseExecutor_holding : (s.releaseExecutor).holding = s.holding := rfl
@[simp] theorem releaseExecutor_driven : (s.releaseExecutor).driven = s.driven := rfl
@[simp] theorem releaseExecutor_bursts : (s.releaseExecutor).bursts = s.bursts := rfl
@[simp] theorem releaseExecutor_inputs : (s.releaseExecutor).inputs = s.inputs := rfl
@[simp] theorem releaseExecutor_sessions : (s.releaseExecutor).sessions = s.sessions := rfl
@[simp] theorem releaseExecutor_notices : (s.releaseExecutor).notices = s.notices := rfl
@[simp] theorem releaseExecutor_links : (s.releaseExecutor).links = s.links := rfl
@[simp] theorem releaseExecutor_arbiter : (s.releaseExecutor).arbiter = { s.arbiter with executor := none } := rfl
@[simp] theorem releaseExecutor_resetCause : (s.releaseExecutor).resetCause = s.resetCause := rfl
@[simp] theorem releaseExecutor_hold : (s.releaseExecutor).hold = s.hold := rfl
@[simp] theorem releaseExecutor_pending : (s.releaseExecutor).pending = s.pending := rfl
@[simp] theorem releaseExecutor_freeCount : (s.releaseExecutor).freeCount = s.freeCount := rfl

/-! ### takeClaim -/

@[simp] theorem takeClaim_entries (p : Port) : (s.takeClaim p).entries = s.entries := rfl
@[simp] theorem takeClaim_lines (p : Port) : (s.takeClaim p).lines = s.lines := rfl
@[simp] theorem takeClaim_hub (p : Port) : (s.takeClaim p).hub = s.hub := rfl
@[simp] theorem takeClaim_peaks (p : Port) : (s.takeClaim p).peaks = s.peaks := rfl
@[simp] theorem takeClaim_engine (p : Port) : (s.takeClaim p).engine = s.engine := rfl
@[simp] theorem takeClaim_plan (p : Port) : (s.takeClaim p).plan = s.plan := rfl
@[simp] theorem takeClaim_holding (p : Port) : (s.takeClaim p).holding = s.holding := rfl
@[simp] theorem takeClaim_driven (p : Port) : (s.takeClaim p).driven = s.driven := rfl
@[simp] theorem takeClaim_bursts (p : Port) : (s.takeClaim p).bursts = s.bursts := rfl
@[simp] theorem takeClaim_inputs (p : Port) : (s.takeClaim p).inputs = s.inputs := rfl
@[simp] theorem takeClaim_sessions (p : Port) : (s.takeClaim p).sessions = s.sessions := rfl
@[simp] theorem takeClaim_notices (p : Port) : (s.takeClaim p).notices = s.notices := rfl
@[simp] theorem takeClaim_links (p : Port) : (s.takeClaim p).links = s.links := rfl
@[simp] theorem takeClaim_arbiter (p : Port) :
    (s.takeClaim p).arbiter = { s.arbiter with claims := s.arbiter.claims.set p none } := rfl
@[simp] theorem takeClaim_resetCause (p : Port) : (s.takeClaim p).resetCause = s.resetCause := rfl
@[simp] theorem takeClaim_hold (p : Port) : (s.takeClaim p).hold = s.hold := rfl
@[simp] theorem takeClaim_pending (p : Port) : (s.takeClaim p).pending = s.pending := rfl
@[simp] theorem takeClaim_freeCount (p : Port) : (s.takeClaim p).freeCount = s.freeCount := rfl

/-! ### clearCounters -/

@[simp] theorem clearCounters_entries : (s.clearCounters).entries = s.entries := rfl
@[simp] theorem clearCounters_lines : (s.clearCounters).lines = s.lines := rfl
@[simp] theorem clearCounters_hub : (s.clearCounters).hub = s.hub := rfl
@[simp] theorem clearCounters_peaks : (s.clearCounters).peaks = s.peaks := rfl
@[simp] theorem clearCounters_engine :
    (s.clearCounters).engine = { s.engine with earlyEdges := 0, inhibitEpisodes := 0, cuts := 0 } := rfl
@[simp] theorem clearCounters_plan : (s.clearCounters).plan = s.plan := rfl
@[simp] theorem clearCounters_holding : (s.clearCounters).holding = s.holding := rfl
@[simp] theorem clearCounters_driven : (s.clearCounters).driven = s.driven := rfl
@[simp] theorem clearCounters_bursts : (s.clearCounters).bursts = s.bursts := rfl
@[simp] theorem clearCounters_inputs : (s.clearCounters).inputs = s.inputs := rfl
@[simp] theorem clearCounters_sessions : (s.clearCounters).sessions = s.sessions := rfl
@[simp] theorem clearCounters_notices : (s.clearCounters).notices = s.notices := rfl
@[simp] theorem clearCounters_links : (s.clearCounters).links = s.links := rfl
@[simp] theorem clearCounters_arbiter : (s.clearCounters).arbiter = s.arbiter := rfl
@[simp] theorem clearCounters_resetCause : (s.clearCounters).resetCause = s.resetCause := rfl
@[simp] theorem clearCounters_hold : (s.clearCounters).hold = s.hold := rfl
@[simp] theorem clearCounters_pending : (s.clearCounters).pending = s.pending := rfl
@[simp] theorem clearCounters_freeCount : (s.clearCounters).freeCount = s.freeCount := rfl

/-! ### stopConditioner -/

@[simp] theorem stopConditioner_entries : s.stopConditioner.entries = s.entries := rfl
@[simp] theorem stopConditioner_lines : s.stopConditioner.lines = s.lines := rfl
@[simp] theorem stopConditioner_hub :
    s.stopConditioner.hub = { s.hub with widths := HubRecord.afterReset.widths } := rfl
@[simp] theorem stopConditioner_peaks : s.stopConditioner.peaks = s.peaks := rfl
@[simp] theorem stopConditioner_engine : s.stopConditioner.engine = s.engine := rfl
@[simp] theorem stopConditioner_plan : s.stopConditioner.plan = s.plan := rfl
@[simp] theorem stopConditioner_holding : s.stopConditioner.holding = s.holding := rfl
@[simp] theorem stopConditioner_driven : s.stopConditioner.driven = s.driven := rfl
@[simp] theorem stopConditioner_bursts : s.stopConditioner.bursts = s.bursts := rfl
@[simp] theorem stopConditioner_inputs :
    s.stopConditioner.inputs = s.inputs.map fun c => { c with timer := none } := rfl
@[simp] theorem stopConditioner_sessions : s.stopConditioner.sessions = s.sessions := rfl
@[simp] theorem stopConditioner_notices : s.stopConditioner.notices = s.notices := rfl
@[simp] theorem stopConditioner_links : s.stopConditioner.links = s.links := rfl
@[simp] theorem stopConditioner_arbiter : s.stopConditioner.arbiter = s.arbiter := rfl
@[simp] theorem stopConditioner_resetCause : s.stopConditioner.resetCause = s.resetCause := rfl
@[simp] theorem stopConditioner_hold : s.stopConditioner.hold = s.hold := rfl
@[simp] theorem stopConditioner_pending : s.stopConditioner.pending = s.pending := rfl
@[simp] theorem stopConditioner_freeCount : s.stopConditioner.freeCount = s.freeCount := rfl

end Sys2Proof.Machine.State

/-! ### Reading back one record -/

namespace Sys2Proof.Machine.State

variable (s : State)

@[simp] theorem entry_setEntry (e : EntryIx) (x : Entry) : (s.setEntry e x).entry e = x := Table.get_set_self ..

theorem entry_setEntry_ne {e f : EntryIx} (x : Entry) (h : f ≠ e) : (s.setEntry e x).entry f = s.entry f :=
  Table.get_set_ne _ _ h

@[simp] theorem line_setLine (l : LineIx) (x : Line) : (s.setLine l x).line l = x := Table.get_set_self ..

theorem line_setLine_ne {l m : LineIx} (x : Line) (h : m ≠ l) : (s.setLine l x).line m = s.line m :=
  Table.get_set_ne _ _ h

@[simp] theorem session_setSession (p : Port) (x : Session) : (s.setSession p x).session p = x := Table.get_set_self ..

theorem session_setSession_ne {p q : Port} (x : Session) (h : q ≠ p) : (s.setSession p x).session q = s.session q :=
  Table.get_set_ne _ _ h

@[simp] theorem queue_setQueue (p : Port) (x : NoticeQueue) : (s.setQueue p x).queue p = x := Table.get_set_self ..

theorem queue_setQueue_ne {p q : Port} (x : NoticeQueue) (h : q ≠ p) : (s.setQueue p x).queue q = s.queue q :=
  Table.get_set_ne _ _ h

@[simp] theorem link_setLink (p : Port) (x : Link) : (s.setLink p x).link p = x := Table.get_set_self ..

theorem link_setLink_ne {p q : Port} (x : Link) (h : q ≠ p) : (s.setLink p x).link q = s.link q :=
  Table.get_set_ne _ _ h

@[simp] theorem burst_setBurst (g : EngineIx) (x : BurstEngine) : (s.setBurst g x).burst g = x := Table.get_set_self ..

theorem burst_setBurst_ne {g h : EngineIx} (x : BurstEngine) (n : h ≠ g) : (s.setBurst g x).burst h = s.burst h :=
  Table.get_set_ne _ _ n

@[simp] theorem input_setInput (i : InputIx) (x : InputChannel) : (s.setInput i x).input i = x := Table.get_set_self ..

theorem input_setInput_ne {i j : InputIx} (x : InputChannel) (h : j ≠ i) : (s.setInput i x).input j = s.input j :=
  Table.get_set_ne _ _ h

end Sys2Proof.Machine.State
end

