-- ==== Sys2Proof/Laws/Frames.lean ====
section
/-! SUPPORT. What each shared operation can change: one lemma per operation, which says once everything it leaves as it was.
Two relations of Safety.lean are enough: `NoticesOnly` and `ScheduleOnly`. -/

namespace Sys2Proof.Machine

namespace NoticesOnly

theorem rfl' (s : State) : NoticesOnly s s := rfl

theorem trans {s t u : State} (h : NoticesOnly s t) (k : NoticesOnly t u) : NoticesOnly s u := by
  unfold NoticesOnly at *
  rw [k, h]

theorem foldl {α : Type} {f : State → α → State} (h : ∀ s a, NoticesOnly s (f s a)) (as : List α) (s : State) :
    NoticesOnly s (as.foldl f s) := by
  induction as generalizing s with
  | nil => exact rfl' s
  | cons a as ih => exact (h s a).trans (ih _)

theorem schedule {s t : State} (h : NoticesOnly s t) : ScheduleOnly s t := by
  unfold NoticesOnly at h
  unfold ScheduleOnly
  rw [h]

theorem queueNotice (s : State) (p : Port) (b : NoticeBody) : NoticesOnly s (s.queueNotice p b) := rfl

theorem ownerNotice (s : State) (o : Option SessionId) (k : MaskKind) (b : NoticeBody) :
    NoticesOnly s (s.ownerNotice o k b) := by
  unfold State.ownerNotice
  split
  · exact rfl' s
  · split
    · exact queueNotice ..
    · exact rfl' s

theorem windowNotice (s : State) (e : EntryIx) (b : NoticeBody) : NoticesOnly s (s.windowNotice e b) := by
  unfold State.windowNotice
  split
  · exact ownerNotice ..
  · exact rfl' s

theorem broadcast (s : State) (k : MaskKind) (b : NoticeBody) : NoticesOnly s (s.broadcast k b) := by
  unfold State.broadcast
  apply foldl
  intro t p
  split
  · exact queueNotice ..
  · exact rfl' t

end NoticesOnly

namespace ScheduleOnly

theorem rfl' (s : State) : ScheduleOnly s s := rfl

theorem trans {s t u : State} (h : ScheduleOnly s t) (k : ScheduleOnly t u) : ScheduleOnly s u := by
  unfold ScheduleOnly at *
  rw [k, h]

theorem foldl {α : Type} {f : State → α → State} (h : ∀ s a, ScheduleOnly s (f s a)) (as : List α) (s : State) :
    ScheduleOnly s (as.foldl f s) := by
  induction as generalizing s with
  | nil => exact rfl' s
  | cons a as ih => exact (h s a).trans (ih _)

variable {s t : State} (h : ScheduleOnly s t)
include h

theorem lines : t.lines = s.lines := by rw [h]
theorem hub : t.hub = s.hub := by rw [h]
theorem peaks : t.peaks = s.peaks := by rw [h]
theorem inputs : t.inputs = s.inputs := by rw [h]
theorem sessions : t.sessions = s.sessions := by rw [h]
theorem links : t.links = s.links := by rw [h]
theorem arbiter : t.arbiter = s.arbiter := by rw [h]
theorem resetCause : t.resetCause = s.resetCause := by rw [h]
theorem hold : t.hold = s.hold := by rw [h]
theorem pending : t.pending = s.pending := by rw [h]
theorem freeCount : t.freeCount = s.freeCount := by rw [h]

omit h

theorem setEntry (s : State) (e : EntryIx) (x : Entry) : ScheduleOnly s (s.setEntry e x) := rfl

theorem freeEntry (s : State) (e : EntryIx) : ScheduleOnly s (s.freeEntry e) := rfl

theorem changeEngine (s : State) (x : EngineState) : ScheduleOnly s (s.changeEngine x) := by
  have h : ScheduleOnly s (s.setEngineState x) := rfl
  exact h.trans (NoticesOnly.broadcast ..).schedule

theorem freeWithNotice (s : State) (e : EntryIx) (r : RetireReason) (b : Option CycleNumber) :
    ScheduleOnly s (s.freeWithNotice e r b) :=
  (freeEntry s e).trans (NoticesOnly.ownerNotice ..).schedule

theorem activate (s : State) (e : EntryIx) (o : SessionId) (n : CycleNumber) : ScheduleOnly s (s.activate e o n) :=
  (setEntry s e _).trans (NoticesOnly.ownerNotice ..).schedule

theorem epochEntry (n : CycleNumber) (s : State) (e : EntryIx) : ScheduleOnly s (State.epochEntry n s e) := by
  unfold State.epochEntry
  split
  · exact freeWithNotice ..
  · exact activate ..
  · exact rfl' s

theorem epochProcessing (s : State) (n : CycleNumber) : ScheduleOnly s (s.epochProcessing n) :=
  foldl (epochEntry n) _ s

theorem stopEntry (s : State) (e : EntryIx) : ScheduleOnly s (State.stopEntry s e) := by
  unfold State.stopEntry
  split
  · exact freeWithNotice ..
  · exact rfl' s

theorem stoppedFreeing (s : State) : ScheduleOnly s s.stoppedFreeing := foldl stopEntry _ s

theorem enterStopped (s : State) : ScheduleOnly s s.enterStopped := by
  have h : ScheduleOnly s { s with engine := { s.engine with restart := true } } := rfl
  exact (h.trans (changeEngine ..)).trans (stoppedFreeing _)

theorem driveWindow (s : State) (e : EntryIx) (o : Bool) : ScheduleOnly s (s.driveWindow e o) := by
  unfold State.driveWindow
  split <;> rfl

theorem startWindow (s : State) (e : EntryIx) : ScheduleOnly s (s.startWindow e) := by
  have h : ScheduleOnly s ((s.countFire e).setHolding (s.entry e).descriptor.line (some e)) := rfl
  exact (h.trans (driveWindow ..)).trans (NoticesOnly.windowNotice ..).schedule

theorem startWindows (s : State) (es : List EntryIx) : ScheduleOnly s (s.startWindows es) := foldl startWindow es s

theorem endWindow (s : State) (e : EntryIx) : ScheduleOnly s (s.endWindow e) := by
  unfold State.endWindow
  simp only
  split
  · rfl
  · rename_i g j _
    have h : ScheduleOnly s (((s.setWindowState e .closed).dropLine e).setBurst g .idle) := rfl
    exact h.trans (NoticesOnly.windowNotice ..).schedule

theorem endWindows (s : State) (es : List EntryIx) : ScheduleOnly s (s.endWindows es) := foldl endWindow es s

theorem cutWindow (c : Nat) (s : State) (e : EntryIx) : ScheduleOnly s (State.cutWindow c s e) := by
  unfold State.cutWindow
  simp only
  split
  · have h : ScheduleOnly s ((s.setWindowState e .cut).dropLine e) := rfl
    have k := h.trans (NoticesOnly.windowNotice _ e (s.cutNotice c e 0)).schedule
    exact k.trans rfl
  · rename_i g j _
    have h : ScheduleOnly s (((s.setWindowState e .cut).dropLine e).setBurst g .idle) := rfl
    have k := h.trans (NoticesOnly.windowNotice _ e (s.cutNotice c e j.pulses)).schedule
    exact k.trans rfl

theorem cutCycle (s : State) (c : Nat) : ScheduleOnly s (s.cutCycle c) := by
  have h : ScheduleOnly s (s.openEntries.foldl (State.cutWindow c) s) := foldl (cutWindow c) _ s
  exact h.trans rfl

theorem cycleStart (s : State) : ScheduleOnly s s.cycleStart := by
  have h : ScheduleOnly s s.numberCycle := rfl
  have h2 : ScheduleOnly s s.numberCycle.enterRunning := by
    refine h.trans ?_
    unfold State.enterRunning
    split
    · exact rfl' _
    · exact changeEngine ..
  have h3 : ScheduleOnly s (s.numberCycle.enterRunning.processBoundary s.engine.nextNumber) := by
    refine h2.trans ?_
    unfold State.processBoundary
    split
    · exact epochProcessing ..
    · exact rfl' _
  have h4 : ScheduleOnly s ((s.numberCycle.enterRunning.processBoundary s.engine.nextNumber).buildPlan
      (superIndex s.engine.nextNumber)) := h3.trans rfl
  exact h4.trans (startWindows ..)

theorem firstVote (s : State) : ScheduleOnly s s.firstVote := by
  unfold State.firstVote
  split
  · split
    · exact changeEngine ..
    · split
      · exact cycleStart s
      · exact changeEngine ..
      · exact changeEngine ..
  · exact changeEngine ..
  · exact rfl' s

theorem lastVoteCleared (s : State) : ScheduleOnly s s.lastVoteCleared := by
  unfold State.lastVoteCleared
  split
  · exact enterStopped s
  · exact changeEngine ..
  · exact enterStopped s
  · exact rfl' s

theorem cycleEnd (s : State) : ScheduleOnly s s.cycleEnd := by
  have h : ScheduleOnly s (s.endWindows s.openEntries).discardPlan.clearSpacing := (endWindows s _).trans rfl
  have h2 : ScheduleOnly s (s.endWindows s.openEntries).discardPlan.clearSpacing.stopTimer := h.trans rfl
  unfold State.cycleEnd
  simp only
  split
  · exact h.trans (cycleStart _)
  · exact h2.trans (changeEngine ..)
  · exact h2.trans (enterStopped _)

theorem spacingEnd (s : State) : ScheduleOnly s s.spacingEnd := by
  have h : ScheduleOnly s s.clearSpacing.stopTimer := rfl
  unfold State.spacingEnd
  simp only
  split
  · exact h.trans (cycleStart _)
  · exact h

theorem windowBoundary (s : State) : ScheduleOnly s s.windowBoundary :=
  (endWindows s _).trans (startWindows _ _)

theorem earlyEdge (s : State) : ScheduleOnly s s.earlyEdge := by
  have h : ScheduleOnly s { s with engine := { s.engine with earlyEdges := saturatingInc s.engine.earlyEdges } } := rfl
  exact h.trans (NoticesOnly.broadcast ..).schedule

theorem qualifyingEdge (s : State) : ScheduleOnly s s.qualifyingEdge := by
  unfold State.qualifyingEdge
  split
  · exact rfl' s
  · exact cycleStart s
  · exact earlyEdge s
  · exact earlyEdge s
  · exact earlyEdge s
  · exact rfl' s
  · exact rfl' s

theorem inhAssert (s : State) : ScheduleOnly s s.inhAssert := by
  have h : ScheduleOnly s (s.setInh true) := rfl
  have hc : ScheduleOnly s (((s.setInh true).cutCycle s.eventOffset).countEpisode) :=
    (h.trans (cutCycle ..)).trans rfl
  have hw : ScheduleOnly s (s.setInh true).countEpisode := rfl
  unfold State.inhAssert
  simp only
  split
  · exact hc.trans (changeEngine ..)
  · exact hw.trans (changeEngine ..)
  · exact hc.trans (enterStopped _)
  · exact h
  · exact h

theorem inhRelease (s : State) : ScheduleOnly s s.inhRelease := by
  have h : ScheduleOnly s (s.setInh false) := rfl
  unfold State.inhRelease
  simp only
  split
  · exact h.trans (cycleStart _)
  · exact h.trans (changeEngine ..)
  · exact h.trans (changeEngine ..)
  · exact h

theorem gateWindow (i : InputIx) (s : State) (w : PlannedWindow) : ScheduleOnly s (State.gateWindow i s w) := by
  unfold State.gateWindow
  split
  · split
    · simp only
      split
      · split <;> rfl
      · split <;> rfl
    · exact rfl' s
  · exact rfl' s

theorem gateEdge (s : State) (i : InputIx) : ScheduleOnly s (s.gateEdge i) := foldl (gateWindow i) _ s

theorem handEdge (s : State) (i : InputIx) : ScheduleOnly s (s.handEdge i) := by
  unfold State.handEdge
  simp only
  split
  · exact (gateEdge s i).trans (qualifyingEdge _)
  · exact gateEdge s i

end ScheduleOnly

end Sys2Proof.Machine
end

