-- ==== Sys2Proof/Laws/Arbiter.lean ====
section
/-! SUPPORT. What the arbiter's operations do: when a request is taken, how a request that completes at its taking is
answered, how a flight begins and completes, and which records the qualification of an input and the end of a session
touch. -/

namespace Sys2Proof.Machine

namespace State

variable (s : State)

theorem nextTaking_of_held (h : s.arbiter.executor.isSome = true) : s.nextTaking = none := by
  simp [nextTaking, h]

theorem nextTaking_of_hold (h : s.hold.isSome = true) : s.nextTaking = none := by
  simp [nextTaking, h]

/-- The executor is free and the part is not in reset when anything is taken. -/
theorem free_of_nextTaking {k : Taking} (h : s.nextTaking = some k) :
    s.arbiter.executor = none ∧ s.hold = none := by
  unfold nextTaking at h
  split at h
  · cases h
  · rename_i hc
    simp only [Bool.or_eq_true, not_or, Bool.not_eq_true, Option.isSome_eq_false_iff, Option.isNone_iff_eq_none] at hc
    exact hc

/-- A taken request: nothing stands in the arbiter's way, and it is the head of its port's queue with the kind asked
for. -/
theorem takenRequest_spec {p : Port} {kind : RequestKind} {r : Request} (h : s.takenRequest p kind = some r) :
    s.nextTaking = some (.request p) ∧ (∃ rest, (s.link p).requests = r :: rest) ∧ kindOfCode r.code = kind
      ∧ s.arbiter.executor = none ∧ s.hold = none := by
  unfold takenRequest at h
  split at h
  · rename_i hn
    split at h
    · rename_i r' rest hr
      split at h
      · rename_i hk
        cases h
        exact ⟨hn, ⟨rest, hr⟩, hk, s.free_of_nextTaking hn⟩
      · cases h
    · cases h
  · cases h

theorem attachedSession_eq_some {p : Port} {o : SessionId} :
    s.attachedSession p = some o ↔
      (s.session p).attachment.isSome = true ∧ o = { port := p, number := (s.session p).number } := by
  unfold attachedSession
  split
  · rename_i h
    simp [h, eq_comm]
  · rename_i h
    simp [h]

theorem attachedSession_eq_none {p : Port} : s.attachedSession p = none ↔ (s.session p).attachment = none := by
  unfold attachedSession
  split
  · rename_i h
    simp only [reduceCtorEq, false_iff]
    intro h'
    rw [h'] at h
    exact absurd h (by simp)
  · rename_i h
    simpa using h

theorem answerRequest_of_none {p : Port} {kind : RequestKind} {act : State → SessionId → List Byte → Answer}
    (h : s.takenRequest p kind = none) : s.answerRequest p kind act = s := by
  simp [answerRequest, h]

theorem answerRequest_of_attached {p : Port} {kind : RequestKind} {act : State → SessionId → List Byte → Answer}
    {r : Request} {me : SessionId} (h : s.takenRequest p kind = some r) (hm : (s.take p).attachedSession p = some me) :
    s.answerRequest p kind act =
      (act (s.take p) me r.fields).state.reply p r (act (s.take p) me r.fields).status
        (act (s.take p) me r.fields).payload := by
  simp [answerRequest, h, hm]

theorem answerRequest_of_detached {p : Port} {kind : RequestKind} {act : State → SessionId → List Byte → Answer}
    {r : Request} (h : s.takenRequest p kind = some r) (hm : (s.take p).attachedSession p = none) :
    s.answerRequest p kind act = (s.take p).reply p r .noSession [] := by
  simp [answerRequest, h, hm]

theorem restartLease_number (x : Session) : x.restartLease.number = x.number := rfl

theorem restartLease_isSome (x : Session) : x.restartLease.attachment.isSome = x.attachment.isSome := by
  simp [Session.restartLease]

/-- Taking a request neither attaches nor ends a session. -/
theorem attachedSession_take (p q : Port) : (s.take p).attachedSession q = s.attachedSession q := by
  have h : (s.take p).session q = if q = p then (s.session p).restartLease else s.session q := Table.get_set ..
  unfold attachedSession
  rw [h]
  by_cases e : q = p
  · subst e
    simp [restartLease_isSome, restartLease_number]
  · simp [e]

theorem take_executor (p : Port) : (s.take p).arbiter.executor = s.arbiter.executor := rfl

theorem take_claims (p : Port) : (s.take p).arbiter.claims = s.arbiter.claims := rfl

theorem take_lastServed (p : Port) : (s.take p).arbiter.lastServed = p := rfl

/-- Taking a request touches the port's link, the port's session record and the arbiter only. -/
theorem take_only (p : Port) :
    s.take p = { s with
      links := (s.take p).links, sessions := (s.take p).sessions, arbiter := (s.take p).arbiter } := rfl

/-- A reply touches the links only. -/
theorem reply_only (p : Port) (r : Request) (st : Status) (b : List Byte) :
    s.reply p r st b = { s with links := (s.reply p r st b).links } := rfl

theorem complete_of_attached {f : Flight} {act : State → Answer} (h : s.isAttached f.session = true) :
    s.complete f act =
      (act s.releaseExecutor).state.reply f.session.port f.request (act s.releaseExecutor).status
        (act s.releaseExecutor).payload := by
  simp [complete, h]

theorem complete_of_ended {f : Flight} {act : State → Answer} (h : s.isAttached f.session = false) :
    s.complete f act = s.releaseExecutor.discardReply f.session.port := by
  simp [complete, h]

/-- A qualification touches the schedule in motion, the notices and the inputs only, and of the inputs only its own. -/
theorem qualify_only (i : InputIx) :
    ScheduleOnly (s.setInput i { s.input i with filtered := (s.input i).raw, timer := none }) (s.qualify i) :=
  ScheduleOnly.handEdge ..

theorem qualify_inputs (i : InputIx) :
    (s.qualify i).inputs = s.inputs.set i { s.input i with filtered := (s.input i).raw, timer := none } :=
  (s.qualify_only i).inputs

/-- The vote going with a record touches that record and the schedule in motion only. -/
theorem dropVote_only (p : Port) (x : Session) : ScheduleOnly (s.setSession p x) (s.dropVote p x) := by
  unfold dropVote
  simp only
  split
  · exact ScheduleOnly.lastVoteCleared _
  · exact ScheduleOnly.rfl' _

end State

theorem failWhen_true {α : Type} (st : Status) (v : Verdict α) : failWhen true st v = .refuse st [] := rfl

theorem failWhen_false {α : Type} (st : Status) (v : Verdict α) : failWhen false st v = v := rfl

theorem failWithReport_none {α : Type} (st : Status) (bytes : ConflictReport → List Byte) (v : Verdict α) :
    failWithReport none st bytes v = v := rfl

theorem failWithReport_some {α : Type} (r : ConflictReport) (st : Status) (bytes : ConflictReport → List Byte)
    (v : Verdict α) : failWithReport (some r) st bytes v = .refuse st (bytes r) := rfl

theorem failWhen_eq_pass {α : Type} {b : Bool} {st : Status} {v : Verdict α} {x : α} :
    failWhen b st v = .pass x ↔ b = false ∧ v = .pass x := by
  cases b <;> simp [failWhen]

theorem failWithReport_eq_pass {α : Type} {r : Option ConflictReport} {st : Status} {bytes : ConflictReport → List Byte}
    {v : Verdict α} {x : α} : failWithReport r st bytes v = .pass x ↔ r = none ∧ v = .pass x := by
  cases r <;> simp [failWithReport]

/-- A step that carries a report passes exactly when it has no failing point. -/
theorem conflictReport_eq_none {free : Nat} {fs : List Failure} : conflictReport free fs = none ↔ fs = [] := by
  cases fs with
  | nil => simp [conflictReport, firstPoint]
  | cons x xs =>
    have h : ∃ q, firstPoint (x :: xs) = some q := by
      unfold firstPoint
      split
      · exact ⟨_, rfl⟩
      · split <;> exact ⟨_, rfl⟩
    obtain ⟨q, h⟩ := h
    simp [conflictReport, h]

end Sys2Proof.Machine
end

