-- ==== Sys2Proof/Laws/Answers.lean ====
section
/-! SUPPORT. Taking and answering a request in the words of `State.answered`, `State.inFlight`, `State.landed` and
`State.discarded`: what `answerRequest`, `flyRequest` and `complete` leave. Also how a run of clocked bytes divides. -/

namespace Sys2Proof.Machine.State

variable (s : State)

/-- A request that is taken and answered with nothing between. -/
theorem reply_take (p : Port) (r : Request) (st : Status) (b : List Byte) :
    (s.take p).reply p r st b = s.answered p r st b := by
  simp [reply, take, answered, Link.answered, setLink, link, setSession, session, Session.restartLease]

/-- A flight that begins at a taking. -/
theorem beginFlight_take (p : Port) (me : SessionId) (r : Request) (op : FlightOp) :
    (s.take p).beginFlight p me r op = s.inFlight p me r op := by
  simp [beginFlight, take, inFlight, setLink, link, setSession, session, Session.restartLease]

/-- A flight that completes with a reply and no other change. -/
theorem reply_releaseExecutor (f : Flight) (st : Status) (b : List Byte) :
    s.releaseExecutor.reply f.session.port f.request st b = s.landed f st b := rfl

/-- A flight that completes for a session that has ended. -/
theorem discardReply_releaseExecutor (f : Flight) : s.releaseExecutor.discardReply f.session.port = s.discarded f := rfl

/-- An attached port has a session, of its own port and number. -/
theorem attachedSession_of_attachment {p : Port} (h : (s.session p).attachment.isSome = true) :
    s.attachedSession p = some { port := p, number := (s.session p).number } := by
  simp [attachedSession, h]

variable {s} {p : Port} {kind : RequestKind} {r : Request} {me : SessionId}

/-- A request of an attached session: its act on the state after the taking, then the reply. -/
theorem answerRequest_attached {act : State → SessionId → List Byte → Answer} (h : s.takenRequest p kind = some r)
    (hm : s.attachedSession p = some me) :
    s.answerRequest p kind act =
      (act (s.take p) me r.fields).state.reply p r (act (s.take p) me r.fields).status
        (act (s.take p) me r.fields).payload :=
  answerRequest_of_attached s h (by rw [attachedSession_take]; exact hm)

/-- A request whose act changes nothing leaves the answer and no more. -/
theorem answerRequest_of_unchanged {act : State → SessionId → List Byte → Answer} {st : Status} {b : List Byte}
    (h : s.takenRequest p kind = some r) (hm : s.attachedSession p = some me)
    (ha : act (s.take p) me r.fields = { state := s.take p, status := st, payload := b }) :
    s.answerRequest p kind act = s.answered p r st b := by
  rw [answerRequest_attached h hm, ha, reply_take]

/-- A request of a DETACHED port. -/
theorem answerRequest_detached {act : State → SessionId → List Byte → Answer} (h : s.takenRequest p kind = some r)
    (hm : (s.session p).attachment = none) : s.answerRequest p kind act = s.answered p r .noSession [] := by
  have hn : (s.take p).attachedSession p = none := by
    rw [attachedSession_take, attachedSession_eq_none]
    exact hm
  rw [answerRequest_of_detached s h hn, reply_take]

/-- An ADD, REPLACE or SET_HUB of an attached session begins its flight. -/
theorem flyRequest_attached {judge : State → SessionId → List Byte → FlightOp} (h : s.takenRequest p kind = some r)
    (hm : s.attachedSession p = some me) :
    s.flyRequest p kind judge = s.inFlight p me r (judge (s.take p) me r.fields) := by
  have hn : (s.take p).attachedSession p = some me := by
    rw [attachedSession_take]
    exact hm
  simp [flyRequest, h, hn, beginFlight_take]

/-- An ADD, REPLACE or SET_HUB of a DETACHED port. -/
theorem flyRequest_detached {judge : State → SessionId → List Byte → FlightOp} (h : s.takenRequest p kind = some r)
    (hm : (s.session p).attachment = none) : s.flyRequest p kind judge = s.answered p r .noSession [] := by
  have hn : (s.take p).attachedSession p = none := by
    rw [attachedSession_take, attachedSession_eq_none]
    exact hm
  simp [flyRequest, h, hn, reply_take]

end Sys2Proof.Machine.State
end

