-- ==== Sys2Proof/Laws/Conflict.lean ====
section
/-! SUPPORT. The computed failures of a set and the conditions as the spec words them (R9 to R13): a step has no failing
point exactly when its conditions hold; how a trial set is judged (R30 to R34); the rail peak loads (R54). -/

namespace Sys2Proof.Machine

/-- Two windows are too close exactly when they are not apart. -/
theorem tooClose_eq_false {gap : Nat} {d e : Descriptor} : tooClose gap d e = false ↔ Descriptor.Apart gap d e := by
  simp only [tooClose, Descriptor.Apart, Bool.or_eq_false_iff, decide_eq_false_iff_not, Bool.and_eq_false_iff,
    ← Nat.not_lt]
  tauto

/-- The pairs of a list are its sublists of two. -/
theorem mem_pairsOf {α : Type} {a b : α} {l : List α} : (a, b) ∈ pairsOf l ↔ [a, b].Sublist l := by
  induction l with
  | nil => simp [pairsOf]
  | cons x xs ih =>
    simp only [pairsOf, List.mem_append, List.mem_map, Prod.mk.injEq, ih]
    constructor
    · rintro (⟨y, hy, rfl, rfl⟩ | h)
      · exact List.Sublist.cons_cons _ (List.singleton_sublist.mpr hy)
      · exact h.cons _
    · intro h
      cases h with
      | cons _ h => exact .inr h
      | cons_cons _ h => exact .inl ⟨b, List.singleton_sublist.mp h, rfl, rfl⟩

/-- A claim about every pair of a list is a pairwise claim. -/
theorem forall_pairsOf {α : Type} {l : List α} {P : α → α → Prop} :
    (∀ x ∈ pairsOf l, P x.1 x.2) ↔ l.Pairwise P := by
  induction l with
  | nil => simp [pairsOf]
  | cons a l ih =>
    rw [List.pairwise_cons, ← ih, pairsOf]
    simp only [List.mem_append, List.mem_map, or_imp, forall_and, forall_exists_index, and_imp,
      forall_apply_eq_imp_iff₂]

/-- A failure that is listed only under a test is absent exactly when the test fails. -/
theorem some_of_eq_none {α : Type} {P : Prop} [Decidable P] {x : α} :
    (if P then some x else none) = none ↔ ¬ P := by
  by_cases h : P <;> simp [h]

theorem sameLineFailures_eq_nil {gapOf : LineIx → Nat} {ms : List Member} {k : Nat} :
    sameLineFailures gapOf ms k = [] ↔
      ms.Pairwise fun m w =>
        m.d.line = w.d.line → m.d.fires k = true → w.d.fires k = true → Descriptor.Apart (gapOf m.d.line) m.d w.d := by
  rw [← forall_pairsOf, sameLineFailures, List.filterMap_eq_nil_iff]
  refine forall₂_congr fun x _ => ?_
  rw [← tooClose_eq_false, some_of_eq_none]
  simp only [not_and, Bool.not_eq_true]

theorem boundaryFailures_eq_nil {gapOf : LineIx → Nat} {cycleLength : Nat} {ms : List Member} {k : Nat} :
    boundaryFailures gapOf cycleLength ms k = [] ↔
      ∀ m ∈ ms, ∀ w ∈ ms,
        m.d.line = w.d.line → m.d.fires k = true → w.d.fires ((k + 1) % 8) = true →
          gapOf m.d.line ≤ (cycleLength - m.d.stop) + w.d.start := by
  simp only [boundaryFailures, List.flatMap_eq_nil_iff, List.filterMap_eq_nil_iff, some_of_eq_none, not_and,
    Nat.not_lt]
  rfl

theorem mem_superIndices {k : Nat} : k ∈ superIndices ↔ k < 8 := List.mem_range

/-- Step 4 passes exactly when conditions (a) and (b) hold. -/
theorem lineFailures_eq_nil {gapOf : LineIx → Nat} {cycleLength : Nat} {ms : List Member} :
    lineFailures gapOf cycleLength ms = [] ↔ ConditionA gapOf ms ∧ ConditionB gapOf cycleLength ms := by
  simp only [lineFailures, List.flatMap_eq_nil_iff, mem_superIndices, List.append_eq_nil_iff, sameLineFailures_eq_nil,
    boundaryFailures_eq_nil, ConditionA, ConditionB, forall_and]

theorem railFailuresAt_eq_nil {capacity : Nat} {ms : List Member} {rail : Rail} {k : Nat} :
    railFailuresAt capacity ms rail k = [] ↔
      ∀ m ∈ ms, m.d.rail = some rail → m.d.fires k = true → railSum ms rail k m.d.start ≤ capacity := by
  simp only [railFailuresAt, railStarts, List.filterMap_eq_nil_iff, List.mem_map, List.mem_filter, Bool.and_eq_true,
    decide_eq_true_eq, some_of_eq_none, Nat.not_lt, forall_exists_index, and_imp]
  constructor
  · intro h m hm hr hk
    exact h _ m hm hr hk rfl
  · rintro h t m hm hr hk rfl
    exact h m hm hr hk

/-- Step 5 passes exactly when condition (c) holds on both rails. -/
theorem railFailures_eq_nil {a b : Nat} {ms : List Member} :
    railFailures a b ms = [] ↔ ConditionC a .a ms ∧ ConditionC b .b ms := by
  simp only [railFailures, List.flatMap_eq_nil_iff, mem_superIndices, List.append_eq_nil_iff, railFailuresAt_eq_nil,
    ConditionC, forall_and]

/-- Step 6 passes exactly when condition (d) holds. -/
theorem burstFailures_eq_nil {ms : List Member} : burstFailures ms = [] ↔ ConditionD ms := by
  simp only [burstFailures, burstFailuresAt, List.flatMap_eq_nil_iff, mem_superIndices, List.filterMap_eq_nil_iff,
    List.mem_filter, Bool.and_eq_true, some_of_eq_none, Nat.not_lt, and_imp, ConditionD]

/-- A set is conflict-free exactly when none of the three steps has a failing point. -/
theorem conflictFree_iff {h : HubRecord} {gapOf : LineIx → Nat} {ms : List Member} :
    ConflictFree h gapOf ms ↔
      lineFailures gapOf h.cycleLength ms = [] ∧ railFailures h.capacityA h.capacityB ms = [] ∧ burstFailures ms = [] := by
  rw [lineFailures_eq_nil, railFailures_eq_nil, burstFailures_eq_nil]
  constructor
  · rintro ⟨a, b, c, d, e⟩
    exact ⟨⟨a, b⟩, ⟨c, d⟩, e⟩
  · rintro ⟨⟨a, b⟩, ⟨c, d⟩, e⟩
    exact ⟨a, b, c, d, e⟩

/-- The trial of an ADD or REPLACE passes exactly when the trial set is conflict-free. -/
theorem State.judgeTrial_eq_pass {α : Type} {s : State} {trial : List Member} {value x : α} :
    s.judgeTrial trial value = .pass x ↔ ConflictFree s.hub s.gapOf trial ∧ x = value := by
  rw [conflictFree_iff, judgeTrial]
  simp only [failWithReport_eq_pass, conflictReport_eq_none, Verdict.pass.injEq, and_assoc, @eq_comm _ value]

/-- A step with a failing point has a report. -/
theorem exists_conflictReport {free : Nat} {fs : List Failure} (h : fs ≠ []) : ∃ c, conflictReport free fs = some c := by
  rw [← Option.ne_none_iff_exists', ne_eq, conflictReport_eq_none]
  exact h

/-- What steps 4 to 6 say of a trial set, whatever it is. -/
theorem State.judgeTrial_spec {α : Type} (s : State) (trial : List Member) (value : α) :
    TrialJudged s trial value (s.judgeTrial trial value) where
  lineClash hn := by
    obtain ⟨c, hc⟩ := exists_conflictReport (free := s.freeCount) (mt lineFailures_eq_nil.1 hn)
    exact ⟨c, hc, by rw [State.judgeTrial, hc, failWithReport_some]⟩
  railOver ha hb hn := by
    obtain ⟨c, hc⟩ := exists_conflictReport (free := s.freeCount) (mt railFailures_eq_nil.1 hn)
    refine ⟨c, hc, ?_⟩
    rw [State.judgeTrial, conflictReport_eq_none.2 (lineFailures_eq_nil.2 ⟨ha, hb⟩), failWithReport_none, hc,
      failWithReport_some]
  enginesOver ha hb hc hd hn := by
    obtain ⟨c, he⟩ := exists_conflictReport (free := s.freeCount) (mt burstFailures_eq_nil.1 hn)
    refine ⟨c, he, ?_⟩
    rw [State.judgeTrial, conflictReport_eq_none.2 (lineFailures_eq_nil.2 ⟨ha, hb⟩), failWithReport_none,
      conflictReport_eq_none.2 (railFailures_eq_nil.2 ⟨hc, hd⟩), failWithReport_none, he, failWithReport_some]
  pass h := State.judgeTrial_eq_pass.2 ⟨h, rfl⟩

/-! ### Peak loads (R54) -/

/-- Recomputed peak loads are current. -/
theorem State.recomputePeaks_current (s : State) : PeaksCurrent s.recomputePeaks := ⟨rfl, rfl⟩

/-- Peak loads stay current while they and the next-epoch set stay. -/
theorem PeaksCurrent.of_eq {s t : State} (h : PeaksCurrent s) (hp : t.peaks = s.peaks)
    (hn : t.nextEpochSet = s.nextEpochSet) : PeaksCurrent t := by
  constructor
  · rw [hp, hn]
    exact h.a
  · rw [hp, hn]
    exact h.b

end Sys2Proof.Machine
end

