-- ==== Sys2Proof/Laws/Notices.lean ====
section
/-! SUPPORT. What a notice queue's operations do (R154 to R156, R158, R160), for one notice and for several in order. -/

namespace Sys2Proof.Machine.NoticeQueue

variable (q : NoticeQueue)

theorem arrive_of_room (b : NoticeBody) (h : q.records.length < 32) :
    q.arrive b = { q with records := q.records ++ [{ seq := q.seq, body := b }], seq := q.seq + 1 } := by
  simp [arrive, queueCapacity, h]

theorem arrive_of_full (b : NoticeBody) (h : 32 ≤ q.records.length) :
    q.arrive b = { q with losses := saturatingInc q.losses } := by
  have : ¬ q.records.length < 32 := by omega
  simp [arrive, queueCapacity, this]

theorem arrive_length (b : NoticeBody) (h : q.records.length ≤ 32) : (q.arrive b).records.length ≤ 32 := by
  by_cases k : q.records.length < 32
  · rw [arrive_of_room q b k]; simp; omega
  · rw [arrive_of_full q b (by omega)]; exact h

/-- A saturating counter that has counted is not 0. -/
theorem saturatingInc_ne_zero (c : BitVec 16) : saturatingInc c ≠ 0#16 := by
  unfold saturatingInc
  split
  · rename_i h
    rw [h]
    decide
  · rename_i h
    intro e
    apply h
    apply BitVec.eq_of_toNat_eq
    have e' := congrArg BitVec.toNat e
    have hc := c.isLt
    simp [BitVec.toNat_add] at *
    omega

theorem arrive_losses_full (b : NoticeBody) (h : q.losses ≠ 0 → q.records.length = 32) :
    (q.arrive b).losses ≠ 0 → 32 ≤ (q.arrive b).records.length := by
  by_cases k : q.records.length < 32
  · rw [arrive_of_room q b k]
    intro hl
    have := h hl
    omega
  · rw [arrive_of_full q b (by omega)]
    intro _
    exact Nat.le_of_not_lt k

theorem arrive_inTransfer (b : NoticeBody) : (q.arrive b).inTransfer = q.inTransfer := by
  unfold arrive; split <;> rfl

theorem arrive_head {r : Notice} (b : NoticeBody) (h : q.records.head? = some r) : (q.arrive b).records.head? = some r := by
  unfold arrive
  split
  · cases hr : q.records with
    | nil => rw [hr] at h; cases h
    | cons x xs => rw [hr] at h; simpa using h
  · exact h

theorem removeTransferred_of_none (h : q.inTransfer = none) : q.removeTransferred = q := by
  simp [removeTransferred, h]

theorem removeTransferred_of_no_losses {r : Notice} (h : q.inTransfer = some r) (hl : q.losses = 0) :
    q.removeTransferred = { q with records := q.records.tail, inTransfer := none } := by
  simp [removeTransferred, h, hl]

/-- After a removal no record is in transfer. -/
theorem removeTransferred_inTransfer : q.removeTransferred.inTransfer = none := by
  unfold removeTransferred
  split
  · assumption
  · split
    · rfl
    · simp [arrive_inTransfer]

/-- With losses counted, the LOST notice takes the place that the removal freed. -/
theorem removeTransferred_of_losses {r : Notice} (h : q.inTransfer = some r) (hl : q.losses ≠ 0)
    (hr : q.records.length = 32) :
    q.removeTransferred =
      { records := q.records.tail ++ [{ seq := q.seq, body := .lost q.losses }]
        seq := q.seq + 1
        losses := 0
        inTransfer := none } := by
  have k : ({ q with records := q.records.tail, inTransfer := none } : NoticeQueue).records.length < 32 := by
    simp [hr]
  simp only [removeTransferred, h, hl, if_false]
  rw [arrive_of_room _ _ k]

/-! ### Several notices in order -/

@[simp] theorem after_nil : q.after [] = q := rfl

@[simp] theorem after_cons (b : NoticeBody) (bs : List NoticeBody) : q.after (b :: bs) = (q.arrive b).after bs := rfl

theorem after_append (bs cs : List NoticeBody) : q.after (bs ++ cs) = (q.after bs).after cs := List.foldl_append

theorem after_inTransfer (bs : List NoticeBody) : (q.after bs).inTransfer = q.inTransfer := by
  induction bs generalizing q with
  | nil => rfl
  | cons b bs ih => rw [after_cons, ih, arrive_inTransfer]

theorem after_length (bs : List NoticeBody) (h : q.records.length ≤ 32) : (q.after bs).records.length ≤ 32 := by
  induction bs generalizing q with
  | nil => exact h
  | cons b bs ih => exact ih _ (arrive_length q b h)

end Sys2Proof.Machine.NoticeQueue
end

