-- ==== Sys2Proof/Laws/Links.lean ====
section
/-! SUPPORT. What the frames on a port do (R174 to R182): a byte of each frame, a run of bytes, the rise of CSn, and a part
of a frame. -/

namespace Sys2Proof.Machine

/-! ### The shape of a SUBMIT -/

theorem submitShape_eq_incomplete {bytes : List Byte} : submitShape bytes = .incomplete ↔ SubmitShort bytes := by
  cases bytes with
  | nil => simp [submitShape, SubmitShort]
  | cons n rest =>
    simp only [submitShape, SubmitShort, List.cons.injEq, reduceCtorEq, false_or]
    by_cases h : n.toNat < 2 ∨ 40 < n.toNat
    · simp only [h, if_true, reduceCtorEq, false_iff]
      rintro ⟨m, more, ⟨rfl, rfl⟩, h1, h2, -⟩
      omega
    · by_cases k : rest.length < n.toNat
      · simp only [h, k, if_true, if_false, true_iff]
        exact ⟨n, rest, ⟨rfl, rfl⟩, by omega, by omega, k⟩
      · simp only [h, k, if_false, reduceCtorEq, false_iff]
        rintro ⟨m, more, ⟨rfl, rfl⟩, -, -, h3⟩
        exact k h3

/-- What a frame has received before it is complete is short, too. -/
theorem SubmitShort.of_append {a b : List Byte} (h : SubmitShort (a ++ b)) : SubmitShort a := by
  cases a with
  | nil => exact .inl rfl
  | cons n rest =>
    rcases h with h | ⟨m, more, h, h1, h2, h3⟩
    · simp at h
    · simp only [List.cons_append, List.cons.injEq] at h
      obtain ⟨rfl, rfl⟩ := h
      simp only [List.length_append] at h3
      exact .inr ⟨n, rest, rfl, h1, h2, by omega⟩

/-- A notice record, and so a position of a FETCH, is 16 bytes (R180, R187). -/
theorem noticeBytes_length (r : Notice) : (noticeBytes r).length = 16 := by
  obtain ⟨seq, body⟩ := r
  cases body
  case retired h label why cycle => cases cycle <;> simp [noticeBytes, noticeFieldBytes, handleBytes, bytesOf]
  all_goals simp [noticeBytes, noticeFieldBytes, handleBytes, bytesOf]

theorem positionBytes_length (q : NoticeQueue) : q.positionBytes.length = 16 := by
  unfold NoticeQueue.positionBytes
  split
  · rfl
  · exact noticeBytes_length _

namespace State

variable (s : State) (p : Port)

@[simp] theorem setLink_setLink (x y : Link) : (s.setLink p x).setLink p y = s.setLink p y := by
  simp [setLink]

@[simp] theorem setLink_link : s.setLink p (s.link p) = s := by
  simp [setLink, link]

@[simp] theorem setQueue_setQueue (x y : NoticeQueue) : (s.setQueue p x).setQueue p y = s.setQueue p y := by
  simp [setQueue]

@[simp] theorem setQueue_queue : s.setQueue p (s.queue p) = s := by
  simp [setQueue, queue]

@[simp] theorem link_setQueue (q : Port) (x : NoticeQueue) : (s.setQueue q x).link p = s.link p := rfl

@[simp] theorem queue_setLink (q : Port) (x : Link) : (s.setLink q x).queue p = s.queue p := rfl

theorem setQueue_setLink (q : Port) (x : Link) (y : NoticeQueue) :
    (s.setLink p x).setQueue q y = (s.setQueue q y).setLink p x := rfl

/-- The fall of CSn and nothing else samples the status byte (R175). -/
theorem fallCs_of_idle (h : (s.link p).frame = .idle) :
    s.fallCs p = s.setLink p { s.link p with frame := .opened (s.statusByte p) } := by simp [fallCs, h]

theorem fallCs_of_ne (h : (s.link p).frame ≠ .idle) : s.fallCs p = s := by simp [fallCs, h]

/-- The status byte is read from the replies and the credits alone of what a link holds (R175). -/
theorem statusByte_setLink (x : Link) (h : x.replies = (s.link p).replies) (h' : x.credits = (s.link p).credits) :
    (s.setLink p x).statusByte p = s.statusByte p := by
  simp only [link] at h h'
  simp [statusByte, setLink, h, h']

@[simp] theorem session_setLink (q : Port) (x : Link) : (s.setLink p x).session q = s.session q := rfl

/-- Either way the frame stands before its code, with its status byte. -/
theorem fallCs_of_beforeCode {st : Byte} (h : s.beforeCode p st) :
    s.fallCs p = s.setLink p { s.link p with frame := .opened st } := by
  obtain ⟨-, ⟨h, rfl⟩ | h⟩ := h
  · exact s.fallCs_of_idle p h
  · have e : ({ s.link p with frame := .opened st } : Link) = s.link p := by rw [← h]
    rw [e, setLink_link, s.fallCs_of_ne p (by simp [h])]

theorem notIgnoring_of_beforeCode {st : Byte} (h : s.beforeCode p st) :
    ¬ (s.hold.isSome ∨ (s.link p).frame = .ignoring) := by
  obtain ⟨h, ⟨k, -⟩ | k⟩ := h <;> simp [h, k]

/-- A part of a frame from before its code (R175). -/
theorem runFrame_of_beforeCode {st : Byte} (h : s.beforeCode p st) (mine : FrameState → Bool) (part : FramePart)
    (bits : Nat) :
    s.runFrame p mine part bits =
      let t := part.bytes.foldl (State.exchange p) (s.setLink p { s.link p with frame := .opened st })
      if mine (t.link p).frame then if part.rise then t.raiseCs p bits else t else s := by
  simp only [runFrame, s.notIgnoring_of_beforeCode p h, if_false, s.fallCs_of_beforeCode p h]

/-- A part of a frame in progress. -/
theorem runFrame_of_inFrame (hold : s.hold = none) (h : (s.link p).frame ≠ .idle) (h' : (s.link p).frame ≠ .ignoring)
    (mine : FrameState → Bool) (part : FramePart) (bits : Nat) :
    s.runFrame p mine part bits =
      let t := part.bytes.foldl (State.exchange p) s
      if mine (t.link p).frame then if part.rise then t.raiseCs p bits else t else s := by
  simp [runFrame, hold, h', s.fallCs_of_ne p h]

/-! ### Runs of bytes -/

/-- The state after `bytes` have been shifted out, in frame f. -/
abbrev shifted (f : FrameState) (bytes : List Byte) : State :=
  s.setLink p { s.link p with frame := f, miso := (s.link p).miso ++ bytes }

/-- A run of bytes in which every byte shifts one out, moves the frame on and touches nothing else. -/
theorem exchanges_shifted (f : Nat → FrameState) (out : Nat → Byte) (bytes : List Byte) (h0 : (s.link p).frame = f 0)
    (h : ∀ (i : Nat) (hi : i < bytes.length),
      let t := s.shifted p (f i) ((List.range i).map out)
      State.exchange p t bytes[i] = t.emit p (out i) (f (i + 1))) :
    bytes.foldl (State.exchange p) s = s.shifted p (f bytes.length) ((List.range bytes.length).map out) := by
  have key : ∀ k ≤ bytes.length,
      (bytes.take k).foldl (State.exchange p) s = s.shifted p (f k) ((List.range k).map out) := by
    intro k
    induction k with
    | zero =>
      intro _
      have e : ({ s.link p with frame := f 0, miso := (s.link p).miso ++ [] } : Link) = s.link p := by
        rw [← h0, List.append_nil]
      simp only [List.take_zero, List.foldl_nil, List.range_zero, List.map_nil, shifted, e, setLink_link]
    | succ k ih =>
      intro hk
      rw [List.take_succ_eq_append_getElem (by omega), List.foldl_append, ih (by omega), List.foldl_cons, List.foldl_nil,
        h k (by omega)]
      simp [emit, shifted, List.range_succ]
  simpa using key bytes.length (Nat.le_refl _)

theorem takeSubmitByte_of_short {received : List Byte} {b : Byte} (h : SubmitShort (received ++ [b])) :
    s.takeSubmitByte p received b = s.emit p 0 (.submit (received ++ [b])) := by
  rw [takeSubmitByte, submitShape_eq_incomplete.mpr h]

theorem exchange_shifted (f : FrameState) (out : List Byte) (b : Byte) :
    State.exchange p (s.shifted p f out) b =
      match f with
      | .opened status =>
        s.setLink p { s.link p with frame := (s.shifted p f out).frameOfCode p b, miso := [status] }
      | .submit received => (s.shifted p f out).takeSubmitByte p received b
      | .answered result => (s.shifted p f out).emit p result (.answered 0)
      | .collect rest => (s.shifted p f out).shiftReply p rest
      | .fetch count rest => (s.shifted p f out).shiftFetch p count rest
      | .status k losses => (s.shifted p f out).shiftStatus p k losses
      | .abandon none => (s.shifted p f out).emit p 0 (.abandon (some b))
      | .abandon (some session) => (s.shifted p f out).emit p 0 (.abandon (some session))
      | .unknown => (s.shifted p f out).emit p 0 .unknown
      | .idle => s.shifted p f out
      | .ignoring => s.shifted p f out := by
  unfold exchange
  rw [link_setLink]
  cases f
  case abandon session => cases session <;> simp
  all_goals simp

/-- Bytes of a SUBMIT that is not complete after them (R177). -/
theorem exchanges_submit (received mosi : List Byte) (hf : (s.link p).frame = .submit received)
    (h : SubmitShort (received ++ mosi)) :
    mosi.foldl (State.exchange p) s = s.shifted p (.submit (received ++ mosi)) (List.replicate mosi.length 0) := by
  have := s.exchanges_shifted p (fun i => .submit (received ++ mosi.take i)) (fun _ => 0) mosi (by simp [hf]) (by
    intro i hi
    have hs : SubmitShort ((received ++ mosi.take i) ++ [mosi[i]]) := by
      rw [List.append_assoc, ← List.take_succ_eq_append_getElem hi]
      apply SubmitShort.of_append (b := mosi.drop (i + 1))
      simpa using h
    show State.exchange p _ _ = _
    rw [exchange_shifted]
    simp only [takeSubmitByte_of_short _ _ hs]
    rw [List.append_assoc, ← List.take_succ_eq_append_getElem hi])
  simpa [List.map_const'] using this

/-- Bytes after the result of a SUBMIT (R177). -/
theorem exchanges_answered (result : Byte) (mosi : List Byte) (hf : (s.link p).frame = .answered result) :
    mosi.foldl (State.exchange p) s =
      s.shifted p (.answered (if mosi = [] then result else 0))
        ((List.range mosi.length).map fun i => if i = 0 then result else 0) := by
  have := s.exchanges_shifted p (fun i => .answered (if i = 0 then result else 0)) (fun i => if i = 0 then result else 0)
    mosi (by simp [hf]) (by intro i hi; simp [exchange])
  simpa using this

theorem drop_two (bytes : List Byte) (i : Nat) (h : i + 1 < bytes.length) :
    bytes.drop i = bytes.getD i 0 :: bytes.getD (i + 1) 0 :: bytes.drop (i + 2)
      ∧ bytes.drop (i + 1) = bytes.getD (i + 1) 0 :: bytes.drop (i + 2) := by
  have e := List.drop_eq_getElem_cons h
  have e' := List.drop_eq_getElem_cons (show i < bytes.length by omega)
  have h0 : bytes.getD i 0 = bytes[i] := by simp [List.getElem?_eq_getElem (show i < bytes.length by omega)]
  have h1 : bytes.getD (i + 1) 0 = bytes[i + 1] := by simp [List.getElem?_eq_getElem h]
  rw [h0, h1]
  exact ⟨by rw [e', e], e⟩

/-- Bytes of a COLLECT before the last of its reply, or after it (R179). -/
theorem exchanges_collect (rest mosi : List Byte) (hf : (s.link p).frame = .collect rest)
    (h : rest = [] ∨ mosi.length < rest.length) :
    mosi.foldl (State.exchange p) s =
      s.shifted p (.collect (rest.drop mosi.length)) ((List.range mosi.length).map fun i => rest.getD i 0) := by
  apply s.exchanges_shifted p (fun i => .collect (rest.drop i)) (fun i => rest.getD i 0) mosi (by simp [hf])
  intro i hi
  rcases h with rfl | h
  · simp [exchange, shiftReply]
  · show State.exchange p _ _ = _
    obtain ⟨e, e'⟩ := drop_two rest i (by omega)
    rw [exchange_shifted]
    simp only [e, e', shiftReply]

/-- Bytes of a position of a FETCH before its 16th (R158). -/
theorem exchanges_fetch (rest mosi : List Byte) (hf : (s.link p).frame = .fetch none rest)
    (h : mosi.length < rest.length) :
    mosi.foldl (State.exchange p) s = s.shifted p (.fetch none (rest.drop mosi.length)) (rest.take mosi.length) := by
  have := s.exchanges_shifted p (fun i => .fetch none (rest.drop i)) (fun i => rest.getD i 0) mosi (by simp [hf]) (by
    intro i hi
    show State.exchange p _ _ = _
    obtain ⟨e, e'⟩ := drop_two rest i (by omega)
    rw [exchange_shifted]
    simp only [e, e', shiftFetch, shiftPosition])
  rw [this]
  congr 3
  apply List.ext_getElem (by simp; omega)
  intro i h1 h2
  simp at h1
  simp [List.getElem?_eq_getElem (show i < rest.length by omega)]

theorem shiftStatus_of_four_le {n : Nat} (l : BitVec 16) (h : 4 ≤ n) : s.shiftStatus p n l = s.emit p 0 (.status n l) := by
  obtain ⟨m, rfl⟩ : ∃ m, n = m + 4 := ⟨n - 4, by omega⟩
  rfl

/-- The bytes of a STATUS from the kth on, the loss counter being taken with the third (R181). -/
theorem exchanges_status (k : Nat) (losses : BitVec 16) (mosi : List Byte) (hf : (s.link p).frame = .status k losses) :
    ∃ k' losses', mosi.foldl (State.exchange p) s =
      s.shifted p (.status k' losses')
        ((List.range mosi.length).map fun i =>
          ([s.statusByte p, (s.session p).number]
            ++ bytesOf 2 (if k ≤ 2 then (s.queue p).losses else losses).toNat).getD (k + i) 0) := by
  refine ⟨_, _, s.exchanges_shifted p
    (fun i => .status (if k ≤ 4 then min (k + i) 4 else k) (if k ≤ 2 ∧ 3 ≤ k + i then (s.queue p).losses else losses))
    _ mosi ?_ ?_⟩
  · rw [hf]
    have : ¬ (k ≤ 2 ∧ 3 ≤ k) := by omega
    have e : (if k ≤ 4 then min k 4 else k) = k := by split <;> omega
    simp [this, e]
  · intro i hi
    show State.exchange p _ _ = _
    rw [exchange_shifted]
    dsimp only
    have hs : ∀ f out, (s.shifted p f out).statusByte p = s.statusByte p := by
      intro f out
      exact s.statusByte_setLink p _ rfl rfl
    have hb : ∀ v, bytesOf 2 v = [BitVec.ofNat 8 v, BitVec.ofNat 8 (v / 256)] := by intro v; simp [bytesOf]
    by_cases h4 : 4 ≤ k + i
    · obtain ⟨m, hm⟩ : ∃ m, k + i = m + 4 := ⟨k + i - 4, by omega⟩
      have e : 4 ≤ (if k ≤ 4 then min (k + i) 4 else k) := by split <;> omega
      have e' : (if k ≤ 4 then min (k + (i + 1)) 4 else k) = (if k ≤ 4 then min (k + i) 4 else k) := by
        split <;> omega
      have c : (k ≤ 2 ∧ 3 ≤ k + (i + 1)) = (k ≤ 2 ∧ 3 ≤ k + i) := by
        apply propext
        omega
      rw [shiftStatus_of_four_le _ _ _ e, e']
      simp only [c]
      simp [hb, hm]
    · have e : (if k ≤ 4 then min (k + i) 4 else k) = k + i := by split <;> omega
      have e' : (if k ≤ 4 then min (k + (i + 1)) 4 else k) = k + i + 1 := by split <;> omega
      rw [e, e', ← Nat.add_assoc]
      have cases : k + i = 0 ∨ k + i = 1 ∨ k + i = 2 ∨ k + i = 3 := by omega
      rcases cases with h | h | h | h
      · have k2 : k ≤ 2 := by omega
        simp [h, shiftStatus, hs, k2]
      · have k2 : k ≤ 2 := by omega
        simp [h, shiftStatus, k2]
      · have k2 : k ≤ 2 := by omega
        simp [h, shiftStatus, hb, k2]
      · by_cases k2 : k ≤ 2 <;> simp [h, shiftStatus, hb, k2]

/-- Bytes of an ABANDON whose session byte is received (R182). -/
theorem exchanges_abandon (session : Byte) (mosi : List Byte) (hf : (s.link p).frame = .abandon (some session)) :
    mosi.foldl (State.exchange p) s = s.shifted p (.abandon (some session)) (List.replicate mosi.length 0) := by
  have := s.exchanges_shifted p (fun _ => .abandon (some session)) (fun _ => 0) mosi hf (by intro i hi; simp [exchange])
  simpa [List.map_const'] using this

/-- Bytes of a frame of an unknown code (R175). -/
theorem exchanges_unknown (mosi : List Byte) (hf : (s.link p).frame = .unknown) :
    mosi.foldl (State.exchange p) s = s.shifted p .unknown (List.replicate mosi.length 0) := by
  have := s.exchanges_shifted p (fun _ => .unknown) (fun _ => 0) mosi hf (by intro i hi; simp [exchange])
  simpa [List.map_const'] using this

/-! ### What a byte leaves of the frame -/

@[simp] theorem emit_frame (b : Byte) (f : FrameState) : ((s.emit p b f).link p).frame = f := by simp [emit]

@[simp] theorem removeReply_frame : ((s.removeReply p).link p).frame = (s.link p).frame := by
  unfold removeReply
  split <;> simp

@[simp] theorem endPosition_link : (s.endPosition p).link p = s.link p := rfl

/-- What a row can be after a byte is what it could be before, once the frame code is received; and a byte never ends a
frame. -/
theorem exchange_frame (b : Byte) (f : FrameState) (hf : (s.link p).frame = f) :
    let g := ((State.exchange p s b).link p).frame
    (∀ status, f = .opened status → g = s.frameOfCode p b)
    ∧ (∀ received, f = .submit received → (∃ more, g = .submit more) ∨ ∃ result, g = .answered result)
    ∧ (∀ result, f = .answered result → g = .answered 0)
    ∧ (∀ rest, f = .collect rest → ∃ more, g = .collect more)
    ∧ (∀ count rest, f = .fetch count rest → ∃ more, g = .fetch none more)
    ∧ (∀ k l, f = .status k l → ∃ k' l', g = .status k' l')
    ∧ (∀ session, f = .abandon session → ∃ byte, g = .abandon (some byte))
    ∧ (f = .unknown → g = .unknown) := by
  subst hf
  refine ⟨?_, ?_, ?_, ?_, ?_, ?_, ?_, ?_⟩
  · intro status h
    simp [exchange, h]
  · intro received h
    simp only [exchange, h, takeSubmitByte]
    split <;> simp
  · intro result h
    simp [exchange, h]
  · intro rest h
    simp only [exchange, h]
    rcases rest with _ | ⟨c, _ | ⟨d, more⟩⟩ <;> simp [shiftReply]
  · intro count rest h
    simp only [exchange, h]
    rcases count with _ | count
    · rcases rest with _ | ⟨c, _ | ⟨d, more⟩⟩
      · rw [shiftFetch]
        rcases (s.queue p).positionBytes with _ | ⟨c, _ | ⟨d, more⟩⟩ <;> simp [shiftPosition, h]
      · simp [shiftFetch, shiftPosition]
      · simp [shiftFetch, shiftPosition]
    · simp [shiftFetch]
  · intro k l h
    simp only [exchange, h]
    unfold shiftStatus
    split <;> simp
  · intro session h
    rcases session with _ | session <;> simp [exchange, h]
  · intro h
    simp [exchange, h]

/-! ### The completion of a SUBMIT (R177) -/

theorem submitShape_of_badLength {n : Byte} (rest : List Byte) (h : n.toNat < 2 ∨ 40 < n.toNat) :
    submitShape (n :: rest) = .badLength := by rw [submitShape, if_pos h]

theorem submitShape_of_complete {n : Byte} {rest : List Byte} (h : 2 ≤ n.toNat) (h' : n.toNat ≤ 40)
    (k : n.toNat ≤ rest.length) :
    submitShape (n :: rest) = .complete (byteAt rest 0) (byteAt rest 1) ((rest.take n.toNat).drop 2) := by
  have a : ¬ (n.toNat < 2 ∨ 40 < n.toNat) := by omega
  have b : ¬ rest.length < n.toNat := by omega
  simp only [submitShape, a, b, if_false]

/-- A byte that makes a SUBMIT not short any more, and the bytes after it: the byte that follows it is the result. -/
theorem exchanges_submit_end (received before after : List Byte) (b : Byte) (hf : (s.link p).frame = .submit received)
    (h : SubmitShort (received ++ before)) (t : State) (result : Byte)
    (ht : State.exchange p (s.shifted p (.submit (received ++ before)) (List.replicate before.length 0)) b
      = t.shifted p (.answered result) (List.replicate (before.length + 1) 0)) :
    (before ++ b :: after).foldl (State.exchange p) s =
      t.shifted p (.answered (if after = [] then result else 0))
        (List.replicate (before.length + 1) 0 ++ (List.range after.length).map fun i => if i = 0 then result else 0) := by
  rw [List.foldl_append, s.exchanges_submit p received before hf h, List.foldl_cons, ht,
    exchanges_answered _ p result after (by simp)]
  simp [shifted]

/-! ### The rise of CSn (R159, R174, R176, R182) -/

/-- Frames that end without an effect: a COLLECT, a STATUS, a SUBMIT that was answered, and a frame without an SCLK edge. -/
theorem raiseCs_quiet (x : Link) (bits : Nat)
    (h : match x.frame with
      | .collect _ | .status _ _ | .answered _ => True
      | .opened _ => bits = 0
      | _ => False) : (s.setLink p x).raiseCs p bits = s.setLink p { x with frame := .idle } := by
  unfold raiseCs
  rw [link_setLink]
  cases hf : x.frame <;> simp_all [FrameState.endsMalformed]

/-- Frames that are malformed for their form. -/
theorem raiseCs_malformed (x : Link) (bits : Nat) (h : x.frame.endsMalformed bits = true) :
    (s.setLink p x).raiseCs p bits =
      s.setLink p { x with frame := .idle, malformed := saturatingInc x.malformed } := by
  unfold raiseCs
  rw [link_setLink]
  split
  · rename_i hf
    simp [hf, FrameState.endsMalformed] at h
  · rename_i hf
    simp [hf, FrameState.endsMalformed] at h
  · simp [h, countMalformed]

theorem raiseCs_fetch (x : Link) (count : Option Byte) (rest : List Byte) (bits : Nat) (h : x.frame = .fetch count rest) :
    (s.setLink p x).raiseCs p bits =
      (s.setQueue p { s.queue p with inTransfer := none }).setLink p { x with frame := .idle } := by
  unfold raiseCs
  rw [link_setLink, h]
  simp only [dropTransfer, setLink_setLink, queue_setLink]
  rfl

theorem raiseCs_abandon (x : Link) (b : Byte) (bits : Nat) (h : x.frame = .abandon (some b)) :
    (s.setLink p x).raiseCs p bits = (s.setLink p { x with frame := .idle }).judgeAbandon p b := by
  unfold raiseCs
  rw [link_setLink, h]
  simp

end State
end Sys2Proof.Machine
end

