-- ==== Sys2Proof/WellFormed.lean ====
section
/-! DEFINITION. Which terms of `Instr` are commands of their row. Ports, inputs and engines are in range by their types; the
bits after a malformed frame's last whole byte are fewer than a byte, and come only before the rise of CSn. -/

namespace Sys2Proof

/-- A command is well formed: a malformed frame has fewer than eight bits of a further byte, and none in a part that does
not end the frame (R174, R176). Which frame the bytes make depends on what has passed before them, and is judged where they
are taken (`State.runFrame`). -/
def Instr.wellFormed : Instr → Bool
  | .submit _ _ => true
  | .abandon _ _ => true
  | .malformedFrame _ mosi bits => decide (bits < 8) && (mosi.rise || decide (bits = 0))
  | .attach _ => true
  | .detach _ => true
  | .renew _ => true
  | .setNotices _ => true
  | .add _ => true
  | .addCompletion => true
  | .withdraw _ => true
  | .replace _ => true
  | .replaceCompletion => true
  | .query _ => true
  | .scan _ => true
  | .claimLine _ => true
  | .releaseLine _ => true
  | .lineInfo _ => true
  | .run _ => true
  | .halt _ => true
  | .setHub _ => true
  | .setHubCompletion => true
  | .readHub _ => true
  | .badKind _ => true
  | .cleanupClaim _ => true
  | .collect _ _ _ => true
  | .fetch _ _ _ => true
  | .status _ _ _ => true
  | .cycleEnd => true
  | .spacingEnd => true
  | .inhAsserted => true
  | .inhReleased => true
  | .rawChange _ => true
  | .qualification _ => true
  | .windowBoundaryEvent => true
  | .highTimeElapses _ => true
  | .lowTimeElapses _ => true
  | .leaseExpiry _ => true
  | .powerOnReset => true
  | .rstnAsserted => true
  | .resetRelease _ _ _ => true
  | .csnRiseAfterReset _ => true

end Sys2Proof
end

