-- ==== Sys2Proof/Tests/Slice0.lean ====
section
/-! SUPPORT. Tests: ill-formed commands refused by `wellFormed`; worked examples of the spec; and, for each statement, a
concrete state and operands that meet its hypotheses, clause by clause at the boundaries of their ranges. -/

namespace Sys2Proof.Tests

set_option Elab.async false

open Sys2Proof.Machine

/-! ### States and readings -/

/-- The state a command leads to. -/
def after (c : Instr) (s : State) : State :=
  match exec c s with
  | .next t => t
  | .fault _ => s
  | .refused _ => s

/-- The newest reply of port 0. -/
def said (s : State) : Option (Status × List Byte) :=
  (s.link 0).replies.getLast?.map fun r => (r.status, r.payload)

/-- Session 1 is attached at a port, with every notice kind and a lease of 10 ms of which 5 ticks have gone. -/
def attached (p : Port) (vote : Bool) (s : State) : State :=
  { s with
    sessions := s.sessions.set p
      { number := 1
        attachment := some
          { lease := 10, timer := 5, vote := vote
            mask := { window := true, lifecycle := true, early := true, engine := true } } } }

/-- One request waits at a port, which was idle. -/
def waiting (p : Port) (code : Byte) (fields : List Byte) (s : State) : State :=
  { s with
    links := s.links.set p
      { s.link p with requests := [{ tag := 9, code := code, fields := fields }], credits := 3 } }

/-- The session whose requests the tests take: port 0's session 1. -/
def me : SessionId := { port := 0, number := 1 }

def other : SessionId := { port := 1, number := 1 }

/-- A request of the attached session at port 0, on a state. -/
def asking (code : Byte) (fields : List Byte) (s : State) : State := waiting 0 code fields (attached 0 false s)

/-- What the answer to a request is, on a state. -/
def answerTo (c : Instr) (code : Byte) (s : State) (fields : List Byte) : Option (Status × List Byte) :=
  said (after c (asking code fields s))

/-- An entry holds a state and a descriptor. -/
def holding (e : EntryIx) (x : EntryState) (d : Descriptor) (s : State) : State :=
  s.setEntry e { state := x, generation := 0, descriptor := d, fireCount := 0 }

/-- A SOLID window on rail NONE that fires in every cycle. -/
def solid (line : LineIx) (start duration : Nat) : Descriptor :=
  { Descriptor.afterReset with line := line, start := start, duration := duration }

def engineIn (x : EngineState) (s : State) : State :=
  { s with engine := { s.engine with state := x, number := some 10, restart := false } }

/-- Every entry is ACTIVE, on line 15. -/
def fullTable (s : State) : State :=
  { s with
    entries := .fill 48
      { state := .active me, generation := 0, descriptor := solid 15 0 1, fireCount := 0 } }

/-- Port 0 in the middle of a frame. -/
def inFrame (f : FrameState) (s : State) : State := s.setLink 0 { s.link 0 with frame := f }

/-! ### Well-formed commands -/

theorem test_malformed_frame_with_eight_bits_is_ill_formed :
    Instr.wellFormed (.malformedFrame 0 ⟨[], true⟩ 8) = false
      ∧ Instr.wellFormed (.malformedFrame 0 ⟨[], true⟩ 7) = true := by decide

theorem test_bits_without_the_rise_are_ill_formed :
    Instr.wellFormed (.malformedFrame 0 ⟨[], false⟩ 1) = false
      ∧ Instr.wellFormed (.malformedFrame 0 ⟨[], false⟩ 0) = true := by decide

/-! ### Steps, the queue, and the arbiter -/

/-- Premises of `StepRunsFrontCommand`, with one and with two commands. -/
theorem test_step_has_a_front_command :
    ({ State.reset with pending := [.cycleEnd] } : State).pending = .cycleEnd :: []
      ∧ ({ State.reset with pending := [.cycleEnd, .attach 3] } : State).pending = .cycleEnd :: [.attach 3] := ⟨rfl, rfl⟩

/-- Premises of `EmptyQueueTakesADueEventOrATick`: held, nothing due, one due, two due; and each phase of an engine. -/
theorem test_idle_cases :
    ({ State.reset with hold := some .pin } : State).hold.isSome = true
      ∧ State.reset.dueEvents = []
      ∧ (waiting 3 0x01 [] .reset).dueEvents = [.attach 3]
      ∧ 2 ≤ (waiting 3 0x01 [] { engineIn .running .reset with
              engine := { CycleEngine.afterReset false with state := .running, timer := some 20000 } }).dueEvents.length
      ∧ State.reset.pending = [] ∧ State.reset.hold = none := by decide +kernel

def aJob (phase : BusyPhase) (count : Option Nat) (gate : Option Bool) : BurstJob :=
  { phase := phase, window := 1, part := { highTime := 1, lowTime := 65535, count := count }, line := 4, idle := .low,
    gate := gate, pulses := 0, closures := 0 }

def withJob (phase : BusyPhase) (count : Option Nat) (gate : Option Bool) : State :=
  State.reset.setBurst 0 (.busy (aJob phase count gate))

theorem test_idle_phases :
    State.reset.burst 0 = .idle
      ∧ (withJob (.high 0) none none).burst 0 = .busy (aJob (.high 0) none none)
      ∧ (withJob (.low 65534) none none).burst 0 = .busy (aJob (.low 65534) none none)
      ∧ (withJob .gateWait none none).burst 0 = .busy (aJob .gateWait none none)
      ∧ (withJob .spent none none).burst 0 = .busy (aJob .spent none none) := by decide +kernel

def aFlight (op : FlightOp) : Flight :=
  { session := me, request := { tag := 9, code := 0x10, fields := [] }, op := op, age := 3 }

/-- A flight is in progress for port 0's session. -/
def flying (op : FlightOp) (s : State) : State :=
  { s with
    arbiter := { s.arbiter with executor := some (aFlight op) }
    links := s.links.set 0 { s.link 0 with inService := some (aFlight op).request, credits := 3 } }

def withClaim (p : Port) (s : State) : State :=
  { s with arbiter := { s.arbiter with claims := s.arbiter.claims.set p (some 1) } }

/-- Premises of `ArbiterTakesClaimsThenPortsInTurn`: a held executor, a held part, claims of the first and last port, and
requests at the first and last place of the turn (the last port served is 3). -/
theorem test_arbiter_cases :
    (flying (.add (.refuse .badField [])) .reset).arbiter.executor.isSome = true
      ∧ ({ State.reset with hold := some .power } : State).hold.isSome = true
      ∧ (withClaim 0 .reset).nextTaking = some (.claim 0)
      ∧ (withClaim 3 (waiting 0 0x01 [] .reset)).nextTaking = some (.claim 3)
      ∧ (waiting 0 0x01 [] (waiting 3 0x01 [] .reset)).nextTaking = some (.request 0)
      ∧ (waiting 3 0x01 [] .reset).nextTaking = some (.request 3)
      ∧ State.reset.nextTaking = none := by decide +kernel

/-- Premises of `UnknownCodesAndDetachedPortsAnswered`: an unknown code, and a RENEW, at a DETACHED port. -/
theorem test_unknown_code_and_detached_port :
    (waiting 1 0x77 [] .reset).takenRequest 1 .unknown = some { tag := 9, code := 0x77, fields := [] }
      ∧ (waiting 1 0x03 [] .reset).takenRequest 1 .renew = some { tag := 9, code := 0x03, fields := [] }
      ∧ ((waiting 1 0x03 [] .reset).session 1).attachment = none := by decide +kernel

/-- Premises of `CommandWithoutItsEventStutters`: right after reset none of the events can happen. -/
theorem test_nothing_can_happen_after_reset :
    (∀ p, State.reset.takenRequest p .add = none) ∧ State.reset.nextTaking = none ∧ State.reset.cycleEndDue = false
      ∧ State.reset.spacingEndDue = false ∧ State.reset.boundaryDue = false
      ∧ (∀ i, State.reset.qualificationDue i = false) ∧ (∀ g, State.reset.highDue g = false)
      ∧ (∀ g, State.reset.lowDue g = false) ∧ (∀ p, State.reset.leaseDue p = false)
      ∧ State.reset.engine.inhAsserted = false ∧ (after .inhAsserted .reset).engine.inhAsserted = true
      ∧ State.reset.arbiter.executor = none := by decide +kernel

/-- The rest of them: a frame in progress and a port that ignores, a frame of good form, a flight of each kind. -/
theorem test_other_events_that_cannot_happen :
    (FrameState.fetch none []).fitsSubmit = false ∧ (FrameState.unknown).fitsCollect = false
      ∧ (FrameState.status 0 0).fitsFetch = false ∧ (FrameState.submit []).fitsStatus = false
      ∧ FrameState.ignoring.fitsAbandon = false ∧ (FrameState.collect []).endsMalformed 1 = false
      ∧ (∀ f ∈ [FrameState.fetch none [], .unknown, .submit [], .ignoring], ((inFrame f .reset).link 0).frame ≠ .idle)
      ∧ ¬ MalformedForm [0x53] 0 ∧ State.reset.beforeCode 0 4 ∧ (inFrame (.opened 9) .reset).beforeCode 0 9
      ∧ (State.reset.link 0).frame ≠ .ignoring ∧ State.reset.hold = none
      ∧ (∀ v, (aFlight (.add (.refuse .badField []))).op ≠ .replace v)
      ∧ (∀ v, (aFlight (.add (.refuse .badField []))).op ≠ .setHub v)
      ∧ ∀ v, (aFlight (.setHub (.refuse .span []))).op ≠ .add v := by
  refine ⟨rfl, rfl, rfl, rfl, rfl, rfl, by decide +kernel, by simp [MalformedForm], ⟨rfl, .inl ⟨rfl, by decide +kernel⟩⟩,
    ⟨rfl, .inr rfl⟩, by decide +kernel, rfl, ?_, ?_, ?_⟩ <;> intro v h <;> cases h

/-! ### Sessions -/

/-- Premises of `AttachGivesNextSession`. -/
theorem test_attach_taken :
    (waiting 0 0x01 [10, 0, 15] .reset).takenRequest 0 .attach
      = some { tag := 9, code := 0x01, fields := [10, 0, 15] } := by decide +kernel

/-- ATTACH at the ends of its ranges: leases of 9, 10, 60,000 and 60,001 ms, masks of 15 and 16, a short payload (R132). -/
theorem test_attach_ranges :
    ([[9, 0, 15], [10, 0, 15], [0x60, 0xEA, 0], [0x61, 0xEA, 0], [10, 0, 16], [10, 0]].map fun f : List Byte =>
        said (after (.attach 0) (waiting 0 0x01 f .reset)))
      = [some (.badField, []), some (.ok, [1]), some (.ok, [1]), some (.badField, []), some (.badField, []),
         some (.badField, [])]
      ∧ said (after (.attach 0) (asking 0x01 [10, 0, 15] .reset)) = some (.attached, []) := by decide +kernel

/-- Premises of `RenewRestartsTheLeaseTimer` and `SetNoticesReplacesTheMask`. -/
theorem test_renew_and_set_notices_taken :
    (asking 0x03 [7] .reset).takenRequest 0 .renew = some { tag := 9, code := 0x03, fields := [7] }
      ∧ (asking 0x04 [15] .reset).takenRequest 0 .setNotices = some { tag := 9, code := 0x04, fields := [15] }
      ∧ ((asking 0x04 [15] .reset).session 0).attachment.isSome = true
      ∧ [[], [15], [16]].map (answerTo (.setNotices 0) 0x04 .reset)
          = [some (.badField, []), some (.ok, []), some (.badField, [])] := by decide +kernel

/-- Premises of `SessionsEndByDetachAndByExpiry`: a DETACH, a lease timer at the lease and one tick before it. -/
theorem test_sessions_that_end :
    (asking 0x02 [] .reset).takenRequest 0 .detach = some { tag := 9, code := 0x02, fields := [] }
      ∧ (attached 0 false .reset).hold = none
      ∧ (attached 0 false .reset).leaseDue 0 = false
      ∧ (State.setSession .reset 0
          { number := 1
            attachment := some { lease := 10, timer := 10000, vote := true, mask := maskBits 15 } }).leaseDue 0 = true := by
  decide +kernel

/-- Premises of `AbandonClearsThePort`: the right byte at an attached and at a detached port, and a wrong byte, before the
frame code, before the session byte and after it. -/
theorem test_abandon_cases :
    (∀ f ∈ [FrameState.idle, .abandon none, .abandon (some 1)], (inFrame f (attached 0 true .reset)).hold = none)
      ∧ (1 : Byte) = ((attached 0 true .reset).session 0).number ∧ (0 : Byte) = (State.reset.session 0).number
      ∧ (State.reset.session 0).attachment = none ∧ (2 : Byte) ≠ (State.reset.session 0).number
      ∧ ((after (.abandon 0 ⟨[0x5A, 1], false⟩) (attached 0 true .reset)).session 0).attachment.isSome = true
      ∧ ((after (.abandon 0 ⟨[], true⟩) (inFrame (.abandon (some 1)) (attached 0 true .reset))).session 0).attachment
          = none
      ∧ ((after (.abandon 0 ⟨[2], true⟩) (inFrame (.abandon none) .reset)).link 0).malformed = 1 := by decide +kernel

/-! ### The reservation table -/

/-- One entry in each state, owned by port 0's session. -/
def fourEntries : State :=
  holding 45 (.pending me) (solid 3 0 1)
    (holding 46 (.active me) (solid 4 0 1) (holding 47 (.retiring me .withdrawn) (solid 5 0 1)
      (holding 44 (.active other) (solid 6 0 1) (engineIn .running .reset))))

/-- Premises of `WithdrawFreesOrRetires` and `QueryAndScanReadTheTable`, and every case of WITHDRAW (R18): index 48 and a
short payload, a FREE entry, a wrong generation, another's entry, RETIRING, PENDING, ACTIVE. -/
theorem test_withdraw_cases :
    (asking 0x11 [46, 0] fourEntries).takenRequest 0 .withdraw = some { tag := 9, code := 0x11, fields := [46, 0] }
      ∧ (asking 0x11 [46, 0] fourEntries).attachedSession 0 = some me
      ∧ [[48, 0], [46], [0, 0], [46, 1], [44, 0], [47, 0], [45, 0], [46, 0]].map
            (answerTo (.withdraw 0) 0x11 fourEntries)
          = [some (.badField, []), some (.badField, []), some (.stale, []), some (.stale, []), some (.notOwner, []),
             some (.retiring, []), some (.ok, [0]), some (.ok, [3])]
      ∧ answerTo (.withdraw 0) 0x11 (engineIn .stopped fourEntries) [46, 0] = some (.ok, [0]) := by decide +kernel

/-- QUERY and SCAN: BAD_FIELD past the ends, STALE, a record, NONE (R22, R23). -/
theorem test_query_and_scan_cases :
    (asking 0x13 [44, 0] fourEntries).takenRequest 0 .query = some { tag := 9, code := 0x13, fields := [44, 0] }
      ∧ (asking 0x14 [44] fourEntries).takenRequest 0 .scan = some { tag := 9, code := 0x14, fields := [44] }
      ∧ ([[47, 16], [0xFF, 0xFF], [43, 0], [44, 0]].map fun f =>
            (answerTo (.query 0) 0x13 fourEntries f).map fun x => (x.1, x.2.take 5))
          = [some (.badField, []), some (.badField, []), some (.stale, []), some (.ok, [44, 0, 2, 1, 1])]
      ∧ ([[], [48], [0], [47]].map fun f =>
            (answerTo (.scan 0) 0x14 fourEntries f).map fun x => (x.1, x.2.take 3))
          = [some (.badField, []), some (.badField, []), some (.ok, [44, 0, 2]), some (.ok, [47, 0, 3])]
      ∧ answerTo (.scan 0) 0x14 .reset [47] = some (.ok, [0xFF, 0xFF]) := by decide +kernel

/-- Premises of `CleanupClaimRemovesTheSession`. -/
theorem test_cleanup_claim_taken :
    (withClaim 0 fourEntries).nextTaking = some (.claim 0) ∧ (withClaim 0 fourEntries).arbiter.claims.get 0 = some 1
      ∧ ((after (.cleanupClaim 0) (withClaim 0 fourEntries)).entry 45).state = .free
      ∧ ((after (.cleanupClaim 0) (withClaim 0 fourEntries)).entry 46).state = .retiring me .withdrawn := by
  decide +kernel

/-! ### Admission: the worked examples of Chapters 1, 2 and 9 -/

/-- The four-entry set of 1.7, under L = 20,000 and a rail A capacity of 10. -/
def judged : State :=
  let line := fun (l : LineIx) (s : State) => s.setLine l { holder := none, idle := .low, gap := 100 }
  let s := line 3 (line 7 { State.reset with hub := { HubRecord.afterReset with capacityA := 10 } })
  holding 0 (.active me) { solid 3 1200 300 with period := .two, pattern := 1 }
    (holding 1 (.active me) { solid 3 1600 200 with period := .four, pattern := 6 }
      (holding 2 (.active me) { solid 9 1000 500 with period := .eight, pattern := 0x11, rail := some .a, draw := 6 }
        (holding 3 (.active me)
          { solid 10 1300 400 with
            kind := .burst { highTime := 1, lowTime := 1, count := none }, rail := some .a, draw := 3 } s)))

def candidateW : Descriptor := solid 3 1550 40
def candidateX : Descriptor := solid 7 40 19930
def candidateY : Descriptor := { solid 11 1400 100 with period := .four, rail := some .a, draw := 2 }
def burstOn (line : LineIx) (start duration : Nat) : Descriptor :=
  { solid line start duration with kind := .burst { highTime := 1, lowTime := 1, count := none } }
def candidateZ2 : Descriptor := { burstOn 13 1400 50 with period := .eight, pattern := 0x10 }

/-- The four refusals of 2.3, with Y at draw 1 passing (R24 to R35). -/
theorem test_four_refusals :
    judged.judgeAdd me (descriptorBytes candidateW) = .refuse .lineClash [0, 0, 0, 0x0E, 0x06, 0]
      ∧ judged.judgeAdd me (descriptorBytes candidateX) = .refuse .lineClash [0xFF, 0xFF, 0, 40, 0, 0]
      ∧ judged.judgeAdd me (descriptorBytes candidateY) = .refuse .railOver [2, 0, 0, 0x78, 0x05, 0, 11, 0]
      ∧ judged.judgeAdd me (descriptorBytes { candidateY with draw := 1 }) = .pass { candidateY with draw := 1 }
      ∧ (holding 4 (.active me) (burstOn 12 1350 100) judged).judgeAdd me (descriptorBytes candidateZ2)
          = .refuse .enginesOver [3, 0, 4, 0x78, 0x05, 0] := by decide +kernel

/-- Steps 1 to 3 of an ADD (R25, R27, R28), and a peak load of 9 (2.7). -/
theorem test_add_early_checks :
    judged.judgeAdd me [] = .refuse .badField []
      ∧ judged.judgeAdd me (descriptorBytes (solid 3 0 20001)) = .refuse .badField []
      ∧ (judged.setLine 3 { holder := some other, idle := .low, gap := 0 }).judgeAdd me (descriptorBytes (solid 3 0 1))
          = .refuse .lineHeld []
      ∧ (fullTable judged).judgeAdd me (descriptorBytes (solid 3 0 1)) = .refuse .noEntry []
      ∧ railPeak judged.nextEpochSet .a = 9 ∧ railPeak judged.nextEpochSet .b = 0 := by decide +kernel

/-- Premises of `AdmissionsAndSetHubBeginFlights`. -/
theorem test_flights_taken :
    (asking 0x10 [] .reset).takenRequest 0 .add = some { tag := 9, code := 0x10, fields := [] }
      ∧ (asking 0x12 [] .reset).takenRequest 0 .replace = some { tag := 9, code := 0x12, fields := [] }
      ∧ (asking 0x40 [] .reset).takenRequest 0 .setHub = some { tag := 9, code := 0x40, fields := [] }
      ∧ (asking 0x40 [] .reset).attachedSession 0 = some me := by decide +kernel

/-- Premises of `AddChecksInOrder`: descriptors that read, at the ends of their range, and one that does not; a line held
by another and by the requester; a full table; and, with `test_four_refusals`, each failing condition. -/
theorem test_descriptors_at_the_ends :
    descriptorOf 20000 (descriptorBytes (solid 15 0 20000)) = some (solid 15 0 20000)
      ∧ descriptorOf 20000 (descriptorBytes (solid 0 19999 1)) = some (solid 0 19999 1)
      ∧ descriptorOf 20000 (descriptorBytes (solid 0 19999 2)) = none
      ∧ descriptorOf 20000 (descriptorBytes { solid 0 0 1 with pattern := 3 }) = none
      ∧ descriptorOf 20000 (descriptorBytes { solid 0 0 1 with draw := 1 }) = none
      ∧ (judged.setLine 3 { holder := some me, idle := .low, gap := 100 }).judgeAdd me (descriptorBytes (solid 3 0 1))
          = .pass (solid 3 0 1) := by decide +kernel

/-- The hub record of 9.6 before its SET_HUB requests, and its table. -/
def shortened : State :=
  let s : State := { State.reset with hub := { HubRecord.afterReset with capacityB := 12 } }
  holding 6 (.active me) { solid 4 100 2000 with rail := some .b, draw := 5 }
    (holding 8 (.active me) { solid 4 10000 4000 with period := .two, pattern := 2 }
      (holding 9 (.active me) { solid 12 1500 1000 with period := .four, pattern := 4, rail := some .b, draw := 7 }
        (s.setLine 4 { holder := none, idle := .low, gap := 500 })))

def hubOf (cycleLength capacityB : Nat) : HubRecord :=
  { HubRecord.afterReset with cycleLength := cycleLength, capacityB := capacityB }

/-- The four SET_HUB requests of 9.6 (with entry 6 at generation 0), and step 0 (R164 to R166). -/
theorem test_shortening_the_cycle :
    shortened.judgeSetHub (hubBytes (hubOf 13000 12)) = .refuse .span [8, 0]
      ∧ shortened.judgeSetHub (hubBytes (hubOf 14300 12)) = .refuse .lineClash [6, 0, 0, 100, 0, 0]
      ∧ shortened.judgeSetHub (hubBytes (hubOf 14400 10)) = .refuse .railOver [6, 0, 2, 0xDC, 0x05, 0, 12, 0]
      ∧ shortened.judgeSetHub (hubBytes (hubOf 14400 12)) = .pass (hubOf 14400 12)
      ∧ shortened.judgeSetHub [] = .refuse .badField []
      ∧ (engineIn .waiting shortened).judgeSetHub [] = .refuse .engineRunning [] := by decide +kernel

/-- Premises of `DescriptorsAndHubRecordsRead`: the records of the ends of the hub's ranges read back. -/
theorem test_hub_records_at_the_ends :
    hubFields (hubBytes (hubOf 100 0)) = some (hubOf 100 0) ∧ hubFields (hubBytes (hubOf 1000000 255)) = some (hubOf 1000000 255)
      ∧ hubFields (hubBytes (hubOf 99 0)) = none ∧ hubFields (hubBytes (hubOf 1000001 0)) = none := by decide +kernel

/-- The bytes of a descriptor and of a hub record, with one byte changed. -/
def changed (i : Nat) (b : Byte) (f : List Byte) : List Byte := f.set i b

/-- Bytes that are not read: those of an absent gate and burst part, and those after the descriptor and the hub record (R184,
R187). -/
theorem test_bytes_that_are_not_read :
    let d := solid 3 5 7
    let f := (descriptorBytes d).take 15 ++ List.replicate 8 0xEE
    descriptorOf 1000 f = some d ∧ d.gate.isSome = false ∧ d.isBurst = false
      ∧ (∀ i < 15, byteAt f i = byteAt (descriptorBytes d) i)
      ∧ hubFields (hubBytes HubRecord.afterReset ++ [9]) = some HubRecord.afterReset := by decide +kernel

/-- Descriptors and hub records that do not read, each for one byte past its range: line, kind, period, rail, a reserved
flag, a gate input, a burst flag that disagrees with the kind, and a burst part's zeros; start mode, line and edge; a byte
short (R25, R26, R165, R187). The gate input of an absent gate is not read. -/
theorem test_bytes_that_name_nothing :
    let f := descriptorBytes (solid 1 2 3)
    let g := descriptorBytes { burstOn 1 2 3 with gate := some { input := 7, level := .high } }
    let h := hubBytes (hubOf 100 0)
    (∀ x ∈ [changed 0 16 f, changed 1 2 f, changed 8 3 f, changed 10 3 f, changed 12 16 f, changed 12 8 f, f.take 20,
        changed 15 8 g, changed 12 6 g, changed 16 0 g, changed 18 0 g, changed 20 0 g], descriptorOf 100 x = none)
      ∧ (∀ x ∈ [f, changed 15 8 f, g, changed 20 255 g], (descriptorOf 100 x).isSome = true)
      ∧ (∀ x ∈ [changed 3 2 h, changed 4 8 h, changed 5 2 h, h.take 15], hubFields x = none)
      ∧ ∀ x ∈ [h, changed 4 7 h], (hubFields x).isSome = true := by decide +kernel

/-- Both premises are met by a descriptor and by a hub record. -/
theorem test_records_in_range : (solid 15 0 20000).InRange 20000 ∧ (hubOf 100 255).InRange := by
  constructor
  · exact ⟨by decide, by decide, by decide, by decide, by decide, by decide, by decide, trivial⟩
  · exact ⟨by decide, by decide, by decide, by decide, by decide +kernel⟩

/-- Premises of `ReportNamesTheFirstFailingPoint`: a step with failing points has a report. -/
theorem test_a_report_exists :
    conflictReport 0
        (lineFailures judged.gapOf judged.hub.cycleLength (judged.nextEpochSet ++ [candidate candidateW]))
      = some { blocking := some { index := 0, generation := 0 }, k := 0, t := 1550, sum := 0 } := by decide +kernel

/-- Premises of `ConditionsHoldAtEveryTickAndPeaksBoundThem`. -/
theorem test_conditions_hold :
    ConditionC 10 .a judged.nextEpochSet ∧ ConditionD judged.nextEpochSet
      ∧ railPeak judged.nextEpochSet .a + { candidateY with draw := 1 }.draw ≤ 10 := by
  refine ⟨?_, ?_, ?_⟩
  · unfold ConditionC
    decide +kernel
  · unfold ConditionD
    decide +kernel
  · decide +kernel

/-! ### Completions -/

/-- Premises that the three completion statements share: a flight of an attached session, and of one that has ended. -/
theorem test_flight_premises :
    let op : FlightOp := .add (.pass (solid 1 0 1))
    (flying op (attached 0 false .reset)).hold = none
      ∧ (flying op (attached 0 false .reset)).arbiter.executor = some (aFlight op)
      ∧ (flying op (attached 0 false .reset)).attachedSession (aFlight op).session.port = some (aFlight op).session
      ∧ (flying op .reset).attachedSession (aFlight op).session.port ≠ some (aFlight op).session := by decide +kernel

/-- Premises of `AddCompletionWritesTheLowestFreeEntry`: an ended requester, a refusal, a pass with entry 0 and with entry
4 the lowest FREE one. -/
theorem test_add_completions :
    said (after .addCompletion (flying (.add (.refuse .lineHeld [])) (attached 0 false .reset))) = some (.lineHeld, [])
      ∧ said (after .addCompletion (flying (.add (.pass (solid 1 0 1))) (attached 0 false .reset))) = some (.ok, [0, 0])
      ∧ said (after .addCompletion (flying (.add (.pass (solid 1 0 1))) (attached 0 false judged))) = some (.ok, [4, 0])
      ∧ said (after .addCompletion (flying (.add (.pass (solid 1 0 1))) .reset)) = none
      ∧ (flying (.add (.pass (solid 1 0 1))) .reset).attachedSession 0 ≠ some me := by decide +kernel

def replacing (old : EntryIx) (stopped : Bool) : FlightOp :=
  .replace (.pass { old := old, descriptor := solid 1 0 1, stoppedAtTaking := stopped })

/-- Premises of `ReplaceChecksTheHandleThenTheTrialSet`: each handle check, and a pass. -/
theorem test_replace_checks :
    let f := fun (e g : Byte) => [e, g] ++ descriptorBytes (solid 3 0 1)
    (fourEntries.judgeReplace me [46, 0] = .refuse .badField [])
      ∧ fourEntries.judgeReplace me (f 48 0) = .refuse .badField []
      ∧ fourEntries.judgeReplace me (f 0 0) = .refuse .stale []
      ∧ fourEntries.judgeReplace me (f 44 0) = .refuse .notOwner []
      ∧ fourEntries.judgeReplace me (f 47 0) = .refuse .retiring []
      ∧ fourEntries.judgeReplace me (f 45 0)
          = .pass { old := 45, descriptor := solid 3 0 1, stoppedAtTaking := false } := by decide +kernel

/-- The six steps of a REPLACE past its handle (R39, R40): BAD_FIELD, LINE_HELD, NO_ENTRY for an ACTIVE old entry while the
engine runs and no entry is FREE, the three reports on the set without the old entry, and a pass. -/
theorem test_replacement_steps :
    let judge := fun (s : State) (old : EntryIx) (d : Descriptor) => s.judgeReplacement me old (descriptorBytes d)
    judged.judgeReplacement me 0 [] = .refuse .badField []
      ∧ judge (judged.setLine 3 { holder := some other, idle := .low, gap := 0 }) 0 (solid 3 0 1) = .refuse .lineHeld []
      ∧ judge (engineIn .running (fullTable judged)) 0 (solid 3 0 1) = .refuse .noEntry []
      ∧ ((fullTable judged).entry 0).state.isActive = true
      ∧ judge judged 1 candidateW = .refuse .lineClash [0, 0, 0, 0x0E, 0x06, 0]
      ∧ judge judged 0 candidateY = .refuse .railOver [2, 0, 0, 0x78, 0x05, 0, 11, 0]
      ∧ judge (holding 4 (.active me) (burstOn 12 1350 100) judged) 0 candidateZ2
          = .refuse .enginesOver [3, 0, 4, 0x78, 0x05, 0]
      ∧ judge (engineIn .running judged) 0 (solid 3 0 1)
          = .pass { old := 0, descriptor := solid 3 0 1, stoppedAtTaking := false } := by decide +kernel

/-- Premises of `ReplaceCompletionSwapsTheEntries`: a refusal and an ended requester; a PENDING old entry, the lowest and
not; an ACTIVE one with the engine STOPPED at the taking, not STOPPED, since STOPPED, and with a full table. -/
theorem test_replace_completions :
    let go := fun (op : FlightOp) (s : State) => said (after .replaceCompletion (flying op (attached 0 false s)))
    go (.replace (.refuse .stale [])) .reset = some (.stale, [])
      ∧ said (after .replaceCompletion (flying (replacing 45 true) fourEntries)) = none
      ∧ go (replacing 45 true) fourEntries = some (.ok, [0, 0, 0])
      ∧ go (replacing 0 true) (engineIn .stopped judged) = some (.ok, [0, 1, 0])
      ∧ go (replacing 46 false) fourEntries = some (.ok, [0, 0, 3])
      ∧ go (replacing 46 false) (engineIn .stopped fourEntries) = some (.ok, [0, 0, 0])
      ∧ go (replacing 46 false) (fullTable fourEntries) = some (.noEntry, []) := by decide +kernel

/-- Premises of `SetHubCompletionReplacesTheRecord`: a refusal, a pass, an ended requester; an input whose pending change
is at its new width, and one below it (R123). -/
theorem test_set_hub_completions :
    let h : HubRecord := { hubOf 100 0 with widths := .fill 8 2 }
    let pendingAt := fun (n : Nat) =>
      flying (.setHub (.pass h)) (attached 0 false (State.reset.setInput 0 { raw := .high, filtered := .low, timer := some n }))
    said (after .setHubCompletion (flying (.setHub (.refuse .span [1, 0])) (attached 0 false .reset)))
        = some (.span, [1, 0])
      ∧ said (after .setHubCompletion (pendingAt 2)) = some (.ok, []) ∧ (after .setHubCompletion (pendingAt 2)).hub = h
      ∧ ((after .setHubCompletion (pendingAt 2)).input 0) = { raw := .high, filtered := .high, timer := none }
      ∧ ((after .setHubCompletion (pendingAt 1)).input 0) = { raw := .high, filtered := .low, timer := some 1 }
      ∧ said (after .setHubCompletion (flying (.setHub (.pass h)) .reset)) = none
      ∧ (pendingAt 2).engine.state = .stopped ∧ (pendingAt 2).plan = none := by decide +kernel

/-! ### READ_HUB and lines -/

/-- Premises of `ReadHubReportsAndClears`, with the flags 0, 1 and 2; identity, revision, cause and state as after reset
(R171). -/
theorem test_read_hub :
    (asking 0x41 [1] .reset).takenRequest 0 .readHub = some { tag := 9, code := 0x41, fields := [1] }
      ∧ [[], [2]].map (answerTo (.readHub 0) 0x41 .reset) = [some (.badField, []), some (.badField, [])]
      ∧ ([[0], [1]].map fun f => (answerTo (.readHub 0) 0x41 .reset f).map fun x => (x.1, x.2.take 12))
          = [some (.ok, [0x16, 0x4D, 1, 0, 0, 0, 0, 0, 0, 0, 1, 0]),
             some (.ok, [0x16, 0x4D, 1, 0, 0, 0, 0, 0, 0, 0, 1, 0])] := by decide +kernel

def onLine (holder : Option SessionId) (owner : SessionId) : State :=
  holding 0 (.active owner) (solid 15 0 1) (State.reset.setLine 15 { holder := holder, idle := .low, gap := 7 })

/-- Premises of `ClaimLineTakesTheLine`: line 16, a line held by another, an entry of another, changed values over an entry
of one's own, the same values over it, and changed values on an empty line. -/
theorem test_claim_line_cases :
    (asking 0x20 [15, 0, 7, 0] .reset).takenRequest 0 .claimLine
        = some { tag := 9, code := 0x20, fields := [15, 0, 7, 0] }
      ∧ answerTo (.claimLine 0) 0x20 .reset [16, 0, 0, 0] = some (.badField, [])
      ∧ answerTo (.claimLine 0) 0x20 .reset [15, 2, 0, 0] = some (.badField, [])
      ∧ answerTo (.claimLine 0) 0x20 (onLine (some other) other) [15, 0, 7, 0] = some (.lineHeld, [])
      ∧ answerTo (.claimLine 0) 0x20 (onLine none other) [15, 0, 7, 0] = some (.lineBusy, [])
      ∧ answerTo (.claimLine 0) 0x20 (onLine none me) [15, 0, 8, 0] = some (.lineBusy, [])
      ∧ answerTo (.claimLine 0) 0x20 (onLine none me) [15, 0, 7, 0] = some (.ok, [])
      ∧ answerTo (.claimLine 0) 0x20 .reset [15, 1, 0xFF, 0xFF] = some (.ok, [])
      ∧ (after (.claimLine 0) (asking 0x20 [15, 1, 0, 0] .reset)).driven.get 15 = .high := by decide +kernel

/-- Premises of `LinesAreReleasedAndReported`: by the holder, by another, past the last line. -/
theorem test_release_and_line_info :
    (asking 0x21 [15] .reset).takenRequest 0 .releaseLine = some { tag := 9, code := 0x21, fields := [15] }
      ∧ (asking 0x22 [15] .reset).takenRequest 0 .lineInfo = some { tag := 9, code := 0x22, fields := [15] }
      ∧ [[15], [16], []].map (answerTo (.releaseLine 0) 0x21 (onLine (some me) me))
          = [some (.ok, []), some (.badField, []), some (.badField, [])]
      ∧ answerTo (.releaseLine 0) 0x21 (onLine none me) [15] = some (.notOwner, [])
      ∧ [[15], [16]].map (answerTo (.lineInfo 0) 0x22 (onLine (some me) me))
          = [some (.ok, [1, 0, 1, 0, 7, 0, 0, 1]), some (.badField, [])] := by decide +kernel

/-! ### The cycle engine -/

def engineWith (number : Option CycleNumber) (restart : Bool) : CycleEngine :=
  { CycleEngine.afterReset false with number := number, restart := restart }

/-- The clauses of `CyclesAreNumbered` at their ends: the first cycle, no restart, and restarts (R63, 3.12). -/
theorem test_numbering :
    (engineWith none true).nextNumber = 0 ∧ (engineWith (some 0xFFFFFFFF) false).nextNumber = 0
      ∧ (engineWith (some 10) true).nextNumber = 16 ∧ (engineWith (some 16) true).nextNumber = 24
      ∧ (engineWith (some 4294967287) true).nextNumber = 4294967288
      ∧ (engineWith (some 4294967288) true).nextNumber = 0 := by decide

/-- Premises of `EpochBoundaryAndStopFreeTheRetiring`: an entry in each state; and what becomes of them (R15, R16). -/
theorem test_epoch_boundary_and_stop :
    ([0, 45, 46, 47] : List EntryIx).map (fun e => (fourEntries.entry e).state)
        = [.free, .pending me, .active me, .retiring me .withdrawn]
      ∧ ([45, 46, 47] : List EntryIx).map (fun e => ((fourEntries.epochProcessing 16).entry e).state)
          = [.active me, .active me, .free]
      ∧ ([45, 46, 47] : List EntryIx).map (fun e => (fourEntries.enterStopped.entry e).state)
          = [.pending me, .active me, .free]
      ∧ ((attached 0 false fourEntries).epochProcessing 16 |>.queue 0).records.map (fun n => n.body)
          = [.activated { index := 45, generation := 0 } 0 16,
             .retired { index := 47, generation := 0 } 0 .withdrawn (some 16)] := by decide +kernel

/-- The three entries of 4.13, before cycle 40. -/
def twoLines : State :=
  holding 2 (.active other) { solid 5 1000 400 with gate := some { input := 2, level := .high }, notify := true }
    (holding 7 (.active other) { solid 5 1400 200 with notify := true }
      (holding 9 (.active me)
        { solid 8 1200 600 with
          kind := .burst { highTime := 60, lowTime := 30, count := some 10 }, notify := true }
        { State.reset with
          engine := { CycleEngine.afterReset false with state := .waiting, number := some 39, restart := false } }))

/-- The plan of cycle 40 in plan order (R80, 4.13), and that of a cycle with a window at start 0; their indices 0 and not
0 are the two cases of `CycleStartPlansTheCycle`. -/
theorem test_cycle_start_plans :
    twoLines.cycleStart.plan
        = some
            [{ entry := 2, state := .scheduled }, { entry := 9, state := .scheduled }, { entry := 7, state := .scheduled }]
      ∧ twoLines.engine.nextNumber.toNat % 8 = 0
      ∧ (engineIn .waiting (holding 3 (.active me) (solid 0 0 5) .reset)).cycleStart.plan
          = some [{ entry := 3, state := .opened true none }]
      ∧ (engineIn .waiting (holding 3 (.active me) (solid 0 0 5) .reset)).engine.nextNumber.toNat % 8 ≠ 0 := by
  decide +kernel

/-- What a boundary's cycle start leaves to the port of the session (R62, R153): the ENGINE notice, the ACTIVATED and RETIRED
notices, then the FIRE notice of the window with start 0, whose fire count is 1. -/
theorem test_cycle_start_notices :
    let s := attached 0 true
      (holding 3 (.pending me) { solid 0 0 5 with notify := true }
        (holding 4 (.retiring me .replaced) (solid 1 0 5)
          { State.reset with engine := { CycleEngine.afterReset false with state := .waiting } }))
    (s.cycleStart.queue 0).records.map (fun n => n.body)
        = [.engine .running 0, .activated { index := 3, generation := 0 } 0 0,
           .retired { index := 4, generation := 0 } 0 .replaced (some 0),
           .fire { index := 3, generation := 0 } 0 0 0 0 0 true]
      ∧ (s.cycleStart.entry 3).fireCount = 1 ∧ s.cycleStart.driven.get 0 = .high := by decide +kernel

/-- Premises of `RunAndHaltActOnTheVotes`: the first vote in STOPPED (INH released and asserted, the spacing COUNTING) and in
HALTING, a further vote, the last vote cleared and not the last. The reply is the engine state after (R77, R78). -/
theorem test_run_and_halt :
    (asking 0x30 [] .reset).takenRequest 0 .run = some { tag := 9, code := 0x30, fields := [] }
      ∧ (asking 0x31 [] .reset).takenRequest 0 .halt = some { tag := 9, code := 0x31, fields := [] }
      ∧ ((asking 0x30 [] .reset).session 0).attachment.isSome = true
      ∧ (asking 0x30 [] .reset).anyVote = false ∧ (asking 0x30 [] (attached 1 true .reset)).anyVote = true
      ∧ answerTo (.run 0) 0x30 .reset [] = some (.ok, [2])
      ∧ answerTo (.run 0) 0x30 (after .inhAsserted .reset) [] = some (.ok, [4])
      ∧ answerTo (.run 0) 0x30 { State.reset with
            engine := { CycleEngine.afterReset false with spacing := .counting, timer := some 1 } } [] = some (.ok, [1])
      ∧ answerTo (.run 0) 0x30 (engineIn .halting .reset) [] = some (.ok, [2])
      ∧ said (after (.halt 0) (waiting 0 0x31 [] (attached 0 true (engineIn .running .reset)))) = some (.ok, [3])
      ∧ said (after (.halt 0) (waiting 0 0x31 [] (attached 0 true (attached 1 true (engineIn .running .reset)))))
          = some (.ok, [2]) := by decide +kernel

theorem test_last_vote :
    (attached 0 true .reset).lastVoteAt 0 ∧ ¬ (attached 0 true (attached 3 true .reset)).lastVoteAt 0 := by
  unfold State.lastVoteAt
  decide +kernel

/-- The last vote cleared by a session's end in WAITING, HELD and RUNNING (R60): the entries, and what another port hears. -/
theorem test_last_vote_at_a_session_end :
    let s := fun x => attached 0 true (attached 1 false
      (holding 7 (.retiring other .withdrawn) (solid 2 0 5) (engineIn x .reset)))
    let heard := fun x => (((s x).endSession 0 true).queue 1).records.map fun n => n.body
    let freed : List NoticeBody := [.engine .stopped 10, .retired { index := 7, generation := 0 } 0 .withdrawn none]
    heard .waiting = freed ∧ heard .held = freed ∧ heard .running = [.engine .halting 10]
      ∧ (((s .held).endSession 0 true).entry 7).state = .free
      ∧ (((s .running).endSession 0 true).entry 7).state = .retiring other .withdrawn := by decide +kernel

/-- The cycle timer has reached a span of 100. -/
def atSpan (x : EngineState) (mode : StartMode) : State :=
  { State.reset with
    hub := { hubOf 100 0 with startMode := mode }
    engine :=
      { CycleEngine.afterReset false with
        state := x, number := some 10, restart := false, timer := some 100, span := 100, spacing := .counting }
    plan := if x.inProgress then some [] else none }

/-- Premises of `CycleAndSpacingEnd`, and the state after each end (R64 to R66). -/
theorem test_cycle_and_spacing_end :
    (atSpan .running .internal).cycleEndDue = true ∧ (atSpan .waiting .internal).spacingEndDue = true
      ∧ (after .cycleEnd (atSpan .running .internal)).engine.number = some 11
      ∧ (after .cycleEnd (atSpan .running .external)).engine.state = .waiting
      ∧ (after .cycleEnd (atSpan .halting .internal)).engine.state = .stopped
      ∧ (after .spacingEnd (atSpan .waiting .internal)).engine.state = .running
      ∧ (after .spacingEnd (atSpan .waiting .external)).engine.spacing = .clear
      ∧ (after .spacingEnd (atSpan .held .internal)).engine.state = .held := by decide +kernel

/-- Premises of `InhibitCutsAndResumes`: INH in each engine state (R70 to R72). -/
theorem test_inhibit :
    [EngineState.running, .waiting, .halting, .stopped, .held].map
        (fun x => (after .inhAsserted (atSpan x .internal)).engine.state)
      = [.held, .held, .stopped, .stopped, .held]
      ∧ (atSpan .running .internal).hold = none ∧ (atSpan .running .internal).engine.inhAsserted = false
      ∧ (after .inhReleased (after .inhAsserted (engineIn .waiting .reset))).engine.state = .running
      ∧ (after .inhReleased (after .inhAsserted (atSpan .waiting .internal))).engine.state = .waiting
      ∧ (after .inhReleased (after .inhAsserted (atSpan .waiting .external))).engine.state = .waiting
      ∧ (after .inhReleased (after .inhAsserted .reset)).engine.state = .stopped := by decide +kernel

/-! ### Inputs -/

def input3 (c : InputChannel) (width : Nat) : State :=
  { State.reset.setInput 3 c with hub := { HubRecord.afterReset with widths := .fill 8 width } }

/-- Premises of `InputsAreFiltered`: width 0, a stopped and a counting timer; a timer at the width and one tick below
(R118, R119, 6.8). -/
theorem test_inputs :
    (after (.rawChange 3) (input3 (.afterReset .low) 0)).input 3 = { raw := .high, filtered := .high, timer := none }
      ∧ (after (.rawChange 3) (input3 (.afterReset .low) 4)).input 3 = { raw := .high, filtered := .low, timer := some 0 }
      ∧ (after (.rawChange 3) (input3 { raw := .high, filtered := .low, timer := some 2 } 4)).input 3 = .afterReset .low
      ∧ (after (.qualification 3) (input3 { raw := .high, filtered := .low, timer := some 4 } 4)).input 3
          = .afterReset .high
      ∧ (after (.qualification 3) (input3 { raw := .high, filtered := .low, timer := some 3 } 4)).input 3
          = { raw := .high, filtered := .low, timer := some 3 } := by decide +kernel

/-- A start line 3 with edge RISING in EXTERNAL mode; a rise on it qualifies. -/
def startingOn3 (mode : StartMode) (x : EngineState) (spacing : Spacing) : State :=
  { State.reset with
    hub := { HubRecord.afterReset with startMode := mode, startLine := 3 }
    engine := { CycleEngine.afterReset false with state := x, number := some 39, restart := false, spacing := spacing } }

/-- Premises of `EdgesReachGatesAndTheEngine` at the engine: a start, an early edge in WAITING and in RUNNING, and the cases
where the edge is ignored (R67, R68). -/
theorem test_qualifying_edges :
    (startingOn3 .external .waiting .clear).qualifyingEdge.engine.number = some 40
      ∧ (startingOn3 .external .waiting .counting).qualifyingEdge.engine.earlyEdges = 1
      ∧ (startingOn3 .external .running .counting).qualifyingEdge.engine.earlyEdges = 1
      ∧ (startingOn3 .external .held .clear).qualifyingEdge.engine.earlyEdges = 0
      ∧ (startingOn3 .internal .running .counting).qualifyingEdge.engine.earlyEdges = 0
      ∧ ((startingOn3 .external .waiting .clear).setInput 3 (.afterReset .high)).edgeQualifies 3 .high = true
      ∧ (startingOn3 .external .waiting .clear).edgeQualifies 2 .high = false := by decide +kernel

/-! ### Windows and burst engines: a cycle in progress -/

/-- A cycle in progress at offset 50, with port 0's session its only voter: entry 0 is an OPEN SOLID window whose gate is
closed, entry 1 an OPEN BURST window with engine 0 in HIGH at its high time, entry 2 a SCHEDULED window. -/
def inMotion : State :=
  let table :=
    holding 0 (.active me)
      { solid 3 10 90 with rail := some .a, draw := 4, gate := some { input := 2, level := .high }, notify := true }
      (holding 1 (.active me)
        { solid 4 20 180 with
          kind := .burst { highTime := 30, lowTime := 20, count := some 1 }, rail := some .a, draw := 6, notify := true }
        (holding 2 (.active me) (solid 5 60 20) (attached 0 true .reset)))
  { table with
    hub := { HubRecord.afterReset with capacityA := 10 }
    peaks := { a := 10, b := 0 }
    engine :=
      { CycleEngine.afterReset false with
        state := .running, number := some 8, restart := false, timer := some 50, spacing := .counting }
    plan := some
      [{ entry := 0, state := .opened false none }, { entry := 1, state := .opened true (some 0) },
       { entry := 2, state := .scheduled }]
    holding := (Table.fill 16 none).set 3 (some 0) |>.set 4 (some 1)
    driven := (Table.fill 16 .low).set 4 .high
    bursts := (Table.fill 2 .idle).set 0
      (.busy
        { phase := .high 30, window := 1, part := { highTime := 30, lowTime := 20, count := some 1 }, line := 4,
          idle := .low, gate := none, pulses := 0, closures := 0 })
    inputs := Table.fill 8 (.afterReset .low) }

def atOffset (n : Nat) (s : State) : State := { s with engine := { s.engine with timer := some n } }

/-- The remaining premises of `EdgesReachGatesAndTheEngine`: distinct planned windows, an OPEN one gated on IN2, and its
flag after IN2 has risen (R86). -/
theorem test_gate_edges :
    (inMotion.planList.map fun w => w.entry).Nodup
      ∧ { entry := 0, state := .opened false none } ∈ inMotion.planList
      ∧ (inMotion.entry 0).descriptor.gate = some { input := 2, level := .high }
      ∧ ((inMotion.setInput 2 (.afterReset .high)).gateEdge 2).windowState 0 = some (.opened true none)
      ∧ ((inMotion.setInput 2 (.afterReset .high)).gateEdge 2).driven.get 3 = .high
      ∧ State.reset.plan = none := by decide +kernel

/-- A gate on a BURST window, whose engine is in HIGH: the falling edge of IN5 moves it to GATE_WAIT, idle, uncounted but
for the closure; and a closed gate that opens again (R86, R108, R110). -/
theorem test_gate_of_a_burst_window :
    let gated := inMotion.setEntry 1
      { inMotion.entry 1 with
        descriptor := { (inMotion.entry 1).descriptor with gate := some { input := 5, level := .low } } }
    let closed := (gated.setInput 5 (.afterReset .high)).gateEdge 5
    let reopened := (closed.setInput 5 (.afterReset .low)).gateEdge 5
    closed.windowState 1 = some (.opened false (some 0)) ∧ closed.driven.get 4 = .low
      ∧ (closed.burst 0).job.map (fun j => (j.phase, j.closures, j.pulses)) = some (.gateWait, 1, 0)
      ∧ reopened.driven.get 4 = .high
      ∧ (reopened.burst 0).job.map (fun j => (j.phase, j.closures, j.pulses)) = some (.high 0, 1, 0)
      ∧ gated.openEntries.Pairwise fun e g => (gated.entry e).descriptor.line ≠ (gated.entry g).descriptor.line := by
  decide +kernel

/-- Premises of `WindowsStart`: a SOLID window, and BURST windows that take engine 0 and, with it busy, engine 1. -/
theorem test_window_starts :
    (inMotion.entry 2).descriptor.kind = .solid ∧ (inMotion.startWindow 2).driven.get 5 = .high
      ∧ (inMotion.startWindow 0).driven.get 3 = .low
      ∧ (State.reset.burst 0 = .idle)
      ∧ (inMotion.entry 1).descriptor.kind = .burst { highTime := 30, lowTime := 20, count := some 1 }
      ∧ inMotion.burst 1 = .idle ∧ inMotion.burst 0 ≠ .idle
      ∧ (inMotion.startWindow 1).windowState 1 = some (.opened true (some 1)) := by decide +kernel

/-- Premises of `WindowsEndAndAreCut`, and the notices (R92, R112): the SOLID window 0 and the BURST window 1, ended and cut
at offset 50. -/
theorem test_window_ends_and_cuts :
    inMotion.windowState 0 = some (.opened false none) ∧ inMotion.windowState 1 = some (.opened true (some 0))
      ∧ (inMotion.burst 0).job.isSome = true
      ∧ ((inMotion.endWindow 1).queue 0).records.map (fun n => n.body)
          = [.tally { index := 1, generation := 0 } 0 8 0 0 0 false]
      ∧ ((inMotion.endWindow 0).queue 0).records = []
      ∧ ((inMotion.cutCycle 50).queue 0).records.map (fun n => n.body)
          = [.cut { index := 0, generation := 0 } 0 8 40 0, .cut { index := 1, generation := 0 } 0 8 30 0] := by
  decide +kernel

/-- Premises of `BoundaryEventEndsThenStarts`: a start at 60 and an end at 100. -/
theorem test_boundary_events :
    (atOffset 60 inMotion).boundaryDue = true ∧ (atOffset 100 inMotion).boundaryDue = true
      ∧ inMotion.boundaryDue = false
      ∧ (after .windowBoundaryEvent (atOffset 60 inMotion)).windowState 2 = some (.opened true none)
      ∧ (after .windowBoundaryEvent (atOffset 100 inMotion)).windowState 0 = some .closed
      ∧ (after .windowBoundaryEvent (atOffset 100 inMotion)).windowState 1 = some (.opened true (some 0)) := by
  decide +kernel

/-- Two windows on line 3 and two BURST windows on line 4 that meet at offset 60 (R89): the line and the engine pass over, and
the TALLY notice comes before the FIRE notices. -/
theorem test_windows_that_meet :
    let s := attached 0 true
      (holding 0 (.active me) (solid 3 10 50)
        (holding 1 (.active me)
          { solid 4 20 40 with kind := .burst { highTime := 5, lowTime := 5, count := none }, notify := true }
          (holding 2 (.active me) { solid 3 60 20 with notify := true }
            (holding 3 (.active me)
              { solid 4 60 20 with kind := .burst { highTime := 5, lowTime := 5, count := none }, notify := true }
              (atOffset 60 inMotion)))))
    let t := after .windowBoundaryEvent
      { s with
        plan := some
          [{ entry := 0, state := .opened true none }, { entry := 1, state := .opened true (some 0) },
           { entry := 2, state := .scheduled }, { entry := 3, state := .scheduled }] }
    t.holding.get 3 = some 2 ∧ t.driven.get 3 = .high ∧ t.holding.get 4 = some 3 ∧ t.driven.get 4 = .high
      ∧ t.windowState 3 = some (.opened true (some 0)) ∧ (t.burst 0).job.map (fun j => j.window) = some 3
      ∧ (t.queue 0).records.map (fun n => noticeKindByte n.body) = [2, 1, 1] := by decide +kernel

/-- The offset of an event of INH or of an edge (R91, R74): the count, and one less where a window boundary event or the cycle
end at the count is still to be taken; with the CUT notices of `inMotion` before the ENGINE notice, and at a HALTING cut
the ENGINE notice of STOPPED. -/
theorem test_cut_offsets :
    inMotion.eventOffset = 50 ∧ (atOffset 60 inMotion).eventOffset = 59 ∧ (atOffset 100 inMotion).eventOffset = 99
      ∧ (atOffset 20000 inMotion).eventOffset = 19999
      ∧ ((after .inhAsserted (atOffset 60 inMotion)).queue 0).records.map (fun n => n.body)
          = [.cut { index := 0, generation := 0 } 0 8 49 0, .cut { index := 1, generation := 0 } 0 8 39 0,
             .engine .held 8]
      ∧ ((after .inhAsserted { inMotion with engine := { inMotion.engine with state := .halting } }).queue 0).records.map
            (fun n => noticeKindByte n.body) = [3, 3, 7] := by decide +kernel

/-- Premises of `BurstPhases`: a high time that leads to SPENT and one that leads to LOW, a low time with the gate open,
absent and closed, and one tick before each (R107, R109). -/
theorem test_burst_phases :
    let phaseAfter := fun (c : Instr) (s : State) => (after c s).burst 0 |>.job.map fun j => (j.phase, j.pulses)
    phaseAfter (.highTimeElapses 0) (withJob (.high 1) (some 1) none) = some (.spent, 1)
      ∧ phaseAfter (.highTimeElapses 0) (withJob (.high 1) (some 2) none) = some (.low 0, 1)
      ∧ phaseAfter (.highTimeElapses 0) (withJob (.high 0) (some 1) none) = some (.high 0, 0)
      ∧ phaseAfter (.lowTimeElapses 0) (withJob (.low 65535) none none) = some (.high 0, 0)
      ∧ phaseAfter (.lowTimeElapses 0) (withJob (.low 65535) none (some true)) = some (.high 0, 0)
      ∧ phaseAfter (.lowTimeElapses 0) (withJob (.low 65535) none (some false)) = some (.gateWait, 0)
      ∧ phaseAfter (.lowTimeElapses 0) (withJob (.low 65534) none none) = some (.low 65534, 0) := by decide +kernel

/-! ### Notices -/

def queueOf (n : Nat) (losses : BitVec 16) (moving : Bool) : NoticeQueue :=
  let r : Notice := { seq := 0, body := .expired 1 }
  { records := List.replicate n r, seq := 7, losses := losses, inTransfer := if moving then some r else none }

/-- Premises of `NoticesAreQueuedDroppedAndRemoved`: 31 and 32 records, a loss counter at its largest, and removals with
none in transfer, without and with losses (R154 to R156). -/
theorem test_notice_queues :
    ((queueOf 31 0 false).arrive (.expired 2)).records.length = 32
      ∧ ((queueOf 32 0 false).arrive (.expired 2)).losses = 1
      ∧ ((queueOf 32 65535 false).arrive (.expired 2)).losses = 65535
      ∧ (queueOf 32 0 false).removeTransferred = queueOf 32 0 false
      ∧ (queueOf 32 0 true).removeTransferred.records.length = 31
      ∧ (queueOf 32 3 true).removeTransferred.records.getLast? = some { seq := 7, body := .lost 3 }
      ∧ (queueOf 32 3 true).removeTransferred.seq = 8 := by decide +kernel

/-- Premises of `NoticesAreRouted`: an attached owner with the mask, an owner of an ended session, notify on and off. -/
theorem test_notice_routing :
    inMotion.attachedSession 0 = some me ∧ inMotion.maskHolds 0 .window = true ∧ inMotion.maskHolds 1 .window = false
      ∧ ((inMotion.windowNotice 1 (.expired 1)).queue 0).records.length = 1
      ∧ ((inMotion.windowNotice 2 (.expired 1)).queue 0).records.length = 0
      ∧ ((inMotion.ownerNotice (some { port := 0, number := 2 }) .window (.expired 1)).queue 0).records.length = 0 := by
  decide +kernel

/-! ### Frames -/

def submitting (n : Byte) (count : Nat) : Instr := .submit 0 ⟨0x51 :: n :: List.replicate count 1, true⟩

/-- Premises of `SubmitQueuesForACredit`: lengths of 1, 2, 40 and 41; a frame one byte short; no credit (R177). -/
theorem test_submit :
    ((after (submitting 1 1) .reset).link 0).miso = [0x04, 0, 0x02]
      ∧ ((after (submitting 41 41) .reset).link 0).requests = []
      ∧ ((after (submitting 2 2) .reset).link 0).miso = [0x04, 0, 0, 0]
      ∧ ((after (submitting 2 2) .reset).link 0).credits = 3
      ∧ ((after (submitting 40 40) .reset).link 0).requests.map (fun r => r.fields.length) = [38]
      ∧ ((after (submitting 40 39) .reset).link 0).malformed = 1
      ∧ ((after (submitting 2 3) (State.reset.setLink 0 { State.reset.link 0 with credits := 0 })).link 0).miso
          = [0x00, 0, 0, 0, 0x01] := by decide +kernel

/-- A SUBMIT gone on with: from a short one, from one that is answered; and a credit that returns between the fall of CSn and
the last payload byte, which the status byte does not show and the credit check does (R175, R177). -/
theorem test_submit_in_parts :
    SubmitShort [2, 7] ∧ ((after (.submit 0 ⟨[3, 0], true⟩) (inFrame (.submit [2, 7]) .reset)).link 0).credits = 3
      ∧ ((after (.submit 0 ⟨[0], true⟩) (inFrame (.answered 2) .reset)).link 0).miso = [2]
      ∧ ((after (.submit 0 ⟨[0x51, 2, 7, 3, 0], true⟩) (inFrame (.opened 0) .reset)).link 0).miso = [0, 0, 0, 0, 0]
      ∧ ((after (.submit 0 ⟨[], false⟩) .reset).link 0).frame = .opened 4 := by
  exact ⟨.inr ⟨2, [7], rfl, by decide, by decide, by decide⟩, by decide +kernel⟩

def withReply : State :=
  State.reset.setLink 0
    { State.reset.link 0 with replies := [{ tag := 5, code := 3, status := .ok, payload := [] }], credits := 3 }

/-- Premises of `CollectTakesTheOldestReply`: no reply, one byte short of the reply, the whole reply, and its last byte after
another event (R179). -/
theorem test_collect :
    (State.reset.link 0).replies = []
      ∧ ((after (.collect 0 4 true) withReply).link 0).replies.length = 1
      ∧ ((after (.collect 0 5 true) withReply).link 0).replies = []
      ∧ ((after (.collect 0 5 true) withReply).link 0).credits = 4
      ∧ ((after (.collect 0 6 true) withReply).link 0).miso = [0x43, 3, 5, 3, 0, 0]
      ∧ ((after (.collect 0 1 true) (inFrame (.collect [0]) withReply)).link 0).replies = [] := by decide +kernel

def withNotices (n : Nat) (losses : BitVec 16) : State := State.reset.setQueue 0 (queueOf n losses false)

/-- Premises of `FetchRemovesAtTheSixteenthByte`: an empty queue, 15 and 16 bytes of the head record, a LOST notice, and
15 and 16 bytes of the next position (R158, R159, 8.11). -/
theorem test_fetch :
    (State.reset.queue 0).records = []
      ∧ ((after (.fetch 0 17 true) (withNotices 2 0)).queue 0).records.length = 2
      ∧ ((after (.fetch 0 18 true) (withNotices 2 0)).queue 0).records.length = 1
      ∧ ((after (.fetch 0 18 true) (withNotices 32 1)).queue 0).records.getLast? = some { seq := 7, body := .lost 1 }
      ∧ ((after (.fetch 0 3 true) (withNotices 2 0)).link 0).miso = [0x24, 2, 8]
      ∧ ((after (.fetch 0 18 false) (withNotices 2 0)).link 0).frame = .fetch none []
      ∧ ((after (.fetch 0 15 true) (after (.fetch 0 18 false) (withNotices 2 0))).queue 0).records.length = 1
      ∧ ((after (.fetch 0 16 true) (after (.fetch 0 18 false) (withNotices 2 0))).queue 0).records.length = 0 := by
  decide +kernel

/-- Its last byte after another event: with the record still in transfer, and with the queue cleared meanwhile (R159). -/
theorem test_fetch_in_parts :
    let s := after (.fetch 0 17 false) (withNotices 2 0)
    (s.link 0).frame = .fetch none [0] ∧ (s.queue 0).inTransfer.isSome = true
      ∧ ((after (.fetch 0 1 true) s).queue 0).records.length = 1
      ∧ ((after (.fetch 0 1 true) (s.setQueue 0 (s.queue 0).cleared)).link 0).miso = (s.link 0).miso ++ [0]
      ∧ ((after (.fetch 0 1 true) (s.setQueue 0 ((s.queue 0).cleared.arrive (.expired 1)))).queue 0).records.length = 1
      ∧ ((after (.fetch 0 1 false) (inFrame (.fetch (some 2) []) .reset)).link 0).frame = .fetch none [] := by
  decide +kernel

/-- Premises of `StatusReadsThePortAndItsByte`, and the bytes of a STATUS, in one part and from its fourth byte on, whose
loss counter was taken before (R181). -/
theorem test_status :
    ((withNotices 32 0x0102).link 0).credits ≤ 4
      ∧ ((after (.status 0 6 true) (attached 0 false (withNotices 32 0x0102))).link 0).miso
          = [0xAC, 0xAC, 1, 0x02, 0x01, 0]
      ∧ ((after (.status 0 2 true) (inFrame (.status 3 0x0703) .reset)).link 0).miso = [7, 0] := by decide +kernel

/-- Premises of `MalformedAndSplitFrames`: no frame code, an unknown code, a SUBMIT cut short, an ABANDON without its byte,
frames that are not malformed; a frame malformed in parts; a port that ignores; a frame in two commands (R174 to R176). -/
theorem test_malformed_and_split :
    ([([], 1), ([0x50, 0], 0), ([0x51], 0), ([0x51, 3, 1, 1], 0), ([0x5A], 3), ([], 0), ([0x51, 2, 1, 1], 0), ([0x51, 41], 0),
        ([0x52], 0), ([0x53], 1), ([0x54], 0), ([0x5A, 0], 0)].map fun x : List Byte × Nat =>
          ((after (.malformedFrame 0 ⟨x.1, true⟩ x.2) .reset).link 0).malformed)
        = [1, 1, 1, 1, 1, 0, 0, 0, 0, 0, 0, 0]
      ∧ ([FrameState.unknown, .submit [2, 0], .abandon none].map fun f =>
          ((after (.malformedFrame 0 ⟨[], true⟩ 0) (inFrame f .reset)).link 0).malformed) = [1, 1, 1]
      ∧ ((State.afterRelease .pin 0 false 1 [] 0).link 0).frame = .ignoring
      ∧ (after (.collect 0 5 true) withReply) = after (.collect 0 3 true) (after (.collect 0 2 false) withReply)
      ∧ (after (.malformedFrame 0 ⟨[0x50, 1], true⟩ 2) .reset)
          = after (.malformedFrame 0 ⟨[1], true⟩ 2) (after (.malformedFrame 0 ⟨[0x50], false⟩ 0) .reset) := by
  decide +kernel

/-- ATTN0 with a reply, with a notice, with neither, and during a reset (R161, R172). -/
theorem test_attention :
    withReply.attnLevel 0 = .low ∧ (withNotices 1 0).attnLevel 0 = .low ∧ State.reset.attnLevel 0 = .high
      ∧ ({ withReply with hold := some .pin } : State).attnLevel 0 = .high := by decide +kernel

/-! ### Resets -/

/-- Premises of `ResetHoldsThePart` and `ResetReleaseSetsTheResetValues`: a held and a running part; the cause kept under
RSTN; the samples at the release. -/
theorem test_resets :
    inMotion.hold = none ∧ (after .rstnAsserted inMotion).hold = some .pin
      ∧ (after .rstnAsserted (after .powerOnReset inMotion)).hold = some .power
      ∧ (after .rstnAsserted inMotion).driven.get 4 = .low
      ∧ (after .rstnAsserted (input3 { raw := .high, filtered := .low, timer := some 2 } 9)).input 3
          = { raw := .high, filtered := .low, timer := none }
      ∧ (after .rstnAsserted (input3 (.afterReset .low) 9)).hub.widths.get 3 = 4
      ∧ after (.run 0) (after .rstnAsserted inMotion) = after .rstnAsserted inMotion
      ∧ (after (.resetRelease 0x80 true 8) (after .rstnAsserted inMotion))
          = State.afterRelease .pin 0x80 true 8 [] 0
      ∧ ((State.afterRelease .pin 0x80 true 8 [] 0).input 7).filtered = .high
      ∧ (State.afterRelease .pin 0x80 true 8 [] 0).engine.inhAsserted = true
      ∧ ((State.afterRelease .pin 0x80 true 8 [] 0).link 3).frame = .ignoring := by decide +kernel

/-! ### Invariants: `inMotion` meets every one of them, and a step of it answers -/

theorem test_credits_accounted : CreditsAccounted inMotion := ⟨by decide +kernel, by decide +kernel⟩

theorem test_queues_bounded : QueuesBounded inMotion := ⟨by decide +kernel, by decide +kernel, by decide +kernel⟩

theorem test_engine_follows_votes : EngineFollowsVotes inMotion :=
  ⟨by decide +kernel, by decide +kernel, by decide +kernel, by decide +kernel, by decide +kernel, by decide +kernel,
    by decide +kernel⟩

theorem test_in_motion_conflict_free :
    ConflictFree inMotion.hub inMotion.gapOf inMotion.nextEpochSet
      ∧ ConflictFree inMotion.hub inMotion.gapOf inMotion.firingSet := by
  rw [conflictFree_iff, conflictFree_iff]
  decide +kernel

theorem test_schedule_sound : ScheduleSound inMotion where
  nextEpoch := test_in_motion_conflict_free.1
  firing := test_in_motion_conflict_free.2
  ranges := by
    have h : ∀ e, (inMotion.entry e).state = .free ∨ e = 0 ∨ e = 1 ∨ e = 2 := by decide +kernel
    intro e he
    rcases h e with h | h | h | h
    · exact absurd h he
    all_goals
      subst h
      exact ⟨by decide +kernel, by decide +kernel, by decide +kernel, by decide +kernel, by decide +kernel,
        by decide +kernel, by decide +kernel, 
        by simp [inMotion, holding, solid, Descriptor.afterReset, State.entry, State.setEntry, Table.get_set]⟩
  stopped := by decide +kernel
  flight := by
    intro f hf
    cases hf

theorem test_lines_served : LinesServed inMotion where
  plan := by decide +kernel
  distinct := by decide +kernel
  inForce := by decide +kernel
  holder := by decide +kernel
  driven := by decide +kernel
  engine := by decide +kernel
  served := by decide +kernel
  flight := by
    intro f hf
    cases hf

/-- `LinesServed` asks nothing of the engine but that a cycle is in progress: so the premise stands also at the span, with
the engine HALTING, and at the offset of a start. -/
theorem test_lines_served_under (c : CycleEngine) (h : c.state.inProgress = true) :
    LinesServed { inMotion with engine := c } where
  plan := h.symm
  distinct := test_lines_served.distinct
  inForce := test_lines_served.inForce
  holder := test_lines_served.holder
  driven := test_lines_served.driven
  engine := test_lines_served.engine
  served := test_lines_served.served
  flight := by
    intro f hf
    cases hf

/-- Premises of `CycleAndSpacingEnd` with windows still OPEN at the span: they end with their TALLY before the ENGINE notice
of the stop, and no line stays held. -/
theorem test_cycle_end_of_open_windows :
    let s := { atOffset 20000 inMotion with engine := { (atOffset 20000 inMotion).engine with state := .halting } }
    s.cycleEndDue = true ∧ s.openEntries = [0, 1]
      ∧ ((after .cycleEnd s).queue 0).records.map (fun n => n.body)
          = [.tally { index := 1, generation := 0 } 0 8 0 0 0 false, .engine .stopped 8]
      ∧ (after .cycleEnd s).holding.get 4 = none ∧ (after .cycleEnd s).driven.get 4 = .low
      ∧ (after .cycleEnd s).burst 0 = .idle := by decide +kernel

/-- The premises of the last clause of `BoundaryEventEndsThenStarts` together: entry 2 starts at offset 60. -/
theorem test_boundary_event_in_the_invariants :
    ScheduleSound (atOffset 60 inMotion) ∧ LinesServed (atOffset 60 inMotion) ∧ WindowsTimed (atOffset 60 inMotion)
      ∧ (atOffset 60 inMotion).boundaryDue = true ∧ { entry := 2, state := .scheduled } ∈ (atOffset 60 inMotion).planList := by
  refine ⟨⟨test_schedule_sound.nextEpoch, test_schedule_sound.firing, test_schedule_sound.ranges,
    test_schedule_sound.stopped, test_schedule_sound.flight⟩, test_lines_served_under _ rfl, ?_, by decide +kernel,
    by decide +kernel⟩
  exact ⟨by decide +kernel, by decide +kernel, by decide +kernel, by decide +kernel, by decide +kernel, by decide +kernel⟩

theorem test_peaks_current : PeaksCurrent inMotion := ⟨by decide +kernel, by decide +kernel⟩

theorem test_windows_timed : WindowsTimed inMotion where
  fires := by decide +kernel
  scheduled := by decide +kernel
  opened := by decide +kernel
  together := by decide +kernel
  served := by decide +kernel
  timer := by decide +kernel

/-- The part with lines 3 to 5 claimed by port 0's session, and a claim pending for the ended session of port 1. -/
def claimed : State :=
  let claim := fun (l : LineIx) (s : State) => s.setLine l { holder := some me, idle := .low, gap := 0 }
  claim 3 (claim 4 (claim 5 { withClaim 1 inMotion with
    sessions := inMotion.sessions.set 1 { number := 1, attachment := none }, pending := [.cleanupClaim 1] }))

theorem test_claims_respected : ClaimsRespected claimed where
  owners := by decide +kernel
  flight := by
    intro f hf
    cases hf

theorem test_owners_accountable : OwnersAccountable claimed := by
  constructor
  · simp only [State.accountable]
    decide +kernel
  · simp only [State.accountable]
    decide +kernel
  · decide +kernel

theorem test_timers_bounded : TimersBounded inMotion where
  cycle := by decide +kernel
  burst := by
    have only : ∀ g, g = 0 ∨ (inMotion.burst g).job = none := by decide +kernel
    intro g j hj
    rcases only g with h | h
    · subst h
      cases hj
      decide
    · rw [h] at hj
      cases hj
  pendingChange := by decide +kernel
  input := by decide +kernel
  lease := by decide +kernel
  flight := by
    intro f hf
    cases hf

/-- Each state of the invariants' tests steps to a next state, here by the high time of engine 0. -/
theorem test_in_motion_steps :
    (∃ t, step inMotion = .next t) ∧ (∃ t, step claimed = .next t) ∧ inMotion.dueEvents = [.highTimeElapses 0] := by
  refine ⟨?_, ?_, by decide +kernel⟩
  · exact ⟨after (.highTimeElapses 0) inMotion, by rfl⟩
  · exact ⟨after (.cleanupClaim 1) { claimed with pending := [] }, by rfl⟩

end Sys2Proof.Tests
end

