-- ==== Sys2Proof/Proofs/ConflictSets.lean ====
section
/-! SUPPORT. The four conditions of a set: they bound every tick and not only the starts (R11, R12), they read the descriptors
of the members alone, and they hold of every part of a set of which they hold (R9 to R13). -/

namespace Sys2Proof.Machine

/-! ### Every tick of a window, not only starts (R11, R12) -/

theorem Descriptor.covers_iff {d : Descriptor} {t : Nat} : d.covers t = true ↔ d.start ≤ t ∧ t < d.stop := by
  simp [Descriptor.covers]

/-- Of two windows that cover a tick, the one that starts first covers the start of the other. -/
theorem Descriptor.covers_start {d e : Descriptor} {t : Nat} (hd : d.covers t = true) (he : e.covers t = true)
    (h : d.start ≤ e.start) : d.covers e.start = true := by
  rw [covers_iff] at *
  omega

/-- Of members that all cover one tick, if there are any, the one that starts last has its start covered by all. -/
theorem exists_start_covered {ms : List Member} {t : Nat} (h : ms ≠ []) (hc : ∀ m ∈ ms, m.d.covers t = true) :
    ∃ m ∈ ms, ∀ w ∈ ms, w.d.covers m.d.start = true := by
  obtain ⟨x, hx⟩ := List.exists_mem_of_ne_nil ms h
  obtain ⟨m, hm, hmax⟩ := ms.toFinset.exists_max_image (fun m => m.d.start) ⟨x, by simpa using hx⟩
  simp only [List.mem_toFinset] at hm hmax
  exact ⟨m, hm, fun w hw => Descriptor.covers_start (hc w hw) (hc m hm) (hmax w hw)⟩

theorem mem_railMembers {ms : List Member} {rail : Rail} {k t : Nat} {m : Member} :
    m ∈ railMembers ms rail k t ↔
      m ∈ ms ∧ (m.d.rail = some rail ∧ m.d.fires k = true) ∧ m.d.covers t = true := by
  simp [railMembers]

theorem mem_burstMembers {ms : List Member} {k t : Nat} {m : Member} :
    m ∈ burstMembers ms k t ↔ m ∈ ms ∧ (m.d.isBurst = true ∧ m.d.fires k = true) ∧ m.d.covers t = true := by
  simp [burstMembers]

/-- A list that is filtered by a weaker test keeps what it kept. -/
theorem filter_sublist_filter {α : Type} {p q : α → Bool} {l : List α} (h : ∀ x ∈ l.filter p, q x = true) :
    (l.filter p).Sublist (l.filter q) := by
  have e : (l.filter p).filter q = l.filter p := List.filter_eq_self.2 h
  rw [← e]
  exact List.filter_sublist.filter q

/-- The draws of a part of a set sum to no more than those of the set. -/
theorem sum_draw_le_of_sublist {ms ns : List Member} (h : ms.Sublist ns) :
    (ms.map fun m => m.d.draw).sum ≤ (ns.map fun m => m.d.draw).sum :=
  (h.map _).sum_le_sum fun _ _ => Nat.zero_le _

/-- Condition (c) bounds the sum of draws at every tick (R11). -/
theorem ConditionC.railSum_le {capacity : Nat} {rail : Rail} {ms : List Member} (h : ConditionC capacity rail ms) {k : Nat}
    (hk : k < 8) (t : Nat) : railSum ms rail k t ≤ capacity := by
  by_cases hn : railMembers ms rail k t = []
  · simp [railSum, hn]
  · obtain ⟨m, hm, hall⟩ := exists_start_covered hn fun m hm => (mem_railMembers.1 hm).2.2
    obtain ⟨hms, ⟨hr, hf⟩, -⟩ := mem_railMembers.1 hm
    have part : (railMembers ms rail k t).Sublist (railMembers ms rail k m.d.start) :=
      filter_sublist_filter fun w hw => by
        obtain ⟨-, ⟨hr', hf'⟩, -⟩ := mem_railMembers.1 hw
        simp [hr', hf', hall w hw]
    exact (sum_draw_le_of_sublist part).trans (h k hk m hms hr hf)

/-- Condition (d) bounds the number of BURST windows at every tick (R12). -/
theorem ConditionD.length_le {ms : List Member} (h : ConditionD ms) {k : Nat} (hk : k < 8) (t : Nat) :
    (burstMembers ms k t).length ≤ 2 := by
  by_cases hn : burstMembers ms k t = []
  · simp [hn]
  · obtain ⟨m, hm, hall⟩ := exists_start_covered hn fun m hm => (mem_burstMembers.1 hm).2.2
    obtain ⟨hms, ⟨hb, hf⟩, -⟩ := mem_burstMembers.1 hm
    have part : (burstMembers ms k t).Sublist (burstMembers ms k m.d.start) :=
      filter_sublist_filter fun w hw => by
        obtain ⟨-, ⟨hb', hf'⟩, -⟩ := mem_burstMembers.1 hw
        simp [hb', hf', hall w hw]
    exact part.length_le.trans (h k hk m hms hb hf)

/-! ### The peak load and a candidate (R54, R55) -/

theorem foldl_max_le {l : List Nat} {a c : Nat} : l.foldl max a ≤ c ↔ a ≤ c ∧ ∀ x ∈ l, x ≤ c := by
  induction l generalizing a with
  | nil => simp
  | cons x xs ih => simp [ih, and_assoc]

/-- Condition (c) holds exactly when the capacity is at least the peak load (R55). -/
theorem conditionC_iff_railPeak_le {capacity : Nat} {rail : Rail} {ms : List Member} :
    ConditionC capacity rail ms ↔ railPeak ms rail ≤ capacity := by
  simp only [ConditionC, railPeak, foldl_max_le, Nat.zero_le, true_and, List.mem_flatMap, mem_superIndices, railStarts,
    List.mem_map, List.mem_filter, Bool.and_eq_true, decide_eq_true_eq]
  constructor
  · rintro h x ⟨k, hk, t, ⟨m, ⟨hm, hr, hf⟩, rfl⟩, rfl⟩
    exact h k hk m hm hr hf
  · intro h k hk m hm hr hf
    exact h _ ⟨k, hk, _, ⟨m, ⟨hm, hr, hf⟩, rfl⟩, rfl⟩

/-- A candidate adds at most its draw to a sum. -/
theorem railSum_append_candidate_le (ms : List Member) (d : Descriptor) (rail : Rail) (k t : Nat) :
    railSum (ms ++ [candidate d]) rail k t ≤ railSum ms rail k t + d.draw := by
  have part : (railMembers (ms ++ [candidate d]) rail k t).Sublist (railMembers ms rail k t ++ [candidate d]) := by
    rw [railMembers, List.filter_append]
    exact (List.Sublist.refl _).append List.filter_sublist
  calc railSum (ms ++ [candidate d]) rail k t
      ≤ ((railMembers ms rail k t ++ [candidate d]).map fun m => m.d.draw).sum := sum_draw_le_of_sublist part
    _ = railSum ms rail k t + d.draw := by simp [railSum, candidate]

/-- A candidate whose draw the peak load leaves room for keeps condition (c) (R55). -/
theorem conditionC_append_candidate {capacity : Nat} {rail : Rail} {ms : List Member} {d : Descriptor}
    (h : railPeak ms rail + d.draw ≤ capacity) : ConditionC capacity rail (ms ++ [candidate d]) := by
  intro k hk m _ _ _
  have peak : ConditionC (railPeak ms rail) rail ms := conditionC_iff_railPeak_le.2 le_rfl
  calc railSum (ms ++ [candidate d]) rail k m.d.start
      ≤ railSum ms rail k m.d.start + d.draw := railSum_append_candidate_le ..
    _ ≤ railPeak ms rail + d.draw := Nat.add_le_add_right (peak.railSum_le hk _) _
    _ ≤ capacity := h

/-- Settles O19: of the windows that cover a tick the last to start has its start covered by all of them. -/
theorem conditionsHoldAtEveryTickAndPeaksBoundThem : Obligations.ConditionsHoldAtEveryTickAndPeaksBoundThem :=
  ⟨fun _ _ t hk => ⟨fun _ _ h => h.railSum_le hk t, fun h => h.length_le hk t⟩,
    fun _ _ _ => ⟨conditionC_iff_railPeak_le, fun _ => conditionC_append_candidate⟩⟩

/-! ### A part of a set -/

theorem Descriptor.Apart.symm {gap : Nat} {d e : Descriptor} (h : Descriptor.Apart gap d e) : Descriptor.Apart gap e d :=
  ⟨fun k => h.1 k.symm, h.2.2, h.2.1⟩

theorem railSum_eq (ms : List Member) (rail : Rail) (k t : Nat) :
    railSum ms rail k t =
      (((ms.map Member.d).filter fun d => decide (d.rail = some rail) && d.fires k && d.covers t).map
        Descriptor.draw).sum := by
  simp [railSum, railMembers, List.filter_map, Function.comp_def]

theorem length_burstMembers (ms : List Member) (k t : Nat) :
    (burstMembers ms k t).length =
      ((ms.map Member.d).filter fun d => d.isBurst && d.fires k && d.covers t).length := by
  simp [burstMembers, List.filter_map, Function.comp_def]

/-- A part of a list in another order sums to no more. -/
theorem sum_le_of_subperm {l l' : List Nat} (h : l.Subperm l') : l.sum ≤ l'.sum := by
  obtain ⟨m, hp, hs⟩ := h
  rw [← hp.sum_eq]
  exact hs.sum_le_sum fun _ _ => Nat.zero_le _

theorem subperm_map {α β : Type} {l l' : List α} (f : α → β) (h : l.Subperm l') : (l.map f).Subperm (l'.map f) := by
  obtain ⟨m, hp, hs⟩ := h
  exact ⟨m.map f, hp.map f, hs.map f⟩

variable {gapOf : LineIx → Nat} {cycleLength capacity : Nat} {rail : Rail} {ms ns : List Member}

section
variable (h : (ms.map Member.d).Subperm (ns.map Member.d))
include h

/-- A member of a part has its descriptor in the whole. -/
theorem exists_member_of_subperm {m : Member} (hm : m ∈ ms) : ∃ n ∈ ns, n.d = m.d := by
  simpa using h.subset (List.mem_map_of_mem hm)

theorem ConditionA.of_subperm (hn : ConditionA gapOf ns) : ConditionA gapOf ms := by
  intro k hk
  have on_descriptors : ∀ l : List Member,
      (l.Pairwise fun m w =>
        m.d.line = w.d.line → m.d.fires k = true → w.d.fires k = true → Descriptor.Apart (gapOf m.d.line) m.d w.d) ↔
      (l.map Member.d).Pairwise fun d e =>
        d.line = e.line → d.fires k = true → e.fires k = true → Descriptor.Apart (gapOf d.line) d e :=
    fun l => by rw [List.pairwise_map]
  have := (on_descriptors ns).1 (hn k hk)
  rw [on_descriptors]
  obtain ⟨l, hp, hs⟩ := h
  refine (hp.pairwise_iff ?_).1 (this.sublist hs)
  intro d e hde hl he hd
  rw [hl]
  exact (hde hl.symm hd he).symm

theorem ConditionB.of_subperm (hn : ConditionB gapOf cycleLength ns) : ConditionB gapOf cycleLength ms := by
  intro k hk m hm w hw
  obtain ⟨m', hm', em⟩ := exists_member_of_subperm h hm
  obtain ⟨w', hw', ew⟩ := exists_member_of_subperm h hw
  rw [← em, ← ew]
  exact hn k hk m' hm' w' hw'

theorem ConditionC.of_subperm (hn : ConditionC capacity rail ns) : ConditionC capacity rail ms := by
  intro k hk m _ _ _
  refine le_trans ?_ (hn.railSum_le hk m.d.start)
  rw [railSum_eq, railSum_eq]
  exact sum_le_of_subperm (subperm_map _ (h.filter _))

theorem ConditionD.of_subperm (hn : ConditionD ns) : ConditionD ms := by
  intro k hk m _ _ _
  refine le_trans ?_ (hn.length_le hk m.d.start)
  rw [length_burstMembers, length_burstMembers]
  exact (h.filter _).length_le

/-- A part of a conflict-free set is conflict-free, whatever the handles and the order. -/
theorem ConflictFree.of_subperm {hub : HubRecord} (hn : ConflictFree hub gapOf ns) : ConflictFree hub gapOf ms :=
  ⟨.of_subperm h hn.a, .of_subperm h hn.b, .of_subperm h hn.railA, .of_subperm h hn.railB, .of_subperm h hn.d⟩

end

/-- A set is judged by the recovery gaps of its members' lines alone. -/
theorem ConflictFree.of_gaps {hub : HubRecord} {gapOf' : LineIx → Nat} (h : ConflictFree hub gapOf ms)
    (hg : ∀ m ∈ ms, gapOf' m.d.line = gapOf m.d.line) : ConflictFree hub gapOf' ms where
  a k hk := (h.a k hk).imp_of_mem fun {m w} hm _ hmw => by rw [hg m hm]; exact hmw
  b k hk m hm w hw := by rw [hg m hm]; exact h.b k hk m hm w hw
  railA := h.railA
  railB := h.railB
  d := h.d

/-- Of the hub record, a set is judged by the cycle length and the capacities. -/
theorem ConflictFree.of_hub {hub hub' : HubRecord} (h : ConflictFree hub gapOf ms) (hl : hub'.cycleLength = hub.cycleLength)
    (ha : hub'.capacityA = hub.capacityA) (hb : hub'.capacityB = hub.capacityB) : ConflictFree hub' gapOf ms where
  a := h.a
  b := by rw [hl]; exact h.b
  railA := by rw [ha]; exact h.railA
  railB := by rw [hb]; exact h.railB
  d := h.d

end Sys2Proof.Machine
end

