-- ==== Sys2Proof/Proofs/EntriesInOrder.lean ====
section
/-! SUPPORT. The entries rewritten in ascending order: what epoch processing, the entry into STOPPED and a cleanup claim make of
each entry, and the notices each port receives from them (R15, R16, R20). -/

namespace Sys2Proof.Machine

/-! ### A table rewritten index by index -/

/-- What every step of a run relates, the run relates. -/
theorem foldl_related {σ α : Type} {R : σ → σ → Prop} {f : σ → α → σ} (refl : ∀ s, R s s)
    (trans : ∀ s t u, R s t → R t u → R s u) (h : ∀ s a, R s (f s a)) (as : List α) (s : σ) : R s (as.foldl f s) := by
  induction as generalizing s with
  | nil => exact refl s
  | cons a as ih => exact trans _ _ _ (h s a) (ih _)

/-- Records rewritten one index after another, by a rule that reads besides only what the rewriting keeps. -/
theorem Table.get_foldl {σ α γ : Type} {n : Nat} {g : σ → Fin n → σ} (table : σ → Table α n) (kept : σ → γ)
    (f : γ → α → α) (hset : ∀ s i, table (g s i) = (table s).set i (f (kept s) ((table s).get i)))
    (hkept : ∀ s i, kept (g s i) = kept s) {is : List (Fin n)} (nd : is.Nodup) (s : σ) (j : Fin n) :
    (table (is.foldl g s)).get j = if j ∈ is then f (kept s) ((table s).get j) else (table s).get j := by
  induction is generalizing s with
  | nil => simp
  | cons i is ih =>
    obtain ⟨hi, hnd⟩ := List.nodup_cons.1 nd
    rw [List.foldl_cons, ih hnd, hset, hkept, get_set]
    by_cases hj : j = i
    · subst hj
      simp [hi]
    · simp [hj]

theorem mem_allEntries (e : EntryIx) : e ∈ allEntries := List.mem_finRange e

theorem nodup_allEntries : allEntries.Nodup := List.nodup_finRange 48

theorem mem_allLines (l : LineIx) : l ∈ allLines := List.mem_finRange l

theorem nodup_allLines : allLines.Nodup := List.nodup_finRange 16

theorem mem_allPorts (p : Port) : p ∈ allPorts := List.mem_finRange p

theorem nodup_allPorts : allPorts.Nodup := List.nodup_finRange 4

/-- A search of the table in ascending order finds the lowest-numbered entry that passes the test. -/
theorem find_allEntries_eq_some {test : EntryIx → Bool} {e : EntryIx} :
    allEntries.find? test = some e ↔ test e = true ∧ ∀ f < e, test f = false := by
  rw [allEntries, List.find?_eq_some_iff_getElem]
  simp only [List.getElem_finRange, List.length_finRange, Fin.cast_mk, Bool.not_eq_true']
  constructor
  · rintro ⟨h, i, hi, rfl, hlt⟩
    exact ⟨h, fun f hf => hlt f.val hf⟩
  · rintro ⟨h, hlt⟩
    exact ⟨h, e.val, e.isLt, rfl, fun j hj => hlt ⟨j, by omega⟩ hj⟩

theorem find_allEntries_eq_none {test : EntryIx → Bool} :
    allEntries.find? test = none ↔ ∀ e, test e = false := by
  simp [mem_allEntries]

/-! ### What changes entries and notices only -/

/-- Only the reservation table and the notice queues may differ. -/
def TableOnly (s t : State) : Prop := t = { s with entries := t.entries, notices := t.notices }

namespace TableOnly

theorem rfl' (s : State) : TableOnly s s := rfl

theorem trans {s t u : State} (h : TableOnly s t) (k : TableOnly t u) : TableOnly s u := by
  unfold TableOnly at *
  rw [k, h]

theorem foldl {α : Type} {f : State → α → State} (h : ∀ s a, TableOnly s (f s a)) (as : List α) (s : State) :
    TableOnly s (as.foldl f s) := foldl_related rfl' (fun _ _ _ => trans) h as s

theorem of_notices {s t : State} (h : NoticesOnly s t) : TableOnly s t := by
  unfold NoticesOnly at h
  unfold TableOnly
  rw [h]

theorem setEntry (s : State) (e : EntryIx) (x : Entry) : TableOnly s (s.setEntry e x) := rfl

theorem engine {s t : State} (h : TableOnly s t) : t.engine = s.engine := by rw [h]

theorem sessions {s t : State} (h : TableOnly s t) : t.sessions = s.sessions := by rw [h]

end TableOnly

/-- What only the notices may differ in has the same entries. -/
theorem NoticesOnly.entries {s t : State} (h : NoticesOnly s t) : t.entries = s.entries := by rw [h]

theorem NoticesOnly.engine {s t : State} (h : NoticesOnly s t) : t.engine = s.engine := by rw [h]

theorem NoticesOnly.sessions {s t : State} (h : NoticesOnly s t) : t.sessions = s.sessions := by rw [h]

/-! ### Notices, port by port (R149, R150) -/

namespace State

variable (s : State)

theorem queue_queueNotice (p q : Port) (b : NoticeBody) :
    (s.queueNotice p b).queue q = if q = p then (s.queue q).arrive b else s.queue q := by
  by_cases h : q = p
  · subst h
    simp [queueNotice]
  · simp [queueNotice, queue_setQueue_ne, h]

/-- An owner notice arrives at the port whose attached session is the owner, when that session's mask holds its kind. -/
theorem queue_ownerNotice (o : SessionId) (k : MaskKind) (b : NoticeBody) (p : Port) :
    (s.ownerNotice (some o) k b).queue p =
      if s.attachedSession p = some o ∧ s.maskHolds p k = true then (s.queue p).arrive b else s.queue p := by
  by_cases hp : p = o.port
  · subst hp
    by_cases h : s.attachedSession o.port = some o ∧ s.maskHolds o.port k = true <;>
      simp [ownerNotice, isAttached, h, queue_queueNotice]
  · have absent : s.attachedSession p ≠ some o := by
      intro h
      obtain ⟨-, rfl⟩ := s.attachedSession_eq_some.1 h
      exact hp rfl
    simp only [ownerNotice, absent, false_and, if_false]
    split
    · rw [queue_queueNotice, if_neg hp]
    · rfl

/-- A broadcast notice arrives at every port whose attached session's mask holds its kind. -/
theorem queue_broadcast (k : MaskKind) (b : NoticeBody) (p : Port) :
    (s.broadcast k b).queue p = if s.maskHolds p k = true then (s.queue p).arrive b else s.queue p := by
  have key : ∀ (ps : List Port) (t : State), ps.Nodup →
      (ps.foldl (fun t p => if t.maskHolds p k then t.queueNotice p b else t) t).queue p =
        if p ∈ ps ∧ t.maskHolds p k = true then (t.queue p).arrive b else t.queue p := by
    intro ps
    induction ps with
    | nil => intro t _; simp
    | cons q ps ih =>
      intro t nd
      obtain ⟨hq, hnd⟩ := List.nodup_cons.1 nd
      have mask : ∀ c : Bool, (if c then t.queueNotice q b else t).maskHolds p k = t.maskHolds p k := by
        intro c
        cases c <;> rfl
      rw [List.foldl_cons, ih _ hnd, mask]
      by_cases hp : p = q
      · subst hp
        by_cases hm : t.maskHolds p k = true <;> simp [hq, hm, queue_queueNotice]
      · by_cases hm : t.maskHolds q k = true <;> simp [hp, hm, queue_queueNotice]
  rw [broadcast, key allPorts s nodup_allPorts]
  simp [mem_allPorts]

theorem queue_changeEngine (x : EngineState) (p : Port) :
    (s.changeEngine x).queue p = (s.queue p).after (s.engineNotices p x s.engine.reportedNumber) := by
  rw [changeEngine, queue_broadcast, engineNotices]
  by_cases h : s.maskHolds p .engine = true
  · have h' : (s.setEngineState x).maskHolds p .engine = true := h
    rw [if_pos h, if_pos h']
    rfl
  · have h' : ¬ (s.setEngineState x).maskHolds p .engine = true := h
    rw [if_neg h, if_neg h']
    rfl

theorem changeEngine_entries (x : EngineState) : (s.changeEngine x).entries = s.entries :=
  (NoticesOnly.broadcast (s.setEngineState x) ..).entries

theorem changeEngine_engine (x : EngineState) : (s.changeEngine x).engine = { s.engine with state := x } :=
  (NoticesOnly.broadcast (s.setEngineState x) ..).engine

end State

/-- The notices a port receives while the entries are gone through in ascending order: what each entry gives it, when what
is done at one entry leaves what the others will give. -/
theorem queue_foldl_entries {g : State → EntryIx → State} {p : Port} (note : State → EntryIx → Option NoticeBody)
    (hq : ∀ s e, (g s e).queue p = (s.queue p).after (note s e).toList)
    (hn : ∀ s e f, f ≠ e → note (g s e) f = note s f) {es : List EntryIx} (nd : es.Nodup) (s : State) :
    (es.foldl g s).queue p = (s.queue p).after (es.filterMap (note s)) := by
  induction es generalizing s with
  | nil => rfl
  | cons e es ih =>
    obtain ⟨he, hnd⟩ := List.nodup_cons.1 nd
    have rest : es.filterMap (note (g s e)) = es.filterMap (note s) :=
      List.filterMap_congr fun f hf => hn s e f fun h => he (h ▸ hf)
    rw [List.foldl_cons, ih hnd, rest, hq, ← NoticeQueue.after_append]
    cases h : note s e <;> simp [h]

/-! ### Epoch processing (R15) -/

/-- An entry after an epoch boundary (R15). -/
def Entry.atBoundary (x : Entry) : Entry :=
  match x.state with
  | .retiring _ _ => freedEntry x
  | .pending o => { x with state := .active o, fireCount := 0 }
  | .active _ => x
  | .free => x

/-- The notice of entry e at the boundary n that port p receives (R15). -/
def State.boundaryNote (p : Port) (n : CycleNumber) (s : State) (e : EntryIx) : Option NoticeBody :=
  match (s.entry e).state with
  | .retiring o why =>
    if s.hearsLifecycle p o then some (.retired (s.handleOf e) (s.entry e).descriptor.label why (some n)) else none
  | .pending o =>
    if s.hearsLifecycle p o then some (.activated (s.handleOf e) (s.entry e).descriptor.label n) else none
  | _ => none

namespace State

variable (s : State)

theorem boundaryNotices_eq (p : Port) (n : CycleNumber) :
    s.boundaryNotices p n = allEntries.filterMap (boundaryNote p n s) := rfl

theorem hearsLifecycle_congr {s t : State} (h : t.sessions = s.sessions) (p : Port) (o : SessionId) :
    t.hearsLifecycle p o = s.hearsLifecycle p o := by
  unfold hearsLifecycle attachedSession maskHolds session
  rw [h]

/-- The notice of an entry is read off the entry and the sessions. -/
theorem boundaryNote_congr {s t : State} {e : EntryIx} (hs : t.sessions = s.sessions) (he : t.entry e = s.entry e)
    (p : Port) (n : CycleNumber) : boundaryNote p n t e = boundaryNote p n s e := by
  simp only [boundaryNote, he, handleOf, hearsLifecycle_congr hs]

/-- An entry freed or activated, and the notice to its owner: the queue of each port. -/
theorem queue_lifecycle (e : EntryIx) (x : Entry) (o : SessionId) (b : NoticeBody) (p : Port) :
    ((s.setEntry e x).ownerNotice (some o) .lifecycle b).queue p =
      (s.queue p).after (if s.hearsLifecycle p o then some b else none).toList := by
  have attached : (s.setEntry e x).attachedSession p = s.attachedSession p := rfl
  have mask : (s.setEntry e x).maskHolds p .lifecycle = s.maskHolds p .lifecycle := rfl
  have queue : (s.setEntry e x).queue p = s.queue p := rfl
  rw [queue_ownerNotice, attached, mask, queue]
  by_cases h : s.attachedSession p = some o ∧ s.maskHolds p .lifecycle = true <;> simp [hearsLifecycle, h]

@[simp] theorem ownerNotice_entries (o : Option SessionId) (k : MaskKind) (b : NoticeBody) :
    (s.ownerNotice o k b).entries = s.entries := (NoticesOnly.ownerNotice ..).entries

@[simp] theorem entries_set_entry (e : EntryIx) : s.entries.set e (s.entry e) = s.entries := Table.set_get_self ..

theorem epochEntry_only (n : CycleNumber) (e : EntryIx) : TableOnly s (epochEntry n s e) := by
  unfold epochEntry
  split
  · exact (TableOnly.setEntry s e _).trans (.of_notices (NoticesOnly.ownerNotice ..))
  · exact (TableOnly.setEntry s e _).trans (.of_notices (NoticesOnly.ownerNotice ..))
  · exact .rfl' s

theorem epochEntry_entries (n : CycleNumber) (e : EntryIx) :
    (epochEntry n s e).entries = s.entries.set e (s.entry e).atBoundary := by
  cases h : (s.entry e).state <;> simp [epochEntry, Entry.atBoundary, h, freeWithNotice, activate, freeEntry]

theorem epochEntry_queue (n : CycleNumber) (e : EntryIx) (p : Port) :
    (epochEntry n s e).queue p = (s.queue p).after (boundaryNote p n s e).toList := by
  cases h : (s.entry e).state with
  | free => simp [epochEntry, boundaryNote, h]
  | active o => simp [epochEntry, boundaryNote, h]
  | pending o =>
    simp only [epochEntry, boundaryNote, h]
    exact s.queue_lifecycle e _ o _ p
  | retiring o why =>
    have owner : s.ownerOf e = some o := by simp [ownerOf, h, EntryState.owner]
    simp only [epochEntry, boundaryNote, h, freeWithNotice, owner]
    exact s.queue_lifecycle e _ o _ p

theorem epochProcessing_only (n : CycleNumber) : TableOnly s (s.epochProcessing n) :=
  .foldl (fun s e => s.epochEntry_only n e) _ s

/-- Every entry after epoch processing (R15). -/
theorem epochProcessing_entry (n : CycleNumber) (e : EntryIx) :
    (s.epochProcessing n).entry e = (s.entry e).atBoundary := by
  have := Table.get_foldl State.entries (fun _ => ()) (fun _ => Entry.atBoundary)
    (fun s e => s.epochEntry_entries n e) (fun _ _ => rfl) nodup_allEntries s e
  rwa [if_pos (mem_allEntries e)] at this

theorem epochProcessing_queue (n : CycleNumber) (p : Port) :
    (s.epochProcessing n).queue p = (s.queue p).after (s.boundaryNotices p n) := by
  rw [boundaryNotices_eq]
  refine queue_foldl_entries _ (fun s e => s.epochEntry_queue n e p) (fun s e f hf => ?_) nodup_allEntries s
  refine boundaryNote_congr (s.epochEntry_only n e).sessions ?_ p n
  rw [entry, epochEntry_entries, Table.get_set_ne _ _ hf, entry]

end State

/-! ### The entry into STOPPED (R16, R73) -/

/-- An entry after the entry into STOPPED (R16). -/
def Entry.atStop (x : Entry) : Entry := if x.state.isRetiring then freedEntry x else x

/-- The RETIRED notice of entry e with the marker STOP that port p receives (R16). -/
def State.stopNote (p : Port) (s : State) (e : EntryIx) : Option NoticeBody :=
  match (s.entry e).state with
  | .retiring o why =>
    if s.hearsLifecycle p o then some (.retired (s.handleOf e) (s.entry e).descriptor.label why none) else none
  | _ => none

namespace State

variable (s : State)

theorem stopNotices_eq (p : Port) : s.stopNotices p = allEntries.filterMap (stopNote p s) := rfl

theorem stopNote_congr {s t : State} {e : EntryIx} (hs : t.sessions = s.sessions) (he : t.entry e = s.entry e)
    (p : Port) : stopNote p t e = stopNote p s e := by
  simp only [stopNote, he, handleOf, hearsLifecycle_congr hs]

theorem stopEntry_only (e : EntryIx) : TableOnly s (stopEntry s e) := by
  unfold stopEntry
  split
  · exact (TableOnly.setEntry s e _).trans (.of_notices (NoticesOnly.ownerNotice ..))
  · exact .rfl' s

theorem stopEntry_entries (e : EntryIx) : (stopEntry s e).entries = s.entries.set e (s.entry e).atStop := by
  cases h : (s.entry e).state <;> simp [stopEntry, Entry.atStop, EntryState.isRetiring, h, freeWithNotice, freeEntry]

theorem stopEntry_queue (e : EntryIx) (p : Port) :
    (stopEntry s e).queue p = (s.queue p).after (stopNote p s e).toList := by
  cases h : (s.entry e).state with
  | free => simp [stopEntry, stopNote, h]
  | active o => simp [stopEntry, stopNote, h]
  | pending o => simp [stopEntry, stopNote, h]
  | retiring o why =>
    have owner : s.ownerOf e = some o := by simp [ownerOf, h, EntryState.owner]
    simp only [stopEntry, stopNote, h, freeWithNotice, owner]
    exact s.queue_lifecycle e _ o _ p

theorem stoppedFreeing_only : TableOnly s s.stoppedFreeing := .foldl stopEntry_only _ s

theorem stoppedFreeing_entry (e : EntryIx) : s.stoppedFreeing.entry e = (s.entry e).atStop := by
  have := Table.get_foldl State.entries (fun _ => ()) (fun _ => Entry.atStop)
    stopEntry_entries (fun _ _ => rfl) nodup_allEntries s e
  rwa [if_pos (mem_allEntries e)] at this

theorem stoppedFreeing_queue (p : Port) : s.stoppedFreeing.queue p = (s.queue p).after (s.stopNotices p) := by
  rw [stopNotices_eq]
  refine queue_foldl_entries _ (fun s e => s.stopEntry_queue e p) (fun s e f hf => ?_) nodup_allEntries s
  refine stopNote_congr (s.stopEntry_only e).sessions ?_ p
  rw [entry, stopEntry_entries, Table.get_set_ne _ _ hf, entry]

/-- The state in which the entry into STOPPED frees: STOPPED, with the restart flag and the ENGINE notices (R73). -/
def beforeFreeing : State := ({ s with engine := { s.engine with restart := true } } : State).changeEngine .stopped

theorem enterStopped_eq : s.enterStopped = s.beforeFreeing.stoppedFreeing := rfl

theorem beforeFreeing_only :
    s.beforeFreeing =
      { s with notices := s.beforeFreeing.notices, engine := { s.engine with state := .stopped, restart := true } } :=
  NoticesOnly.broadcast
    (({ s with engine := { s.engine with restart := true } } : State).setEngineState .stopped) .engine
    (.engine .stopped s.engine.reportedNumber)

theorem enterStopped_only :
    s.enterStopped =
      { s with
        entries := s.enterStopped.entries, notices := s.enterStopped.notices
        engine := { s.engine with state := .stopped, restart := true } } := by
  have h := s.beforeFreeing.stoppedFreeing_only
  rw [enterStopped_eq, h, s.beforeFreeing_only]

theorem enterStopped_engine : s.enterStopped.engine = { s.engine with state := .stopped, restart := true } := by
  rw [enterStopped_only]

/-- Every entry after the entry into STOPPED (R16). -/
theorem enterStopped_entry (e : EntryIx) : s.enterStopped.entry e = (s.entry e).atStop := by
  have h : s.beforeFreeing.entry e = s.entry e := by rw [beforeFreeing_only]; rfl
  rw [enterStopped_eq, stoppedFreeing_entry, h]

theorem enterStopped_queue (p : Port) :
    s.enterStopped.queue p =
      (s.queue p).after (s.engineNotices p .stopped s.engine.reportedNumber ++ s.stopNotices p) := by
  have sessions : s.beforeFreeing.sessions = s.sessions := by rw [beforeFreeing_only]
  have stop : s.beforeFreeing.stopNotices p = s.stopNotices p := by
    rw [stopNotices_eq, stopNotices_eq]
    refine List.filterMap_congr fun e _ => stopNote_congr sessions ?_ p
    rw [beforeFreeing_only]
    rfl
  have engine : s.beforeFreeing.queue p = (s.queue p).after (s.engineNotices p .stopped s.engine.reportedNumber) :=
    queue_changeEngine ..
  rw [enterStopped_eq, stoppedFreeing_queue, stop, engine, NoticeQueue.after_append]

end State

/-- Settles O30: the entries are gone through in ascending order, and what is done at one leaves the others, the sessions and
so the notices that the others give. -/
theorem epochBoundaryAndStopFreeTheRetiring : Obligations.EpochBoundaryAndStopFreeTheRetiring := by
  refine ⟨fun s n => ⟨s.epochProcessing_only n, fun e => ⟨?_, ?_, ?_⟩, s.epochProcessing_queue n⟩,
    fun s => ⟨s.enterStopped_only, fun e => ⟨?_, ?_⟩, s.enterStopped_queue⟩⟩
  · intro o why h
    rw [State.epochProcessing_entry, Entry.atBoundary, h]
    rfl
  · intro o h
    rw [State.epochProcessing_entry, Entry.atBoundary, h]
  · rintro (h | ⟨o, h⟩) <;> rw [State.epochProcessing_entry, Entry.atBoundary, h]
  · intro o why h
    rw [State.enterStopped_entry, Entry.atStop, h]
    rfl
  · intro h
    rw [State.enterStopped_entry, Entry.atStop, h]
    rfl

end Sys2Proof.Machine
end

