-- ==== Sys2Proof/Proofs/ReservationRequests.lean ====
section
/-! SUPPORT. The requests on the reservation table: the handle check (R6), WITHDRAW (R18), QUERY and SCAN (R22, R23), and the
cleanup claim (R20, R101, R143). -/

namespace Sys2Proof.Machine

/-! ### Handles (R6) -/

theorem handleFields_eq_some {f : List Byte} {h : Handle} :
    handleFields f = some h ↔
      2 ≤ f.length ∧ (byteAt f 0).toNat = h.index.val ∧ (byteAt f 1).toNat = h.generation.toNat := by
  obtain ⟨e, g⟩ := h
  have hg := g.isLt
  unfold handleFields entryOfByte generationOfByte
  split
  · simp only [reduceCtorEq, false_iff]
    omega
  · by_cases he : (byteAt f 0).toNat < 48 <;> by_cases hb : (byteAt f 1).toNat < 16 <;>
      simp [he, hb, Fin.ext_iff, ← BitVec.toNat_inj] <;> omega

theorem handleFields_eq_none {f : List Byte} (h : f.length < 2 ∨ 47 < (byteAt f 0).toNat ∨ 15 < (byteAt f 1).toNat) :
    handleFields f = none := by
  rw [Option.eq_none_iff_forall_ne_some]
  intro ⟨e, g⟩ k
  obtain ⟨hl, he, hg⟩ := handleFields_eq_some.1 k
  simp only at he hg
  omega

theorem exists_handleFields {f : List Byte} (hl : 2 ≤ f.length) (he : (byteAt f 0).toNat ≤ 47)
    (hg : (byteAt f 1).toNat ≤ 15) :
    ∃ h, handleFields f = some h ∧ h.index.val = (byteAt f 0).toNat ∧ h.generation.toNat = (byteAt f 1).toNat := by
  refine ⟨⟨⟨(byteAt f 0).toNat, by omega⟩, BitVec.ofNat 4 (byteAt f 1).toNat⟩, handleFields_eq_some.2 ⟨hl, rfl, ?_⟩, rfl, ?_⟩
  all_goals simp; omega

theorem State.matchesHandle_eq_false {s : State} {h : Handle} :
    s.matchesHandle h = false ↔ (s.entry h.index).state = .free ∨ (s.entry h.index).generation ≠ h.generation := by
  simp only [State.matchesHandle, Bool.and_eq_false_iff, decide_eq_false_iff_not, not_not, ne_eq]

theorem State.matchesHandle_eq_true {s : State} {h : Handle} :
    s.matchesHandle h = true ↔ (s.entry h.index).state ≠ .free ∧ (s.entry h.index).generation = h.generation := by
  simp [State.matchesHandle]

/-! ### A reply and the reservation table -/

namespace State

variable (s : State) (p : Port) (r : Request) (st : Status) (b : List Byte)

/-- A reply touches the links, and the peak loads are computed from the table. -/
theorem reply_recomputePeaks : s.recomputePeaks.reply p r st b = (s.reply p r st b).recomputePeaks := rfl

theorem reply_setEntry (e : EntryIx) (x : Entry) :
    (s.setEntry e x).reply p r st b = (s.reply p r st b).setEntry e x := rfl

@[simp] theorem take_entry (e : EntryIx) : (s.take p).entry e = s.entry e := rfl

@[simp] theorem take_engine : (s.take p).engine = s.engine := rfl

end State

/-! ### WITHDRAW (R18) -/

/-- A session's entry that is not RETIRING is PENDING or ACTIVE. -/
theorem State.pending_or_active {s : State} {e : EntryIx} {o : SessionId} (h : s.ownerOf e = some o)
    (hr : ¬ (s.entry e).state.isRetiring = true) : (s.entry e).state = .pending o ∨ (s.entry e).state = .active o := by
  unfold State.ownerOf at h
  cases hs : (s.entry e).state <;> simp_all [EntryState.owner, EntryState.isRetiring]

section withdraw

variable {s : State} {me : SessionId} {f : List Byte} {h : Handle}

theorem withdrawAct_badField (hf : handleFields f = none) :
    withdrawAct s me f = { state := s, status := .badField, payload := [] } := by
  simp [withdrawAct, hf]

theorem withdrawAct_stale (hf : handleFields f = some h) (hm : s.matchesHandle h = false) :
    withdrawAct s me f = { state := s, status := .stale, payload := [] } := by
  simp [withdrawAct, hf, hm]

theorem withdrawAct_of_matches (hf : handleFields f = some h) (hm : s.matchesHandle h = true) :
    withdrawAct s me f = s.withdrawEntry me h.index := by
  simp [withdrawAct, hf, hm]

variable {e : EntryIx}

theorem withdrawEntry_notOwner (ho : s.ownerOf e ≠ some me) :
    s.withdrawEntry me e = { state := s, status := .notOwner, payload := [] } := by
  simp [State.withdrawEntry, ho]

theorem withdrawEntry_retiring (ho : s.ownerOf e = some me) (hr : (s.entry e).state.isRetiring = true) :
    s.withdrawEntry me e = { state := s, status := .retiring, payload := [] } := by
  cases hs : (s.entry e).state <;> simp_all [State.withdrawEntry, EntryState.isRetiring]

/-- A PENDING entry, and in STOPPED an ACTIVE one, becomes FREE. -/
theorem withdrawEntry_frees (ho : s.ownerOf e = some me)
    (h : (s.entry e).state = .pending me ∨ (s.entry e).state = .active me ∧ s.engine.state = .stopped) :
    s.withdrawEntry me e = { state := (s.freeEntry e).recomputePeaks, status := .ok, payload := [0] } := by
  rcases h with hs | ⟨hs, hstop⟩
  · simp [State.withdrawEntry, ho, hs, entryStateByte]
  · simp [State.withdrawEntry, ho, hs, State.retireWithdrawn, hstop, State.freeEntry, freedEntry, entryStateByte]

/-- An ACTIVE entry becomes RETIRING while the engine is not STOPPED. -/
theorem withdrawEntry_retires (ho : s.ownerOf e = some me) (hs : (s.entry e).state = .active me)
    (hstop : s.engine.state ≠ .stopped) :
    s.withdrawEntry me e =
      { state := (s.setEntry e { s.entry e with state := .retiring me .withdrawn }).recomputePeaks
        status := .ok
        payload := [3] } := by
  simp [State.withdrawEntry, ho, hs, State.retireWithdrawn, hstop, entryStateByte]

end withdraw

/-- Settles O12, by the refusals in their order and then by the states of the entry and the engine. -/
theorem withdrawFreesOrRetires : Obligations.WithdrawFreesOrRetires := by
  intro s p r me ht ha
  have unchanged {st : Status} (h : withdrawAct (s.take p) me r.fields = { state := s.take p, status := st, payload := [] }) :
      exec (.withdraw p) s = .next (s.answered p r st []) :=
    congrArg Host.Outcome.next (State.answerRequest_of_unchanged ht ha h)
  have changed {e : EntryIx} {x : Entry} {b : List Byte}
      (h : withdrawAct (s.take p) me r.fields =
        { state := ((s.take p).setEntry e x).recomputePeaks, status := .ok, payload := b }) :
      exec (.withdraw p) s =
        .next (State.recomputePeaks { s.answered p r .ok b with entries := s.entries.set e x }) := by
    refine congrArg Host.Outcome.next ?_
    rw [State.answerRequest_attached ht ha, h, State.reply_recomputePeaks, State.reply_setEntry, State.reply_take]
    rfl
  cases hf : handleFields r.fields with
  | none => exact unchanged (withdrawAct_badField hf)
  | some h =>
    dsimp only
    have owner : (s.take p).ownerOf h.index = s.ownerOf h.index := rfl
    split_ifs with hstale hown hret hfree
    · exact unchanged (withdrawAct_stale hf (State.matchesHandle_eq_false.2 hstale))
    all_goals
      have act : withdrawAct (s.take p) me r.fields = (s.take p).withdrawEntry me h.index := by
        apply withdrawAct_of_matches hf
        rw [← Bool.not_eq_false, State.matchesHandle_eq_false]
        exact hstale
    · exact unchanged (act.trans (withdrawEntry_notOwner hown))
    · exact unchanged (act.trans (withdrawEntry_retiring (not_not.1 hown) hret))
    · refine changed (act.trans (withdrawEntry_frees (not_not.1 hown) ?_))
      have := State.pending_or_active (not_not.1 hown) hret
      tauto
    · obtain ⟨hpend, hrun⟩ := not_or.1 hfree
      have active := (State.pending_or_active (not_not.1 hown) hret).resolve_left hpend
      exact changed (act.trans (withdrawEntry_retires (not_not.1 hown) active hrun))

/-! ### QUERY and SCAN (R22, R23) -/

section scan

variable {s : State} {me : SessionId} {f : List Byte}

theorem scanFields_eq_none (h : f = [] ∨ 47 < (byteAt f 0).toNat) : scanFields f = none := by
  rcases h with rfl | h
  · rfl
  · have : ¬ (byteAt f 0).toNat < 48 := by omega
    simp [scanFields, entryOfByte, this]

theorem scanFields_eq_some (hn : f ≠ []) (h : (byteAt f 0).toNat < 48) :
    scanFields f = some ⟨(byteAt f 0).toNat, h⟩ := by
  have : ¬ f.length < 1 := by
    have := List.length_pos_iff.2 hn
    omega
  simp [scanFields, entryOfByte, this, h]

theorem scanFrom_eq_some {i e : EntryIx} :
    s.scanFrom i = some e ↔
      (i ≤ e ∧ (s.entry e).state ≠ .free) ∧ ∀ f < e, i ≤ f → (s.entry f).state = .free := by
  simp [State.scanFrom, find_allEntries_eq_some]

theorem scanFrom_eq_none {i : EntryIx} : s.scanFrom i = none ↔ ∀ f, i ≤ f → (s.entry f).state = .free := by
  simp [State.scanFrom, mem_allEntries]

theorem scanAct_badField (hf : scanFields f = none) :
    scanAct s me f = { state := s, status := .badField, payload := [] } := by
  simp [scanAct, hf]

theorem scanAct_of_found {i e : EntryIx} (hf : scanFields f = some i) (h : s.scanFrom i = some e) :
    scanAct s me f = { state := s, status := .ok, payload := entryRecordBytes e (s.entry e) } := by
  simp [scanAct, hf, h]

theorem scanAct_of_not_found {i : EntryIx} (hf : scanFields f = some i) (h : s.scanFrom i = none) :
    scanAct s me f = { state := s, status := .ok, payload := [0xFF, 0xFF] } := by
  simp [scanAct, hf, h, handleBytes]

/-- SCAN changes nothing. -/
@[simp] theorem scanAct_state : (scanAct s me f).state = s := by
  unfold scanAct
  split
  · rfl
  · split <;> rfl

/-- QUERY changes nothing. -/
@[simp] theorem queryAct_state : (queryAct s me f).state = s := by
  unfold queryAct
  split
  · rfl
  · split <;> rfl

theorem queryAct_badField (hf : handleFields f = none) :
    queryAct s me f = { state := s, status := .badField, payload := [] } := by
  simp [queryAct, hf]

theorem queryAct_stale {h : Handle} (hf : handleFields f = some h) (hm : s.matchesHandle h = false) :
    queryAct s me f = { state := s, status := .stale, payload := [] } := by
  simp [queryAct, hf, hm]

theorem queryAct_of_matches {h : Handle} (hf : handleFields f = some h) (hm : s.matchesHandle h = true) :
    queryAct s me f = { state := s, status := .ok, payload := entryRecordBytes h.index (s.entry h.index) } := by
  simp [queryAct, hf, hm]

end scan

theorem query_reads_entry (s : State) (p : Port) (r : Request) (ht : s.takenRequest p .query = some r)
    (ha : (s.session p).attachment.isSome = true) :
    match handleFields r.fields with
    | none => exec (.query p) s = .next (s.answered p r .badField [])
    | some h =>
      if (s.entry h.index).state = .free ∨ (s.entry h.index).generation ≠ h.generation then
        exec (.query p) s = .next (s.answered p r .stale [])
      else exec (.query p) s = .next (s.answered p r .ok (entryRecordBytes h.index (s.entry h.index))) := by
  have answers {st : Status} {b : List Byte} (h : ∀ me, queryAct (s.take p) me r.fields =
      { state := s.take p, status := st, payload := b }) : exec (.query p) s = .next (s.answered p r st b) :=
    congrArg Host.Outcome.next (State.answerRequest_of_unchanged ht (s.attachedSession_of_attachment ha) (h _))
  cases hf : handleFields r.fields with
  | none => exact answers fun _ => queryAct_badField hf
  | some h =>
    dsimp only
    split_ifs with hstale
    · exact answers fun _ => queryAct_stale hf (State.matchesHandle_eq_false.2 hstale)
    · refine answers fun _ => queryAct_of_matches hf ?_
      rw [← Bool.not_eq_false, State.matchesHandle_eq_false]
      exact hstale

/-- Settles O13: neither request's act changes the state, so that each leaves the answer and no more. -/
theorem queryAndScanReadTheTable : Obligations.QueryAndScanReadTheTable := by
  refine ⟨query_reads_entry, fun f => ⟨handleFields_eq_none, exists_handleFields⟩, fun s p r ht ha => ?_⟩
  have answers {st : Status} {b : List Byte} (h : ∀ me, scanAct (s.take p) me r.fields =
      { state := s.take p, status := st, payload := b }) : exec (.scan p) s = .next (s.answered p r st b) :=
    congrArg Host.Outcome.next (State.answerRequest_of_unchanged ht (s.attachedSession_of_attachment ha) (h _))
  refine ⟨fun h => answers fun _ => scanAct_badField (scanFields_eq_none h), fun hn e he hs hlow => ?_,
    fun hn hi hall => ?_⟩
  · have found : (s.take p).scanFrom ⟨(byteAt r.fields 0).toNat, he.trans_lt e.isLt⟩ = some e :=
      scanFrom_eq_some.2 ⟨⟨he, hs⟩, fun f hf hi => hlow f hi hf⟩
    exact answers fun _ => scanAct_of_found (scanFields_eq_some hn _) found
  · have none_found : (s.take p).scanFrom ⟨(byteAt r.fields 0).toNat, by omega⟩ = none :=
      scanFrom_eq_none.2 fun f hf => hall f hf
    exact answers fun _ => scanAct_of_not_found (scanFields_eq_some hn _) none_found

/-! ### The cleanup claim (R20, R101, R143) -/

/-- An entry after the cleanup of session o, with the engine in state x (R20). -/
def Entry.cleaned (o : SessionId) (x : EngineState) (y : Entry) : Entry :=
  if y.state = .pending o ∨ (y.state = .active o ∧ x = .stopped) then freedEntry y
  else if y.state = .active o then { y with state := .retiring o .withdrawn }
  else y

/-- A line after the cleanup of session o (R101). -/
def Line.cleaned (o : SessionId) (y : Line) : Line := if y.holder = some o then { y with holder := none } else y

namespace State

variable (s : State) (o : SessionId)

@[simp] theorem setEntry_entry (e : EntryIx) : s.setEntry e (s.entry e) = s := by
  simp [setEntry]

@[simp] theorem setLine_line (l : LineIx) : s.setLine l (s.line l) = s := by
  simp [setLine, line]

theorem cleanEntry_eq (e : EntryIx) : cleanEntry o s e = s.setEntry e ((s.entry e).cleaned o s.engine.state) := by
  by_cases ho : s.ownerOf e = some o
  · cases hs : (s.entry e).state with
    | free => simp [ownerOf, hs, EntryState.owner] at ho
    | pending w =>
      obtain rfl : w = o := by simpa [ownerOf, hs, EntryState.owner] using ho
      simp [cleanEntry, ho, hs, Entry.cleaned, freeEntry]
    | active w =>
      obtain rfl : w = o := by simpa [ownerOf, hs, EntryState.owner] using ho
      by_cases hx : s.engine.state = .stopped <;>
        simp [cleanEntry, ho, hs, Entry.cleaned, freeEntry, retireWithdrawn, hx]
    | retiring w why => simp [cleanEntry, hs, Entry.cleaned]
  · have stays : (s.entry e).cleaned o s.engine.state = s.entry e := by
      cases hs : (s.entry e).state <;> simp_all [ownerOf, EntryState.owner, Entry.cleaned]
    rw [stays, cleanEntry, if_neg ho, setEntry_entry]

theorem cleanLine_eq (l : LineIx) : cleanLine o s l = s.setLine l ((s.line l).cleaned o) := by
  by_cases h : (s.line l).holder = some o <;> simp [cleanLine, Line.cleaned, h]

/-- The entries of a session that has ended, cleaned up in ascending order (R20). -/
def cleanEntries : State := allEntries.foldl (cleanEntry o) s

/-- The lines of a session that has ended, opened in ascending order (R101). -/
def cleanLines : State := allLines.foldl (cleanLine o) s

theorem cleanup_eq : s.cleanup o = ((s.cleanEntries o).cleanLines o).recomputePeaks := rfl

theorem cleanEntries_only : s.cleanEntries o = { s with entries := (s.cleanEntries o).entries } := by
  refine foldl_related (R := fun s t => t = { s with entries := t.entries }) (fun _ => rfl) ?_ ?_ allEntries s
  · intro s t u h k
    rw [k, h]
  · intro s e
    rw [cleanEntry_eq]
    rfl

theorem cleanLines_only : s.cleanLines o = { s with lines := (s.cleanLines o).lines } := by
  refine foldl_related (R := fun s t => t = { s with lines := t.lines }) (fun _ => rfl) ?_ ?_ allLines s
  · intro s t u h k
    rw [k, h]
  · intro s l
    rw [cleanLine_eq]
    rfl

theorem cleanEntries_entry (e : EntryIx) :
    (s.cleanEntries o).entry e = (s.entry e).cleaned o s.engine.state := by
  have := Table.get_foldl (g := cleanEntry o) State.entries (fun s => s.engine.state) (Entry.cleaned o)
    (fun s e => by rw [cleanEntry_eq]; rfl) (fun s e => by rw [cleanEntry_eq]; rfl) nodup_allEntries s e
  rwa [if_pos (mem_allEntries e)] at this

theorem cleanLines_line (l : LineIx) : (s.cleanLines o).line l = (s.line l).cleaned o := by
  have := Table.get_foldl (g := cleanLine o) State.lines (fun _ => ()) (fun _ => Line.cleaned o)
    (fun s l => by rw [cleanLine_eq]; rfl) (fun _ _ => rfl) nodup_allLines s l
  rwa [if_pos (mem_allLines l)] at this

theorem cleanup_entry (e : EntryIx) : (s.cleanup o).entry e = (s.entry e).cleaned o s.engine.state := by
  have h : (s.cleanup o).entries = (s.cleanEntries o).entries := by
    rw [cleanup_eq, recomputePeaks_entries, cleanLines_only]
  rw [entry, h]
  exact s.cleanEntries_entry o e

theorem cleanup_line (l : LineIx) : (s.cleanup o).line l = (s.line l).cleaned o := by
  have lines : (s.cleanup o).line l = ((s.cleanEntries o).cleanLines o).line l := by
    rw [cleanup_eq, line, recomputePeaks_lines, line]
  have entries : (s.cleanEntries o).line l = s.line l := by rw [cleanEntries_only, line, line]
  rw [lines, cleanLines_line, entries]

theorem cleanup_only :
    s.cleanup o =
      { s with
        entries := (s.cleanup o).entries, lines := (s.cleanup o).lines
        peaks := { a := railPeak (s.cleanup o).nextEpochSet .a, b := railPeak (s.cleanup o).nextEpochSet .b } } := by
  have he := s.cleanEntries_only o
  have hl := (s.cleanEntries o).cleanLines_only o
  rw [cleanup_eq]
  generalize (s.cleanEntries o).cleanLines o = u at hl
  generalize s.cleanEntries o = v at hl he
  rw [hl, he]
  rfl

/-- A claim that is taken acts for the session it names (R143). -/
theorem execCleanupClaim_of_taken {p : Port} {n : Byte} (h : s.nextTaking = some (.claim p))
    (hn : s.arbiter.claims.get p = some n) :
    execCleanupClaim p s = .next ((s.takeClaim p).cleanup { port := p, number := n }) := by
  simp [execCleanupClaim, h, hn]

end State

/-- Settles O14: entries and then lines are gone through in ascending order, each rewritten by itself. -/
theorem cleanupClaimRemovesTheSession : Obligations.CleanupClaimRemovesTheSession := by
  intro s p n ht hn
  refine ⟨_, s.execCleanupClaim_of_taken ht hn, ?_, fun e => ?_, fun l => ?_⟩
  · exact (s.takeClaim p).cleanup_only _
  · rw [State.cleanup_entry]
    rfl
  · rw [State.cleanup_line]
    rfl

end Sys2Proof.Machine
end

