-- ==== Sys2Proof/Proofs/AfterReset.lean ====
section
/-! SUPPORT. The state right after a reset, record by record, and the invariants it meets (R4, R54, R57, R103, R105, R129, R147,
R163, R174, R183). -/

namespace Sys2Proof.Machine

/-- The empty set is conflict-free. -/
theorem conflictFree_nil (h : HubRecord) (gapOf : LineIx → Nat) : ConflictFree h gapOf [] := by
  constructor <;> intro k _ <;> simp

section afterRelease

variable (cause : ResetCause) (inputs : BitVec 8) (inh : Bool) (cs : BitVec 4) (cmds : List Instr) (n : Nat)

namespace State

@[simp] theorem afterRelease_entry (e : EntryIx) : (afterRelease cause inputs inh cs cmds n).entry e = .afterReset :=
  Table.get_fill ..

@[simp] theorem afterRelease_line (l : LineIx) : (afterRelease cause inputs inh cs cmds n).line l = .afterReset :=
  Table.get_fill ..

@[simp] theorem afterRelease_burst (g : EngineIx) : (afterRelease cause inputs inh cs cmds n).burst g = .idle :=
  Table.get_fill ..

@[simp] theorem afterRelease_session (p : Port) : (afterRelease cause inputs inh cs cmds n).session p = .afterReset :=
  Table.get_fill ..

@[simp] theorem afterRelease_queue (p : Port) : (afterRelease cause inputs inh cs cmds n).queue p = .afterReset :=
  Table.get_fill ..

@[simp] theorem afterRelease_link (p : Port) :
    (afterRelease cause inputs inh cs cmds n).link p = .afterReset (cs.getLsbD p.val) := Table.get_build ..

@[simp] theorem afterRelease_input (i : InputIx) :
    (afterRelease cause inputs inh cs cmds n).input i =
      .afterReset (if inputs.getLsbD i.val then .high else .low) := Table.get_build ..

@[simp] theorem afterRelease_holding (l : LineIx) :
    (afterRelease cause inputs inh cs cmds n).holding.get l = none := Table.get_fill ..

@[simp] theorem afterRelease_driven (l : LineIx) :
    (afterRelease cause inputs inh cs cmds n).driven.get l = .low := Table.get_fill ..

@[simp] theorem afterRelease_engine : (afterRelease cause inputs inh cs cmds n).engine = .afterReset inh := rfl

@[simp] theorem afterRelease_arbiter : (afterRelease cause inputs inh cs cmds n).arbiter = .afterReset := rfl

@[simp] theorem afterRelease_planList : (afterRelease cause inputs inh cs cmds n).planList = [] := rfl

@[simp] theorem afterRelease_nextEpochSet : (afterRelease cause inputs inh cs cmds n).nextEpochSet = [] := by
  simp [nextEpochSet, nextEpochEntries, Entry.afterReset, EntryState.inNextEpoch]

@[simp] theorem afterRelease_firingSet : (afterRelease cause inputs inh cs cmds n).firingSet = [] := by
  simp [firingSet, firingEntries, Entry.afterReset, EntryState.inFiring]

end State

@[simp] theorem afterReset_executor : Arbiter.afterReset.executor = none := rfl

@[simp] theorem afterReset_claims (p : Port) : Arbiter.afterReset.claims.get p = none := Table.get_fill ..

open State

theorem creditsAccounted_afterRelease : CreditsAccounted (afterRelease cause inputs inh cs cmds n) where
  sum p := by simp [Link.afterReset, Link.serving]
  service p := by simp [Link.afterReset]

theorem queuesBounded_afterRelease : QueuesBounded (afterRelease cause inputs inh cs cmds n) where
  size p := by simp [NoticeQueue.afterReset]
  losses p := by simp [NoticeQueue.afterReset]
  transfer p := by simp [NoticeQueue.afterReset]

theorem engineFollowsVotes_afterRelease : EngineFollowsVotes (afterRelease cause inputs inh cs cmds n) where
  votes := by simp [CycleEngine.afterReset, anyVote, hasVote, Session.afterReset]
  held := by simp [CycleEngine.afterReset]
  released := by simp [CycleEngine.afterReset]
  spacing := by simp [CycleEngine.afterReset]
  progress := by simp [CycleEngine.afterReset, EngineState.inProgress]
  restart := by simp [CycleEngine.afterReset]
  first := by simp [CycleEngine.afterReset]

theorem scheduleSound_afterRelease : ScheduleSound (afterRelease cause inputs inh cs cmds n) where
  nextEpoch := by rw [afterRelease_nextEpochSet]; exact conflictFree_nil ..
  firing := by rw [afterRelease_firingSet]; exact conflictFree_nil ..
  ranges e := by simp [Entry.afterReset]
  stopped _ e := by simp [Entry.afterReset, EntryState.isRetiring]
  flight := by simp

theorem linesServed_afterRelease : LinesServed (afterRelease cause inputs inh cs cmds n) where
  plan := rfl
  distinct := by simp
  inForce := by simp
  holder := by simp
  driven := by simp [idleLevel, Line.afterReset]
  engine g j hj := by simp [BurstEngine.job] at hj
  served := by simp
  flight := by simp

theorem windowsTimed_afterRelease : WindowsTimed (afterRelease cause inputs inh cs cmds n) where
  fires := by simp
  scheduled := by simp
  opened := by simp
  together := by simp
  served := by simp
  timer := by simp [CycleEngine.afterReset, EngineState.inProgress]

theorem claimsRespected_afterRelease : ClaimsRespected (afterRelease cause inputs inh cs cmds n) where
  owners := by simp [Line.afterReset]
  flight := by simp

theorem ownersAccountable_afterRelease : OwnersAccountable (afterRelease cause inputs inh cs cmds n) where
  entries := by simp [Entry.afterReset, EntryState.inNextEpoch]
  lines := by simp [Line.afterReset]
  claims := by simp

theorem peaksCurrent_afterRelease : PeaksCurrent (afterRelease cause inputs inh cs cmds n) where
  a := by rw [afterRelease_nextEpochSet]; rfl
  b := by rw [afterRelease_nextEpochSet]; rfl

theorem timersBounded_afterRelease : TimersBounded (afterRelease cause inputs inh cs cmds n) where
  cycle := by simp [CycleEngine.afterReset]
  burst g j hj := by simp [BurstEngine.job] at hj
  pendingChange := by simp [InputChannel.afterReset]
  input := by simp [InputChannel.afterReset]
  lease := by simp [Session.afterReset]
  flight := by simp

end afterRelease

/-- Settles O51: the reset values of each invariant's records meet it. -/
theorem invariantsHoldAfterReset : Obligations.InvariantsHoldAfterReset := fun cause inputs inh cs cmds n =>
  ⟨creditsAccounted_afterRelease cause inputs inh cs cmds n, queuesBounded_afterRelease cause inputs inh cs cmds n,
    engineFollowsVotes_afterRelease cause inputs inh cs cmds n, scheduleSound_afterRelease cause inputs inh cs cmds n,
    linesServed_afterRelease cause inputs inh cs cmds n, windowsTimed_afterRelease cause inputs inh cs cmds n,
    claimsRespected_afterRelease cause inputs inh cs cmds n, ownersAccountable_afterRelease cause inputs inh cs cmds n,
    peaksCurrent_afterRelease cause inputs inh cs cmds n, timersBounded_afterRelease cause inputs inh cs cmds n⟩

end Sys2Proof.Machine
end

