-- ==== Sys2Proof/Proofs/Steps.lean ====
section
/-! SUPPORT. An invariant through a step, a request and a frame: what has to be shown of each for a predicate to be kept. -/

namespace Sys2Proof.Machine

/-! ### Outcomes and steps -/

/-- An outcome that is a next state is one of which P holds. -/
def Leads (P : State → Prop) : Host.Outcome State Fault Refusal → Prop
  | .next t => P t
  | .fault _ => True
  | .refused _ => True

@[simp] theorem leads_next {P : State → Prop} {t : State} : Leads P (.next t) ↔ P t := Iff.rfl

theorem leads_ite {P : State → Prop} {c : Prop} [Decidable c] {a b : State} (ha : c → P a) (hb : P b) :
    Leads P (if c then .next a else .next b) := by
  split
  · exact ha ‹c›
  · exact hb

/-- What every command keeps, and the passing of a tick, the queue and the free count with it, every step keeps. -/
theorem step_keeps {P : State → Prop} (queue : ∀ s cs, P s → P { s with pending := cs })
    (count : ∀ s n, P s → P { s with freeCount := n })
    (tick : ∀ s, s.hold = none → s.dueEvents = [] → P s → P s.tick)
    (command : ∀ c s, P s → Leads P (exec c s)) {s t : State} (h : P s) (e : step s = .next t) : P t := by
  suffices Leads P (step s) by rwa [e] at this
  unfold step
  split
  · exact command _ _ (queue _ _ h)
  · unfold State.idleStep
    split
    · exact h
    · rename_i hold
      split
      · rename_i due
        exact tick s (by simpa using hold) due h
      · exact command _ _ h
      · exact command _ _ (count _ _ h)

/-! ### Requests -/

namespace State

variable {P : State → Prop} {s : State} {p : Port} {kind : RequestKind}

/-- A predicate through a request that is answered at its taking: kept by the taking, by the act on the state with the
executor free, and by the reply. -/
theorem answerRequest_keeps {act : State → SessionId → List Byte → Answer} (h : P s) (take : P (s.take p))
    (act_keeps : ∀ me f, (s.take p).arbiter.executor = none → P (act (s.take p) me f).state)
    (reply : ∀ t r st b, P t → P (t.reply p r st b)) : P (s.answerRequest p kind act) := by
  unfold answerRequest
  split
  · exact h
  · rename_i r hr
    obtain ⟨-, -, -, free, -⟩ := s.takenRequest_spec hr
    split
    · exact reply _ _ _ _ take
    · exact reply _ _ _ _ (act_keeps _ _ free)

/-- A predicate through a request that begins a flight: kept by the taking, by the beginning of the flight with what has been
judged, and by the reply NO_SESSION. -/
theorem flyRequest_keeps {judge : State → SessionId → List Byte → FlightOp} (h : P s) (take : P (s.take p))
    (begin_keeps : ∀ me r, (s.take p).arbiter.executor = none →
      P ((s.take p).beginFlight p me r (judge (s.take p) me r.fields)))
    (reply : ∀ t r st b, P t → P (t.reply p r st b)) : P (s.flyRequest p kind judge) := by
  unfold flyRequest
  split
  · exact h
  · rename_i r hr
    obtain ⟨-, -, -, free, -⟩ := s.takenRequest_spec hr
    split
    · exact reply _ _ _ _ take
    · exact begin_keeps _ _ free

/-- A predicate through the completion of a flight: kept by the release of the executor, by the act, and by what becomes of
the reply. -/
theorem complete_keeps {f : Flight} {act : State → Answer} (release : P s.releaseExecutor)
    (act_keeps : P (act s.releaseExecutor).state) (reply : ∀ t r st b, P t → P (t.reply f.session.port r st b))
    (discard : ∀ t, P t → P (t.discardReply f.session.port)) : P (s.complete f act) := by
  unfold complete
  split
  · exact reply _ _ _ _ act_keeps
  · exact discard _ release

end State

/-! ### Frames -/

/-- Only the links and the notice queues may differ. -/
def TransferOnly (s t : State) : Prop := t = { s with links := t.links, notices := t.notices }

namespace TransferOnly

theorem rfl' (s : State) : TransferOnly s s := rfl

theorem trans {s t u : State} (h : TransferOnly s t) (k : TransferOnly t u) : TransferOnly s u := by
  unfold TransferOnly at *
  rw [k, h]

theorem setLink (s : State) (p : Port) (x : Link) : TransferOnly s (s.setLink p x) := rfl

theorem setQueue (s : State) (p : Port) (x : NoticeQueue) : TransferOnly s (s.setQueue p x) := rfl

variable (s : State) (p : Port)

theorem takeSubmitByte (received : List Byte) (b : Byte) : TransferOnly s (s.takeSubmitByte p received b) := by
  unfold State.takeSubmitByte
  split
  · rfl
  · rfl
  · unfold State.creditCheck
    split <;> rfl

theorem shiftReply (rest : List Byte) : TransferOnly s (s.shiftReply p rest) := by
  unfold State.shiftReply
  split
  · rfl
  · unfold State.removeReply
    split <;> rfl
  · rfl

theorem shiftPosition (rest : List Byte) : TransferOnly s (s.shiftPosition p rest) := by
  unfold State.shiftPosition
  split <;> rfl

theorem shiftFetch (count : Option Byte) (rest : List Byte) : TransferOnly s (s.shiftFetch p count rest) := by
  unfold State.shiftFetch
  split
  · rfl
  · exact (setQueue ..).trans (shiftPosition ..)
  · exact shiftPosition ..

theorem shiftStatus (k : Nat) (l : BitVec 16) : TransferOnly s (s.shiftStatus p k l) := by
  unfold State.shiftStatus
  split <;> rfl

/-- A byte of a frame moves the link and, in a FETCH, the notice queue. -/
theorem exchange (b : Byte) : TransferOnly s (State.exchange p s b) := by
  unfold State.exchange
  split
  · rfl
  · exact takeSubmitByte ..
  · rfl
  · exact shiftReply ..
  · exact shiftFetch ..
  · exact shiftStatus ..
  all_goals rfl

theorem fallCs : TransferOnly s (s.fallCs p) := by
  unfold State.fallCs
  split <;> rfl

end TransferOnly

namespace State

variable {P : State → Prop} {s : State} {p : Port}

section frame

variable (transfer : ∀ t u, TransferOnly t u → P t → P u) (ended : ∀ t, P t → P (t.endSession p false))
include transfer ended

theorem abandonPort_keeps (h : P s) : P (s.abandonPort p) := by
  refine transfer (if (s.session p).attachment.isSome then s.endSession p false else s) _ rfl ?_
  split
  · exact ended _ h
  · exact h

/-- A predicate through the rise of CSn: the frame ends, and of what its end does an ABANDON alone does more than to touch the
link and the notices. -/
theorem raiseCs_keeps (h : P s) (bits : Nat) : P (s.raiseCs p bits) := by
  have idle : P (s.setLink p { s.link p with frame := .idle }) := transfer _ _ (.setLink ..) h
  have malformed : P ((s.setLink p { s.link p with frame := .idle }).countMalformed p) := transfer _ _ (.setLink ..) idle
  unfold raiseCs
  dsimp only
  split
  · exact transfer _ _ (.setQueue ..) idle
  · unfold judgeAbandon
    split_ifs
    · exact abandonPort_keeps transfer ended idle
    · exact malformed
  · split_ifs
    · exact malformed
    · exact idle

/-- A predicate through a part of a frame: kept by what touches links and notices only, and by the end of a session. -/
theorem runFrame_keeps (h : P s) (mine : FrameState → Bool) (part : FramePart) (bits : Nat) :
    P (s.runFrame p mine part bits) := by
  have bytes : P (part.bytes.foldl (exchange p) (s.fallCs p)) :=
    transfer _ _ ((TransferOnly.fallCs s p).trans
      (foldl_related TransferOnly.rfl' (fun _ _ _ => .trans) (fun t b => .exchange t p b) _ _)) h
  unfold runFrame
  dsimp only
  split_ifs
  · exact h
  · exact raiseCs_keeps transfer ended bytes bits
  · exact bytes
  · exact h

end frame

end State

end Sys2Proof.Machine
end

