-- ==== Sys2Proof/Proofs/Schedule.lean ====
section
/-! SUPPORT. What `ScheduleSound` reads of a state, and the operations that leave it as it is: links, notices, sessions, windows,
burst engines and the counters. -/

namespace Sys2Proof.Machine

/-- What `ScheduleSound` reads of a state: of the hub record the cycle length and the capacities, the recovery gaps, each
entry's state and descriptor, the engine state, and the operation in flight. -/
structure Schedule where
  cycleLength : Nat
  capacityA : Nat
  capacityB : Nat
  gap : LineIx → Nat
  reservation : EntryIx → EntryState × Descriptor
  engine : EngineState
  op : Option FlightOp

def State.schedule (s : State) : Schedule :=
  { cycleLength := s.hub.cycleLength, capacityA := s.hub.capacityA, capacityB := s.hub.capacityB, gap := s.gapOf
    reservation := fun e => ((s.entry e).state, (s.entry e).descriptor), engine := s.engine.state
    op := s.arbiter.executor.map Flight.op }

section schedule_eq

variable {s t : State} (h : t.schedule = s.schedule)
include h

theorem entryState_of_schedule_eq (e : EntryIx) : (t.entry e).state = (s.entry e).state :=
  congrArg (fun v => (v.reservation e).1) h

theorem engineState_of_schedule_eq : t.engine.state = s.engine.state := congrArg Schedule.engine h

theorem op_of_schedule_eq : t.arbiter.executor.map Flight.op = s.arbiter.executor.map Flight.op := congrArg Schedule.op h

end schedule_eq

/-! ### Links, notices, sessions -/

theorem TransferOnly.schedule_eq {s t : State} (h : TransferOnly s t) : t.schedule = s.schedule := by
  rw [h]
  rfl

theorem NoticesOnly.schedule_eq {s t : State} (h : NoticesOnly s t) : t.schedule = s.schedule := by
  rw [h]
  rfl

namespace State

variable (s : State)

@[simp] theorem schedule_setSession (p : Port) (x : Session) : (s.setSession p x).schedule = s.schedule := rfl

@[simp] theorem schedule_setQueue (p : Port) (x : NoticeQueue) : (s.setQueue p x).schedule = s.schedule := rfl

@[simp] theorem schedule_setInput (i : InputIx) (x : InputChannel) : (s.setInput i x).schedule = s.schedule := rfl

@[simp] theorem schedule_take (p : Port) : (s.take p).schedule = s.schedule := rfl

@[simp] theorem schedule_reply (p : Port) (r : Request) (st : Status) (b : List Byte) :
    (s.reply p r st b).schedule = s.schedule := rfl

@[simp] theorem schedule_discardReply (p : Port) : (s.discardReply p).schedule = s.schedule := rfl

@[simp] theorem schedule_takeClaim (p : Port) : (s.takeClaim p).schedule = s.schedule := rfl

@[simp] theorem schedule_recomputePeaks : s.recomputePeaks.schedule = s.schedule := rfl

@[simp] theorem schedule_ownerNotice (o : Option SessionId) (k : MaskKind) (b : NoticeBody) :
    (s.ownerNotice o k b).schedule = s.schedule := (NoticesOnly.ownerNotice s o k b).schedule_eq

@[simp] theorem schedule_windowNotice (e : EntryIx) (b : NoticeBody) :
    (s.windowNotice e b).schedule = s.schedule := (NoticesOnly.windowNotice s e b).schedule_eq

@[simp] theorem schedule_broadcast (k : MaskKind) (b : NoticeBody) : (s.broadcast k b).schedule = s.schedule :=
  (NoticesOnly.broadcast s k b).schedule_eq

/-! ### The engine's registers other than its state -/

@[simp] theorem schedule_clearSpacing : s.clearSpacing.schedule = s.schedule := rfl

@[simp] theorem schedule_stopTimer : s.stopTimer.schedule = s.schedule := rfl

@[simp] theorem schedule_setInh (b : Bool) : (s.setInh b).schedule = s.schedule := rfl

@[simp] theorem schedule_countEpisode : s.countEpisode.schedule = s.schedule := rfl

@[simp] theorem schedule_numberCycle : s.numberCycle.schedule = s.schedule := rfl

@[simp] theorem schedule_clearCounters : s.clearCounters.schedule = s.schedule := rfl

@[simp] theorem schedule_earlyEdge : s.earlyEdge.schedule = s.schedule := by
  rw [earlyEdge, schedule_broadcast]
  rfl

/-! ### Windows, lines and burst engines -/

@[simp] theorem schedule_setWindowState (e : EntryIx) (x : WindowState) :
    (s.setWindowState e x).schedule = s.schedule := rfl

@[simp] theorem schedule_setDriven (l : LineIx) (v : Level) : (s.setDriven l v).schedule = s.schedule := rfl

@[simp] theorem schedule_setHolding (l : LineIx) (w : Option EntryIx) : (s.setHolding l w).schedule = s.schedule := rfl

@[simp] theorem schedule_setBurst (g : EngineIx) (x : BurstEngine) : (s.setBurst g x).schedule = s.schedule := rfl

@[simp] theorem schedule_setJob (g : EngineIx) (j : BurstJob) : (s.setJob g j).schedule = s.schedule := rfl

@[simp] theorem schedule_dropLine (e : EntryIx) : (s.dropLine e).schedule = s.schedule := rfl

@[simp] theorem schedule_countCut : s.countCut.schedule = s.schedule := rfl

@[simp] theorem schedule_discardPlan : s.discardPlan.schedule = s.schedule := rfl

@[simp] theorem schedule_idleAllLines : s.idleAllLines.schedule = s.schedule := rfl

@[simp] theorem schedule_buildPlan (k : Nat) : (s.buildPlan k).schedule = s.schedule := rfl

/-- An entry rewritten with its state and descriptor as they were. -/
theorem schedule_setEntry {e : EntryIx} {x : Entry} (hs : x.state = (s.entry e).state)
    (hd : x.descriptor = (s.entry e).descriptor) : (s.setEntry e x).schedule = s.schedule := by
  have entry : ∀ f, (((s.setEntry e x).entry f).state, ((s.setEntry e x).entry f).descriptor) =
      ((s.entry f).state, (s.entry f).descriptor) := by
    intro f
    by_cases h : f = e
    · subst h
      rw [entry_setEntry, hs, hd]
    · rw [entry_setEntry_ne s x h]
  exact congrArg (fun r => { s.schedule with reservation := r }) (funext entry)

@[simp] theorem schedule_countFire (e : EntryIx) : (s.countFire e).schedule = s.schedule := s.schedule_setEntry rfl rfl

/-- A run of operations that each leave the schedule as it is. -/
theorem schedule_foldl {α : Type} {f : State → α → State} (h : ∀ t a, (f t a).schedule = t.schedule) (as : List α) :
    (as.foldl f s).schedule = s.schedule := by
  refine foldl_related (R := fun t u => u.schedule = t.schedule) (fun _ => rfl) ?_ h as s
  intro t u v htu huv
  exact huv.trans htu

@[simp] theorem schedule_driveWindow (e : EntryIx) (o : Bool) : (s.driveWindow e o).schedule = s.schedule := by
  unfold driveWindow
  split <;> simp

@[simp] theorem schedule_startWindow (e : EntryIx) : (s.startWindow e).schedule = s.schedule := by simp [startWindow]

@[simp] theorem schedule_startWindows (es : List EntryIx) : (s.startWindows es).schedule = s.schedule :=
  s.schedule_foldl schedule_startWindow es

@[simp] theorem schedule_endWindow (e : EntryIx) : (s.endWindow e).schedule = s.schedule := by
  unfold endWindow
  split <;> simp

@[simp] theorem schedule_endWindows (es : List EntryIx) : (s.endWindows es).schedule = s.schedule :=
  s.schedule_foldl schedule_endWindow es

@[simp] theorem schedule_cutWindow (c : Nat) (e : EntryIx) : (cutWindow c s e).schedule = s.schedule := by
  unfold cutWindow
  split <;> simp

@[simp] theorem schedule_cutCycle (c : Nat) : (s.cutCycle c).schedule = s.schedule := by
  simp [cutCycle, s.schedule_foldl (fun s e => s.schedule_cutWindow c e)]

@[simp] theorem schedule_windowBoundary : s.windowBoundary.schedule = s.schedule := by simp [windowBoundary]

@[simp] theorem schedule_gateWindow (i : InputIx) (w : PlannedWindow) : (gateWindow i s w).schedule = s.schedule := by
  unfold gateWindow
  split
  · dsimp only
    split
    · split
      · split <;> simp
      · split <;> simp
    · rfl
  · rfl

@[simp] theorem schedule_gateEdge (i : InputIx) : (s.gateEdge i).schedule = s.schedule :=
  s.schedule_foldl (fun s w => s.schedule_gateWindow i w) _

/-! ### The clock and the start of a reset -/

@[simp] theorem schedule_tick : s.tick.schedule = s.schedule := by
  have op : s.tick.arbiter.executor.map Flight.op = s.arbiter.executor.map Flight.op := by
    simp [tick, Function.comp_def]
  exact congrArg (fun o => { s.schedule with op := o }) op

@[simp] theorem schedule_holdReset (cause : ResetCause) : (s.holdReset cause).schedule = s.schedule := by
  rw [holdReset, schedule_foldl]
  · rfl
  · exact fun _ _ => rfl

end State

end Sys2Proof.Machine
end

