-- ==== Sys2Proof/Proofs/ScheduleNarrows.lean ====
section
/-! SUPPORT. `ScheduleSound` through every operation (R13, R47): reservations that are left, freed or retired keep it, whatever
else moves; a new one keeps it by the verdict of its flight; and what a taking judges stands for the flight that begins. -/

namespace Sys2Proof.Machine

/-! ### Members and their entries -/

theorem EntryState.ne_free_iff {x : EntryState} : x ≠ .free ↔ x.inNextEpoch = true ∨ x.inFiring = true := by
  cases x <;> simp [inNextEpoch, inFiring]

theorem mem_nextEpochEntries {s : State} {e : EntryIx} :
    e ∈ s.nextEpochEntries ↔ (s.entry e).state.inNextEpoch = true := by
  simp [State.nextEpochEntries, mem_allEntries]

theorem mem_firingEntries {s : State} {e : EntryIx} : e ∈ s.firingEntries ↔ (s.entry e).state.inFiring = true := by
  simp [State.firingEntries, mem_allEntries]

theorem nodup_nextEpochEntries (s : State) : s.nextEpochEntries.Nodup := nodup_allEntries.filter _

theorem nodup_firingEntries (s : State) : s.firingEntries.Nodup := nodup_allEntries.filter _

theorem map_d_memberOf (s : State) (es : List EntryIx) :
    (es.map s.memberOf).map Member.d = es.map fun e => (s.entry e).descriptor := by
  simp [State.memberOf, Function.comp_def]

/-- Members of entries that are all in another list of entries, with the descriptors they have there, are a part of its
members. -/
theorem members_subperm {s t : State} {es fs : List EntryIx} (nd : es.Nodup) (hsub : es ⊆ fs)
    (hd : ∀ e ∈ es, (t.entry e).descriptor = (s.entry e).descriptor) :
    ((es.map t.memberOf).map Member.d).Subperm ((fs.map s.memberOf).map Member.d) := by
  rw [map_d_memberOf, map_d_memberOf, List.map_congr_left hd]
  exact subperm_map _ (nd.subperm hsub)

/-- The same beside a candidate. -/
theorem members_append_subperm {s t : State} {es fs : List EntryIx} (nd : es.Nodup) (hsub : es ⊆ fs)
    (hd : ∀ e ∈ es, (t.entry e).descriptor = (s.entry e).descriptor) (d : Descriptor) :
    ((es.map t.memberOf ++ [candidate d]).map Member.d).Subperm ((fs.map s.memberOf ++ [candidate d]).map Member.d) := by
  rw [List.map_append, List.map_append, List.subperm_append_right]
  exact members_subperm nd hsub hd

/-! ### Reservations left, freed or retired -/

/-- From s to t no reservation is new: each is left as it was, freed, activated or retired; those that then fire were all
firing, or were all in the next-epoch set; and none is RETIRING in STOPPED. The rest that judges a set is unchanged. -/
structure ScheduleNarrows (s t : State) : Prop where
  cycleLength : t.hub.cycleLength = s.hub.cycleLength
  capacityA : t.hub.capacityA = s.hub.capacityA
  capacityB : t.hub.capacityB = s.hub.capacityB
  gap : t.gapOf = s.gapOf
  descriptor : ∀ e, (t.entry e).state ≠ .free → (t.entry e).descriptor = (s.entry e).descriptor
  nextEpoch : ∀ e, (t.entry e).state.inNextEpoch = true → (s.entry e).state.inNextEpoch = true
  firing : (∀ e, (t.entry e).state.inFiring = true → (s.entry e).state.inFiring = true)
    ∨ ∀ e, (t.entry e).state.inFiring = true → (s.entry e).state.inNextEpoch = true
  stopped : t.engine.state = .stopped → ∀ e, (t.entry e).state.isRetiring = false

namespace ScheduleNarrows

variable {s t : State} (n : ScheduleNarrows s t)
include n

theorem descriptor_of_nextEpoch {e : EntryIx} (h : (t.entry e).state.inNextEpoch = true) :
    (t.entry e).descriptor = (s.entry e).descriptor :=
  n.descriptor e (EntryState.ne_free_iff.2 (.inl h))

theorem descriptor_of_firing {e : EntryIx} (h : (t.entry e).state.inFiring = true) :
    (t.entry e).descriptor = (s.entry e).descriptor :=
  n.descriptor e (EntryState.ne_free_iff.2 (.inr h))

/-- A reservation of t is one of s. -/
theorem ne_free {e : EntryIx} (h : (t.entry e).state ≠ .free) : (s.entry e).state ≠ .free := by
  rw [EntryState.ne_free_iff] at *
  rcases h with h | h
  · exact .inl (n.nextEpoch e h)
  · rcases n.firing with hf | hf
    · exact .inr (hf e h)
    · exact .inl (hf e h)

theorem conflictFree {ms : List Member} (h : ConflictFree s.hub s.gapOf ms) : ConflictFree t.hub t.gapOf ms := by
  rw [n.gap]
  exact h.of_hub n.cycleLength n.capacityA n.capacityB

/-- Whatever is drawn from the next-epoch set of t is a part of the same drawn from that of s. -/
theorem nextEpoch_subperm {es fs : List EntryIx} (nd : es.Nodup) (hsub : es ⊆ fs) (he : es ⊆ t.nextEpochEntries) :
    ((es.map t.memberOf).map Member.d).Subperm ((fs.map s.memberOf).map Member.d) :=
  members_subperm nd hsub fun _ h => n.descriptor_of_nextEpoch (mem_nextEpochEntries.1 (he h))

theorem nextEpochEntries_subset : t.nextEpochEntries ⊆ s.nextEpochEntries := fun e h =>
  mem_nextEpochEntries.2 (n.nextEpoch e (mem_nextEpochEntries.1 h))

theorem nextEpochSet_subperm : (t.nextEpochSet.map Member.d).Subperm (s.nextEpochSet.map Member.d) :=
  n.nextEpoch_subperm (nodup_nextEpochEntries t) n.nextEpochEntries_subset fun _ h => h

/-- The firing set of t is a part of the firing set of s or of its next-epoch set. -/
theorem firing_conflictFree (h : ScheduleSound s) : ConflictFree t.hub t.gapOf t.firingSet := by
  refine n.conflictFree ?_
  have descriptor : ∀ e ∈ t.firingEntries, (t.entry e).descriptor = (s.entry e).descriptor := fun e he =>
    n.descriptor_of_firing (mem_firingEntries.1 he)
  rcases n.firing with hf | hf
  · refine h.firing.of_subperm (members_subperm (nodup_firingEntries t) (fun e he => ?_) descriptor)
    exact mem_firingEntries.2 (hf e (mem_firingEntries.1 he))
  · refine h.nextEpoch.of_subperm (members_subperm (nodup_firingEntries t) (fun e he => ?_) descriptor)
    exact mem_nextEpochEntries.2 (hf e (mem_firingEntries.1 he))

theorem ranges (h : ScheduleSound s) (e : EntryIx) (he : (t.entry e).state ≠ .free) :
    (t.entry e).descriptor.InRange t.hub.cycleLength := by
  rw [n.descriptor e he, n.cycleLength]
  exact h.ranges e (n.ne_free he)

/-- The schedule stays sound when what the flight has found stands. -/
theorem sound (h : ScheduleSound s) (flight : ∀ f ∈ t.arbiter.executor, FlightStands t f.op) : ScheduleSound t where
  nextEpoch := n.conflictFree (h.nextEpoch.of_subperm n.nextEpochSet_subperm)
  firing := n.firing_conflictFree h
  ranges := n.ranges h
  stopped := n.stopped
  flight := flight

/-- The schedule stays sound with no flight in progress. -/
theorem sound_of_free (h : ScheduleSound s) (free : t.arbiter.executor = none) : ScheduleSound t :=
  n.sound h fun f hf => by simp [free] at hf

/-- What a flight has found stands while its old entry stays in the next-epoch set and a STOPPED engine stays STOPPED. -/
theorem flightStands {op : FlightOp} (h : FlightStands s op)
    (keeps : ∀ e, (s.entry e).state.inNextEpoch = true → (t.entry e).state.inNextEpoch = true)
    (stops : s.engine.state = .stopped → t.engine.state = .stopped) : FlightStands t op := by
  match op with
  | .add (.pass d) =>
    obtain ⟨hr, hc⟩ := h
    refine ⟨n.cycleLength ▸ hr, n.conflictFree (hc.of_subperm ?_)⟩
    rw [List.map_append, List.map_append, List.subperm_append_right]
    exact n.nextEpochSet_subperm
  | .replace (.pass r) =>
    obtain ⟨hr, ho, hs, hc⟩ := h
    refine ⟨n.cycleLength ▸ hr, keeps _ ho, fun k => stops (hs k), n.conflictFree (hc.of_subperm ?_)⟩
    rw [List.map_append, List.map_append, List.subperm_append_right]
    exact n.nextEpoch_subperm ((nodup_nextEpochEntries t).filter _) (List.filter_subset _ n.nextEpochEntries_subset)
      (List.filter_subset_self _)
  | .setHub (.pass hub) =>
    obtain ⟨hs, hr, ha, hb, hca, hcb⟩ := h
    refine ⟨stops hs, fun e he => ?_, ?_, ?_, .of_subperm n.nextEpochSet_subperm hca, .of_subperm n.nextEpochSet_subperm hcb⟩
    · rw [n.descriptor e he]
      exact hr e (n.ne_free he)
    · exact n.gap ▸ .of_subperm n.nextEpochSet_subperm ha
    · exact n.gap ▸ .of_subperm n.nextEpochSet_subperm hb
  | .add (.refuse _ _) => trivial
  | .replace (.refuse _ _) => trivial
  | .setHub (.refuse _ _) => trivial

end ScheduleNarrows

/-- States whose schedules agree but for the flight in progress. -/
theorem ScheduleSound.narrows {s t : State} (h : ScheduleSound s)
    (e : { t.schedule with op := s.schedule.op } = s.schedule) : ScheduleNarrows s t := by
  have state : ∀ f, (t.entry f).state = (s.entry f).state := fun f => congrArg (fun v => (v.reservation f).1) e
  have engine : t.engine.state = s.engine.state := congrArg Schedule.engine e
  exact
    { cycleLength := congrArg Schedule.cycleLength e
      capacityA := congrArg Schedule.capacityA e
      capacityB := congrArg Schedule.capacityB e
      gap := congrArg Schedule.gap e
      descriptor := fun f _ => congrArg (fun v => (v.reservation f).2) e
      nextEpoch := fun f hf => state f ▸ hf
      firing := .inl fun f hf => state f ▸ hf
      stopped := fun hs f => by rw [state]; exact h.stopped (engine ▸ hs) f }

/-- A state with the schedule of a sound one is sound. -/
theorem ScheduleSound.of_schedule_eq {s t : State} (h : ScheduleSound s) (e : t.schedule = s.schedule) : ScheduleSound t := by
  have n : ScheduleNarrows s t := h.narrows (by rw [e])
  refine n.sound h fun f hf => ?_
  obtain ⟨g, hg, hop⟩ : ∃ g ∈ s.arbiter.executor, g.op = f.op := by
    have := op_of_schedule_eq e
    rw [Option.mem_def.1 hf] at this
    simpa using this.symm
  rw [← hop]
  exact n.flightStands (h.flight g hg) (fun f hf => by rw [entryState_of_schedule_eq e]; exact hf)
    fun hs => (engineState_of_schedule_eq e).trans hs

end Sys2Proof.Machine
end

