-- ==== Sys2Proof/Proofs/ScheduleEvents.lean ====
section
/-! SUPPORT. `ScheduleSound` through the cycle engine, the inputs and the ends of sessions (R13, R15, R16, R47). -/

namespace Sys2Proof.Machine

/-! ### Entries freed, activated and retired -/

@[simp] theorem Entry.atBoundary_descriptor (x : Entry) : x.atBoundary.descriptor = x.descriptor := by
  cases h : x.state <;> simp [atBoundary, h, freedEntry]

/-- At a boundary the next-epoch set stays. -/
@[simp] theorem Entry.atBoundary_inNextEpoch (x : Entry) : x.atBoundary.state.inNextEpoch = x.state.inNextEpoch := by
  cases h : x.state <;> simp [atBoundary, h, freedEntry, EntryState.inNextEpoch]

/-- At a boundary the next-epoch set becomes the firing set. -/
@[simp] theorem Entry.atBoundary_inFiring (x : Entry) : x.atBoundary.state.inFiring = x.state.inNextEpoch := by
  cases h : x.state <;> simp [atBoundary, h, freedEntry, EntryState.inNextEpoch, EntryState.inFiring]

@[simp] theorem Entry.atBoundary_isRetiring (x : Entry) : x.atBoundary.state.isRetiring = false := by
  cases h : x.state <;> simp [atBoundary, h, freedEntry, EntryState.isRetiring]

@[simp] theorem Entry.atStop_descriptor (x : Entry) : x.atStop.descriptor = x.descriptor := by
  cases h : x.state <;> simp [atStop, h, freedEntry, EntryState.isRetiring]

@[simp] theorem Entry.atStop_inNextEpoch (x : Entry) : x.atStop.state.inNextEpoch = x.state.inNextEpoch := by
  cases h : x.state <;> simp [atStop, h, freedEntry, EntryState.isRetiring, EntryState.inNextEpoch]

theorem Entry.inFiring_of_atStop {x : Entry} (hx : x.atStop.state.inFiring = true) : x.state.inFiring = true := by
  cases h : x.state <;> simp_all [atStop, freedEntry, EntryState.isRetiring, EntryState.inFiring]

@[simp] theorem Entry.atStop_isRetiring (x : Entry) : x.atStop.state.isRetiring = false := by
  cases h : x.state <;> simp [atStop, h, freedEntry, EntryState.isRetiring]

/-! ### Engine states, epoch processing and the entry into STOPPED -/

/-- The engine may leave STOPPED: it is not there, or no flight is in progress (a flight may rest on a STOPPED engine). -/
def State.MayStart (s : State) : Prop := s.engine.state = .stopped → s.arbiter.executor = none

theorem State.MayStart.of_state {s : State} {x : EngineState} (h : s.engine.state = x) (hx : x ≠ .stopped) : s.MayStart :=
  fun hs => absurd (h.symm.trans hs) hx

theorem State.MayStart.of_schedule_eq {s t : State} (h : s.MayStart) (e : t.schedule = s.schedule) : t.MayStart := by
  intro hs
  have free := h ((engineState_of_schedule_eq e).symm.trans hs)
  have op := op_of_schedule_eq e
  rw [free] at op
  simpa using op

/-- What only the schedule in motion may differ in has the hub record and the recovery gaps as they were. -/
theorem ScheduleNarrows.of_scheduleOnly {s t : State} (only : ScheduleOnly s t)
    (descriptor : ∀ e, (t.entry e).state ≠ .free → (t.entry e).descriptor = (s.entry e).descriptor)
    (nextEpoch : ∀ e, (t.entry e).state.inNextEpoch = true → (s.entry e).state.inNextEpoch = true)
    (firing : (∀ e, (t.entry e).state.inFiring = true → (s.entry e).state.inFiring = true)
      ∨ ∀ e, (t.entry e).state.inFiring = true → (s.entry e).state.inNextEpoch = true)
    (stopped : t.engine.state = .stopped → ∀ e, (t.entry e).state.isRetiring = false) : ScheduleNarrows s t where
  cycleLength := by rw [only.hub]
  capacityA := by rw [only.hub]
  capacityB := by rw [only.hub]
  gap := by unfold State.gapOf State.line; rw [only.lines]
  descriptor := descriptor
  nextEpoch := nextEpoch
  firing := firing
  stopped := stopped

namespace ScheduleSound

variable {s : State} (h : ScheduleSound s)
include h

/-- What the schedule in motion does keeps the schedule sound, with the flight in progress, when no reservation is new, the
next-epoch set stays and a STOPPED engine with a flight stays STOPPED. -/
theorem of_scheduleOnly {t : State} (only : ScheduleOnly s t) (n : ScheduleNarrows s t)
    (keeps : ∀ e, (t.entry e).state.inNextEpoch = (s.entry e).state.inNextEpoch)
    (stops : s.engine.state = .stopped → t.engine.state = .stopped ∨ s.arbiter.executor = none) : ScheduleSound t := by
  refine n.sound h fun f hf => ?_
  rw [only.arbiter] at hf
  refine n.flightStands (h.flight f hf) (fun e he => (keeps e).trans he) fun hs => (stops hs).resolve_right fun free => ?_
  rw [free] at hf
  cases hf

/-- A change of the engine to a state other than STOPPED. -/
theorem changeEngine {x : EngineState} (hx : x ≠ .stopped) (start : s.MayStart) : ScheduleSound (s.changeEngine x) := by
  have entry : ∀ e, (s.changeEngine x).entry e = s.entry e := fun e => by
    rw [State.entry, State.changeEngine_entries, State.entry]
  have running : (s.changeEngine x).engine.state ≠ .stopped := by rwa [State.changeEngine_engine]
  have only := ScheduleOnly.changeEngine s x
  refine h.of_scheduleOnly only (.of_scheduleOnly only ?_ ?_ (.inl ?_) fun hs => absurd hs running) ?_
    fun hs => .inr (start hs)
  all_goals simp [entry]

/-- At an epoch boundary the next-epoch set comes into force (R15). -/
theorem epochProcessing (c : CycleNumber) : ScheduleSound (s.epochProcessing c) := by
  have only := ScheduleOnly.epochProcessing s c
  refine h.of_scheduleOnly only (.of_scheduleOnly only ?_ ?_ (.inr ?_) ?_) ?_ fun hs => .inl ?_
  · simp [State.epochProcessing_entry]
  · simp [State.epochProcessing_entry]
  · simp [State.epochProcessing_entry]
  · simp [State.epochProcessing_entry]
  · simp [State.epochProcessing_entry]
  · rw [(s.epochProcessing_only c).engine]
    exact hs

/-- At the entry into STOPPED the RETIRING entries go (R16). -/
theorem enterStopped : ScheduleSound s.enterStopped := by
  have only := ScheduleOnly.enterStopped s
  refine h.of_scheduleOnly only (.of_scheduleOnly only ?_ ?_ (.inl fun e he => ?_) ?_) ?_ fun _ => .inl ?_
  · simp [State.enterStopped_entry]
  · simp [State.enterStopped_entry]
  · rw [State.enterStopped_entry] at he
    exact Entry.inFiring_of_atStop he
  · simp [State.enterStopped_entry]
  · simp [State.enterStopped_entry]
  · rw [State.enterStopped_engine]

/-! ### The cycle engine's events -/

/-- A cycle start: numbering, RUNNING, the boundary when k is 0, the plan and the first windows (R62). -/
theorem cycleStart (start : s.MayStart) : ScheduleSound s.cycleStart := by
  have numbered : ScheduleSound s.numberCycle := h.of_schedule_eq s.schedule_numberCycle
  have running : ScheduleSound s.numberCycle.enterRunning := by
    unfold State.enterRunning
    split
    · exact numbered
    · exact numbered.changeEngine (by decide) (start.of_schedule_eq s.schedule_numberCycle)
  have boundary : ScheduleSound (s.numberCycle.enterRunning.processBoundary s.engine.nextNumber) := by
    unfold State.processBoundary
    split
    · exact running.epochProcessing _
    · exact running
  exact boundary.of_schedule_eq ((State.schedule_startWindows _ _).trans (State.schedule_buildPlan _ _))

theorem firstVote (start : s.MayStart) : ScheduleSound s.firstVote := by
  unfold State.firstVote
  split
  · split
    · exact h.changeEngine (by decide) start
    · split
      · exact h.cycleStart start
      · exact h.changeEngine (by decide) start
      · exact h.changeEngine (by decide) start
  · exact h.changeEngine (by decide) start
  · exact h

theorem lastVoteCleared : ScheduleSound s.lastVoteCleared := by
  unfold State.lastVoteCleared
  split
  · exact h.enterStopped
  · rename_i running
    exact h.changeEngine (by decide) (.of_state running (by decide))
  · exact h.enterStopped
  · exact h

theorem cycleEnd : ScheduleSound s.cycleEnd := by
  have closed : (s.endWindows s.openEntries).discardPlan.clearSpacing.schedule = s.schedule := by simp
  have ended : (s.endWindows s.openEntries).discardPlan.clearSpacing.stopTimer.schedule = s.schedule := by simp
  unfold State.cycleEnd
  dsimp only
  split
  · rename_i running _
    exact (h.of_schedule_eq closed).cycleStart (State.MayStart.of_schedule_eq (.of_state running (by decide)) closed)
  · rename_i running _
    exact (h.of_schedule_eq ended).changeEngine (by decide)
      (State.MayStart.of_schedule_eq (.of_state running (by decide)) ended)
  · exact (h.of_schedule_eq ended).enterStopped

theorem spacingEnd : ScheduleSound s.spacingEnd := by
  have spaced : s.clearSpacing.stopTimer.schedule = s.schedule := by simp
  unfold State.spacingEnd
  dsimp only
  split
  · rename_i waiting _
    exact (h.of_schedule_eq spaced).cycleStart (State.MayStart.of_schedule_eq (.of_state waiting (by decide)) spaced)
  · exact h.of_schedule_eq spaced

theorem qualifyingEdge : ScheduleSound s.qualifyingEdge := by
  have early : ScheduleSound s.earlyEdge := h.of_schedule_eq s.schedule_earlyEdge
  unfold State.qualifyingEdge
  split
  · exact h
  · rename_i waiting _
    exact h.cycleStart (.of_state waiting (by decide))
  · exact early
  · exact early
  · exact early
  · exact h
  · exact h

theorem inhAssert : ScheduleSound s.inhAssert := by
  have cut : ((s.setInh true).cutCycle s.eventOffset).countEpisode.schedule = s.schedule := by simp
  have counted : (s.setInh true).countEpisode.schedule = s.schedule := by simp
  unfold State.inhAssert
  dsimp only
  split
  · rename_i running
    exact (h.of_schedule_eq cut).changeEngine (by decide)
      (State.MayStart.of_schedule_eq (.of_state running (by decide)) cut)
  · rename_i waiting
    exact (h.of_schedule_eq counted).changeEngine (by decide)
      (State.MayStart.of_schedule_eq (.of_state waiting (by decide)) counted)
  · exact (h.of_schedule_eq cut).enterStopped
  · exact h.of_schedule_eq (s.schedule_setInh true)
  · exact h.of_schedule_eq (s.schedule_setInh true)

theorem inhRelease : ScheduleSound s.inhRelease := by
  have released : ScheduleSound (s.setInh false) := h.of_schedule_eq (s.schedule_setInh false)
  have start (held : s.engine.state = .held) : (s.setInh false).MayStart :=
    State.MayStart.of_schedule_eq (.of_state held (by decide)) (s.schedule_setInh false)
  unfold State.inhRelease
  dsimp only
  split
  · rename_i held _ _
    exact released.cycleStart (start held)
  · rename_i held _ _
    exact released.changeEngine (by decide) (start held)
  · rename_i held _
    exact released.changeEngine (by decide) (start held)
  · exact released

/-! ### The inputs -/

theorem qualify (i : InputIx) : ScheduleSound (s.qualify i) := by
  have edge (t : State) (ht : ScheduleSound t) : ScheduleSound (t.handEdge i) := by
    have gated : ScheduleSound (t.gateEdge i) := ht.of_schedule_eq (t.schedule_gateEdge i)
    unfold State.handEdge
    dsimp only
    split
    · exact gated.qualifyingEdge
    · exact gated
  exact edge _ (h.of_schedule_eq (s.schedule_setInput i _))

theorem rawChange (i : InputIx) : ScheduleSound (s.rawChange i) := by
  have changed (x : InputChannel) : ScheduleSound (s.setInput i x) := h.of_schedule_eq (s.schedule_setInput i x)
  unfold State.rawChange
  dsimp only
  split
  · exact (changed _).qualify i
  · split
    · exact (changed _).of_schedule_eq (State.schedule_setInput _ i _)
    · exact (changed _).of_schedule_eq (State.schedule_setInput _ i _)

theorem rejudgeInput (i : InputIx) : ScheduleSound (s.rejudgeInput i) := by
  unfold State.rejudgeInput
  split
  · exact h.qualify i
  · exact h

theorem rejudgeInputs (is : List InputIx) : ScheduleSound (is.foldl State.rejudgeInput s) :=
  List.foldlRecOn is _ h fun _ ht i _ => ht.rejudgeInput i

/-! ### The end of a session -/

theorem dropVote (p : Port) (x : Session) : ScheduleSound (s.dropVote p x) := by
  have recorded : ScheduleSound (s.setSession p x) := h.of_schedule_eq (s.schedule_setSession p x)
  unfold State.dropVote
  dsimp only
  split
  · exact recorded.lastVoteCleared
  · exact recorded

theorem endSession (p : Port) (expired : Bool) : ScheduleSound (s.endSession p expired) := by
  refine (h.dropVote p (s.session p).ended).of_schedule_eq ?_
  unfold State.endSession
  cases expired <;> rfl

end ScheduleSound

end Sys2Proof.Machine
end

