-- ==== Sys2Proof/Proofs/ScheduleAdmission.lean ====
section
/-! SUPPORT. `ScheduleSound` through the requests and completions that write the reservation table, the line table and the hub
record; what a taking judges stands for its flight (R24 to R47, R164 to R167); and every step keeps it (R13). -/

namespace Sys2Proof.Machine

/-! ### A descriptor offered in ADD or REPLACE (R25, R26) -/

theorem byteAt_lt (f : List Byte) (i : Nat) : (byteAt f i).toNat < 256 := (byteAt f i).isLt

theorem word16At_le (f : List Byte) (i : Nat) : word16At f i ≤ 65535 := by
  have := byteAt_lt f i
  have := byteAt_lt f (i + 1)
  unfold word16At
  omega

/-- The burst part of a descriptor is in range (R1). -/
theorem windowKindOf_burst {f : List Byte} {part : BurstPart} (h : windowKindOf f = some (.burst part)) :
    1 ≤ part.highTime ∧ part.highTime ≤ 65535 ∧ 1 ≤ part.lowTime ∧ part.lowTime ≤ 65535
      ∧ ∀ c ∈ part.count, 1 ≤ c ∧ c ≤ 254 := by
  unfold windowKindOf at h
  split at h
  · cases h
  · split at h
    · cases h
    · rename_i positive
      obtain ⟨hhigh, hlow, hcount⟩ : word16At f 16 ≠ 0 ∧ word16At f 18 ≠ 0 ∧ (byteAt f 20).toNat ≠ 0 := by
        simpa only [not_or] using positive
      cases h
      have high := word16At_le f 16
      have low := word16At_le f 18
      have count := byteAt_lt f 20
      refine ⟨Nat.one_le_iff_ne_zero.2 hhigh, high, Nat.one_le_iff_ne_zero.2 hlow, low, fun c hc => ?_⟩
      dsimp only at hc
      split at hc
      · cases hc
      · cases hc
        omega
  · cases h

/-- What fits a cycle length, with a burst part in range, is in range. -/
theorem Descriptor.inRange_of_fits {d : Descriptor} {cycleLength : Nat} (h : d.fits cycleLength = true)
    (burst : ∀ part, d.kind = .burst part →
      1 ≤ part.highTime ∧ part.highTime ≤ 65535 ∧ 1 ≤ part.lowTime ∧ part.lowTime ≤ 65535
        ∧ ∀ c ∈ part.count, 1 ≤ c ∧ c ≤ 254) : d.InRange cycleLength := by
  simp only [fits, Bool.and_eq_true, Bool.or_eq_true, decide_eq_true_eq] at h
  obtain ⟨⟨⟨⟨⟨⟨⟨hstart, hlong⟩, -⟩, hstop⟩, hpattern⟩, hpositions⟩, hdraw⟩, hrail⟩ := h
  refine ⟨hstart, hlong, hstop, hpattern, fun i _ hi => ?_, hdraw, fun hn => ?_, ?_⟩
  · exact Nat.testBit_lt_two_pow (hpositions.trans_le (Nat.pow_le_pow_right (by decide) hi))
  · simpa [hn] using hrail
  · cases hk : d.kind with
    | solid => trivial
    | burst part => exact burst part hk

theorem descriptorOf_inRange {cycleLength : Nat} {f : List Byte} {d : Descriptor}
    (h : descriptorOf cycleLength f = some d) : d.InRange cycleLength := by
  unfold descriptorOf at h
  split at h
  · cases h
  · split at h
    · rename_i kind _ _ _ _ hkind _ _ _
      dsimp only at h
      split at h
      · rename_i hfits
        cases h
        exact Descriptor.inRange_of_fits hfits fun part hp => windowKindOf_burst (by rw [hkind]; exact congrArg some hp)
      · cases h
    · cases h

/-- A range under one cycle length is a range under another that the window fits. -/
theorem Descriptor.InRange.of_stop_le {d : Descriptor} {l l' : Nat} (h : d.InRange l) (hs : d.stop ≤ l') : d.InRange l' := by
  have long := h.duration
  unfold Descriptor.stop at hs
  exact { h with start := by omega, stop := hs }

/-! ### What a taking judges stands for its flight (R47) -/

/-- An entry that is neither FREE nor RETIRING is in the next-epoch set. -/
theorem EntryState.inNextEpoch_of {x : EntryState} (hf : x ≠ .free) (hr : x.isRetiring = false) :
    x.inNextEpoch = true := by
  cases x <;> simp_all [EntryState.isRetiring, EntryState.inNextEpoch]

namespace ScheduleSound

variable {s : State}

theorem judgeAdd_stands (s : State) (me : SessionId) (f : List Byte) : FlightStands s (.add (s.judgeAdd me f)) := by
  cases hv : s.judgeAdd me f with
  | refuse _ _ => trivial
  | pass d =>
    unfold State.judgeAdd at hv
    split at hv
    · cases hv
    · rename_i hd
      simp only [failWhen_eq_pass, State.judgeTrial_eq_pass] at hv
      obtain ⟨-, -, free, rfl⟩ := hv
      exact ⟨descriptorOf_inRange hd, free⟩

theorem judgeReplace_stands (s : State) (me : SessionId) (f : List Byte) :
    FlightStands s (.replace (s.judgeReplace me f)) := by
  cases hv : s.judgeReplace me f with
  | refuse _ _ => trivial
  | pass r =>
    unfold State.judgeReplace at hv
    split at hv
    · cases hv
    · split at hv
      · cases hv
      · simp only [failWhen_eq_pass, Bool.not_eq_false'] at hv
        obtain ⟨hm, -, hr, hv⟩ := hv
        have old := EntryState.inNextEpoch_of (State.matchesHandle_eq_true.1 hm).1 hr
        unfold State.judgeReplacement at hv
        split at hv
        · cases hv
        · rename_i hd
          simp only [failWhen_eq_pass, State.judgeTrial_eq_pass] at hv
          obtain ⟨-, -, free, rfl⟩ := hv
          exact ⟨descriptorOf_inRange hd, old, of_decide_eq_true, free⟩

theorem judgeSetHub_stands (h : ScheduleSound s) (f : List Byte) : FlightStands s (.setHub (s.judgeSetHub f)) := by
  cases hv : s.judgeSetHub f with
  | refuse _ _ => trivial
  | pass hub =>
    unfold State.judgeSetHub at hv
    rw [failWhen_eq_pass] at hv
    obtain ⟨hs, hv⟩ := hv
    split at hv
    · cases hv
    · unfold State.judgeHub at hv
      split at hv
      · cases hv
      · rename_i fits
        simp only [failWithReport_eq_pass, conflictReport_eq_none, lineFailures_eq_nil, railFailures_eq_nil,
          Verdict.pass.injEq] at hv
        obtain ⟨⟨ha, hb⟩, ⟨hca, hcb⟩, rfl⟩ := hv
        refine ⟨by simpa using hs, fun e he => (h.ranges e he).of_stop_le ?_, ha, hb, hca, hcb⟩
        have := find_allEntries_eq_none.1 fits e
        simpa [he] using this

/-! ### One entry rewritten -/

/-- An entry freed or retired, with no flight in progress. -/
theorem setEntry (h : ScheduleSound s) (free : s.arbiter.executor = none) {e : EntryIx} {x : Entry}
    (descriptor : x.descriptor = (s.entry e).descriptor)
    (nextEpoch : x.state.inNextEpoch = true → (s.entry e).state.inNextEpoch = true)
    (firing : x.state.inFiring = true → (s.entry e).state.inFiring = true)
    (stopped : s.engine.state = .stopped → x.state.isRetiring = false) : ScheduleSound (s.setEntry e x) := by
  have at_entry {P : EntryIx → Entry → Prop} (he : P e x) (hne : ∀ f, P f (s.entry f)) (f : EntryIx) :
      P f ((s.setEntry e x).entry f) := by
    by_cases hf : f = e
    · subst hf
      rwa [State.entry_setEntry]
    · rw [State.entry_setEntry_ne s x hf]
      exact hne f
  refine ScheduleNarrows.sound_of_free (.of_scheduleOnly (.setEntry s e x) ?_ ?_ (.inl ?_) fun hs => ?_) h free
  · exact at_entry (P := fun f y => y.state ≠ .free → y.descriptor = (s.entry f).descriptor) (fun _ => descriptor)
      fun _ _ => rfl
  · exact at_entry (P := fun f y => y.state.inNextEpoch = true → (s.entry f).state.inNextEpoch = true) nextEpoch
      fun _ hf => hf
  · exact at_entry (P := fun f y => y.state.inFiring = true → (s.entry f).state.inFiring = true) firing fun _ hf => hf
  · exact at_entry (P := fun _ y => y.state.isRetiring = false) (stopped hs) fun f => h.stopped hs f

theorem freeEntry (h : ScheduleSound s) (free : s.arbiter.executor = none) (e : EntryIx) : ScheduleSound (s.freeEntry e) :=
  h.setEntry free rfl (by simp [freedEntry, EntryState.inNextEpoch]) (by simp [freedEntry, EntryState.inFiring])
    (by simp [freedEntry, EntryState.isRetiring])

/-- An ACTIVE entry becomes RETIRING while the engine is not STOPPED. -/
theorem retire (h : ScheduleSound s) (free : s.arbiter.executor = none) {e : EntryIx} {w o : SessionId}
    (he : (s.entry e).state = .active w) (running : s.engine.state ≠ .stopped) (why : RetireReason) :
    ScheduleSound (s.setEntry e { s.entry e with state := .retiring o why }) :=
  h.setEntry free rfl (by simp [EntryState.inNextEpoch]) (by simp [he, EntryState.inFiring]) fun hs => absurd hs running

end ScheduleSound

/-! ### A new reservation (R36) -/

namespace State

variable {s : State} {e : EntryIx} {o : SessionId} {d : Descriptor}

theorem entry_writePending :
    (s.writePending e o d).entry e =
      { state := .pending o, generation := (s.entry e).generation, descriptor := d, fireCount := 0 } := entry_setEntry ..

theorem entry_writePending_ne {f : EntryIx} (hf : f ≠ e) : (s.writePending e o d).entry f = s.entry f :=
  entry_setEntry_ne s _ hf

/-- A new reservation adds itself to the next-epoch set, and no more. -/
theorem nextEpochSet_writePending_subperm (he : (s.entry e).state = .free) :
    ((s.writePending e o d).nextEpochSet.map Member.d).Subperm ((s.nextEpochSet ++ [candidate d]).map Member.d) := by
  have sub : (s.writePending e o d).nextEpochEntries ⊆ e :: s.nextEpochEntries := by
    intro f hf
    by_cases hfe : f = e
    · simp [hfe]
    · rw [mem_nextEpochEntries, entry_writePending_ne hfe] at hf
      exact List.mem_cons_of_mem _ (mem_nextEpochEntries.2 hf)
  have old : (s.nextEpochEntries.map fun f => ((s.writePending e o d).entry f).descriptor) =
      s.nextEpochEntries.map fun f => (s.entry f).descriptor := by
    refine List.map_congr_left fun f hf => ?_
    rw [entry_writePending_ne]
    rintro rfl
    rw [mem_nextEpochEntries, he] at hf
    cases hf
  have part := subperm_map (fun f => ((s.writePending e o d).entry f).descriptor)
    ((nodup_nextEpochEntries (s.writePending e o d)).subperm sub)
  rw [List.map_cons, old, entry_writePending] at part
  rw [List.map_append, nextEpochSet, nextEpochSet, map_d_memberOf, map_d_memberOf]
  exact part.trans (List.perm_append_singleton _ _).symm.subperm

/-- A new reservation is not in the firing set. -/
theorem firingSet_writePending_subperm :
    ((s.writePending e o d).firingSet.map Member.d).Subperm (s.firingSet.map Member.d) := by
  have firing : ∀ f ∈ (s.writePending e o d).firingEntries, f ≠ e ∧ f ∈ s.firingEntries := by
    intro f hf
    have hfe : f ≠ e := by
      rintro rfl
      rw [mem_firingEntries, entry_writePending] at hf
      cases hf
    rw [mem_firingEntries, entry_writePending_ne hfe] at hf
    exact ⟨hfe, mem_firingEntries.2 hf⟩
  exact members_subperm (nodup_firingEntries _) (fun f hf => (firing f hf).2)
    fun f hf => by rw [entry_writePending_ne (firing f hf).1]

end State

/-- A new reservation on a FREE entry, of a descriptor in range that leaves the next-epoch set conflict-free (R36). -/
theorem ScheduleSound.writePending {s : State} (h : ScheduleSound s) (free : s.arbiter.executor = none) {e : EntryIx}
    {o : SessionId} {d : Descriptor} (he : (s.entry e).state = .free) (hr : d.InRange s.hub.cycleLength)
    (hc : ConflictFree s.hub s.gapOf (s.nextEpochSet ++ [candidate d])) : ScheduleSound (s.writePending e o d) where
  nextEpoch := hc.of_subperm (State.nextEpochSet_writePending_subperm he)
  firing := h.firing.of_subperm State.firingSet_writePending_subperm
  ranges f hf := by
    by_cases hfe : f = e
    · rw [hfe, State.entry_writePending]
      exact hr
    · rw [State.entry_writePending_ne hfe] at *
      exact h.ranges f hf
  stopped hs f := by
    by_cases hfe : f = e
    · rw [hfe, State.entry_writePending]
      rfl
    · rw [State.entry_writePending_ne hfe]
      exact h.stopped hs f
  flight f hf := by
    have : f ∈ s.arbiter.executor := hf
    simp [free] at this

end Sys2Proof.Machine
end

