-- ==== Sys2Proof/Proofs/ScheduleSteps.lean ====
section
/-! SUPPORT. `ScheduleSound` through the commands: the requests and completions that write the reservation table, the line table
and the hub record, the flights, and so every step (R13, R47). -/

namespace Sys2Proof.Machine

/-! ### What the table's commands leave -/

namespace State

variable (s : State)

/-- Two entries rewritten in either order. -/
theorem setEntry_comm {e f : EntryIx} (x y : Entry) (h : e ≠ f) :
    (s.setEntry e x).setEntry f y = (s.setEntry f y).setEntry e x := by
  have hv : e.val ≠ f.val := fun k => h (Fin.ext k)
  simp only [setEntry, Table.set, List.set_comm _ _ hv]

theorem state_of_lowestFree {e : EntryIx} (h : s.lowestFree = some e) : (s.entry e).state = .free := by
  simpa using (find_allEntries_eq_some.1 h).1

end State

/-- An entry replaced while in force, with the engine in state x (R43, step 3). -/
def Entry.replaced (x : EngineState) (o : SessionId) (y : Entry) : Entry :=
  if x = .stopped then freedEntry y else { y with state := .retiring o .replaced }

theorem State.schedule_retireReplaced (s : State) (old : EntryIx) (o : SessionId) :
    (s.retireReplaced old o).schedule = (s.setEntry old ((s.entry old).replaced s.engine.state o)).schedule := by
  unfold State.retireReplaced Entry.replaced
  split
  · exact State.schedule_ownerNotice ..
  · rfl

/-- With the old entry out of the next-epoch set, that set and the candidate are the trial set of the REPLACE (R40). -/
theorem conflictFree_without {s : State} {old : EntryIx} {x : Entry} (gone : x.state.inNextEpoch = false) {d : Descriptor}
    (hc : ConflictFree s.hub s.gapOf (s.nextEpochWithout old ++ [candidate d])) :
    ConflictFree (s.setEntry old x).hub (s.setEntry old x).gapOf ((s.setEntry old x).nextEpochSet ++ [candidate d]) := by
  have other : ∀ e ∈ (s.setEntry old x).nextEpochEntries, e ≠ old := by
    rintro e he rfl
    rw [mem_nextEpochEntries, State.entry_setEntry, gone] at he
    cases he
  refine ConflictFree.of_subperm (members_append_subperm (nodup_nextEpochEntries _) (fun e he => ?_) (fun e he => ?_) d) hc
  · have ne := other e he
    rw [mem_nextEpochEntries, State.entry_setEntry_ne s x ne] at he
    simpa [ne] using mem_nextEpochEntries.2 he
  · rw [State.entry_setEntry_ne s x (other e he)]

/-- LINE_INFO changes nothing. -/
@[simp] theorem lineInfoAct_state (s : State) (me : SessionId) (f : List Byte) : (lineInfoAct s me f).state = s := by
  unfold lineInfoAct
  split <;> rfl

/-! ### Entries cleaned up, lines claimed -/

@[simp] theorem Entry.cleaned_descriptor (o : SessionId) (x : EngineState) (y : Entry) :
    (y.cleaned o x).descriptor = y.descriptor := by
  unfold cleaned
  split_ifs <;> rfl

theorem Entry.inNextEpoch_of_cleaned {o : SessionId} {x : EngineState} {y : Entry}
    (h : (y.cleaned o x).state.inNextEpoch = true) : y.state.inNextEpoch = true := by
  unfold cleaned at h
  split_ifs at h
  · cases h
  · cases h
  · exact h

theorem Entry.inFiring_of_cleaned {o : SessionId} {x : EngineState} {y : Entry}
    (h : (y.cleaned o x).state.inFiring = true) : y.state.inFiring = true := by
  unfold cleaned at h
  split_ifs at h with _ active
  · cases h
  · rw [active]
    rfl
  · exact h

/-- In STOPPED a cleanup leaves nothing RETIRING that was not. -/
theorem Entry.cleaned_isRetiring {o : SessionId} {y : Entry} (h : y.state.isRetiring = false) :
    (y.cleaned o .stopped).state.isRetiring = false := by
  unfold cleaned
  split_ifs with freed active
  · rfl
  · exact absurd (.inr ⟨active, rfl⟩) freed
  · exact h

theorem State.claimLine_only (s : State) (l : LineIx) (me : SessionId) (idle : Level) (gap : Nat) :
    s.claimLine l me idle gap =
      { s with lines := (s.claimLine l me idle gap).lines, driven := (s.claimLine l me idle gap).driven } := by
  unfold State.claimLine
  dsimp only
  split <;> rfl

/-- A line that is claimed anew keeps its gap or carries no reservation. -/
theorem State.claimLine_gap {s : State} {l : LineIx} {me : SessionId} {idle : Level} {gap : Nat}
    (h : gap = (s.line l).gap ∨ s.lineInUse l = false) {e : EntryIx} (he : (s.entry e).state ≠ .free) :
    (s.claimLine l me idle gap).gapOf (s.entry e).descriptor.line = s.gapOf (s.entry e).descriptor.line := by
  have lines : (s.claimLine l me idle gap).lines = s.lines.set l { holder := some me, idle := idle, gap := gap } := by
    unfold State.claimLine
    dsimp only
    split <;> rfl
  unfold State.gapOf State.line
  rw [lines, Table.get_set]
  split
  · rename_i hl
    rcases h with rfl | hu
    · rw [hl]
      rfl
    · have := List.any_eq_false.1 hu e (mem_allEntries e)
      simp [Entry.isOn, he, hl] at this
  · rfl

namespace ScheduleSound

variable {s : State} (h : ScheduleSound s)
include h

/-! ### Requests that complete at their taking -/

theorem withdrawEntry (free : s.arbiter.executor = none) (me : SessionId) (e : EntryIx) :
    ScheduleSound (s.withdrawEntry me e).state := by
  by_cases ho : s.ownerOf e = some me
  · by_cases hr : (s.entry e).state.isRetiring = true
    · rw [withdrawEntry_retiring ho hr]
      exact h
    · by_cases hf : (s.entry e).state = .pending me ∨ (s.entry e).state = .active me ∧ s.engine.state = .stopped
      · rw [withdrawEntry_frees ho hf]
        exact (h.freeEntry free e).of_schedule_eq (State.schedule_recomputePeaks _)
      · have := State.pending_or_active ho hr
        obtain ⟨active, running⟩ : (s.entry e).state = .active me ∧ s.engine.state ≠ .stopped := by tauto
        rw [withdrawEntry_retires ho active running]
        exact (h.retire free active running _).of_schedule_eq (State.schedule_recomputePeaks _)
  · rw [withdrawEntry_notOwner ho]
    exact h

theorem withdrawAct (free : s.arbiter.executor = none) (me : SessionId) (f : List Byte) :
    ScheduleSound (withdrawAct s me f).state := by
  unfold Machine.withdrawAct
  split
  · exact h
  · split
    · exact h.withdrawEntry free me _
    · exact h

/-- A cleanup frees and retires entries and opens lines, with no flight in progress (R20, R101). -/
theorem cleanup (free : s.arbiter.executor = none) (o : SessionId) : ScheduleSound (s.cleanup o) := by
  have only := s.cleanup_only o
  have hub : (s.cleanup o).hub = s.hub := by rw [only]
  have engine : (s.cleanup o).engine = s.engine := by rw [only]
  have executor : (s.cleanup o).arbiter.executor = none := by rw [only]; exact free
  have n : ScheduleNarrows s (s.cleanup o) :=
    { cycleLength := by rw [hub]
      capacityA := by rw [hub]
      capacityB := by rw [hub]
      gap := by
        funext l
        unfold State.gapOf
        rw [State.cleanup_line]
        unfold Line.cleaned
        split <;> rfl
      descriptor := fun e _ => by rw [State.cleanup_entry, Entry.cleaned_descriptor]
      nextEpoch := fun e he => by
        rw [State.cleanup_entry] at he
        exact Entry.inNextEpoch_of_cleaned he
      firing := .inl fun e he => by
        rw [State.cleanup_entry] at he
        exact Entry.inFiring_of_cleaned he
      stopped := fun hs e => by
        rw [engine] at hs
        rw [State.cleanup_entry, hs]
        exact Entry.cleaned_isRetiring (h.stopped hs e) }
  exact n.sound_of_free h executor

/-- A line claimed anew: its gap is as it was, or no reservation is on it (R97, R98). -/
theorem claimLine (free : s.arbiter.executor = none) {l : LineIx} {me : SessionId} {idle : Level} {gap : Nat}
    (hg : gap = (s.line l).gap ∨ s.lineInUse l = false) : ScheduleSound (s.claimLine l me idle gap) := by
  have gaps (e : EntryIx) (he : (s.entry e).state ≠ .free) := State.claimLine_gap (me := me) (idle := idle) hg he
  have only := s.claimLine_only l me idle gap
  generalize s.claimLine l me idle gap = t at only gaps
  have hub : t.hub = s.hub := by rw [only]
  have entry (e : EntryIx) : t.entry e = s.entry e := by rw [only]; rfl
  have engine : t.engine = s.engine := by rw [only]
  have executor : t.arbiter.executor = none := by rw [only]; exact free
  have nextEpoch : t.nextEpochSet = s.nextEpochSet := by rw [only]; rfl
  have firing : t.firingSet = s.firingSet := by rw [only]; rfl
  refine ⟨?_, ?_, fun e he => ?_, fun hs e => ?_, fun f hf => ?_⟩
  · rw [hub, nextEpoch]
    refine h.nextEpoch.of_gaps fun m hm => ?_
    obtain ⟨e, he, rfl⟩ := List.mem_map.1 hm
    exact gaps e (EntryState.ne_free_iff.2 (.inl (mem_nextEpochEntries.1 he)))
  · rw [hub, firing]
    refine h.firing.of_gaps fun m hm => ?_
    obtain ⟨e, he, rfl⟩ := List.mem_map.1 hm
    exact gaps e (EntryState.ne_free_iff.2 (.inr (mem_firingEntries.1 he)))
  · rw [entry] at *
    rw [hub]
    exact h.ranges e he
  · rw [engine] at hs
    rw [entry]
    exact h.stopped hs e
  · rw [executor] at hf
    cases hf

theorem claimLineAct (free : s.arbiter.executor = none) (me : SessionId) (f : List Byte) :
    ScheduleSound (claimLineAct s me f).state := by
  unfold Machine.claimLineAct
  split
  · exact h
  · rename_i l idle gap _
    split_ifs with _ _ changed
    · exact h
    · exact h
    · exact h
    · refine h.claimLine free ?_
      by_cases hg : gap = (s.line l).gap
      · exact .inl hg
      · exact .inr (by simpa [hg] using changed)

theorem releaseLineAct (me : SessionId) (f : List Byte) : ScheduleSound (releaseLineAct s me f).state := by
  unfold Machine.releaseLineAct
  split
  · exact h
  · rename_i l _
    split
    · refine h.of_schedule_eq (congrArg (fun g => { s.schedule with gap := g }) (funext fun m => ?_))
      unfold State.gapOf
      by_cases hm : m = l
      · subst hm
        rw [State.line_setLine]
      · rw [State.line_setLine_ne s _ hm]
    · exact h

theorem setNoticesAct (me : SessionId) (f : List Byte) : ScheduleSound (setNoticesAct s me f).state := by
  unfold Machine.setNoticesAct
  split
  · exact h
  · exact h.of_schedule_eq (s.schedule_setSession ..)

theorem readHubAct (me : SessionId) (f : List Byte) : ScheduleSound (readHubAct s me f).state := by
  unfold Machine.readHubAct
  split
  · exact h
  · dsimp only
    split
    · exact h.of_schedule_eq s.schedule_clearCounters
    · exact h

/-- RUN is taken with the executor free, so that the engine may leave STOPPED (R77). -/
theorem runAct (free : s.arbiter.executor = none) (me : SessionId) (f : List Byte) :
    ScheduleSound (runAct s me f).state := by
  have voted : ScheduleSound (s.setSession me.port ((s.session me.port).withVote true)) :=
    h.of_schedule_eq (s.schedule_setSession ..)
  unfold Machine.runAct
  dsimp only
  split
  · exact voted
  · exact voted.firstVote fun _ => free

/-! ### The completion of an ADD or REPLACE (R36, R41) -/

theorem completeAdd (free : s.arbiter.executor = none) (me : SessionId) {v : Verdict Descriptor}
    (stands : FlightStands s (.add v)) : ScheduleSound (s.completeAdd me v).state := by
  cases v with
  | refuse st b => exact h
  | pass d =>
    obtain ⟨hr, hc⟩ := stands
    unfold State.completeAdd
    dsimp only
    split
    · exact h
    · rename_i e he
      exact (h.writePending free (s.state_of_lowestFree he) hr hc).of_schedule_eq (State.schedule_recomputePeaks _)

theorem replaceFreed (free : s.arbiter.executor = none) (me : SessionId) {d : Descriptor}
    (hr : d.InRange s.hub.cycleLength) (hc : ConflictFree s.hub s.gapOf (s.nextEpochSet ++ [candidate d])) :
    ScheduleSound (s.replaceFreed me d).state := by
  unfold State.replaceFreed
  split
  · exact h
  · rename_i e he
    exact (h.writePending free (s.state_of_lowestFree he) hr hc).of_schedule_eq (State.schedule_recomputePeaks _)

/-- The new entry is written beside the old one, which is then retired or freed: the same as in the other order (R43). -/
theorem replaceInForce (free : s.arbiter.executor = none) (me : SessionId) {old : EntryIx} {o : SessionId} {d : Descriptor}
    (active : (s.entry old).state = .active o) (hr : d.InRange s.hub.cycleLength)
    (hc : ConflictFree s.hub s.gapOf (s.nextEpochWithout old ++ [candidate d])) :
    ScheduleSound (s.replaceInForce me old o d).state := by
  unfold State.replaceInForce
  split
  · exact h
  · rename_i e he
    have vacant := s.state_of_lowestFree he
    have ne : e ≠ old := by
      rintro rfl
      rw [vacant] at active
      cases active
    have replaced : ScheduleSound (s.setEntry old ((s.entry old).replaced s.engine.state o)) := by
      unfold Entry.replaced
      split
      · exact h.freeEntry free old
      · exact h.retire free active ‹_› _
    have gone : ((s.entry old).replaced s.engine.state o).state.inNextEpoch = false := by
      unfold Entry.replaced
      split <;> rfl
    have written := replaced.writePending (e := e) (o := me) free (by rwa [State.entry_setEntry_ne s _ ne]) hr
      (conflictFree_without gone hc)
    refine written.of_schedule_eq ?_
    have order : (s.writePending e me d).setEntry old ((s.entry old).replaced s.engine.state o) =
        (s.setEntry old ((s.entry old).replaced s.engine.state o)).writePending e me d := by
      rw [State.writePending, State.writePending, State.setEntry_comm s _ _ ne, State.entry_setEntry_ne s _ ne]
    rw [← order]
    refine (State.schedule_recomputePeaks _).trans ((State.schedule_retireReplaced _ old o).trans ?_)
    rw [State.writePending, State.entry_setEntry_ne s _ ne.symm]
    rfl

theorem completeReplace (free : s.arbiter.executor = none) (me : SessionId) {v : Verdict Replacement}
    (stands : FlightStands s (.replace v)) : ScheduleSound (s.completeReplace me v).state := by
  cases v with
  | refuse st b => exact h
  | pass r =>
    obtain ⟨hr, -, -, hc⟩ := stands
    have freed : ScheduleSound ((s.freeEntry r.old).replaceFreed me r.descriptor).state :=
      (h.freeEntry free r.old).replaceFreed free me hr (conflictFree_without rfl hc)
    unfold State.completeReplace
    dsimp only
    split
    · exact freed
    · rename_i o active
      split
      · exact freed
      · exact h.replaceInForce free me active hr hc
    · exact h
    · exact h

/-! ### The completion of a SET_HUB (R167) -/

/-- A hub record whose cycle length and capacities the next-epoch set meets, taken over in STOPPED, where the firing set is a
part of it. -/
theorem setHub (free : s.arbiter.executor = none) {hub : HubRecord} (stands : FlightStands s (.setHub (.pass hub))) :
    ScheduleSound { s with hub := hub } := by
  obtain ⟨stopped, ranges, ha, hb, hca, hcb⟩ := stands
  have nextEpoch : ConflictFree hub s.gapOf s.nextEpochSet := ⟨ha, hb, hca, hcb, h.nextEpoch.d⟩
  refine ⟨nextEpoch, nextEpoch.of_subperm ?_, ranges, h.stopped, fun f hf => ?_⟩
  · refine members_subperm (nodup_firingEntries s) (fun e he => ?_) fun _ _ => rfl
    have firing : (s.entry e).state.inFiring = true := mem_firingEntries.1 he
    have kept := h.stopped stopped e
    rw [mem_nextEpochEntries]
    cases hs : (s.entry e).state <;> simp_all [EntryState.inFiring, EntryState.isRetiring, EntryState.inNextEpoch]
  · have : f ∈ s.arbiter.executor := hf
    simp [free] at this

theorem completeSetHub (free : s.arbiter.executor = none) {v : Verdict HubRecord} (stands : FlightStands s (.setHub v)) :
    ScheduleSound (s.completeSetHub v).state := by
  cases v with
  | refuse st b => exact h
  | pass hub =>
    unfold State.completeSetHub
    dsimp only
    exact (h.setHub free stands).rejudgeInputs allInputs

/-! ### Flights -/

theorem releaseExecutor : ScheduleSound s.releaseExecutor := by
  have n : ScheduleNarrows s s.releaseExecutor := h.narrows rfl
  exact n.sound_of_free h rfl

theorem flightStands_releaseExecutor {op : FlightOp} (stands : FlightStands s op) : FlightStands s.releaseExecutor op :=
  (h.narrows rfl).flightStands stands (fun _ he => he) fun hs => hs

/-- A flight begins with what its taking has judged. -/
theorem beginFlight (p : Port) (me : SessionId) (r : Request) {op : FlightOp} (stands : FlightStands s op) :
    ScheduleSound (s.beginFlight p me r op) := by
  have n : ScheduleNarrows s (s.beginFlight p me r op) := h.narrows rfl
  refine n.sound h fun f hf => ?_
  cases hf
  exact n.flightStands stands (fun _ he => he) fun hs => hs

/-- A flight completes by an act that keeps the schedule sound, with the executor free and what the flight has found still
standing (R46, R47, R51). -/
theorem complete {f : Flight} (hf : s.arbiter.executor = some f) {act : State → Answer}
    (acts : ∀ t, ScheduleSound t → t.arbiter.executor = none → FlightStands t f.op → ScheduleSound (act t).state) :
    ScheduleSound (s.complete f act) :=
  State.complete_keeps h.releaseExecutor
    (acts _ h.releaseExecutor rfl (h.flightStands_releaseExecutor (h.flight f hf)))
    (fun _ _ _ _ ht => ht.of_schedule_eq (State.schedule_reply ..))
    fun _ ht => ht.of_schedule_eq (State.schedule_discardReply ..)

/-- A request answered at its taking by an act that keeps the schedule sound with the executor free. -/
theorem answerRequest {p : Port} {kind : RequestKind} {act : State → SessionId → List Byte → Answer}
    (acts : ∀ t me f, ScheduleSound t → t.arbiter.executor = none → ScheduleSound (act t me f).state) :
    ScheduleSound (s.answerRequest p kind act) := by
  have taken := h.of_schedule_eq (s.schedule_take p)
  exact State.answerRequest_keeps h taken (fun me f free => acts _ me f taken free)
    fun _ _ _ _ ht => ht.of_schedule_eq (State.schedule_reply ..)

/-- A request that begins a flight with a judgement that stands. -/
theorem flyRequest {p : Port} {kind : RequestKind} {judge : State → SessionId → List Byte → FlightOp}
    (stands : ∀ t me f, ScheduleSound t → FlightStands t (judge t me f)) : ScheduleSound (s.flyRequest p kind judge) := by
  have taken := h.of_schedule_eq (s.schedule_take p)
  exact State.flyRequest_keeps h taken (fun me r _ => taken.beginFlight p me r (stands _ me _ taken))
    fun _ _ _ _ ht => ht.of_schedule_eq (State.schedule_reply ..)

theorem runFrame {p : Port} (mine : FrameState → Bool) (part : FramePart) (bits : Nat) :
    ScheduleSound (s.runFrame p mine part bits) :=
  State.runFrame_keeps (fun _ _ e ht => ht.of_schedule_eq e.schedule_eq) (fun _ ht => ht.endSession p false) h mine part bits

/-! ### Commands and steps -/

theorem execAddCompletion : Leads ScheduleSound (execAddCompletion s) := by
  unfold Machine.execAddCompletion
  split
  · rename_i f hf
    split
    · rename_i v hv
      exact leads_ite (fun _ => h.complete hf fun t ht free stands => ht.completeAdd free _ (hv ▸ stands)) h
    · exact h
    · exact h
  · exact h

theorem execReplaceCompletion : Leads ScheduleSound (execReplaceCompletion s) := by
  unfold Machine.execReplaceCompletion
  split
  · rename_i f hf
    split
    · rename_i v hv
      exact leads_ite (fun _ => h.complete hf fun t ht free stands => ht.completeReplace free _ (hv ▸ stands)) h
    · exact h
    · exact h
  · exact h

theorem execSetHubCompletion : Leads ScheduleSound (execSetHubCompletion s) := by
  unfold Machine.execSetHubCompletion
  split
  · rename_i f hf
    split
    · rename_i v hv
      exact leads_ite (fun _ => h.complete hf fun t ht free stands => ht.completeSetHub free (hv ▸ stands)) h
    · exact h
    · exact h
  · exact h

theorem execAttach (p : Port) : Leads ScheduleSound (execAttach p s) := by
  have taken := h.of_schedule_eq (s.schedule_take p)
  have attached (lease : Nat) (mask : Mask) : ScheduleSound ((s.take p).attachSession p lease mask) :=
    taken.of_schedule_eq rfl
  have replied {t : State} (ht : ScheduleSound t) (r : Request) (st : Status) (b : List Byte) :
      ScheduleSound (t.reply p r st b) := ht.of_schedule_eq (State.schedule_reply ..)
  unfold Machine.execAttach
  split
  · exact h
  · rw [leads_next]
    unfold State.attachTaken
    split
    · exact replied taken _ _ _
    · split
      · exact replied taken _ _ _
      · exact replied (attached _ _) _ _ _

theorem execBadKind (p : Port) : Leads ScheduleSound (execBadKind p s) := by
  unfold Machine.execBadKind
  split
  · exact h
  · exact (h.of_schedule_eq (s.schedule_take p)).of_schedule_eq (State.schedule_reply ..)

theorem execCleanupClaim (p : Port) : Leads ScheduleSound (execCleanupClaim p s) := by
  unfold Machine.execCleanupClaim
  split
  · rename_i taking
    split
    · exact (h.of_schedule_eq (s.schedule_takeClaim p)).cleanup (s.free_of_nextTaking taking).1 _
    · exact h
  · exact h

theorem execHighTimeElapses (g : EngineIx) : Leads ScheduleSound (execHighTimeElapses g s) := by
  unfold Machine.execHighTimeElapses
  split
  · exact leads_ite (fun _ => h.of_schedule_eq (s.schedule_setJob ..)) h
  · exact h

theorem execLowTimeElapses (g : EngineIx) : Leads ScheduleSound (execLowTimeElapses g s) := by
  unfold Machine.execLowTimeElapses
  split
  · exact leads_ite (fun _ => h.of_schedule_eq (s.schedule_setJob ..)) h
  · exact h

theorem execRstnAsserted : Leads ScheduleSound (execRstnAsserted s) := by
  unfold Machine.execRstnAsserted
  split
  · exact h.of_schedule_eq (s.schedule_holdReset .pin)
  · exact h

theorem execResetRelease (inputs : BitVec 8) (inh : Bool) (cs : BitVec 4) :
    Leads ScheduleSound (execResetRelease inputs inh cs s) := by
  unfold Machine.execResetRelease
  split
  · exact h
  · exact scheduleSound_afterRelease ..

/-- Every command keeps the schedule sound. -/
theorem exec (c : Instr) : Leads ScheduleSound (exec c s) := by
  cases c with
  | attach p => exact h.execAttach p
  | detach p => exact h.answerRequest fun t me _ ht _ => ht.endSession me.port false
  | renew p => exact h.answerRequest fun _ _ _ ht _ => ht
  | setNotices p => exact h.answerRequest fun t me f ht _ => ht.setNoticesAct me f
  | add p => exact h.flyRequest fun t me f _ => judgeAdd_stands t me f
  | addCompletion => exact h.execAddCompletion
  | withdraw p => exact h.answerRequest fun t me f ht free => ht.withdrawAct free me f
  | replace p => exact h.flyRequest fun t me f _ => judgeReplace_stands t me f
  | replaceCompletion => exact h.execReplaceCompletion
  | query p => exact h.answerRequest fun _ _ _ ht _ => by rwa [queryAct_state]
  | scan p => exact h.answerRequest fun _ _ _ ht _ => by rwa [scanAct_state]
  | claimLine p => exact h.answerRequest fun t me f ht free => ht.claimLineAct free me f
  | releaseLine p => exact h.answerRequest fun t me f ht _ => ht.releaseLineAct me f
  | lineInfo p => exact h.answerRequest fun _ _ _ ht _ => by rwa [lineInfoAct_state]
  | run p => exact h.answerRequest fun t me f ht free => ht.runAct free me f
  | halt p => exact h.answerRequest fun t me _ ht _ => ht.dropVote me.port _
  | setHub p => exact h.flyRequest fun t _ f ht => ht.judgeSetHub_stands f
  | setHubCompletion => exact h.execSetHubCompletion
  | readHub p => exact h.answerRequest fun t me f ht _ => ht.readHubAct me f
  | badKind p => exact h.execBadKind p
  | cleanupClaim p => exact h.execCleanupClaim p
  | submit p mosi => exact h.runFrame _ mosi 0
  | collect p bytes rise => exact h.runFrame _ _ 0
  | fetch p bytes rise => exact h.runFrame _ _ 0
  | status p bytes rise => exact h.runFrame _ _ 0
  | abandon p mosi => exact h.runFrame _ mosi 0
  | malformedFrame p mosi bits => exact h.runFrame _ mosi bits
  | cycleEnd => exact leads_ite (fun _ => h.cycleEnd) h
  | spacingEnd => exact leads_ite (fun _ => h.spacingEnd) h
  | inhAsserted => exact leads_ite (fun _ => h.inhAssert) h
  | inhReleased => exact leads_ite (fun _ => h.inhRelease) h
  | rawChange i => exact leads_ite (fun _ => h.rawChange i) h
  | qualification i => exact leads_ite (fun _ => h.qualify i) h
  | windowBoundaryEvent => exact leads_ite (fun _ => h.of_schedule_eq s.schedule_windowBoundary) h
  | highTimeElapses g => exact h.execHighTimeElapses g
  | lowTimeElapses g => exact h.execLowTimeElapses g
  | leaseExpiry p => exact leads_ite (fun _ => h.endSession p true) h
  | powerOnReset => exact h.of_schedule_eq (s.schedule_holdReset .power)
  | rstnAsserted => exact h.execRstnAsserted
  | resetRelease inputs inh cs => exact h.execResetRelease inputs inh cs
  | csnRiseAfterReset p => exact leads_ite (fun _ => h.of_schedule_eq rfl) h

end ScheduleSound

/-- Settles O55: a command's events leave, free, activate or retire reservations; what it writes anew the flight's verdict
covers; and a tick, the queue and the free count are no part of the schedule. -/
theorem stepKeepsScheduleSound : Obligations.StepKeepsScheduleSound := fun _ _ =>
  step_keeps (fun _ _ h => h.of_schedule_eq rfl) (fun _ _ h => h.of_schedule_eq rfl)
    (fun s _ _ h => h.of_schedule_eq s.schedule_tick) fun c _ h => h.exec c

end Sys2Proof.Machine
end

