-- ==== Sys2Proof/Proofs/Admission.lean ====
section
/-! SUPPORT. Admission: the taking of an ADD, REPLACE or SET_HUB, the checks of an ADD and of a REPLACE in their order, and
their completions (R24 to R32, R36, R38 to R45, R51). -/

namespace Sys2Proof.Machine

/-! ### The taking (R24, R38, R130, R164) -/

/-- Settles O15: the taking touches the port's link, its session record and the arbiter, and the checks read none of
them. -/
theorem admissionsAndSetHubBeginFlights : Obligations.AdmissionsAndSetHubBeginFlights := by
  intro s p r me ha
  refine ⟨fun h => ?_, fun h => ?_, fun h => ?_⟩
  all_goals exact congrArg Host.Outcome.next (State.flyRequest_attached h ha)

/-! ### The checks of an ADD (R24 to R32) -/

namespace State

variable {s : State} {me : SessionId}

theorem lineHeldByOther_eq_true {l : LineIx} :
    s.lineHeldByOther l me = true ↔ ∃ o, (s.line l).holder = some o ∧ o ≠ me := by
  unfold lineHeldByOther
  cases (s.line l).holder <;> simp

theorem lineHeldByOther_eq_false {l : LineIx} :
    s.lineHeldByOther l me = false ↔ ∀ o, (s.line l).holder = some o → o = me := by
  unfold lineHeldByOther
  cases (s.line l).holder <;> simp

/-- The lowest-numbered FREE entry (R36). -/
theorem lowestFree_eq_some {e : EntryIx} :
    s.lowestFree = some e ↔ (s.entry e).state = .free ∧ ∀ g < e, (s.entry g).state ≠ .free := by
  simp [lowestFree, find_allEntries_eq_some]

theorem lowestFree_eq_none : s.lowestFree = none ↔ ∀ e, (s.entry e).state ≠ .free := by
  simp [lowestFree, mem_allEntries]

theorem lowestFree_isNone_eq_true : s.lowestFree.isNone = true ↔ ∀ e, (s.entry e).state ≠ .free := by
  rw [Option.isNone_iff_eq_none, lowestFree_eq_none]

theorem lowestFree_isNone_eq_false : s.lowestFree.isNone = false ↔ ∃ e, (s.entry e).state = .free := by
  rw [← Bool.not_eq_true, lowestFree_isNone_eq_true]
  simp

variable {f : List Byte}

theorem judgeAdd_badField (hd : descriptorOf s.hub.cycleLength f = none) : s.judgeAdd me f = .refuse .badField [] := by
  simp [judgeAdd, hd]

theorem judgeAdd_of_descriptor {d : Descriptor} (hd : descriptorOf s.hub.cycleLength f = some d) :
    s.judgeAdd me f =
      failWhen (s.lineHeldByOther d.line me) .lineHeld
        (failWhen s.lowestFree.isNone .noEntry (s.judgeTrial (s.nextEpochSet ++ [candidate d]) d)) := by
  simp [judgeAdd, hd]

end State

/-- Settles O16, by the checks in their order; steps 4 to 6 are `State.judgeTrial_spec`. -/
theorem addChecksInOrder : Obligations.AddChecksInOrder := by
  refine fun s me f => ⟨State.judgeAdd_badField, fun d hd => ?_⟩
  rw [State.judgeAdd_of_descriptor hd]
  refine ⟨fun held => ?_, fun mine => ⟨fun full => ?_, fun room => ?_⟩⟩
  · rw [State.lineHeldByOther_eq_true.2 held, failWhen_true]
  · rw [State.lineHeldByOther_eq_false.2 mine, failWhen_false, State.lowestFree_isNone_eq_true.2 full, failWhen_true]
  · rw [State.lineHeldByOther_eq_false.2 mine, failWhen_false, State.lowestFree_isNone_eq_false.2 room, failWhen_false]
    exact State.judgeTrial_spec ..

/-! ### The checks of a REPLACE (R38 to R40) -/

namespace State

variable {s : State} {me : SessionId} {old : EntryIx} {f : List Byte}

theorem replaceLacksEntry_eq_true :
    s.replaceLacksEntry old = true ↔
      (s.entry old).state.isActive = true ∧ s.engine.state ≠ .stopped ∧ ∀ e, (s.entry e).state ≠ .free := by
  rw [← lowestFree_isNone_eq_true]
  unfold replaceLacksEntry
  cases (s.entry old).state <;> cases s.engine.state <;> simp [EntryState.isActive]

theorem replaceLacksEntry_eq_false :
    s.replaceLacksEntry old = false ↔
      (s.entry old).state.isActive = false ∨ s.engine.state = .stopped ∨ ∃ e, (s.entry e).state = .free := by
  rw [← Bool.not_eq_true, replaceLacksEntry_eq_true]
  simp only [not_and_or, Bool.not_eq_true, ne_eq, not_not, not_forall]

theorem judgeReplacement_badField (hd : descriptorOf s.hub.cycleLength f = none) :
    s.judgeReplacement me old f = .refuse .badField [] := by
  simp [judgeReplacement, hd]

theorem judgeReplacement_of_descriptor {d : Descriptor} (hd : descriptorOf s.hub.cycleLength f = some d) :
    s.judgeReplacement me old f =
      failWhen (s.lineHeldByOther d.line me) .lineHeld
        (failWhen (s.replaceLacksEntry old) .noEntry
          (s.judgeTrial (s.nextEpochWithout old ++ [candidate d])
            { old := old, descriptor := d, stoppedAtTaking := decide (s.engine.state = .stopped) })) := by
  simp [judgeReplacement, hd]

/-- The six steps of a REPLACE in their order (R39, R40). -/
theorem judgeReplacement_steps {d : Descriptor} (hd : descriptorOf s.hub.cycleLength f = some d) :
    ((∃ o, (s.line d.line).holder = some o ∧ o ≠ me) → s.judgeReplacement me old f = .refuse .lineHeld [])
    ∧ ((∀ o, (s.line d.line).holder = some o → o = me) →
      ((s.entry old).state.isActive = true → s.engine.state ≠ .stopped → (∀ e, (s.entry e).state ≠ .free) →
        s.judgeReplacement me old f = .refuse .noEntry [])
      ∧ ((s.entry old).state.isActive = false ∨ s.engine.state = .stopped ∨ (∃ e, (s.entry e).state = .free) →
        TrialJudged s (s.nextEpochWithout old ++ [candidate d])
          { old := old, descriptor := d, stoppedAtTaking := decide (s.engine.state = .stopped) }
          (s.judgeReplacement me old f))) := by
  rw [judgeReplacement_of_descriptor hd]
  refine ⟨fun held => ?_, fun mine => ⟨fun active running full => ?_, fun room => ?_⟩⟩
  · rw [lineHeldByOther_eq_true.2 held, failWhen_true]
  · rw [lineHeldByOther_eq_false.2 mine, failWhen_false, replaceLacksEntry_eq_true.2 ⟨active, running, full⟩,
      failWhen_true]
  · rw [lineHeldByOther_eq_false.2 mine, failWhen_false, replaceLacksEntry_eq_false.2 room, failWhen_false]
    exact judgeTrial_spec ..

/-- A REPLACE past its handle check passes exactly when it fails none of the six steps. -/
theorem judgeReplacement_eq_pass {x : Replacement} :
    s.judgeReplacement me old f = .pass x ↔
      x.old = old ∧ x.stoppedAtTaking = decide (s.engine.state = .stopped)
        ∧ descriptorOf s.hub.cycleLength f = some x.descriptor
        ∧ (∀ o, (s.line x.descriptor.line).holder = some o → o = me)
        ∧ ((s.entry old).state.isActive = true → s.engine.state ≠ .stopped → ∃ e, (s.entry e).state = .free)
        ∧ ConflictFree s.hub s.gapOf (s.nextEpochWithout old ++ [candidate x.descriptor]) := by
  have room : ((s.entry old).state.isActive = false ∨ s.engine.state = .stopped ∨ ∃ e, (s.entry e).state = .free) ↔
      ((s.entry old).state.isActive = true → s.engine.state ≠ .stopped → ∃ e, (s.entry e).state = .free) := by
    rw [← Bool.not_eq_true]
    tauto
  cases hd : descriptorOf s.hub.cycleLength f with
  | none => simp [judgeReplacement_badField hd]
  | some d =>
    rw [judgeReplacement_of_descriptor hd, failWhen_eq_pass, failWhen_eq_pass, judgeTrial_eq_pass,
      lineHeldByOther_eq_false, replaceLacksEntry_eq_false, room]
    constructor
    · rintro ⟨mine, entry, free, rfl⟩
      exact ⟨rfl, rfl, rfl, mine, entry, free⟩
    · obtain ⟨xold, xd, stopped⟩ := x
      rintro ⟨rfl, rfl, ⟨⟩, mine, entry, free⟩
      exact ⟨mine, entry, free, rfl⟩

theorem judgeReplace_short (h : f.length < 23) : s.judgeReplace me f = .refuse .badField [] := by
  simp [judgeReplace, h]

theorem judgeReplace_badHandle (h : 23 ≤ f.length) (hf : handleFields f = none) :
    s.judgeReplace me f = .refuse .badField [] := by
  simp [judgeReplace, Nat.not_lt.2 h, hf]

theorem judgeReplace_of_handle {h : Handle} (hl : 23 ≤ f.length) (hf : handleFields f = some h) :
    s.judgeReplace me f =
      failWhen (!s.matchesHandle h) .stale
        (failWhen (decide (s.ownerOf h.index ≠ some me)) .notOwner
          (failWhen (s.entry h.index).state.isRetiring .retiring (s.judgeReplacement me h.index (f.drop 2)))) := by
  simp [judgeReplace, Nat.not_lt.2 hl, hf]

end State

/-- Settles O21: the handle checks in their order, then the six steps in theirs. -/
theorem replaceChecksTheHandleThenTheTrialSet : Obligations.ReplaceChecksTheHandleThenTheTrialSet := by
  refine ⟨fun s me f => ⟨State.judgeReplace_short, fun hl => ?_⟩,
    fun s me old f => ⟨State.judgeReplacement_badField, fun d hd => State.judgeReplacement_steps hd⟩,
    fun s me old f x => State.judgeReplacement_eq_pass⟩
  cases hf : handleFields f with
  | none => exact State.judgeReplace_badHandle hl hf
  | some h =>
    dsimp only
    rw [State.judgeReplace_of_handle hl hf]
    split_ifs with stale owner retiring
    · rw [State.matchesHandle_eq_false.2 stale]
      rfl
    all_goals rw [← State.matchesHandle_eq_false, Bool.not_eq_false] at stale
    · simp [stale, owner, failWhen]
    · simp [stale, not_not.1 owner, retiring, failWhen]
    · simp [stale, not_not.1 owner, retiring, failWhen]

/-! ### Completions (R36, R41 to R45, R51) -/

namespace State

variable {s : State} {f : Flight} {act : State → Answer}

theorem complete_discarded (h : s.attachedSession f.session.port ≠ some f.session) : s.complete f act = s.discarded f :=
  complete_of_ended s (by simp [isAttached, h])

/-- A completion that changes nothing but the reply. -/
theorem complete_landed {st : Status} {b : List Byte} (h : s.attachedSession f.session.port = some f.session)
    (ha : act s.releaseExecutor = { state := s.releaseExecutor, status := st, payload := b }) :
    s.complete f act = s.landed f st b := by
  rw [complete_of_attached s (by simp [isAttached, h]), ha]
  rfl

/-- A completion that writes the reservation table, with the peak loads recomputed and perhaps notices given. -/
theorem complete_written {entries : Table Entry 48} {notices : Table NoticeQueue 4} {b : List Byte}
    (h : s.attachedSession f.session.port = some f.session)
    (ha : act s.releaseExecutor =
      { state := recomputePeaks { s.releaseExecutor with entries := entries, notices := notices }
        status := .ok
        payload := b }) :
    s.complete f act = recomputePeaks { s.landed f .ok b with entries := entries, notices := notices } := by
  rw [complete_of_attached s (by simp [isAttached, h]), ha]
  rfl

theorem exec_addCompletion {v : Verdict Descriptor} (hold : s.hold = none) (hf : s.arbiter.executor = some f)
    (hop : f.op = .add v) :
    exec .addCompletion s = .next (s.complete f fun t => t.completeAdd f.session v) := by
  simp [exec, execAddCompletion, hf, hop, hold]

theorem exec_replaceCompletion {v : Verdict Replacement} (hold : s.hold = none) (hf : s.arbiter.executor = some f)
    (hop : f.op = .replace v) :
    exec .replaceCompletion s = .next (s.complete f fun t => t.completeReplace f.session v) := by
  simp [exec, execReplaceCompletion, hf, hop, hold]

variable {me : SessionId}

theorem completeAdd_pass {d : Descriptor} {e : EntryIx} (he : s.lowestFree = some e) :
    s.completeAdd me (.pass d) =
      { state := (s.writePending e me d).recomputePeaks
        status := .ok
        payload := [BitVec.ofNat 8 e.val, BitVec.ofNat 8 (s.entry e).generation.toNat] } := by
  simp [completeAdd, he, handleBytes, handleOf]

end State

/-- Settles O20: the completion acts on the table as it stands, with the executor free. -/
theorem addCompletionWritesTheLowestFreeEntry : Obligations.AddCompletionWritesTheLowestFreeEntry := by
  intro s f v hold hf hop
  rw [State.exec_addCompletion hold hf hop]
  refine ⟨fun ended => congrArg _ (State.complete_discarded ended), fun attached => ⟨?_, ?_⟩⟩
  · rintro st b rfl
    exact congrArg _ (State.complete_landed attached rfl)
  · rintro d e rfl free lowest
    have found : s.releaseExecutor.lowestFree = some e := State.lowestFree_eq_some.2 ⟨free, lowest⟩
    exact congrArg _ (State.complete_written attached (State.completeAdd_pass found))

/-! ### The completion of a REPLACE (R41 to R45) -/

namespace State

variable {s : State} {me o : SessionId} {r : Replacement} {e old : EntryIx} {d : Descriptor}

/-- The old entry of a REPLACE is freed: PENDING, or ACTIVE and judged with the engine STOPPED (R42, R44). -/
theorem completeReplace_freeing
    (h : (s.entry r.old).state = .pending o ∨ (s.entry r.old).state = .active o ∧ r.stoppedAtTaking = true) :
    s.completeReplace me (.pass r) = (s.freeEntry r.old).replaceFreed me r.descriptor := by
  rcases h with h | ⟨h, stopped⟩
  · simp [completeReplace, h]
  · simp [completeReplace, h, stopped]

theorem completeReplace_inForce (h : (s.entry r.old).state = .active o) (running : r.stoppedAtTaking = false) :
    s.completeReplace me (.pass r) = s.replaceInForce me r.old o r.descriptor := by
  simp [completeReplace, h, running]

/-- With the old entry freed, the lowest-numbered FREE entry may be the old one. -/
theorem lowestFree_freeEntry (he : e = old ∨ (s.entry e).state = .free)
    (lowest : ∀ g < e, g ≠ old ∧ (s.entry g).state ≠ .free) : (s.freeEntry old).lowestFree = some e := by
  refine lowestFree_eq_some.2 ⟨?_, fun g hg => ?_⟩
  · by_cases h : e = old
    · rw [h, freeEntry, entry_setEntry]
      rfl
    · rw [freeEntry, entry_setEntry_ne s _ h]
      exact he.resolve_left h
  · obtain ⟨ne, occupied⟩ := lowest g hg
    rwa [freeEntry, entry_setEntry_ne s _ ne]

theorem replaceFreed_of_lowestFree (he : s.lowestFree = some e) :
    s.replaceFreed me d =
      { state := (s.writePending e me d).recomputePeaks
        status := .ok
        payload := [BitVec.ofNat 8 e.val, BitVec.ofNat 8 ((s.writePending e me d).entry e).generation.toNat, 0] } := by
  simp [replaceFreed, he, replaceAnswer, handleBytes, handleOf, entryStateByte, entry_writePending]

theorem replaceInForce_noEntry (h : ∀ g, (s.entry g).state ≠ .free) :
    s.replaceInForce me old o d = { state := s, status := .noEntry, payload := [] } := by
  simp [replaceInForce, lowestFree_eq_none.2 h]

/-- An owner notice is routed by the sessions, and of the rest it reads the notice queues alone. -/
theorem ownerNotice_notices_congr {t : State} (hs : t.sessions = s.sessions) (hn : t.notices = s.notices)
    (owner : Option SessionId) (k : MaskKind) (b : NoticeBody) :
    (t.ownerNotice owner k b).notices = (s.ownerNotice owner k b).notices := by
  cases owner with
  | none => exact hn
  | some o =>
    have hears : (t.isAttached o && t.maskHolds o.port k) = (s.isAttached o && s.maskHolds o.port k) := by
      unfold isAttached attachedSession maskHolds session
      rw [hs]
    simp only [ownerNotice, hears]
    split
    · simp only [queueNotice, setQueue, queue, hn]
    · exact hn

/-- The table after a REPLACE: the new entry PENDING at e, the old one as `x`. -/
def replacedEntries (s : State) (e old : EntryIx) (me : SessionId) (d : Descriptor) (x : Entry) : Table Entry 48 :=
  (s.writePending e me d).entries.set old x

section

variable (he : s.lowestFree = some e) (hold : (s.entry old).state = .active o)
include he hold

theorem ne_of_lowestFree_of_active : old ≠ e := by
  rintro rfl
  rw [(lowestFree_eq_some.1 he).1] at hold
  cases hold

/-- An old entry in force retires while the engine is not STOPPED (R43). -/
theorem replaceInForce_retires (running : s.engine.state ≠ .stopped) :
    s.replaceInForce me old o d =
      { state := recomputePeaks { s with
          entries := s.replacedEntries e old me d { s.entry old with state := .retiring o .replaced } }
        status := .ok
        payload := [BitVec.ofNat 8 e.val, BitVec.ofNat 8 (s.entry e).generation.toNat, 3] } := by
  have ne := ne_of_lowestFree_of_active he hold
  have old_entry : (s.writePending e me d).entry old = s.entry old := entry_writePending_ne ne
  have running' : (s.writePending e me d).engine.state ≠ .stopped := running
  simp only [replaceInForce, he, retireReplaced, if_neg running', old_entry, replaceAnswer, entry_setEntry]
  rfl

/-- An old entry in force is freed, with a RETIRED notice that carries STOP, once the engine is STOPPED (R43). -/
theorem replaceInForce_frees (stopped : s.engine.state = .stopped) :
    s.replaceInForce me old o d =
      { state := recomputePeaks { s with
          entries := s.replacedEntries e old me d (freedEntry (s.entry old))
          notices := (s.ownerNotice (some o) .lifecycle
            (.retired (s.handleOf old) (s.entry old).descriptor.label .replaced none)).notices }
        status := .ok
        payload := [BitVec.ofNat 8 e.val, BitVec.ofNat 8 (s.entry e).generation.toNat, 0] } := by
  have ne := ne_of_lowestFree_of_active he hold
  have old_entry : (s.writePending e me d).entry old = s.entry old := entry_writePending_ne ne
  have owner : (s.writePending e me d).ownerOf old = some o := by rw [ownerOf, old_entry, hold]; rfl
  have retired : (s.writePending e me d).retireReplaced old o =
      { s with
        entries := s.replacedEntries e old me d (freedEntry (s.entry old))
        notices := (s.ownerNotice (some o) .lifecycle
          (.retired (s.handleOf old) (s.entry old).descriptor.label .replaced none)).notices } := by
    have stopped' : (s.writePending e me d).engine.state = .stopped := stopped
    rw [retireReplaced, if_pos stopped', freeWithNotice, owner, handleOf, freeEntry, old_entry]
    refine Eq.trans (NoticesOnly.ownerNotice ..) ?_
    rw [ownerNotice_notices_congr (s := s) (t := (s.writePending e me d).setEntry old _) rfl rfl]
    rfl
  have old_state : ((s.writePending e me d).retireReplaced old o).entry old = freedEntry (s.entry old) := by
    rw [retired]
    exact Table.get_set_self ..
  simp only [replaceInForce, he, old_state, replaceAnswer]
  rw [retired]
  rfl

end

end State

/-! ### The table after a REPLACE -/

namespace State

variable {s : State} {me : SessionId} {e old g : EntryIx} {d : Descriptor} {x : Entry}

theorem replacedEntries_old : (s.replacedEntries e old me d x).get old = x := Table.get_set_self ..

theorem replacedEntries_new (ne : old ≠ e) :
    (s.replacedEntries e old me d x).get e =
      { state := .pending me, generation := (s.entry e).generation, descriptor := d, fireCount := 0 } :=
  (Table.get_set_ne _ _ ne.symm).trans entry_writePending

theorem replacedEntries_other (he : g ≠ e) (hold : g ≠ old) : (s.replacedEntries e old me d x).get g = s.entry g :=
  (Table.get_set_ne _ _ hold).trans (entry_writePending_ne he)

/-- The new entry where the old one has been freed, at its index or at another. -/
theorem entry_writePending_freeEntry :
    ((s.freeEntry old).writePending e me d).entry e =
      { state := .pending me
        generation := if e = old then (s.entry e).generation + 1 else (s.entry e).generation
        descriptor := d
        fireCount := 0 } := by
  rw [entry_writePending, freeEntry]
  by_cases h : e = old
  · subst h
    rw [entry_setEntry, if_pos rfl]
    rfl
  · rw [entry_setEntry_ne s _ h, if_neg h]

end State

section replace_completion

variable {s : State} {f : Flight} {x : Replacement} {o : SessionId} {e : EntryIx}
  (attached : s.attachedSession f.session.port = some f.session)
include attached

/-- The old entry is freed and the new one takes the lowest-numbered FREE entry (R42, R44). -/
theorem complete_replace_freeing
    (old : (s.entry x.old).state = .pending o ∨ (s.entry x.old).state = .active o ∧ x.stoppedAtTaking = true)
    (he : e = x.old ∨ (s.entry e).state = .free) (lowest : ∀ g < e, g ≠ x.old ∧ (s.entry g).state ≠ .free) :
    (s.complete f fun t => t.completeReplace f.session (.pass x)) =
      State.recomputePeaks { s.landed f .ok
          [BitVec.ofNat 8 e.val,
            BitVec.ofNat 8 (((s.freeEntry x.old).writePending e f.session x.descriptor).entry e).generation.toNat, 0] with
        entries := ((s.freeEntry x.old).writePending e f.session x.descriptor).entries } := by
  have found : (s.releaseExecutor.freeEntry x.old).lowestFree = some e := State.lowestFree_freeEntry he lowest
  refine State.complete_written attached ?_
  rw [State.completeReplace_freeing (s := s.releaseExecutor) old, State.replaceFreed_of_lowestFree found]
  rfl

variable (old : (s.entry x.old).state = .active o) (running : x.stoppedAtTaking = false)
include old running

/-- With the old entry in force and no other FREE, the REPLACE is refused (R43). -/
theorem complete_replace_noEntry (full : ∀ e, (s.entry e).state ≠ .free) :
    (s.complete f fun t => t.completeReplace f.session (.pass x)) = s.landed f .noEntry [] := by
  have act := State.completeReplace_inForce (s := s.releaseExecutor) (me := f.session) old running
  exact State.complete_landed attached (act.trans (State.replaceInForce_noEntry full))

variable (found : s.lowestFree = some e)
include found

/-- The old entry retires beside the new one (R43). -/
theorem complete_replace_retires (h : s.engine.state ≠ .stopped) :
    (s.complete f fun t => t.completeReplace f.session (.pass x)) =
      State.recomputePeaks
        { s.landed f .ok [BitVec.ofNat 8 e.val, BitVec.ofNat 8 (s.entry e).generation.toNat, 3] with
          entries := s.replacedEntries e x.old f.session x.descriptor
            { s.entry x.old with state := .retiring o .replaced } } := by
  have act := State.completeReplace_inForce (s := s.releaseExecutor) (me := f.session) old running
  exact State.complete_written attached
    (act.trans (State.replaceInForce_retires (s := s.releaseExecutor) found old h))

/-- With the engine since STOPPED, the old entry is freed with its RETIRED notice beside the new one (R43). -/
theorem complete_replace_frees (h : s.engine.state = .stopped) :
    (s.complete f fun t => t.completeReplace f.session (.pass x)) =
      State.recomputePeaks
        { s.landed f .ok [BitVec.ofNat 8 e.val, BitVec.ofNat 8 (s.entry e).generation.toNat, 0] with
          entries := s.replacedEntries e x.old f.session x.descriptor (freedEntry (s.entry x.old))
          notices := (s.ownerNotice (some o) .lifecycle
            (.retired (s.handleOf x.old) (s.entry x.old).descriptor.label .replaced none)).notices } := by
  have act := State.completeReplace_inForce (s := s.releaseExecutor) (me := f.session) old running
  rw [State.complete_written attached (act.trans (State.replaceInForce_frees (s := s.releaseExecutor) found old h)),
    State.ownerNotice_notices_congr (s := s) (t := s.releaseExecutor) rfl rfl]
  rfl

end replace_completion

/-- Settles O22, by what becomes of the old entry. -/
theorem replaceCompletionSwapsTheEntries : Obligations.ReplaceCompletionSwapsTheEntries := by
  intro s f v hold hf hop
  rw [State.exec_replaceCompletion hold hf hop]
  refine ⟨fun ended => congrArg _ (State.complete_discarded ended), fun attached => ⟨?_, ?_, ?_⟩⟩
  · rintro st b rfl
    exact congrArg _ (State.complete_landed attached rfl)
  · rintro x o rfl old e he lowest
    refine ⟨_, congrArg _ (complete_replace_freeing attached old he lowest), rfl, fun g hg ho => ?_,
      State.entry_writePending_freeEntry, fun ne => ?_⟩
    · exact (State.entry_writePending_ne hg).trans (State.entry_setEntry_ne s _ ho)
    · exact (State.entry_writePending_ne ne.symm).trans (State.entry_setEntry ..)
  · rintro x o rfl old running
    refine ⟨fun full => congrArg _ (complete_replace_noEntry attached old running full), fun e free lowest => ?_⟩
    have found : s.lowestFree = some e := State.lowestFree_eq_some.2 ⟨free, lowest⟩
    have ne : x.old ≠ e := State.ne_of_lowestFree_of_active found old
    by_cases stopped : s.engine.state = .stopped
    · exact ⟨_, congrArg _ (complete_replace_frees attached old running found stopped),
        fun g he hg => State.replacedEntries_other he hg, State.replacedEntries_new ne,
        fun h => absurd stopped h, fun _ => ⟨State.replacedEntries_old, rfl⟩⟩
    · exact ⟨_, congrArg _ (complete_replace_retires attached old running found stopped),
        fun g he hg => State.replacedEntries_other he hg, State.replacedEntries_new ne,
        fun _ => ⟨State.replacedEntries_old, rfl⟩, fun h => absurd h stopped⟩

end Sys2Proof.Machine
end

