-- ==== Sys2Proof/Proofs/Reports.lean ====
section
/-! SUPPORT. The failing points of each condition with the members involved, and what a conflict report says of them (R33 to
R35). -/

namespace Sys2Proof.Machine

/-! ### The failing points of each condition (R33) -/

theorem Failure.eq_mk {f : Failure} {k t sum : Nat} {involved : List (Option Handle)} :
    f = { k := k, t := t, involved := involved, sum := sum } ↔
      f.k = k ∧ f.t = t ∧ f.involved = involved ∧ f.sum = sum := by
  cases f
  rw [Failure.mk.injEq]

/-- A failure that is listed only under a test is in the list exactly when the test holds. -/
theorem ite_some_eq_some {α : Type} {P : Prop} [Decidable P] {x y : α} :
    (if P then some x else none) = some y ↔ P ∧ y = x := by
  by_cases h : P <;> simp [h, eq_comm]

section

variable {gapOf : LineIx → Nat} {cycleLength k : Nat} {ms : List Member} {f : Failure}

theorem tooClose_eq_true {gap : Nat} {d e : Descriptor} : tooClose gap d e = true ↔ ¬ Descriptor.Apart gap d e := by
  rw [← tooClose_eq_false, Bool.not_eq_false]

theorem mem_sameLineFailures :
    f ∈ sameLineFailures gapOf ms k ↔
      ∃ m w, [m, w].Sublist ms
        ∧ (m.d.line = w.d.line ∧ m.d.fires k = true ∧ w.d.fires k = true ∧ ¬ Descriptor.Apart (gapOf m.d.line) m.d w.d)
        ∧ f.k = k ∧ f.t = max m.d.start w.d.start ∧ f.involved = [m.handle, w.handle] ∧ f.sum = 0 := by
  simp only [sameLineFailures, List.mem_filterMap, Prod.exists, mem_pairsOf, ite_some_eq_some, tooClose_eq_true,
    Failure.eq_mk]

theorem mem_boundaryFailures :
    f ∈ boundaryFailures gapOf cycleLength ms k ↔
      ∃ m ∈ ms, ∃ w ∈ ms,
        (m.d.line = w.d.line ∧ m.d.fires k = true ∧ w.d.fires ((k + 1) % 8) = true
          ∧ (cycleLength - (m.d.start + m.d.duration)) + w.d.start < gapOf m.d.line)
        ∧ f.k = (k + 1) % 8 ∧ f.t = w.d.start ∧ f.involved = [m.handle, w.handle] ∧ f.sum = 0 := by
  simp only [boundaryFailures, List.mem_flatMap, List.mem_filterMap, ite_some_eq_some, Failure.eq_mk]
  exact Iff.rfl

/-- The failing points of conditions (a) and (b). -/
theorem mem_lineFailures :
    f ∈ lineFailures gapOf cycleLength ms ↔
      f.sum = 0 ∧ ∃ k m w, k < 8 ∧ m.d.line = w.d.line ∧ m.d.fires k = true ∧ f.involved = [m.handle, w.handle]
        ∧ (([m, w].Sublist ms ∧ w.d.fires k = true ∧ ¬ Descriptor.Apart (gapOf m.d.line) m.d w.d
              ∧ f.k = k ∧ f.t = max m.d.start w.d.start)
            ∨ (m ∈ ms ∧ w ∈ ms ∧ w.d.fires ((k + 1) % 8) = true
              ∧ (cycleLength - (m.d.start + m.d.duration)) + w.d.start < gapOf m.d.line
              ∧ f.k = (k + 1) % 8 ∧ f.t = w.d.start)) := by
  simp only [lineFailures, List.mem_flatMap, mem_superIndices, List.mem_append, mem_sameLineFailures,
    mem_boundaryFailures]
  constructor
  · rintro ⟨k, hk, ⟨m, w, hs, ⟨hl, hm, hw, apart⟩, fk, ft, fi, fs⟩ | ⟨m, hm, w, hw, ⟨hl, hfm, hfw, gap⟩, fk, ft, fi, fs⟩⟩
    · exact ⟨fs, k, m, w, hk, hl, hm, fi, .inl ⟨hs, hw, apart, fk, ft⟩⟩
    · exact ⟨fs, k, m, w, hk, hl, hfm, fi, .inr ⟨hm, hw, hfw, gap, fk, ft⟩⟩
  · rintro ⟨fs, k, m, w, hk, hl, hfm, fi, ⟨hs, hw, apart, fk, ft⟩ | ⟨hm, hw, hfw, gap, fk, ft⟩⟩
    · exact ⟨k, hk, .inl ⟨m, w, hs, ⟨hl, hfm, hw, apart⟩, fk, ft, fi, fs⟩⟩
    · exact ⟨k, hk, .inr ⟨m, hm, w, hw, ⟨hl, hfm, hfw, gap⟩, fk, ft, fi, fs⟩⟩

end

section

variable {ms : List Member} {rail : Rail} {k t : Nat} {f : Failure}

/-- The members on a rail that fire in k and cover t, in the words of R11. -/
theorem railMembers_eq :
    railMembers ms rail k t = ms.filter fun w =>
      decide (w.d.rail = some rail ∧ w.d.fires k = true ∧ w.d.start ≤ t ∧ t < w.d.start + w.d.duration) := by
  refine List.filter_congr fun w _ => Bool.eq_iff_iff.2 ?_
  simp [Descriptor.covers_iff, Descriptor.stop, and_assoc]

/-- The BURST members that fire in k and cover t, in the words of R12. -/
theorem burstMembers_eq :
    burstMembers ms k t = ms.filter fun w =>
      decide (w.d.isBurst = true ∧ w.d.fires k = true ∧ w.d.start ≤ t ∧ t < w.d.start + w.d.duration) := by
  refine List.filter_congr fun w _ => Bool.eq_iff_iff.2 ?_
  simp [Descriptor.covers_iff, Descriptor.stop, and_assoc]

theorem mem_railStarts :
    t ∈ railStarts ms rail k ↔ ∃ m ∈ ms, m.d.rail = some rail ∧ m.d.fires k = true ∧ m.d.start = t := by
  simp [railStarts, and_assoc]

theorem mem_railFailuresAt {capacity : Nat} :
    f ∈ railFailuresAt capacity ms rail k ↔
      f.k = k ∧ (∃ m ∈ ms, m.d.rail = some rail ∧ m.d.fires k = true ∧ m.d.start = f.t)
        ∧ capacity < f.sum ∧ f.sum = railSum ms rail k f.t
        ∧ f.involved = (railMembers ms rail k f.t).map fun w => w.handle := by
  simp only [railFailuresAt, List.mem_filterMap, ite_some_eq_some, Failure.eq_mk, mem_railStarts]
  constructor
  · rintro ⟨t, start, high, fk, rfl, fi, fs⟩
    exact ⟨fk, start, fs ▸ high, fs, fi⟩
  · rintro ⟨fk, start, high, fs, fi⟩
    exact ⟨f.t, start, fs ▸ high, fk, rfl, fi, fs⟩

/-- The failing points of condition (c). -/
theorem mem_railFailures {capacityA capacityB : Nat} :
    f ∈ railFailures capacityA capacityB ms ↔
      f.k < 8 ∧ ∃ rail capacity, ((rail, capacity) = (Rail.a, capacityA) ∨ (rail, capacity) = (Rail.b, capacityB))
        ∧ f ∈ railFailuresAt capacity ms rail f.k := by
  simp only [railFailures, List.mem_flatMap, mem_superIndices, List.mem_append]
  constructor
  · rintro ⟨k, hk, h | h⟩
    · obtain rfl := (mem_railFailuresAt.1 h).1
      exact ⟨hk, _, _, .inl rfl, h⟩
    · obtain rfl := (mem_railFailuresAt.1 h).1
      exact ⟨hk, _, _, .inr rfl, h⟩
  · rintro ⟨hk, rail, capacity, ⟨⟨⟩⟩ | ⟨⟨⟩⟩, h⟩
    · exact ⟨_, hk, .inl h⟩
    · exact ⟨_, hk, .inr h⟩

/-- The failing points of condition (d). -/
theorem mem_burstFailures :
    f ∈ burstFailures ms ↔
      f.k < 8 ∧ f.sum = 0 ∧ (∃ m ∈ ms, m.d.isBurst = true ∧ m.d.fires f.k = true ∧ m.d.start = f.t)
        ∧ 2 < (burstMembers ms f.k f.t).length
        ∧ f.involved = (burstMembers ms f.k f.t).map fun w => w.handle := by
  simp only [burstFailures, burstFailuresAt, List.mem_flatMap, mem_superIndices, List.mem_filterMap, List.mem_filter,
    Bool.and_eq_true, ite_some_eq_some, Failure.eq_mk]
  constructor
  · rintro ⟨k, hk, m, ⟨hm, hb, hf⟩, high, rfl, ft, fi, fs⟩
    rw [← ft] at high fi
    exact ⟨hk, fs, ⟨m, hm, hb, hf, ft.symm⟩, high, fi⟩
  · rintro ⟨hk, fs, ⟨m, hm, hb, hf, ft⟩, high, fi⟩
    rw [← ft] at high fi
    exact ⟨f.k, hk, m, ⟨hm, hb, hf⟩, high, rfl, ft.symm, fi, fs⟩

end

/-! ### The report (R34, R35) -/

/-- The first failing point is one, and none comes before it (R34). -/
theorem firstPoint_spec {fs : List Failure} {p : Nat × Nat} (h : firstPoint fs = some p) :
    (∃ f ∈ fs, (f.k, f.t) = p) ∧ ∀ f ∈ fs, p.1 < f.k ∨ (p.1 = f.k ∧ p.2 ≤ f.t) := by
  induction fs generalizing p with
  | nil => cases h
  | cons x xs ih =>
    cases hq : firstPoint xs with
    | none =>
      obtain rfl : xs = [] := (conflictReport_eq_none (free := 0)).1 (by simp [conflictReport, hq])
      simp only [firstPoint, Option.some.injEq] at h
      subst h
      simp
    | some q =>
      obtain ⟨⟨y, hy, rfl⟩, least⟩ := ih hq
      simp only [firstPoint, hq, pointBefore, Bool.or_eq_true, Bool.and_eq_true, decide_eq_true_eq] at h
      split_ifs at h with before
      · cases h
        refine ⟨⟨y, List.mem_cons_of_mem _ hy, rfl⟩, fun f hf => ?_⟩
        rcases List.mem_cons.1 hf with rfl | hf
        · omega
        · exact least f hf
      · cases h
        refine ⟨⟨x, List.mem_cons_self, rfl⟩, fun f hf => ?_⟩
        rcases List.mem_cons.1 hf with rfl | hf
        · omega
        · have := least f hf
          omega

theorem mem_of_lowestHandle {hs : List (Option Handle)} {h : Handle} (e : lowestHandle hs = some h) : some h ∈ hs := by
  induction hs generalizing h with
  | nil => cases e
  | cons x hs ih =>
    cases x with
    | none => exact List.mem_cons_of_mem _ (ih e)
    | some g =>
      cases hl : lowestHandle hs with
      | none =>
        simp only [lowestHandle, hl, Option.some.injEq] at e
        simp [e]
      | some l =>
        simp only [lowestHandle, hl] at e
        split_ifs at e
        · exact List.mem_cons_of_mem _ (ih (hl.trans e))
        · simp [e]

/-- A handle in the list has the lowest at or below it. -/
theorem exists_lowestHandle_le {hs : List (Option Handle)} {g : Handle} (hg : some g ∈ hs) :
    ∃ h, lowestHandle hs = some h ∧ h.index ≤ g.index := by
  induction hs with
  | nil => cases hg
  | cons x hs ih =>
    cases x with
    | none => exact ih (by simpa using hg)
    | some y =>
      cases hl : lowestHandle hs with
      | none =>
        have : some g ∉ hs := fun hm => by
          obtain ⟨h, e, -⟩ := ih hm
          simp [hl] at e
        obtain rfl : g = y := by simpa [this] using hg
        exact ⟨g, by simp [lowestHandle, hl], le_rfl⟩
      | some l =>
        have low : g = y ∨ l.index ≤ g.index := by
          rcases List.mem_cons.1 hg with e | hm
          · exact .inl (Option.some.inj e)
          · obtain ⟨h, e, le⟩ := ih hm
            obtain rfl := Option.some.inj (hl.symm.trans e)
            exact .inr le
        by_cases lt : l.index < y.index
        · refine ⟨l, by simp [lowestHandle, hl, lt], ?_⟩
          rcases low with rfl | le
          · exact lt.le
          · exact le
        · refine ⟨y, by simp [lowestHandle, hl, lt], ?_⟩
          rcases low with rfl | le
          · exact le_rfl
          · exact (not_lt.1 lt).trans le

/-- The sum of a report is that of one of the failures at the point (log 12). -/
theorem exists_reportSum_eq {hits : List Failure} (h : hits ≠ []) (free : Nat) :
    ∃ f ∈ hits, reportSum free hits = f.sum := by
  have head := List.head?_eq_some_head h
  have last := List.getLast?_eq_some_getLast h
  simp only [reportSum, head, last]
  split_ifs
  · exact ⟨_, List.head_mem h, rfl⟩
  · exact ⟨_, List.head_mem h, rfl⟩
  · exact ⟨_, List.getLast_mem h, rfl⟩

theorem mem_failuresAtPoint {fs : List Failure} {p : Nat × Nat} {f : Failure} :
    f ∈ failuresAtPoint fs p ↔ f ∈ fs ∧ f.k = p.1 ∧ f.t = p.2 := by
  simp [failuresAtPoint, Prod.ext_iff]

/-- A report names the first failing point, the lowest-indexed member there other than the candidate, and a sum formed
there. -/
theorem conflictReport_spec {free : Nat} {fs : List Failure} {c : ConflictReport} (hc : conflictReport free fs = some c) :
    (∃ f ∈ fs, f.k = c.k ∧ f.t = c.t)
    ∧ (∀ f ∈ fs, c.k < f.k ∨ (c.k = f.k ∧ c.t ≤ f.t))
    ∧ (∀ h, c.blocking = some h → ∃ f ∈ fs, f.k = c.k ∧ f.t = c.t ∧ some h ∈ f.involved)
    ∧ (∀ f ∈ fs, f.k = c.k → f.t = c.t → ∀ g, some g ∈ f.involved →
        ∃ h, c.blocking = some h ∧ h.index ≤ g.index)
    ∧ (∃ f ∈ fs, f.k = c.k ∧ f.t = c.t ∧ c.sum = f.sum) := by
  obtain ⟨p, hp, rfl⟩ := Option.map_eq_some_iff.1 hc
  obtain ⟨⟨x, hx, rfl⟩, least⟩ := firstPoint_spec hp
  have here : x ∈ failuresAtPoint fs (x.k, x.t) := mem_failuresAtPoint.2 ⟨hx, rfl, rfl⟩
  refine ⟨⟨x, hx, rfl, rfl⟩, least, fun h hh => ?_, fun f hf hk ht g hg => ?_, ?_⟩
  · obtain ⟨f, hf, hm⟩ := List.mem_flatMap.1 (mem_of_lowestHandle hh)
    obtain ⟨hf, hk, ht⟩ := mem_failuresAtPoint.1 hf
    exact ⟨f, hf, hk, ht, hm⟩
  · exact exists_lowestHandle_le (List.mem_flatMap.2 ⟨f, mem_failuresAtPoint.2 ⟨hf, hk, ht⟩, hg⟩)
  · obtain ⟨f, hf, hs⟩ := exists_reportSum_eq (List.ne_nil_of_mem here) free
    obtain ⟨hf, hk, ht⟩ := mem_failuresAtPoint.1 hf
    exact ⟨f, hf, hk, ht, hs⟩

/-- Settles O18: the failing points of each condition, and the report of a list of them. -/
theorem reportNamesTheFirstFailingPoint : Obligations.ReportNamesTheFirstFailingPoint := by
  refine ⟨fun _ _ => rfl, fun _ _ _ _ => mem_lineFailures, fun capacityA capacityB ms f => ?_, fun ms f => ?_,
    fun _ _ _ => conflictReport_spec⟩
  · dsimp only
    simp only [mem_railFailures, mem_railFailuresAt, true_and, railSum, railMembers_eq]
  · dsimp only
    rw [mem_burstFailures, burstMembers_eq]

end Sys2Proof.Machine
end

