-- ==== Sys2Proof/Proofs/Encodings.lean ====
section
/-! SUPPORT. What reads as a descriptor or a hub record, byte by byte, and that every one in range reads back from its own
bytes (R25, R26, R165, R187). -/

namespace Sys2Proof.Machine

/-! ### Single fields (R187, Enumerations) -/

section

variable {b : Byte}

theorem lineOfByte_eq_some {l : LineIx} : lineOfByte b = some l ↔ l.val = b.toNat := by
  unfold lineOfByte
  split
  · simp [Fin.ext_iff, eq_comm]
  · simp only [reduceCtorEq, false_iff]
    omega

theorem inputOfByte_eq_some {i : InputIx} : inputOfByte b = some i ↔ i.val = b.toNat := by
  unfold inputOfByte
  split
  · simp [Fin.ext_iff, eq_comm]
  · simp only [reduceCtorEq, false_iff]
    omega

theorem inputOfByte_eq_none : inputOfByte b = none ↔ 7 < b.toNat := by
  unfold inputOfByte
  split <;> simp <;> omega

theorem periodOfByte_eq_some {p : Period} : periodOfByte b = some p ↔ p.ticks = b.toNat := by
  rw [eq_comm (b := b.toNat)]
  unfold periodOfByte
  split <;> cases p <;> simp_all [Period.ticks]

theorem railOfByte_eq_some {r : Option Rail} : railOfByte b = some r ↔ railByte r = b := by
  rw [eq_comm (b := b), ← BitVec.toNat_inj]
  unfold railOfByte
  split <;> rcases r with _ | _ | _ <;> simp_all [railByte]

theorem startModeOfByte_eq_some {m : StartMode} : startModeOfByte b = some m ↔ startModeByte m = b := by
  rw [eq_comm (b := b), ← BitVec.toNat_inj]
  unfold startModeOfByte
  split <;> cases m <;> simp_all [startModeByte]

theorem startModeOfByte_eq_none : startModeOfByte b = none ↔ 1 < b.toNat := by
  unfold startModeOfByte
  split <;> simp_all
  omega

theorem startEdgeOfByte_eq_some {e : Edge} : startEdgeOfByte b = some e ↔ startEdgeByte e = b := by
  rw [eq_comm (b := b), ← BitVec.toNat_inj]
  unfold startEdgeOfByte
  split <;> cases e <;> simp_all [startEdgeByte]

theorem startEdgeOfByte_eq_none : startEdgeOfByte b = none ↔ 1 < b.toNat := by
  unfold startEdgeOfByte
  split <;> simp_all
  omega

end

/-! ### The parts of a descriptor -/

section

variable {f : List Byte}

theorem windowKindOf_eq_some {k : WindowKind} :
    windowKindOf f = some k ↔
      kindByte k = byteAt f 1 ∧ kindHasBurst k = (byteAt f 12).getLsbD 3
        ∧ ∀ part, k = .burst part →
            part.highTime = word16At f 16 ∧ part.lowTime = word16At f 18
              ∧ part.count = (if (byteAt f 20).toNat = 255 then none else some (byteAt f 20).toNat)
              ∧ word16At f 16 ≠ 0 ∧ word16At f 18 ≠ 0 ∧ (byteAt f 20).toNat ≠ 0 := by
  rw [← BitVec.toNat_inj]
  unfold windowKindOf
  generalize (byteAt f 1).toNat = n
  generalize (byteAt f 12).getLsbD 3 = present
  split
  · cases k with
    | solid => simp [kindByte, kindHasBurst]
    | burst part => simp [kindByte, kindHasBurst]
  · generalize (if (byteAt f 20).toNat = 255 then none else some (byteAt f 20).toNat : Option Nat) = count
    generalize word16At f 16 = high
    generalize word16At f 18 = low
    cases k with
    | solid => split <;> simp [kindByte]
    | burst part =>
      obtain ⟨high', low', count'⟩ := part
      by_cases zero : high = 0 ∨ low = 0 ∨ (byteAt f 20).toNat = 0
      · simp only [if_pos zero, reduceCtorEq, false_iff]
        rintro ⟨-, -, parts⟩
        obtain ⟨-, -, -, nonzero⟩ := parts _ rfl
        tauto
      · simp only [if_neg zero, kindByte, kindHasBurst]
        simp only [not_or] at zero
        simp [zero, eq_comm]
  · rename_i not_solid not_burst
    simp only [reduceCtorEq, false_iff, not_and]
    intro hn hp
    cases k with
    | solid => exact absurd hp.symm (not_solid hn.symm)
    | burst part => exact absurd hp.symm (not_burst hn.symm)

theorem gateOf_eq_some {gate : Option Gate} :
    gateOf f = some gate ↔
      gate.isSome = (byteAt f 12).getLsbD 1
        ∧ ∀ g ∈ gate, g.input.val = (byteAt f 15).toNat ∧ (g.level = .high ↔ (byteAt f 12).getLsbD 2 = true) := by
  unfold gateOf
  generalize (byteAt f 12).getLsbD 1 = present
  cases present with
  | false => cases gate <;> simp
  | true =>
    cases hi : inputOfByte (byteAt f 15) with
    | none =>
      have high := inputOfByte_eq_none.1 hi
      cases gate with
      | none => simp
      | some g =>
        have ne : g.input.val ≠ (byteAt f 15).toNat := by omega
        simp [ne]
    | some i =>
      have input := inputOfByte_eq_some.1 hi
      cases gate with
      | none => simp
      | some g =>
        obtain ⟨j, level⟩ := g
        cases (byteAt f 12).getLsbD 2 <;> cases level <;> simp [← input, Fin.ext_iff, eq_comm]

end

/-! ### The descriptor (R25, R26) -/

/-- A descriptor is what the bytes of a payload spell, place by place (R187). -/
structure Descriptor.ReadFrom (d : Descriptor) (f : List Byte) : Prop where
  length : 21 ≤ f.length
  reserved : (byteAt f 12).toNat < 16
  line : d.line.val = (byteAt f 0).toNat
  kind : windowKindOf f = some d.kind
  start : d.start = word24At f 2
  duration : d.duration = word24At f 5
  period : d.period.ticks = (byteAt f 8).toNat
  pattern : d.pattern = byteAt f 9
  rail : railByte d.rail = byteAt f 10
  draw : d.draw = (byteAt f 11).toNat
  notify : d.notify = (byteAt f 12).getLsbD 0
  label : d.label.toNat = word16At f 13
  gate : gateOf f = some d.gate

theorem label_eq_iff {f : List Byte} {label : BitVec 16} :
    label = BitVec.ofNat 16 (word16At f 13) ↔ label.toNat = word16At f 13 := by
  have := word16At_le f 13
  rw [← BitVec.toNat_inj, BitVec.toNat_ofNat, Nat.mod_eq_of_lt (by omega)]

/-- What reads as a descriptor: what its bytes spell, when it fits the cycle length. -/
theorem descriptorOf_eq_some {cycleLength : Nat} {f : List Byte} {d : Descriptor} :
    descriptorOf cycleLength f = some d ↔ d.ReadFrom f ∧ d.fits cycleLength = true := by
  unfold descriptorOf
  split
  · rename_i short
    simp only [reduceCtorEq, false_iff]
    rintro ⟨read, -⟩
    have := read.length
    have := read.reserved
    omega
  · rename_i long
    split
    · rename_i line kind period rail gate hline hkind hperiod hrail hgate
      dsimp only
      constructor
      · intro h
        split_ifs at h with fits
        cases h
        exact ⟨⟨by omega, by omega, lineOfByte_eq_some.1 hline, hkind, rfl, rfl, periodOfByte_eq_some.1 hperiod, rfl,
          railOfByte_eq_some.1 hrail, rfl, rfl, label_eq_iff.1 rfl, hgate⟩, fits⟩
      · rintro ⟨read, fits⟩
        obtain ⟨dline, dkind, dstart, dduration, dperiod, dpattern, drail, ddraw, dnotify, dlabel, dgate⟩ := d
        obtain rfl : line = dline := Option.some.inj (hline.symm.trans (lineOfByte_eq_some.2 read.line))
        obtain rfl : kind = dkind := Option.some.inj (hkind.symm.trans read.kind)
        obtain rfl : period = dperiod := Option.some.inj (hperiod.symm.trans (periodOfByte_eq_some.2 read.period))
        obtain rfl : rail = drail := Option.some.inj (hrail.symm.trans (railOfByte_eq_some.2 read.rail))
        obtain rfl : gate = dgate := Option.some.inj (hgate.symm.trans read.gate)
        obtain rfl := read.start
        obtain rfl := read.duration
        obtain rfl := read.pattern
        obtain rfl := read.draw
        obtain rfl := read.notify
        obtain rfl := label_eq_iff.2 read.label
        rw [if_pos fits]
    · rename_i unnamed
      simp only [reduceCtorEq, false_iff]
      rintro ⟨read, -⟩
      exact unnamed _ _ _ _ _ (lineOfByte_eq_some.2 read.line) read.kind (periodOfByte_eq_some.2 read.period)
        (railOfByte_eq_some.2 read.rail) read.gate

/-- What spells no descriptor does not read. -/
theorem descriptorOf_eq_none {cycleLength : Nat} {f : List Byte} (h : ∀ d : Descriptor, ¬ d.ReadFrom f) :
    descriptorOf cycleLength f = none :=
  Option.eq_none_iff_forall_ne_some.2 fun d hd => h d (descriptorOf_eq_some.1 hd).1

namespace Descriptor.ReadFrom

variable {d : Descriptor} {f : List Byte} (read : d.ReadFrom f)
include read

theorem gate_isSome : d.gate.isSome = (byteAt f 12).getLsbD 1 := (gateOf_eq_some.1 read.gate).1

theorem isBurst : d.isBurst = (byteAt f 12).getLsbD 3 := (windowKindOf_eq_some.1 read.kind).2.1

theorem kindByte_eq : kindByte d.kind = byteAt f 1 := (windowKindOf_eq_some.1 read.kind).1

theorem burst {part : BurstPart} (h : d.kind = .burst part) :
    part.highTime = word16At f 16 ∧ part.lowTime = word16At f 18
      ∧ part.count = (if (byteAt f 20).toNat = 255 then none else some (byteAt f 20).toNat)
      ∧ word16At f 16 ≠ 0 ∧ word16At f 18 ≠ 0 ∧ (byteAt f 20).toNat ≠ 0 := (windowKindOf_eq_some.1 read.kind).2.2 part h

/-- No byte of a descriptor names nothing. -/
theorem bytes_named :
    (byteAt f 0).toNat ≤ 15 ∧ (byteAt f 1).toNat ≤ 1 ∧ (byteAt f 8).toNat ∈ [1, 2, 4, 8] ∧ (byteAt f 10).toNat ≤ 2 := by
  rw [← read.line, ← read.kindByte_eq, ← read.period, ← read.rail]
  refine ⟨by omega, ?_, ?_, ?_⟩
  · cases d.kind <;> simp [kindByte]
  · cases d.period <;> decide
  · rcases d.rail with _ | _ | _ <;> decide

/-- The burst part is present exactly for BURST. -/
theorem burst_flag : (byteAt f 12).getLsbD 3 = decide ((byteAt f 1).toNat = 1) := by
  rw [← read.isBurst, ← read.kindByte_eq, Descriptor.isBurst]
  cases d.kind <;> rfl

end Descriptor.ReadFrom

theorem descriptorOf_reads {cycleLength : Nat} {f : List Byte} {d : Descriptor} (h : descriptorOf cycleLength f = some d) :
    d.InRange cycleLength
      ∧ d.line.val = (byteAt f 0).toNat ∧ d.start = word24At f 2 ∧ d.duration = word24At f 5
      ∧ d.period.ticks = (byteAt f 8).toNat ∧ d.pattern = byteAt f 9 ∧ railByte d.rail = byteAt f 10
      ∧ d.draw = (byteAt f 11).toNat ∧ d.notify = (byteAt f 12).getLsbD 0 ∧ d.label.toNat = word16At f 13
      ∧ d.gate.isSome = (byteAt f 12).getLsbD 1 ∧ d.isBurst = (byteAt f 12).getLsbD 3
      ∧ (∀ g ∈ d.gate,
          g.input.val = (byteAt f 15).toNat ∧ (g.level = .high ↔ (byteAt f 12).getLsbD 2 = true))
      ∧ ∀ part, d.kind = .burst part →
          part.highTime = word16At f 16 ∧ part.lowTime = word16At f 18
            ∧ part.count = if (byteAt f 20).toNat = 255 then none else some (byteAt f 20).toNat := by
  obtain ⟨read, -⟩ := descriptorOf_eq_some.1 h
  refine ⟨descriptorOf_inRange h, read.line, read.start, read.duration, read.period, read.pattern, read.rail, read.draw,
    read.notify, read.label, read.gate_isSome, read.isBurst, (gateOf_eq_some.1 read.gate).2, fun part hp => ?_⟩
  obtain ⟨high, low, count, -⟩ := read.burst hp
  exact ⟨high, low, count⟩

theorem descriptorOf_unnamed {cycleLength : Nat} {f : List Byte}
    (h : f.length < 21 ∨ 15 < (byteAt f 0).toNat ∨ 1 < (byteAt f 1).toNat ∨ (byteAt f 8).toNat ∉ [1, 2, 4, 8]
      ∨ 2 < (byteAt f 10).toNat ∨ 15 < (byteAt f 12).toNat) : descriptorOf cycleLength f = none := by
  refine descriptorOf_eq_none fun d read => ?_
  have := read.length
  have := read.reserved
  obtain ⟨hline, hkind, hperiod, hrail⟩ := read.bytes_named
  rcases h with h | h | h | h | h | h
  case inr.inr.inr.inl => exact h hperiod
  all_goals omega

theorem descriptorOf_gate_above {cycleLength : Nat} {f : List Byte} (present : (byteAt f 12).getLsbD 1 = true)
    (h : 7 < (byteAt f 15).toNat) : descriptorOf cycleLength f = none := by
  refine descriptorOf_eq_none fun d read => ?_
  obtain ⟨g, hg⟩ := Option.isSome_iff_exists.1 (read.gate_isSome.trans present)
  have := ((gateOf_eq_some.1 read.gate).2 g hg).1
  omega

theorem descriptorOf_burst_zero {cycleLength : Nat} {f : List Byte} (present : (byteAt f 12).getLsbD 3 = true)
    (h : word16At f 16 = 0 ∨ word16At f 18 = 0 ∨ (byteAt f 20).toNat = 0) : descriptorOf cycleLength f = none := by
  refine descriptorOf_eq_none fun d read => ?_
  have burst := read.isBurst.trans present
  rw [Descriptor.isBurst] at burst
  cases hk : d.kind with
  | solid =>
    rw [hk] at burst
    cases burst
  | burst part =>
    obtain ⟨-, -, -, nonzero⟩ := read.burst hk
    tauto

/-! ### The hub record (R165) -/

theorem hubFields_eq_some {f : List Byte} {h : HubRecord} :
    hubFields f = some h ↔
      16 ≤ f.length ∧ 100 ≤ h.cycleLength ∧ h.cycleLength ≤ 1000000 ∧ h.cycleLength = word24At f 0
        ∧ startModeByte h.startMode = byteAt f 3 ∧ h.startLine.val = (byteAt f 4).toNat
        ∧ startEdgeByte h.startEdge = byteAt f 5 ∧ h.capacityA = (byteAt f 6).toNat ∧ h.capacityB = (byteAt f 7).toNat
        ∧ ∀ i, h.widths.get i = (byteAt f (8 + i.val)).toNat := by
  unfold hubFields
  split
  · simp only [reduceCtorEq, false_iff]
    rintro ⟨_, _, _, _, -⟩
    omega
  · rename_i long
    have range : 16 ≤ f.length ∧ 100 ≤ word24At f 0 ∧ word24At f 0 ≤ 1000000 := by omega
    obtain ⟨length, mode, start, edge, capacityA, capacityB, widths⟩ := h
    have built : Table.build (fun i : Fin 8 => (byteAt f (8 + i.val)).toNat) = widths ↔
        ∀ i, widths.get i = (byteAt f (8 + i.val)).toNat := by
      constructor
      · rintro rfl i
        exact Table.get_build ..
      · exact fun h => Table.eq_of_get_eq fun i => (Table.get_build ..).trans (h i).symm
    rw [← startModeOfByte_eq_some, ← inputOfByte_eq_some, ← startEdgeOfByte_eq_some, ← built]
    split
    · rename_i hmode hline hedge
      rw [hmode, hline, hedge]
      simp only [Option.some.injEq, HubRecord.mk.injEq]
      constructor
      · rintro ⟨rfl, rfl, rfl, rfl, rfl, rfl, h⟩
        exact ⟨range.1, range.2.1, range.2.2, rfl, rfl, rfl, rfl, rfl, rfl, h⟩
      · rintro ⟨-, -, -, rfl, rfl, rfl, rfl, rfl, rfl, h⟩
        exact ⟨rfl, rfl, rfl, rfl, rfl, rfl, h⟩
    · rename_i unnamed
      simp only [reduceCtorEq, false_iff]
      rintro ⟨-, -, -, -, hmode, hline, hedge, -⟩
      exact unnamed _ _ _ hmode hline hedge

theorem hubFields_inRange {f : List Byte} {h : HubRecord} (hf : hubFields f = some h) : h.InRange := by
  obtain ⟨-, short, long, -, -, -, -, capacityA, capacityB, widths⟩ := hubFields_eq_some.1 hf
  refine ⟨short, long, ?_, ?_, fun i => ?_⟩
  · have := byteAt_lt f 6
    omega
  · have := byteAt_lt f 7
    omega
  · have := byteAt_lt f (8 + i.val)
    have := widths i
    omega

theorem hubFields_eq_none {f : List Byte} :
    hubFields f = none ↔
      f.length < 16 ∨ word24At f 0 < 100 ∨ 1000000 < word24At f 0 ∨ 1 < (byteAt f 3).toNat
        ∨ 7 < (byteAt f 4).toNat ∨ 1 < (byteAt f 5).toNat := by
  rw [← startModeOfByte_eq_none, ← inputOfByte_eq_none, ← startEdgeOfByte_eq_none]
  unfold hubFields
  split
  · simp only [true_iff]
    tauto
  · split
    · simp_all
    · rename_i unnamed
      simp only [true_iff]
      by_contra named
      simp only [not_or, ← ne_eq, Option.ne_none_iff_exists'] at named
      obtain ⟨-, -, -, ⟨_, mode⟩, ⟨_, line⟩, _, edge⟩ := named
      exact unnamed _ _ _ mode line edge

/-! ### Bytes laid out and read (R187) -/

theorem word16At_of_bytes {f : List Byte} {i v : Nat} (hv : v ≤ 65535) (h0 : byteAt f i = BitVec.ofNat 8 v)
    (h1 : byteAt f (i + 1) = BitVec.ofNat 8 (v / 256)) : word16At f i = v := by
  simp only [word16At, h0, h1, BitVec.toNat_ofNat]
  omega

theorem word24At_of_bytes {f : List Byte} {i v : Nat} (hv : v ≤ 1000000) (h0 : byteAt f i = BitVec.ofNat 8 v)
    (h1 : byteAt f (i + 1) = BitVec.ofNat 8 (v / 256)) (h2 : byteAt f (i + 2) = BitVec.ofNat 8 (v / 256 / 256)) :
    word24At f i = v := by
  simp only [word24At, h0, h1, h2, BitVec.toNat_ofNat]
  omega

theorem toNat_of_byte {b : Byte} {v : Nat} (hv : v ≤ 255) (h : b = BitVec.ofNat 8 v) : b.toNat = v := by
  rw [h, BitVec.toNat_ofNat]
  omega

theorem byteAt_append_of_lt {f g : List Byte} {i : Nat} (h : i < f.length) : byteAt (f ++ g) i = byteAt f i :=
  List.getD_append _ _ _ _ h

theorem byteAt_append_add {f g : List Byte} {n : Nat} (h : f.length = n) (i : Nat) :
    byteAt (f ++ g) (n + i) = byteAt g i := by
  rw [byteAt, List.getD_append_right _ _ _ _ (by omega), h, Nat.add_sub_cancel_left, byteAt]

theorem descriptorBytes_length (d : Descriptor) : (descriptorBytes d).length = 21 := by
  cases hk : d.kind <;> simp [descriptorBytes, burstBytes, bytesOf, hk]

/-- The flags byte holds its four flags and no reserved bit. -/
theorem flags_of_weights (notify gate high burst : Bool) :
    let flags : Byte := BitVec.ofNat 8 (weigh notify 1 + weigh gate 2 + weigh high 4 + weigh burst 8)
    flags.toNat < 16 ∧ flags.getLsbD 0 = notify ∧ flags.getLsbD 1 = gate ∧ flags.getLsbD 2 = high
      ∧ flags.getLsbD 3 = burst := by
  revert notify gate high burst
  decide

/-- A pattern without positions at or above the period is below its power of two. -/
theorem pattern_lt {pattern : BitVec 8} {n : Nat} (h : ∀ i < 8, n ≤ i → pattern.getLsbD i = false) :
    pattern.toNat < 2 ^ n := by
  refine Nat.lt_pow_two_of_testBit _ fun i hi => ?_
  by_cases h8 : i < 8
  · exact h i h8 hi
  · exact BitVec.getLsbD_of_ge pattern i (by omega)

/-- What is in range fits. -/
theorem Descriptor.InRange.fits {d : Descriptor} {cycleLength : Nat} (h : d.InRange cycleLength) :
    d.fits cycleLength = true := by
  have long : d.duration ≤ cycleLength := by
    have := h.stop
    omega
  have rail : d.rail.isSome = true ∨ d.draw = 0 := by
    cases hr : d.rail with
    | none => exact .inr (h.rail hr)
    | some r => exact .inl rfl
  simp only [Descriptor.fits, Bool.and_eq_true, Bool.or_eq_true, decide_eq_true_eq]
  exact ⟨⟨⟨⟨⟨⟨⟨h.start, h.duration⟩, long⟩, h.stop⟩, h.pattern⟩, pattern_lt h.positions⟩, h.draw⟩, rail⟩

section

variable {d : Descriptor} {f : List Byte}

theorem byteAt_flags (h : ∀ i < 15, byteAt f i = byteAt (descriptorBytes d) i) :
    (byteAt f 12).toNat < 16 ∧ (byteAt f 12).getLsbD 0 = d.notify ∧ (byteAt f 12).getLsbD 1 = d.gate.isSome
      ∧ (byteAt f 12).getLsbD 2 = gateIsHigh d.gate ∧ (byteAt f 12).getLsbD 3 = kindHasBurst d.kind := by
  rw [h 12 (by decide)]
  exact flags_of_weights ..

theorem byteAt_burst (d : Descriptor) (i : Nat) :
    byteAt (descriptorBytes d) (16 + i) = byteAt (burstBytes d.kind) i := by
  have before : descriptorBytes d = (descriptorBytes d).take 16 ++ burstBytes d.kind := rfl
  rw [before, byteAt_append_add (by rw [List.length_take, descriptorBytes_length]; rfl)]

/-- The kind and burst part read back, whatever the bytes of an absent burst part hold. -/
theorem windowKindOf_of_bytes {cycleLength : Nat} (range : d.InRange cycleLength)
    (h : ∀ i < 15, byteAt f i = byteAt (descriptorBytes d) i)
    (burst : d.isBurst = true → ∀ i < 5, byteAt f (16 + i) = byteAt (descriptorBytes d) (16 + i)) :
    windowKindOf f = some d.kind := by
  obtain ⟨-, -, -, -, flag⟩ := byteAt_flags h
  refine windowKindOf_eq_some.2 ⟨(h 1 (by decide)).symm, flag.symm, fun part hk => ?_⟩
  have ranges := range.burst
  rw [hk] at ranges
  obtain ⟨high1, high, low1, low, count⟩ := ranges
  have part_bytes (i : Nat) (hi : i < 5) : byteAt f (16 + i) = byteAt (burstBytes (.burst part)) i := by
    rw [burst (by rw [Descriptor.isBurst, hk]; rfl) i hi, byteAt_burst, hk]
  have high_read : word16At f 16 = part.highTime :=
    word16At_of_bytes high (part_bytes 0 (by decide)) (part_bytes 1 (by decide))
  have low_read : word16At f 18 = part.lowTime :=
    word16At_of_bytes low (part_bytes 2 (by decide)) (part_bytes 3 (by decide))
  have count_byte : byteAt f 20 = BitVec.ofNat 8 (part.count.getD 255) := part_bytes 4 (by decide)
  rw [high_read, low_read]
  cases hc : part.count with
  | none =>
    rw [hc] at count_byte
    rw [toNat_of_byte le_rfl count_byte]
    exact ⟨rfl, rfl, rfl, by omega, by omega, by decide⟩
  | some c =>
    obtain ⟨c1, c254⟩ := count c hc
    rw [hc, Option.getD_some] at count_byte
    rw [toNat_of_byte (by omega) count_byte, if_neg (by omega)]
    exact ⟨rfl, rfl, rfl, by omega, by omega, by omega⟩

theorem byteAt_gate {g : Gate} (h : d.gate = some g) : byteAt (descriptorBytes d) 15 = BitVec.ofNat 8 g.input.val := by
  have at_place : byteAt (descriptorBytes d) 15 =
      match d.gate with
      | some g => BitVec.ofNat 8 g.input.val
      | none => 0 := rfl
  rw [at_place, h]

/-- The gate reads back, whatever the byte of an absent gate holds. -/
theorem gateOf_of_bytes (h : ∀ i < 15, byteAt f i = byteAt (descriptorBytes d) i)
    (gate : d.gate.isSome = true → byteAt f 15 = byteAt (descriptorBytes d) 15) : gateOf f = some d.gate := by
  obtain ⟨-, -, present, high, -⟩ := byteAt_flags h
  refine gateOf_eq_some.2 ⟨present.symm, fun g hg => ?_⟩
  have hg : d.gate = some g := hg
  have input : byteAt (descriptorBytes d) 15 = BitVec.ofNat 8 g.input.val := byteAt_gate hg
  refine ⟨(toNat_of_byte (by omega) ((gate (by rw [hg]; rfl)).trans input)).symm, ?_⟩
  rw [high, hg]
  simp [gateIsHigh]

/-- A descriptor in range is what its own bytes spell. -/
theorem Descriptor.InRange.readFrom {cycleLength : Nat} (long : cycleLength ≤ 1000000) (range : d.InRange cycleLength)
    (length : 21 ≤ f.length) (h : ∀ i < 15, byteAt f i = byteAt (descriptorBytes d) i)
    (gate : d.gate.isSome = true → byteAt f 15 = byteAt (descriptorBytes d) 15)
    (burst : d.isBurst = true → ∀ i < 5, byteAt f (16 + i) = byteAt (descriptorBytes d) (16 + i)) : d.ReadFrom f := by
  obtain ⟨reserved, notify, -⟩ := byteAt_flags h
  have start : d.start ≤ 1000000 := by
    have := range.start
    omega
  have duration : d.duration ≤ 1000000 := by
    have := range.stop
    omega
  have draw : d.draw ≤ 255 := range.draw.trans (by decide)
  exact
    { length := length
      reserved := reserved
      line := (toNat_of_byte (by omega) (h 0 (by decide))).symm
      kind := windowKindOf_of_bytes range h burst
      start := (word24At_of_bytes start (h 2 (by decide)) (h 3 (by decide)) (h 4 (by decide))).symm
      duration := (word24At_of_bytes duration (h 5 (by decide)) (h 6 (by decide)) (h 7 (by decide))).symm
      period := (toNat_of_byte (by cases d.period <;> decide) (h 8 (by decide))).symm
      pattern := (h 9 (by decide)).symm
      rail := (h 10 (by decide)).symm
      draw := (toNat_of_byte draw (h 11 (by decide))).symm
      notify := notify.symm
      label := (word16At_of_bytes (by omega) (h 13 (by decide)) (h 14 (by decide))).symm
      gate := gateOf_of_bytes h gate }

end

/-- A descriptor in range reads back from its own bytes (R187). -/
theorem descriptorOf_of_bytes {cycleLength : Nat} {d : Descriptor} (long : cycleLength ≤ 1000000)
    (range : d.InRange cycleLength) :
    descriptorOf cycleLength (descriptorBytes d) = some d
      ∧ ∀ f : List Byte, 21 ≤ f.length → (∀ i < 15, byteAt f i = byteAt (descriptorBytes d) i) →
          (d.gate.isSome = true → byteAt f 15 = byteAt (descriptorBytes d) 15) →
          (d.isBurst = true → ∀ i < 5, byteAt f (16 + i) = byteAt (descriptorBytes d) (16 + i)) →
            descriptorOf cycleLength f = some d := by
  have reads (f : List Byte) (length : 21 ≤ f.length) (h : ∀ i < 15, byteAt f i = byteAt (descriptorBytes d) i)
      (gate : d.gate.isSome = true → byteAt f 15 = byteAt (descriptorBytes d) 15)
      (burst : d.isBurst = true → ∀ i < 5, byteAt f (16 + i) = byteAt (descriptorBytes d) (16 + i)) :
      descriptorOf cycleLength f = some d :=
    descriptorOf_eq_some.2 ⟨range.readFrom long length h gate burst, range.fits⟩
  exact ⟨reads _ (descriptorBytes_length d).ge (fun _ _ => rfl) (fun _ => rfl) fun _ _ _ => rfl, reads⟩

/-- A hub record in range reads back from its own bytes, whatever follows (R165, R187). -/
theorem hubFields_of_bytes {h : HubRecord} (range : h.InRange) (more : List Byte) :
    hubFields (hubBytes h ++ more) = some h := by
  have size : h.widths.cells.length = 8 := h.widths.size_eq
  have length : (hubBytes h ++ more).length = 16 + more.length := by
    simp +arith [hubBytes, bytesOf, size]
  have cycleLength : word24At (hubBytes h ++ more) 0 = h.cycleLength := word24At_of_bytes range.long rfl rfl rfl
  have width (i : Fin 8) : byteAt (hubBytes h ++ more) (8 + i.val) = BitVec.ofNat 8 (h.widths.get i) := by
    have split : hubBytes h ++ more = (hubBytes h).take 8 ++ (h.widths.cells.map (BitVec.ofNat 8) ++ more) := rfl
    rw [split, byteAt_append_add (n := 8) rfl, byteAt_append_of_lt (by simp [size])]
    simp [byteAt, Table.get, size]
  refine hubFields_eq_some.2 ⟨by omega, range.short, range.long, cycleLength.symm, rfl, ?_, rfl,
    (toNat_of_byte range.capacityA rfl).symm, (toNat_of_byte range.capacityB rfl).symm,
    fun i => (toNat_of_byte (range.widths i) (width i)).symm⟩
  exact (toNat_of_byte (by omega) rfl).symm

/-- Settles O17: what reads is what the bytes spell place by place, and what is in range is what its own bytes spell. -/
theorem descriptorsAndHubRecordsRead : Obligations.DescriptorsAndHubRecordsRead := by
  refine ⟨fun cycleLength f => ⟨fun d => descriptorOf_reads, descriptorOf_unnamed, descriptorOf_gate_above, fun h => ?_,
    descriptorOf_burst_zero⟩, fun f => ⟨fun h => hubFields_inRange, hubFields_eq_none⟩,
    fun cycleLength d => descriptorOf_of_bytes, fun h => hubFields_of_bytes⟩
  exact descriptorOf_eq_none fun d read => h read.burst_flag

end Sys2Proof.Machine
end

