-- ==== Sys2Proof/Proofs/Timers.lean ====
section
/-! SUPPORT. The cycle timer and the burst engines' phase timers through every operation of the schedule in motion: none passes
the count at which its event is due (R65, R104). -/

namespace Sys2Proof.Machine

/-! ### The timers of the schedule in motion -/

/-- The phase timer of a job is within the time of its phase (R104). -/
def BurstJob.InTime (j : BurstJob) : Prop :=
  match j.phase with
  | .high t => t ≤ j.part.highTime
  | .low t => t ≤ j.part.lowTime
  | _ => True

/-- The cycle timer is within the span, and every phase timer within the time of its phase (R65, R104). -/
structure CountsBounded (s : State) : Prop where
  cycle : ∀ t ∈ s.engine.timer, t ≤ s.engine.span
  burst : ∀ g, ∀ j ∈ (s.burst g).job, j.InTime

/-- What `CountsBounded` reads of a state. -/
def State.counts (s : State) : Option Nat × Nat × Table BurstEngine 2 := (s.engine.timer, s.engine.span, s.bursts)

theorem CountsBounded.of_counts_eq {s t : State} (h : CountsBounded s) (e : t.counts = s.counts) : CountsBounded t := by
  simp only [State.counts, Prod.mk.injEq] at e
  obtain ⟨timer, span, bursts⟩ := e
  refine ⟨?_, fun g => ?_⟩
  · rw [timer, span]
    exact h.cycle
  · rw [State.burst, bursts]
    exact h.burst g

theorem NoticesOnly.counts_eq {s t : State} (h : NoticesOnly s t) : t.counts = s.counts := by
  rw [h]
  rfl

theorem TableOnly.counts_eq {s t : State} (h : TableOnly s t) : t.counts = s.counts := by
  rw [h]
  rfl

/-! ### The jobs that the burst engines take -/

theorem State.freshJob_inTime (s : State) (e : EntryIx) (part : BurstPart) (gateOpen : Bool) :
    (s.freshJob e part gateOpen).InTime := by
  cases gateOpen <;> simp [freshJob, BurstJob.InTime]

theorem BurstJob.highElapsed_inTime (j : BurstJob) : j.highElapsed.InTime := by
  by_cases h : j.part.count = some (saturatingInc j.pulses).toNat <;> simp [highElapsed, InTime, h]

theorem BurstJob.lowElapsed_inTime (j : BurstJob) : j.lowElapsed.InTime := by
  by_cases h : j.gate = some false <;> simp [lowElapsed, InTime, h]

/-- A gate event starts a phase anew or leaves its timer. -/
theorem BurstJob.InTime.gateEvent {j : BurstJob} (h : j.InTime) (gateOpen : Bool) : (j.gateEvent gateOpen).InTime := by
  unfold InTime at *
  unfold BurstJob.gateEvent
  cases hp : j.phase <;> cases gateOpen <;> simp_all

namespace CountsBounded

variable {s : State} (h : CountsBounded s)
include h

theorem setBurst (g : EngineIx) {x : BurstEngine} (hx : ∀ j ∈ x.job, j.InTime) : CountsBounded (s.setBurst g x) where
  cycle := h.cycle
  burst k := by
    by_cases hk : k = g
    · rw [hk, State.burst_setBurst]
      exact hx
    · rw [State.burst_setBurst_ne s x hk]
      exact h.burst k

theorem setBurst_idle (g : EngineIx) : CountsBounded (s.setBurst g .idle) := h.setBurst g fun _ hj => nomatch hj

theorem setJob (g : EngineIx) {j : BurstJob} (hj : j.InTime) : CountsBounded (s.setJob g j) := by
  refine (h.setBurst g (x := .busy j) fun k hk => ?_).of_counts_eq rfl
  obtain rfl : j = k := Option.some.inj hk
  exact hj

theorem foldl {α : Type} {f : State → α → State} (hf : ∀ t a, CountsBounded t → CountsBounded (f t a)) (as : List α) :
    CountsBounded (as.foldl f s) :=
  List.foldlRecOn as f h fun t ht a _ => hf t a ht

/-! ### Windows -/

theorem windowNotice (e : EntryIx) (b : NoticeBody) : CountsBounded (s.windowNotice e b) :=
  h.of_counts_eq (NoticesOnly.windowNotice ..).counts_eq

theorem setWindowState (e : EntryIx) (x : WindowState) : CountsBounded (s.setWindowState e x) := h.of_counts_eq rfl

theorem driveWindow (e : EntryIx) (gateOpen : Bool) : CountsBounded (s.driveWindow e gateOpen) := by
  unfold State.driveWindow
  split
  · exact h.of_counts_eq rfl
  · exact (h.setWindowState ..).setJob _ (s.freshJob_inTime ..)
  · exact h.of_counts_eq rfl

theorem startWindow (e : EntryIx) : CountsBounded (s.startWindow e) := by
  have counted : CountsBounded ((s.countFire e).setHolding (s.entry e).descriptor.line (some e)) := h.of_counts_eq rfl
  exact (counted.driveWindow e _).windowNotice e _

theorem startWindows (es : List EntryIx) : CountsBounded (s.startWindows es) := h.foldl (fun _ e ht => ht.startWindow e) es

theorem endWindow (e : EntryIx) : CountsBounded (s.endWindow e) := by
  have dropped : CountsBounded ((s.setWindowState e .closed).dropLine e) := h.of_counts_eq rfl
  unfold State.endWindow
  dsimp only
  split
  · exact dropped
  · exact (dropped.setBurst_idle _).windowNotice e _

theorem endWindows (es : List EntryIx) : CountsBounded (s.endWindows es) := h.foldl (fun _ e ht => ht.endWindow e) es

theorem cutWindow (c : Nat) (e : EntryIx) : CountsBounded (State.cutWindow c s e) := by
  have dropped : CountsBounded ((s.setWindowState e .cut).dropLine e) := h.of_counts_eq rfl
  unfold State.cutWindow
  dsimp only
  split
  · exact (dropped.windowNotice e _).of_counts_eq rfl
  · exact ((dropped.setBurst_idle _).windowNotice e _).of_counts_eq rfl

theorem cutCycle (c : Nat) : CountsBounded (s.cutCycle c) :=
  (h.foldl (fun _ e ht => ht.cutWindow c e) s.openEntries).of_counts_eq rfl

theorem windowBoundary : CountsBounded s.windowBoundary := (h.endWindows _).startWindows _

/-- A gate event reaches the job of the window's engine. -/
theorem gateWindow (i : InputIx) (w : PlannedWindow) : CountsBounded (State.gateWindow i s w) := by
  unfold State.gateWindow
  split
  · dsimp only
    split
    · split
      · split
        · exact h.of_counts_eq rfl
        · exact h.of_counts_eq rfl
      · split
        · exact h.of_counts_eq rfl
        · rename_i hj
          exact (h.setWindowState ..).setJob _ ((h.burst _ _ hj).gateEvent _)
    · exact h
  · exact h

theorem gateEdge (i : InputIx) : CountsBounded (s.gateEdge i) := h.foldl (fun _ w ht => ht.gateWindow i w) _

/-! ### The cycle engine -/

theorem changeEngine (x : EngineState) : CountsBounded (s.changeEngine x) := by
  have moved : CountsBounded (s.setEngineState x) := h.of_counts_eq rfl
  exact moved.of_counts_eq (NoticesOnly.broadcast ..).counts_eq

theorem enterStopped : CountsBounded s.enterStopped := by
  have bursts : s.enterStopped.bursts = s.bursts := by rw [State.enterStopped_only]
  exact h.of_counts_eq (by simp only [State.counts, State.enterStopped_engine, bursts])

theorem stopTimer : CountsBounded s.stopTimer := ⟨nofun, h.burst⟩

theorem clearSpacing : CountsBounded s.clearSpacing := h.of_counts_eq rfl

/-- A cycle start sets the timer to 0 (R62). -/
theorem numberCycle : CountsBounded s.numberCycle where
  cycle t ht := by
    obtain rfl : 0 = t := Option.some.inj ht
    exact Nat.zero_le _
  burst := h.burst

theorem buildPlan (k : Nat) : CountsBounded (s.buildPlan k) := h.of_counts_eq rfl

theorem cycleStart : CountsBounded s.cycleStart := by
  have running : CountsBounded s.numberCycle.enterRunning := by
    unfold State.enterRunning
    split
    · exact h.numberCycle
    · exact h.numberCycle.changeEngine _
  have boundary (n : CycleNumber) : CountsBounded (s.numberCycle.enterRunning.processBoundary n) := by
    unfold State.processBoundary
    split
    · exact running.of_counts_eq (State.epochProcessing_only ..).counts_eq
    · exact running
  exact ((boundary _).buildPlan _).startWindows _

theorem firstVote : CountsBounded s.firstVote := by
  unfold State.firstVote
  split
  · split
    · exact h.changeEngine _
    · split
      · exact h.cycleStart
      · exact h.changeEngine _
      · exact h.changeEngine _
  · exact h.changeEngine _
  · exact h

theorem lastVoteCleared : CountsBounded s.lastVoteCleared := by
  unfold State.lastVoteCleared
  split
  · exact h.enterStopped
  · exact h.changeEngine _
  · exact h.enterStopped
  · exact h

theorem cycleEnd : CountsBounded s.cycleEnd := by
  have ended : CountsBounded (s.endWindows s.openEntries).discardPlan.clearSpacing := (h.endWindows _).of_counts_eq rfl
  unfold State.cycleEnd
  dsimp only
  split
  · exact ended.cycleStart
  · exact ended.stopTimer.changeEngine _
  · exact ended.stopTimer.enterStopped

theorem spacingEnd : CountsBounded s.spacingEnd := by
  unfold State.spacingEnd
  dsimp only
  split
  · exact h.clearSpacing.stopTimer.cycleStart
  · exact h.clearSpacing.stopTimer

theorem earlyEdge : CountsBounded s.earlyEdge := by
  have counted : CountsBounded { s with engine := { s.engine with earlyEdges := saturatingInc s.engine.earlyEdges } } :=
    h.of_counts_eq rfl
  exact counted.of_counts_eq (NoticesOnly.broadcast ..).counts_eq

theorem qualifyingEdge : CountsBounded s.qualifyingEdge := by
  unfold State.qualifyingEdge
  split
  · exact h
  · exact h.cycleStart
  · exact h.earlyEdge
  · exact h.earlyEdge
  · exact h.earlyEdge
  · exact h
  · exact h

theorem handEdge (i : InputIx) : CountsBounded (s.handEdge i) := by
  unfold State.handEdge
  dsimp only
  split
  · exact (h.gateEdge i).qualifyingEdge
  · exact h.gateEdge i

theorem inhAssert : CountsBounded s.inhAssert := by
  have asserted : CountsBounded (s.setInh true) := h.of_counts_eq rfl
  have counted : CountsBounded (s.setInh true).countEpisode := h.of_counts_eq rfl
  have cut : CountsBounded ((s.setInh true).cutCycle s.eventOffset).countEpisode :=
    (asserted.cutCycle _).of_counts_eq rfl
  unfold State.inhAssert
  dsimp only
  split
  · exact cut.changeEngine _
  · exact counted.changeEngine _
  · exact cut.enterStopped
  · exact asserted
  · exact asserted

theorem inhRelease : CountsBounded s.inhRelease := by
  have released : CountsBounded (s.setInh false) := h.of_counts_eq rfl
  unfold State.inhRelease
  dsimp only
  split
  · exact released.cycleStart
  · exact released.changeEngine _
  · exact released.changeEngine _
  · exact released

end CountsBounded

end Sys2Proof.Machine
end

