-- ==== Sys2Proof/Proofs/TimerSteps.lean ====
section
/-! SUPPORT. `TimersBounded` through the inputs, the sessions, the flights, the clock and the commands, and so every step (R46,
R65, R104, R119, R137). -/

namespace Sys2Proof.Machine

/-! ### What `TimersBounded` reads of a state -/

/-- What `TimersBounded` reads of a state. -/
structure Timers where
  counts : Option Nat × Nat × Table BurstEngine 2
  inputs : Table InputChannel 8
  widths : Table Nat 8
  hold : Option ResetCause
  sessions : Table Session 4
  executor : Option Flight

def State.timers (s : State) : Timers :=
  { counts := s.counts, inputs := s.inputs, widths := s.hub.widths, hold := s.hold, sessions := s.sessions
    executor := s.arbiter.executor }

/-- Every qualification timer is within the width of its input (R119). -/
def State.InputsWithin (s : State) : Prop := ∀ i, ∀ t ∈ (s.input i).timer, t ≤ s.hub.widths.get i

/-- All of `TimersBounded` but `State.InputsWithin`: what a change of the filter widths leaves. -/
structure OtherTimersBounded (s : State) : Prop where
  counts : CountsBounded s
  pendingChange : s.hold = none → ∀ i, (s.input i).timer = none ↔ (s.input i).raw = (s.input i).filtered
  lease : ∀ p, ∀ a ∈ (s.session p).attachment, a.timer ≤ a.lease * 1000
  flight : ∀ f ∈ s.arbiter.executor, f.age ≤ 40

theorem timersBounded_iff {s : State} : TimersBounded s ↔ OtherTimersBounded s ∧ s.InputsWithin :=
  ⟨fun h => ⟨⟨⟨h.cycle, h.burst⟩, h.pendingChange, h.lease, h.flight⟩, h.input⟩,
    fun ⟨h, hi⟩ => ⟨h.counts.cycle, h.counts.burst, h.pendingChange, hi, h.lease, h.flight⟩⟩

theorem OtherTimersBounded.of_timers_eq {s t : State} (h : OtherTimersBounded s) (e : t.timers = s.timers) :
    OtherTimersBounded t where
  counts := h.counts.of_counts_eq (congrArg Timers.counts e)
  pendingChange := by
    have hold : t.hold = s.hold := congrArg Timers.hold e
    have inputs : t.inputs = s.inputs := congrArg Timers.inputs e
    unfold State.input
    rw [hold, inputs]
    exact h.pendingChange
  lease p := by
    have sessions : t.sessions = s.sessions := congrArg Timers.sessions e
    rw [State.session, sessions]
    exact h.lease p
  flight := by
    have executor : t.arbiter.executor = s.arbiter.executor := congrArg Timers.executor e
    rw [executor]
    exact h.flight

theorem State.InputsWithin.of_eq {s t : State} (h : s.InputsWithin) (inputs : t.inputs = s.inputs)
    (widths : t.hub.widths = s.hub.widths) : t.InputsWithin := by
  unfold State.InputsWithin State.input
  rw [inputs, widths]
  exact h

/-- A state with the timers of one that has them bounded. -/
theorem TimersBounded.of_timers_eq {s t : State} (h : TimersBounded s) (e : t.timers = s.timers) : TimersBounded t := by
  obtain ⟨other, inputs⟩ := timersBounded_iff.1 h
  exact timersBounded_iff.2
    ⟨other.of_timers_eq e, inputs.of_eq (congrArg Timers.inputs e) (congrArg Timers.widths e)⟩

theorem TransferOnly.timers_eq {s t : State} (h : TransferOnly s t) : t.timers = s.timers := by
  rw [h]
  rfl

theorem NoticesOnly.timers_eq {s t : State} (h : NoticesOnly s t) : t.timers = s.timers := by
  rw [h]
  rfl

/-- The schedule in motion leaves the inputs, the sessions and the flights. -/
theorem OtherTimersBounded.of_scheduleOnly {s t : State} (h : OtherTimersBounded s) (only : ScheduleOnly s t)
    (counts : CountsBounded t) : OtherTimersBounded t where
  counts := counts
  pendingChange := by
    unfold State.input
    rw [only.hold, only.inputs]
    exact h.pendingChange
  lease p := by
    rw [State.session, only.sessions]
    exact h.lease p
  flight := by
    rw [only.arbiter]
    exact h.flight

theorem TimersBounded.of_scheduleOnly {s t : State} (h : TimersBounded s) (only : ScheduleOnly s t)
    (counts : CountsBounded t) : TimersBounded t := by
  obtain ⟨other, inputs⟩ := timersBounded_iff.1 h
  exact timersBounded_iff.2 ⟨other.of_scheduleOnly only counts, inputs.of_eq only.inputs (by rw [only.hub])⟩

/-! ### The inputs (R118, R119, R123) -/

theorem OtherTimersBounded.setInput {s : State} (h : OtherTimersBounded s) (i : InputIx) {x : InputChannel}
    (hx : s.hold = none → (x.timer = none ↔ x.raw = x.filtered)) : OtherTimersBounded (s.setInput i x) where
  counts := h.counts.of_counts_eq rfl
  pendingChange hold j := by
    by_cases hj : j = i
    · rw [hj, State.input_setInput]
      exact hx hold
    · rw [State.input_setInput_ne s x hj]
      exact h.pendingChange hold j
  lease := h.lease
  flight := h.flight

theorem State.InputsWithin.setInput {s : State} (h : s.InputsWithin) (i : InputIx) {x : InputChannel}
    (hx : ∀ t ∈ x.timer, t ≤ s.hub.widths.get i) : (s.setInput i x).InputsWithin := by
  intro j
  by_cases hj : j = i
  · rw [hj, State.input_setInput]
    exact hx
  · rw [State.input_setInput_ne s x hj]
    exact h j

theorem TimersBounded.setInput {s : State} (h : TimersBounded s) (i : InputIx) {x : InputChannel}
    (change : s.hold = none → (x.timer = none ↔ x.raw = x.filtered)) (within : ∀ t ∈ x.timer, t ≤ s.hub.widths.get i) :
    TimersBounded (s.setInput i x) := by
  obtain ⟨other, inputs⟩ := timersBounded_iff.1 h
  exact timersBounded_iff.2 ⟨other.setInput i change, inputs.setInput i within⟩

theorem OtherTimersBounded.qualify {s : State} (h : OtherTimersBounded s) (i : InputIx) :
    OtherTimersBounded (s.qualify i) := by
  have filtered : OtherTimersBounded (s.setInput i { s.input i with filtered := (s.input i).raw, timer := none }) :=
    h.setInput i fun _ => by simp
  exact filtered.of_scheduleOnly (s.qualify_only i) (filtered.counts.handEdge i)

theorem State.qualify_widths (s : State) (i : InputIx) : (s.qualify i).hub = s.hub := (s.qualify_only i).hub

theorem TimersBounded.qualify {s : State} (h : TimersBounded s) (i : InputIx) : TimersBounded (s.qualify i) := by
  obtain ⟨other, inputs⟩ := timersBounded_iff.1 h
  have filtered := inputs.setInput i (x := { s.input i with filtered := (s.input i).raw, timer := none }) (by simp)
  exact timersBounded_iff.2
    ⟨other.qualify i, filtered.of_eq (s.qualify_only i).inputs (by rw [State.qualify_widths]; rfl)⟩

theorem oppositeLevel_eq_iff {v w : Level} : oppositeLevel v = w ↔ v ≠ w := by
  cases v <;> cases w <;> decide

theorem TimersBounded.handEdge {s : State} (h : TimersBounded s) (i : InputIx) : TimersBounded (s.handEdge i) :=
  h.of_scheduleOnly (.handEdge s i) ((timersBounded_iff.1 h).1.counts.handEdge i)

/-- A raw change that qualifies at once writes the input once (R119). -/
theorem State.qualify_setInput (s : State) (i : InputIx) (x : InputChannel) :
    (s.setInput i x).qualify i = (s.setInput i { x with filtered := x.raw, timer := none }).handEdge i := by
  rw [State.qualify, State.input_setInput]
  simp only [State.setInput, Table.set_set]

theorem TimersBounded.rawChange {s : State} (h : TimersBounded s) (hold : s.hold = none) (i : InputIx) :
    TimersBounded (s.rawChange i) := by
  have change := h.pendingChange hold i
  unfold State.rawChange
  dsimp only
  split
  · rw [State.qualify_setInput]
    exact (h.setInput i (by simp) (by simp)).handEdge i
  · split
    · rename_i stopped
      have still : (s.input i).raw = (s.input i).filtered := change.1 stopped
      simp only [State.setInput, Table.set_set]
      refine h.setInput i (fun _ => ?_) (by simp)
      simp [oppositeLevel_eq_iff, still]
    · rename_i counting
      have changed : (s.input i).raw ≠ (s.input i).filtered := fun e => by simp [change.2 e] at counting
      simp only [State.setInput, Table.set_set]
      refine h.setInput i (fun _ => ?_) (by simp)
      simp [oppositeLevel_eq_iff, changed]

/-! ### Qualifications that are not due -/

namespace State

variable {s : State} {i j : InputIx}

/-- With no qualification due a timer that counts is below the width of its input. -/
theorem lt_width_of_not_due (h : OtherTimersBounded s) (hold : s.hold = none) (due : s.qualificationDue i = false) {t : Nat}
    (ht : (s.input i).timer = some t) : t < s.hub.widths.get i := by
  have changed : (s.input i).raw ≠ (s.input i).filtered := fun e => by
    have := (h.pendingChange hold i).2 e
    simp [ht] at this
  simpa [qualificationDue, ht, changed] using due

theorem qualificationDue_qualify : (s.qualify i).qualificationDue j = if j = i then false else s.qualificationDue j := by
  have input : (s.qualify i).input j =
      if j = i then { s.input i with filtered := (s.input i).raw, timer := none } else s.input j := by
    rw [State.input, qualify_inputs, Table.get_set]
    rfl
  unfold qualificationDue
  rw [input, qualify_widths]
  by_cases h : j = i <;> simp [h]

theorem not_due_rejudgeInput : (s.rejudgeInput i).qualificationDue i = false := by
  unfold rejudgeInput
  split
  · rw [qualificationDue_qualify, if_pos rfl]
  · simpa using ‹¬ s.qualificationDue i = true›

theorem not_due_rejudgeInput_of_not_due (h : s.qualificationDue j = false) :
    (s.rejudgeInput i).qualificationDue j = false := by
  unfold rejudgeInput
  split
  · rw [qualificationDue_qualify, h, ite_self]
  · exact h

/-- Once every input has been judged against its width, no qualification is due (R123). -/
theorem not_due_rejudgeInputs {is : List InputIx} (hi : i ∈ is) :
    (is.foldl rejudgeInput s).qualificationDue i = false := by
  induction is generalizing s with
  | nil => cases hi
  | cons j is ih =>
    rcases List.mem_cons.1 hi with rfl | hi
    · exact List.foldlRecOn (motive := fun t => qualificationDue t i = false) is _ not_due_rejudgeInput
        fun _ ht _ _ => not_due_rejudgeInput_of_not_due ht
    · exact ih hi

theorem rejudgeInput_hold : (s.rejudgeInput i).hold = s.hold := by
  unfold rejudgeInput
  split
  · exact (s.qualify_only i).hold
  · rfl

end State

/-- With no qualification due every timer is bounded. -/
theorem OtherTimersBounded.of_not_due {s : State} (h : OtherTimersBounded s) (hold : s.hold = none)
    (due : ∀ i, s.qualificationDue i = false) : TimersBounded s :=
  timersBounded_iff.2 ⟨h, fun i _ ht => (State.lt_width_of_not_due h hold (due i) ht).le⟩

theorem OtherTimersBounded.rejudgeInput {s : State} (h : OtherTimersBounded s) (i : InputIx) :
    OtherTimersBounded (s.rejudgeInput i) := by
  unfold State.rejudgeInput
  split
  · exact h.qualify i
  · exact h

/-- Once every input has been judged, every timer is bounded, whatever the widths were changed to. -/
theorem OtherTimersBounded.rejudgeInputs {s : State} (h : OtherTimersBounded s) (hold : s.hold = none)
    {is : List InputIx} (all : ∀ i, i ∈ is) : TimersBounded (is.foldl State.rejudgeInput s) := by
  have judged : OtherTimersBounded (is.foldl State.rejudgeInput s) :=
    List.foldlRecOn is _ h fun _ ht i _ => ht.rejudgeInput i
  have released : (is.foldl State.rejudgeInput s).hold = none :=
    List.foldlRecOn (motive := fun t : State => t.hold = none) is _ hold fun _ ht _ _ => State.rejudgeInput_hold.trans ht
  exact judged.of_not_due released fun i => State.not_due_rejudgeInputs (all i)

/-- New filter widths, each input judged against its own (R123, R167). -/
theorem TimersBounded.completeSetHub {s : State} (h : TimersBounded s) (hold : s.hold = none) (v : Verdict HubRecord) :
    TimersBounded (s.completeSetHub v).state := by
  cases v with
  | refuse st b => exact h
  | pass hub =>
    obtain ⟨⟨counts, change, lease, flight⟩, -⟩ := timersBounded_iff.1 h
    have replaced : OtherTimersBounded { s with hub := hub } := ⟨counts.of_counts_eq rfl, change, lease, flight⟩
    unfold State.completeSetHub
    dsimp only
    exact replaced.rejudgeInputs hold fun i => List.mem_finRange i

/-! ### What the reservation, line and hub requests leave -/

namespace State

variable (s : State) (me o : SessionId) (f : List Byte)

theorem timers_ownerNotice (owner : Option SessionId) (k : MaskKind) (b : NoticeBody) :
    (s.ownerNotice owner k b).timers = s.timers := (NoticesOnly.ownerNotice ..).timers_eq

theorem timers_retireWithdrawn (e : EntryIx) : (s.retireWithdrawn e o).timers = s.timers := by
  unfold retireWithdrawn
  split <;> rfl

theorem timers_retireReplaced (e : EntryIx) : (s.retireReplaced e o).timers = s.timers := by
  unfold retireReplaced
  split
  · exact timers_ownerNotice (s.freeEntry e) ..
  · rfl

theorem timers_withdrawEntry (e : EntryIx) : (s.withdrawEntry me e).state.timers = s.timers := by
  unfold withdrawEntry
  split
  · rfl
  · split
    · rfl
    · rfl
    · exact s.timers_retireWithdrawn _ e
    · rfl

theorem timers_withdrawAct : (withdrawAct s me f).state.timers = s.timers := by
  unfold withdrawAct
  split
  · rfl
  · split
    · exact s.timers_withdrawEntry ..
    · rfl

theorem timers_cleanup : (s.cleanup o).timers = s.timers := by
  have only := s.cleanup_only o
  generalize s.cleanup o = t at only
  rw [only]
  rfl

theorem timers_claimLineAct : (claimLineAct s me f).state.timers = s.timers := by
  unfold claimLineAct
  split
  · rfl
  · split_ifs
    · rfl
    · rfl
    · rfl
    · rw [claimLine_only]
      rfl

theorem timers_releaseLineAct : (releaseLineAct s me f).state.timers = s.timers := by
  unfold releaseLineAct
  split
  · rfl
  · split <;> rfl

theorem timers_readHubAct : (readHubAct s me f).state.timers = s.timers := by
  unfold readHubAct
  split
  · rfl
  · dsimp only
    split <;> rfl

theorem timers_completeAdd (v : Verdict Descriptor) : (s.completeAdd me v).state.timers = s.timers := by
  unfold completeAdd
  split
  · rfl
  · split <;> rfl

theorem timers_replaceFreed (d : Descriptor) : (s.replaceFreed me d).state.timers = s.timers := by
  unfold replaceFreed
  split <;> rfl

theorem timers_replaceInForce (old : EntryIx) (d : Descriptor) :
    (s.replaceInForce me old o d).state.timers = s.timers := by
  unfold replaceInForce
  split
  · rfl
  · exact timers_retireReplaced (s.writePending ..) o old

theorem timers_completeReplace (v : Verdict Replacement) : (s.completeReplace me v).state.timers = s.timers := by
  unfold completeReplace
  split
  · rfl
  · split
    · exact timers_replaceFreed (s.freeEntry _) ..
    · split
      · exact timers_replaceFreed (s.freeEntry _) ..
      · exact s.timers_replaceInForce ..
    · rfl
    · rfl

end State

namespace TimersBounded

variable {s : State} (h : TimersBounded s)
include h

/-! ### Sessions and flights -/

theorem counts : CountsBounded s := ⟨h.cycle, h.burst⟩

theorem setSession (p : Port) {x : Session} (hx : ∀ a ∈ x.attachment, a.timer ≤ a.lease * 1000) :
    TimersBounded (s.setSession p x) :=
  { h with
    lease := fun q => by
      by_cases hq : q = p
      · rw [hq, State.session_setSession]
        exact hx
      · rw [State.session_setSession_ne s x hq]
        exact h.lease q }

/-- A record whose lease and lease timer stay. -/
theorem setSession_map (p : Port) {x : Session} {g : Attachment → Attachment}
    (hx : x.attachment = (s.session p).attachment.map g) (lease : ∀ a, (g a).lease = a.lease)
    (timer : ∀ a, (g a).timer ≤ a.timer) : TimersBounded (s.setSession p x) := by
  refine h.setSession p fun a ha => ?_
  rw [hx] at ha
  obtain ⟨b, hb, rfl⟩ := Option.map_eq_some_iff.1 ha
  rw [lease]
  exact (timer b).trans (h.lease p b hb)

theorem take (p : Port) : TimersBounded (s.take p) := by
  have restarted : TimersBounded (s.setSession p (s.session p).restartLease) :=
    h.setSession_map p rfl (fun _ => rfl) fun _ => Nat.zero_le _
  exact restarted.of_timers_eq rfl

theorem reply (p : Port) (r : Request) (st : Status) (b : List Byte) : TimersBounded (s.reply p r st b) :=
  h.of_timers_eq rfl

theorem dropVote (p : Port) {x : Session} (hx : ∀ a ∈ x.attachment, a.timer ≤ a.lease * 1000) :
    TimersBounded (s.dropVote p x) := by
  have recorded := h.setSession p hx
  unfold State.dropVote
  dsimp only
  split
  · exact recorded.of_scheduleOnly (.lastVoteCleared _) recorded.counts.lastVoteCleared
  · exact recorded

theorem endSession (p : Port) (expired : Bool) : TimersBounded (s.endSession p expired) := by
  have dropped : TimersBounded (s.dropVote p (s.session p).ended) := h.dropVote p nofun
  refine dropped.of_timers_eq ?_
  unfold State.endSession
  cases expired <;> rfl

theorem attachTaken (p : Port) (r : Request) : TimersBounded (s.attachTaken p r) := by
  unfold State.attachTaken
  split
  · exact h.reply ..
  · rename_i lease mask _
    split
    · exact h.reply ..
    · have attached : TimersBounded (s.setSession p
          { number := (s.session p).number + 1
            attachment := some { lease := lease, timer := 0, vote := false, mask := mask } }) :=
        h.setSession p fun a ha => by
          obtain rfl := Option.some.inj ha
          exact Nat.zero_le _
      exact attached.of_timers_eq rfl

theorem setNoticesAct (me : SessionId) (f : List Byte) : TimersBounded (setNoticesAct s me f).state := by
  unfold Machine.setNoticesAct
  split
  · exact h
  · exact h.setSession_map me.port rfl (fun _ => rfl) fun _ => le_rfl

theorem runAct (me : SessionId) (f : List Byte) : TimersBounded (runAct s me f).state := by
  have voted : TimersBounded (s.setSession me.port ((s.session me.port).withVote true)) :=
    h.setSession_map me.port rfl (fun _ => rfl) fun _ => le_rfl
  unfold Machine.runAct
  dsimp only
  split
  · exact voted
  · exact voted.of_scheduleOnly (.firstVote _) voted.counts.firstVote

theorem haltAct (me : SessionId) (f : List Byte) : TimersBounded (haltAct s me f).state := by
  refine h.dropVote me.port fun a ha => ?_
  obtain ⟨b, hb, rfl⟩ := Option.map_eq_some_iff.1 ha
  exact h.lease me.port b hb

/-- A flight begins at age 0 (R46). -/
theorem beginFlight (p : Port) (me : SessionId) (r : Request) (op : FlightOp) :
    TimersBounded (s.beginFlight p me r op) :=
  { h with
    flight := fun f hf => by
      obtain rfl := Option.some.inj hf
      exact Nat.zero_le _ }

theorem releaseExecutor : TimersBounded s.releaseExecutor := { h with flight := nofun }

theorem answerRequest {p : Port} {kind : RequestKind} {act : State → SessionId → List Byte → Answer}
    (acts : ∀ t me f, TimersBounded t → TimersBounded (act t me f).state) : TimersBounded (s.answerRequest p kind act) :=
  State.answerRequest_keeps h (h.take p) (fun me f _ => acts _ me f (h.take p)) fun _ _ _ _ ht => ht.reply ..

/-- A request whose act leaves the timers. -/
theorem answerRequest_of_timers {p : Port} {kind : RequestKind} {act : State → SessionId → List Byte → Answer}
    (acts : ∀ t me f, (act t me f).state.timers = t.timers) : TimersBounded (s.answerRequest p kind act) :=
  h.answerRequest fun t me f ht => ht.of_timers_eq (acts t me f)

theorem flyRequest {p : Port} {kind : RequestKind} {judge : State → SessionId → List Byte → FlightOp} :
    TimersBounded (s.flyRequest p kind judge) :=
  State.flyRequest_keeps h (h.take p) (fun me r _ => (h.take p).beginFlight p me r _) fun _ _ _ _ ht => ht.reply ..

theorem complete {f : Flight} {act : State → Answer}
    (acts : TimersBounded s.releaseExecutor → TimersBounded (act s.releaseExecutor).state) :
    TimersBounded (s.complete f act) :=
  State.complete_keeps h.releaseExecutor (acts h.releaseExecutor) (fun _ _ _ _ ht => ht.reply ..)
    fun _ ht => ht.of_timers_eq rfl

theorem runFrame {p : Port} (mine : FrameState → Bool) (part : FramePart) (bits : Nat) :
    TimersBounded (s.runFrame p mine part bits) :=
  State.runFrame_keeps (fun _ _ e ht => ht.of_timers_eq e.timers_eq) (fun _ ht => ht.endSession p false) h mine part bits

/-! ### Resets (R127, R172) -/

/-- From the start of a reset no qualification timer counts. -/
theorem holdReset (cause : ResetCause) : TimersBounded (s.holdReset cause) := by
  have stopped : TimersBounded { s.stopConditioner with hold := some cause, driven := .fill 16 .low } :=
    { h with
      pendingChange := nofun
      input := fun i t ht => by
        rw [State.input, State.stopConditioner_inputs, Table.get_map] at ht
        cases ht }
  have frames : TransferOnly _ (s.holdReset cause) :=
    foldl_related TransferOnly.rfl' (fun _ _ _ => .trans) (fun t p => (TransferOnly.setLink t p _).trans (.setQueue ..))
      allPorts { s.stopConditioner with hold := some cause, driven := .fill 16 .low }
  exact stopped.of_timers_eq frames.timers_eq

end TimersBounded

/-! ### The clock -/

theorem dueWhen_eq_nil {b : Bool} {c : Instr} : dueWhen b c = [] ↔ b = false := by
  cases b <;> simp [dueWhen]

/-- No event is due at the present tick. -/
structure NothingDue (s : State) : Prop where
  cycle : s.engine.timerDone = false
  high : ∀ g, s.highDue g = false
  low : ∀ g, s.lowDue g = false
  qualification : ∀ i, s.qualificationDue i = false
  lease : ∀ p, s.leaseDue p = false
  completion : s.dueCompletion = []

theorem nothingDue_of_dueEvents {s : State} (h : s.dueEvents = []) : NothingDue s := by
  simp only [State.dueEvents, List.append_eq_nil_iff, List.flatMap_eq_nil_iff, dueWhen_eq_nil, State.cycleEndDue,
    State.spacingEndDue] at h
  obtain ⟨⟨⟨⟨⟨⟨⟨⟨cycle, spacing⟩, -⟩, high⟩, low⟩, qualification⟩, lease⟩, completion⟩, -⟩ := h
  refine ⟨?_, fun g => high g (List.mem_finRange g), fun g => low g (List.mem_finRange g),
    fun i => qualification i (List.mem_finRange i), fun p => lease p (mem_allPorts p), completion⟩
  cases hp : s.engine.state.inProgress
  · simpa [hp] using spacing
  · simpa [hp] using cycle

/-- A phase timer that is not due stays within its time at the next tick. -/
theorem BurstJob.InTime.tick {j k : BurstJob} (h : j.InTime) (high : j.highDue = false) (low : j.lowDue = false)
    (hk : (BurstEngine.busy j).tick.job = some k) : k.InTime := by
  unfold BurstJob.InTime at *
  cases hp : j.phase with
  | high t =>
    have below : t < j.part.highTime := by simpa [BurstJob.highDue, hp] using high
    simp only [BurstEngine.tick, hp, BurstEngine.job, Option.some.injEq] at hk
    rw [← hk]
    exact below
  | low t =>
    have below : t < j.part.lowTime := by simpa [BurstJob.lowDue, hp] using low
    simp only [BurstEngine.tick, hp, BurstEngine.job, Option.some.injEq] at hk
    rw [← hk]
    exact below
  | gateWait | spent =>
    simp only [BurstEngine.tick, hp, BurstEngine.job, Option.some.injEq] at hk
    rw [← hk]
    exact h

/-- With nothing due every timer has room for one tick. -/
theorem TimersBounded.tick {s : State} (h : TimersBounded s) (hold : s.hold = none) (due : NothingDue s) :
    TimersBounded s.tick := by
  obtain ⟨other, -⟩ := timersBounded_iff.1 h
  refine ⟨fun t ht => ?_, fun g j hj => ?_, fun _ i => ?_, fun i t ht => ?_, fun p a ha => ?_, fun f hf => ?_⟩
  · obtain ⟨u, hu, rfl⟩ := Option.map_eq_some_iff.1 ht
    have below : u < s.engine.span := by simpa [CycleEngine.timerDone, Option.mem_def.1 hu] using due.cycle
    exact below
  · have engine : s.tick.burst g = (s.burst g).tick := Table.get_map ..
    rw [engine] at hj
    cases hb : s.burst g with
    | idle =>
      rw [hb] at hj
      cases hj
    | busy k =>
      have job : (s.burst g).job = some k := by rw [hb]; rfl
      have high : k.highDue = false := by simpa [State.highDue, job] using due.high g
      have low : k.lowDue = false := by simpa [State.lowDue, job] using due.low g
      rw [hb] at hj
      exact BurstJob.InTime.tick (other.counts.burst g k job) high low hj
  · have input : s.tick.input i = (s.input i).tick := Table.get_map ..
    rw [input]
    simpa [InputChannel.tick] using h.pendingChange hold i
  · have input : s.tick.input i = (s.input i).tick := Table.get_map ..
    rw [input] at ht
    obtain ⟨u, hu, rfl⟩ := Option.map_eq_some_iff.1 ht
    exact State.lt_width_of_not_due other hold (due.qualification i) hu
  · have session : s.tick.session p = (s.session p).tick := Table.get_map ..
    rw [session] at ha
    obtain ⟨b, hb, rfl⟩ := Option.map_eq_some_iff.1 ha
    simpa [State.leaseDue, hb] using due.lease p
  · obtain ⟨g, hg, rfl⟩ := Option.map_eq_some_iff.1 hf
    by_contra old
    have forty : longestFlight ≤ g.age := Nat.le_of_not_lt old
    have := due.completion
    simp [State.dueCompletion, hg, forty] at this

/-! ### Commands and steps -/

namespace TimersBounded

variable {s : State} (h : TimersBounded s)
include h

theorem of_motion {t : State} (only : ScheduleOnly s t) (counts : CountsBounded s → CountsBounded t) : TimersBounded t :=
  h.of_scheduleOnly only (counts h.counts)

theorem setJob (g : EngineIx) {j : BurstJob} (hj : j.InTime) : TimersBounded (s.setJob g j) :=
  h.of_scheduleOnly rfl (h.counts.setJob g hj)

theorem execAddCompletion : Leads TimersBounded (execAddCompletion s) := by
  unfold Machine.execAddCompletion
  split
  · split
    · exact leads_ite (fun _ => h.complete fun ht => ht.of_timers_eq (State.timers_completeAdd ..)) h
    · exact h
    · exact h
  · exact h

theorem execReplaceCompletion : Leads TimersBounded (execReplaceCompletion s) := by
  unfold Machine.execReplaceCompletion
  split
  · split
    · exact leads_ite (fun _ => h.complete fun ht => ht.of_timers_eq (State.timers_completeReplace ..)) h
    · exact h
    · exact h
  · exact h

theorem execSetHubCompletion : Leads TimersBounded (execSetHubCompletion s) := by
  unfold Machine.execSetHubCompletion
  split
  · split
    · exact leads_ite (fun hold => h.complete fun ht => ht.completeSetHub (Option.isNone_iff_eq_none.1 hold) _) h
    · exact h
    · exact h
  · exact h

theorem execAttach (p : Port) : Leads TimersBounded (execAttach p s) := by
  unfold Machine.execAttach
  split
  · exact h
  · exact (h.take p).attachTaken p _

theorem execBadKind (p : Port) : Leads TimersBounded (execBadKind p s) := by
  unfold Machine.execBadKind
  split
  · exact h
  · exact (h.take p).reply ..

theorem execCleanupClaim (p : Port) : Leads TimersBounded (execCleanupClaim p s) := by
  have claimed : TimersBounded (s.takeClaim p) := h.of_timers_eq rfl
  unfold Machine.execCleanupClaim
  split
  · split
    · exact claimed.of_timers_eq (State.timers_cleanup ..)
    · exact h
  · exact h

theorem execHighTimeElapses (g : EngineIx) : Leads TimersBounded (execHighTimeElapses g s) := by
  unfold Machine.execHighTimeElapses
  split
  · rename_i j _
    exact leads_ite (fun _ => h.setJob g j.highElapsed_inTime) h
  · exact h

theorem execLowTimeElapses (g : EngineIx) : Leads TimersBounded (execLowTimeElapses g s) := by
  unfold Machine.execLowTimeElapses
  split
  · rename_i j _
    exact leads_ite (fun _ => h.setJob g j.lowElapsed_inTime) h
  · exact h

theorem execRstnAsserted : Leads TimersBounded (execRstnAsserted s) := by
  unfold Machine.execRstnAsserted
  split
  · exact h.holdReset .pin
  · exact h

theorem execResetRelease (inputs : BitVec 8) (inh : Bool) (cs : BitVec 4) :
    Leads TimersBounded (execResetRelease inputs inh cs s) := by
  unfold Machine.execResetRelease
  split
  · exact h
  · exact timersBounded_afterRelease ..

/-- Every command keeps the timers bounded. -/
theorem exec (c : Instr) : Leads TimersBounded (exec c s) := by
  cases c with
  | attach p => exact h.execAttach p
  | detach p => exact h.answerRequest fun _ me _ ht => ht.endSession me.port false
  | renew p => exact h.answerRequest_of_timers fun _ _ _ => rfl
  | setNotices p => exact h.answerRequest fun _ me f ht => ht.setNoticesAct me f
  | add p => exact h.flyRequest
  | addCompletion => exact h.execAddCompletion
  | withdraw p => exact h.answerRequest_of_timers State.timers_withdrawAct
  | replace p => exact h.flyRequest
  | replaceCompletion => exact h.execReplaceCompletion
  | query p => exact h.answerRequest_of_timers fun _ _ _ => by rw [queryAct_state]
  | scan p => exact h.answerRequest_of_timers fun _ _ _ => by rw [scanAct_state]
  | claimLine p => exact h.answerRequest_of_timers State.timers_claimLineAct
  | releaseLine p => exact h.answerRequest_of_timers State.timers_releaseLineAct
  | lineInfo p => exact h.answerRequest_of_timers fun _ _ _ => by rw [lineInfoAct_state]
  | run p => exact h.answerRequest fun _ me f ht => ht.runAct me f
  | halt p => exact h.answerRequest fun _ me f ht => ht.haltAct me f
  | setHub p => exact h.flyRequest
  | setHubCompletion => exact h.execSetHubCompletion
  | readHub p => exact h.answerRequest_of_timers State.timers_readHubAct
  | badKind p => exact h.execBadKind p
  | cleanupClaim p => exact h.execCleanupClaim p
  | submit p mosi => exact h.runFrame _ mosi 0
  | collect p bytes rise => exact h.runFrame _ _ 0
  | fetch p bytes rise => exact h.runFrame _ _ 0
  | status p bytes rise => exact h.runFrame _ _ 0
  | abandon p mosi => exact h.runFrame _ mosi 0
  | malformedFrame p mosi bits => exact h.runFrame _ mosi bits
  | cycleEnd => exact leads_ite (fun _ => h.of_motion (.cycleEnd s) .cycleEnd) h
  | spacingEnd => exact leads_ite (fun _ => h.of_motion (.spacingEnd s) .spacingEnd) h
  | inhAsserted => exact leads_ite (fun _ => h.of_motion (.inhAssert s) .inhAssert) h
  | inhReleased => exact leads_ite (fun _ => h.of_motion (.inhRelease s) .inhRelease) h
  | rawChange i => exact leads_ite (fun hold => h.rawChange (Option.isNone_iff_eq_none.1 hold) i) h
  | qualification i => exact leads_ite (fun _ => h.qualify i) h
  | windowBoundaryEvent => exact leads_ite (fun _ => h.of_motion (.windowBoundary s) .windowBoundary) h
  | highTimeElapses g => exact h.execHighTimeElapses g
  | lowTimeElapses g => exact h.execLowTimeElapses g
  | leaseExpiry p => exact leads_ite (fun _ => h.endSession p true) h
  | powerOnReset => exact h.holdReset .power
  | rstnAsserted => exact h.execRstnAsserted
  | resetRelease inputs inh cs => exact h.execResetRelease inputs inh cs
  | csnRiseAfterReset p => exact leads_ite (fun _ => h.of_timers_eq rfl) h

end TimersBounded

/-- Settles O60: a tick passes only when no timer's event is due, and every command restarts, stops or leaves each timer. -/
theorem stepKeepsTimersBounded : Obligations.StepKeepsTimersBounded := fun _ _ =>
  step_keeps (fun _ _ h => h.of_timers_eq rfl) (fun _ _ h => h.of_timers_eq rfl)
    (fun _ hold due h => h.tick hold (nothingDue_of_dueEvents due)) fun c _ h => h.exec c

end Sys2Proof.Machine
end

