-- ==== Sys2Proof/Proofs/Windows.lean ====
section
/-! SUPPORT. What a window's start, end and cut, and a gate's edge, make of each block: the plan, the entries, the cycle engine,
the burst engines and the notices of each port (R83, R84, R86, R88, R91, R92, R112). -/

namespace Sys2Proof.Machine

/-! ### What changes windows, lines, burst engines and notices only -/

/-- Only the plan, the lines' holders and levels, the burst engines and the notice queues may differ. -/
def WindowsOnly (s t : State) : Prop :=
  t = { s with plan := t.plan, holding := t.holding, driven := t.driven, bursts := t.bursts, notices := t.notices }

namespace WindowsOnly

theorem rfl' (s : State) : WindowsOnly s s := rfl

theorem trans {s t u : State} (h : WindowsOnly s t) (k : WindowsOnly t u) : WindowsOnly s u := by
  unfold WindowsOnly at *
  rw [k, h]

theorem foldl {α : Type} {f : State → α → State} (h : ∀ s a, WindowsOnly s (f s a)) (as : List α) (s : State) :
    WindowsOnly s (as.foldl f s) := foldl_related rfl' (fun _ _ _ => trans) h as s

theorem of_notices {s t : State} (h : NoticesOnly s t) : WindowsOnly s t := by
  unfold NoticesOnly at h
  unfold WindowsOnly
  rw [h]

variable {s t : State} (h : WindowsOnly s t)
include h

theorem entries : t.entries = s.entries := by rw [h]
theorem lines : t.lines = s.lines := by rw [h]
theorem engine : t.engine = s.engine := by rw [h]
theorem inputs : t.inputs = s.inputs := by rw [h]
theorem sessions : t.sessions = s.sessions := by rw [h]

theorem entry (e : EntryIx) : t.entry e = s.entry e := by rw [State.entry, h.entries, State.entry]
theorem idleLevel (l : LineIx) : t.idleLevel l = s.idleLevel l := by
  rw [State.idleLevel, State.line, h.lines, State.idleLevel, State.line]

end WindowsOnly

/-! ### The windows of the plan (R79) -/

/-- The plan's windows with the one of entry e in state x. -/
def setWindow (e : EntryIx) (x : WindowState) (ws : List PlannedWindow) : List PlannedWindow :=
  ws.map fun w => if w.entry = e then { w with state := x } else w

theorem setWindow_entries (e : EntryIx) (x : WindowState) (ws : List PlannedWindow) :
    (setWindow e x ws).map (fun w => w.entry) = ws.map fun w => w.entry := by
  rw [setWindow, List.map_map]
  refine List.map_congr_left fun w _ => ?_
  by_cases h : w.entry = e <;> simp [h]

theorem find_setWindow (e f : EntryIx) (x : WindowState) (ws : List PlannedWindow) :
    ((setWindow e x ws).find? fun w => decide (w.entry = f)).map (fun w => w.state) =
      ((ws.find? fun w => decide (w.entry = f)).map fun w => w.state).map fun y => if f = e then x else y := by
  unfold setWindow
  induction ws with
  | nil => rfl
  | cons w ws ih =>
    by_cases hf : w.entry = f
    · subst hf
      by_cases he : w.entry = e <;> simp [he]
    · have moved : (if w.entry = e then { w with state := x } else w).entry ≠ f := by split <;> exact hf
      rw [List.map_cons, List.find?_cons_of_neg (by simpa using moved), List.find?_cons_of_neg (by simpa using hf), ih]

namespace State

variable (s : State)

theorem planList_setWindowState (e : EntryIx) (x : WindowState) :
    (s.setWindowState e x).planList = setWindow e x s.planList := by
  unfold planList setWindowState
  cases s.plan <;> rfl

theorem windowState_setWindowState (e f : EntryIx) (x : WindowState) :
    (s.setWindowState e x).windowState f = (s.windowState f).map fun y => if f = e then x else y := by
  rw [windowState, planList_setWindowState, find_setWindow, windowState]

theorem windowState_congr {s t : State} (h : t.plan = s.plan) (e : EntryIx) : t.windowState e = s.windowState e := by
  unfold windowState planList
  rw [h]

theorem burst_congr {s t : State} (h : t.bursts = s.bursts) (g : EngineIx) : t.burst g = s.burst g := by
  rw [burst, h, burst]

variable {s} in
/-- The window that an entry has in the plan, when the plan's entries are distinct (R79). -/
theorem windowState_of_mem (distinct : (s.planList.map fun w => w.entry).Nodup) {w : PlannedWindow}
    (hw : w ∈ s.planList) : s.windowState w.entry = some w.state := by
  unfold windowState
  generalize s.planList = ws at distinct hw
  induction ws with
  | nil => cases hw
  | cons v ws ih =>
    rw [List.map_cons, List.nodup_cons] at distinct
    obtain ⟨hv, nd⟩ := distinct
    rcases List.mem_cons.1 hw with rfl | hw
    · simp
    · have ne : v.entry ≠ w.entry := fun e => hv (e ▸ List.mem_map_of_mem hw)
      rw [List.find?_cons_of_neg (by simpa using ne)]
      exact ih nd hw

variable {s} in
theorem mem_of_windowState {e : EntryIx} {x : WindowState} (h : s.windowState e = some x) :
    ∃ w ∈ s.planList, w.entry = e ∧ w.state = x := by
  obtain ⟨w, hw, rfl⟩ := Option.map_eq_some_iff.1 h
  exact ⟨w, List.mem_of_find?_eq_some hw, by simpa using List.find?_some hw, rfl⟩

/-! ### The jobs that serve windows (R79, R104) -/

theorem jobOf_eq_some {e : EntryIx} {g : EngineIx} {j : BurstJob} :
    s.jobOf e = some (g, j) ↔ (s.windowState e).bind WindowState.engine = some g ∧ (s.burst g).job = some j := by
  unfold jobOf
  cases hg : (s.windowState e).bind WindowState.engine with
  | none => simp
  | some k =>
    simp only [Option.map_eq_some_iff, Prod.mk.injEq, Option.some.injEq]
    constructor
    · rintro ⟨a, ha, rfl, rfl⟩
      exact ⟨rfl, ha⟩
    · rintro ⟨rfl, ha⟩
      exact ⟨j, ha, rfl, rfl⟩

variable {s} in
theorem jobOf_congr {t : State} (plan : t.plan = s.plan) (bursts : t.bursts = s.bursts) (e : EntryIx) :
    t.jobOf e = s.jobOf e := by
  unfold jobOf burst
  rw [windowState_congr plan, bursts]

/-- The job that serves a window names it (R104). -/
def JobsNameWindows (s : State) : Prop := ∀ e g j, s.jobOf e = some (g, j) → j.window = e

variable {s} in
theorem JobsNameWindows.of_eq {t : State} (h : s.JobsNameWindows) (plan : t.plan = s.plan) (bursts : t.bursts = s.bursts) :
    t.JobsNameWindows := by
  intro e g j hj
  rw [jobOf_congr plan bursts] at hj
  exact h e g j hj

/-! ### An OPEN window leaves its line and its engine -/

/-- What the end and the cut of a window share: the window's state x, the line dropped, the engine released (R88, R91). -/
def shutWindow (x : WindowState) (e : EntryIx) : State :=
  match s.jobOf e with
  | none => (s.setWindowState e x).dropLine e
  | some (g, _) => ((s.setWindowState e x).dropLine e).setBurst g .idle

theorem shutWindow_of_none {x : WindowState} {e : EntryIx} (h : s.jobOf e = none) :
    s.shutWindow x e = (s.setWindowState e x).dropLine e := by
  simp [shutWindow, h]

theorem shutWindow_of_some {x : WindowState} {e : EntryIx} {g : EngineIx} {j : BurstJob} (h : s.jobOf e = some (g, j)) :
    s.shutWindow x e = ((s.setWindowState e x).dropLine e).setBurst g .idle := by
  simp [shutWindow, h]

variable (x : WindowState) (e : EntryIx)

theorem shutWindow_only : WindowsOnly s (s.shutWindow x e) := by
  unfold shutWindow
  split <;> rfl

theorem shutWindow_plan : (s.shutWindow x e).plan = (s.setWindowState e x).plan := by
  unfold shutWindow
  split <;> rfl

theorem shutWindow_holding : (s.shutWindow x e).holding = s.holding.set (s.entry e).descriptor.line none := by
  unfold shutWindow
  split <;> rfl

theorem shutWindow_driven :
    (s.shutWindow x e).driven =
      s.driven.set (s.entry e).descriptor.line (s.idleLevel (s.entry e).descriptor.line) := by
  unfold shutWindow
  split <;> rfl

theorem shutWindow_queue (p : Port) : (s.shutWindow x e).queue p = s.queue p := by
  unfold shutWindow
  split <;> rfl

theorem shutWindow_windowState (f : EntryIx) :
    (s.shutWindow x e).windowState f = (s.windowState f).map fun y => if f = e then x else y := by
  rw [windowState_congr (s.shutWindow_plan x e), windowState_setWindowState]

/-- The engine that serves the window is released, and no other. -/
theorem shutWindow_burst (g : EngineIx) :
    (s.shutWindow x e).burst g = if (s.jobOf e).map Prod.fst = some g then .idle else s.burst g := by
  cases h : s.jobOf e with
  | none =>
    rw [shutWindow_of_none s h]
    rfl
  | some job =>
    obtain ⟨k, j⟩ := job
    rw [shutWindow_of_some s h]
    by_cases hg : g = k
    · subst hg
      simp
    · rw [burst_setBurst_ne _ _ hg, if_neg (by simpa using Ne.symm hg)]
      rfl

variable {s x e}

/-- A window that is shut in a state without an engine gives no window a job. -/
theorem jobOf_of_shutWindow (hx : x.engine = none) {f : EntryIx} {g : EngineIx} {j : BurstJob}
    (h : (s.shutWindow x e).jobOf f = some (g, j)) : s.jobOf f = some (g, j) ∧ (s.jobOf e).map Prod.fst ≠ some g := by
  rw [jobOf_eq_some, shutWindow_windowState, shutWindow_burst] at h
  obtain ⟨hw, hb⟩ := h
  split at hb
  · cases hb
  · refine ⟨s.jobOf_eq_some.2 ⟨?_, hb⟩, ‹_›⟩
    cases hy : s.windowState f with
    | none => simp [hy] at hw
    | some y =>
      by_cases hf : f = e
      · subst hf
        simp [hy, hx] at hw
      · simpa [hy, hf] using hw

theorem JobsNameWindows.shutWindow (h : s.JobsNameWindows) (hx : x.engine = none) : (s.shutWindow x e).JobsNameWindows :=
  fun f g j hj => h f g j (jobOf_of_shutWindow hx hj).1

/-- The other windows keep their jobs, since no engine serves two. -/
theorem JobsNameWindows.jobOf_shutWindow (h : s.JobsNameWindows) (hx : x.engine = none) {f : EntryIx} (hf : f ≠ e) :
    (s.shutWindow x e).jobOf f = s.jobOf f := by
  refine Option.ext fun ⟨g, j⟩ => ⟨fun hj => (jobOf_of_shutWindow hx hj).1, fun hj => ?_⟩
  have apart : (s.jobOf e).map Prod.fst ≠ some g := by
    intro hg
    obtain ⟨⟨k, i⟩, hk, rfl⟩ := Option.map_eq_some_iff.1 hg
    obtain ⟨-, hi⟩ := s.jobOf_eq_some.1 hk
    obtain ⟨-, hj'⟩ := s.jobOf_eq_some.1 hj
    obtain rfl : i = j := Option.some.inj (hi.symm.trans hj')
    exact hf ((h f _ _ hj).symm.trans (h e _ _ hk))
  obtain ⟨hw, hb⟩ := s.jobOf_eq_some.1 hj
  rw [jobOf_eq_some, shutWindow_windowState, shutWindow_burst, if_neg apart]
  exact ⟨by simpa [hf] using hw, hb⟩

end State

/-! ### The notices of windows (R84, R92, R112, R149) -/

namespace State

variable (s : State)

/-- A window notice arrives at the port of the entry's owner, when that session hears of the window. -/
theorem queue_windowNotice (e : EntryIx) (b : NoticeBody) (p : Port) :
    (s.windowNotice e b).queue p = (s.queue p).after (if s.hearsWindow p e then some b else none).toList := by
  unfold windowNotice hearsWindow
  by_cases hn : (s.entry e).descriptor.notify = true
  · cases ho : s.ownerOf e with
    | none =>
      have deaf : ¬ (none = s.attachedSession p ∧ s.maskHolds p .window = true) := by
        rintro ⟨ha, hm⟩
        have detached := s.attachedSession_eq_none.1 ha.symm
        simp [maskHolds, detached] at hm
      simp [hn, ownerNotice, deaf]
    | some o =>
      rw [if_pos hn, queue_ownerNotice]
      by_cases h : s.attachedSession p = some o ∧ s.maskHolds p .window = true
      · simp [hn, h]
      · have h' : ¬ (some o = s.attachedSession p ∧ s.maskHolds p .window = true) := by rwa [eq_comm]
        simp [hn, h, h']
  · simp [hn]

/-- The TALLY notice of entry e's window that port p receives at its end (R112). -/
def tallyNote (p : Port) (e : EntryIx) : Option NoticeBody :=
  if s.hearsWindow p e then (s.jobOf e).map fun (g, j) => s.tallyNotice e g j else none

/-- The pulses of the engine that serves a window, 0 without one (R92). -/
def pulsesOf (e : EntryIx) : BitVec 16 :=
  match s.jobOf e with
  | some (_, j) => j.pulses
  | none => 0

/-- The CUT notice of entry e's window that port p receives at a cut at offset c (R92). -/
def cutNote (p : Port) (c : Nat) (e : EntryIx) : Option NoticeBody :=
  if s.hearsWindow p e then some (s.cutNotice c e (s.pulsesOf e)) else none

/-- The FIRE notice of entry e's window that port p receives at its start (R84). -/
def fireNote (p : Port) (e : EntryIx) : Option NoticeBody :=
  if s.hearsWindow p e then some (s.fireBody e) else none

/-- Notices given under a test, as notes of each entry. -/
theorem map_filter_eq_filterMap {α β : Type} (test : α → Bool) (f : α → β) (as : List α) :
    (as.filter test).map f = as.filterMap fun a => if test a then some (f a) else none := by
  rw [← List.filterMap_eq_map', List.filterMap_filter]

theorem talliesFor_eq (p : Port) (es : List EntryIx) : s.talliesFor p es = es.filterMap (s.tallyNote p) :=
  List.filterMap_filter

theorem cutsFor_eq (p : Port) (c : Nat) (es : List EntryIx) : s.cutsFor p c es = es.filterMap (s.cutNote p c) :=
  map_filter_eq_filterMap ..

theorem firesFor_eq (p : Port) (es : List EntryIx) : s.firesFor p es = es.filterMap (s.fireNote p) :=
  map_filter_eq_filterMap ..

/-- What the notices of a window read of a state beside its job: the owner, the handle and the descriptor of the entry, the
sessions and the cycle number. -/
structure SameWindowFacts (s t : State) (e : EntryIx) : Prop where
  state : (t.entry e).state = (s.entry e).state
  generation : (t.entry e).generation = (s.entry e).generation
  descriptor : (t.entry e).descriptor = (s.entry e).descriptor
  sessions : t.sessions = s.sessions
  number : t.engine.number = s.engine.number

namespace SameWindowFacts

variable {s} {t : State} {e : EntryIx} (h : SameWindowFacts s t e)
include h

theorem hearsWindow (p : Port) : t.hearsWindow p e = s.hearsWindow p e := by
  unfold State.hearsWindow ownerOf attachedSession maskHolds session
  rw [h.state, h.descriptor, h.sessions]

theorem handleOf : t.handleOf e = s.handleOf e := by rw [State.handleOf, h.generation, State.handleOf]

theorem reportedNumber : t.engine.reportedNumber = s.engine.reportedNumber := by
  rw [CycleEngine.reportedNumber, h.number, CycleEngine.reportedNumber]

theorem tallyNote (job : t.jobOf e = s.jobOf e) (p : Port) : t.tallyNote p e = s.tallyNote p e := by
  unfold State.tallyNote tallyNotice
  rw [h.hearsWindow, job, h.handleOf, h.descriptor, h.reportedNumber]

theorem cutNote (job : t.jobOf e = s.jobOf e) (p : Port) (c : Nat) : t.cutNote p c e = s.cutNote p c e := by
  unfold State.cutNote cutNotice pulsesOf
  rw [h.hearsWindow, job, h.handleOf, h.descriptor, h.reportedNumber]

theorem fireNote (inputs : t.inputs = s.inputs) (p : Port) : t.fireNote p e = s.fireNote p e := by
  unfold State.fireNote fireBody startFlag inputSnapshot input
  rw [h.hearsWindow, h.handleOf, h.descriptor, h.reportedNumber, inputs]

end SameWindowFacts

end State

theorem WindowsOnly.sameWindowFacts {s t : State} (h : WindowsOnly s t) (e : EntryIx) : s.SameWindowFacts t e where
  state := by rw [h.entry]
  generation := by rw [h.entry]
  descriptor := by rw [h.entry]
  sessions := h.sessions
  number := by rw [h.engine]

/-- The notices a port receives in a run over entries, where what is done at one entry keeps an invariant and, under it, what
the others will give. -/
theorem queue_foldl_under {I : State → Prop} {g : State → EntryIx → State} {p : Port}
    (note : State → EntryIx → Option NoticeBody) (hI : ∀ s e, I s → I (g s e))
    (hq : ∀ s e, (g s e).queue p = (s.queue p).after (note s e).toList)
    (hn : ∀ s e f, I s → f ≠ e → note (g s e) f = note s f) {es : List EntryIx} (nd : es.Nodup) {s : State} (h : I s) :
    (es.foldl g s).queue p = (s.queue p).after (es.filterMap (note s)) := by
  induction es generalizing s with
  | nil => rfl
  | cons e es ih =>
    obtain ⟨he, hnd⟩ := List.nodup_cons.1 nd
    have rest : es.filterMap (note (g s e)) = es.filterMap (note s) :=
      List.filterMap_congr fun f hf => hn s e f h fun hfe => he (hfe ▸ hf)
    rw [List.foldl_cons, ih hnd (hI s e h), rest, hq, ← NoticeQueue.after_append]
    cases hs : note s e <;> simp [hs]

/-! ### Window ends (R88) -/

namespace State

variable (s : State) (e : EntryIx)

theorem endWindow_of_none (h : s.jobOf e = none) : s.endWindow e = s.shutWindow .closed e := by
  simp [endWindow, h, shutWindow]

theorem endWindow_of_some {g : EngineIx} {j : BurstJob} (h : s.jobOf e = some (g, j)) :
    s.endWindow e = (s.shutWindow .closed e).windowNotice e (s.tallyNotice e g j) := by
  simp [endWindow, h, shutWindow]

/-- The end of a window: it is shut as CLOSED, and then there are notices. -/
theorem endWindow_notices : NoticesOnly (s.shutWindow .closed e) (s.endWindow e) := by
  cases h : s.jobOf e with
  | none =>
    rw [endWindow_of_none s e h]
    exact .rfl' _
  | some job =>
    rw [endWindow_of_some s e h]
    exact .windowNotice ..

theorem endWindow_only : WindowsOnly s (s.endWindow e) :=
  (s.shutWindow_only .closed e).trans (.of_notices (s.endWindow_notices e))

theorem endWindow_queue (p : Port) : (s.endWindow e).queue p = (s.queue p).after (s.tallyNote p e).toList := by
  cases h : s.jobOf e with
  | none => simp [endWindow_of_none s e h, tallyNote, h, shutWindow_queue]
  | some job =>
    obtain ⟨g, j⟩ := job
    rw [endWindow_of_some s e h, queue_windowNotice, ((s.shutWindow_only .closed e).sameWindowFacts e).hearsWindow,
      shutWindow_queue, tallyNote, h]
    rfl

theorem endWindows_only (es : List EntryIx) : WindowsOnly s (s.endWindows es) := .foldl endWindow_only es s

theorem endWindows_engine (es : List EntryIx) : (s.endWindows es).engine = s.engine := (s.endWindows_only es).engine

/-! ### Window cuts (R91) -/

theorem cutWindow_eq (c : Nat) :
    cutWindow c s e = ((s.shutWindow .cut e).windowNotice e (s.cutNotice c e (s.pulsesOf e))).countCut := by
  cases h : s.jobOf e with
  | none => simp [cutWindow, h, shutWindow, pulsesOf]
  | some job =>
    obtain ⟨g, j⟩ := job
    simp [cutWindow, h, shutWindow, pulsesOf]

/-- Before a cut is counted it has done no more than a window's end. -/
theorem cutWindow_only (c : Nat) : ∃ t, WindowsOnly s t ∧ t.plan = (s.shutWindow .cut e).plan
    ∧ t.bursts = (s.shutWindow .cut e).bursts ∧ cutWindow c s e = t.countCut := by
  have notices := NoticesOnly.windowNotice (s.shutWindow .cut e) e (s.cutNotice c e (s.pulsesOf e))
  refine ⟨_, (s.shutWindow_only .cut e).trans (.of_notices notices), ?_, ?_, s.cutWindow_eq e c⟩ <;> rw [notices]

theorem cutWindow_engine (c : Nat) :
    (cutWindow c s e).engine = { s.engine with cuts := saturatingInc s.engine.cuts } := by
  obtain ⟨t, only, -, -, eq⟩ := s.cutWindow_only e c
  rw [eq, countCut_engine, only.engine]

theorem cutWindow_entries (c : Nat) : (cutWindow c s e).entries = s.entries := by
  obtain ⟨t, only, -, -, eq⟩ := s.cutWindow_only e c
  rw [eq, countCut_entries, only.entries]

theorem cutWindow_sessions (c : Nat) : (cutWindow c s e).sessions = s.sessions := (ScheduleOnly.cutWindow ..).sessions

theorem cutWindow_queue (c : Nat) (p : Port) :
    (cutWindow c s e).queue p = (s.queue p).after (s.cutNote p c e).toList := by
  have counted (t : State) : t.countCut.queue p = t.queue p := rfl
  rw [cutWindow_eq, counted, queue_windowNotice, ((s.shutWindow_only .cut e).sameWindowFacts e).hearsWindow,
    shutWindow_queue, cutNote]

theorem cutWindow_sameWindowFacts (c : Nat) (f : EntryIx) : s.SameWindowFacts (cutWindow c s e) f := by
  have entry : (cutWindow c s e).entry f = s.entry f := by rw [State.entry, cutWindow_entries, State.entry]
  refine ⟨?_, ?_, ?_, s.cutWindow_sessions e c, ?_⟩
  · rw [entry]
  · rw [entry]
  · rw [entry]
  · rw [cutWindow_engine]

/-- The engine after a cut: of its registers only the count of cuts has moved. -/
theorem cutWindows_engine (c : Nat) (es : List EntryIx) :
    (es.foldl (cutWindow c) s).engine = { s.engine with cuts := (es.foldl (cutWindow c) s).engine.cuts } := by
  refine foldl_related (R := fun s t : State => t.engine = { s.engine with cuts := t.engine.cuts }) (fun _ => rfl) ?_ ?_ es s
  · intro s t u h k
    rw [k, h]
  · intro s e
    rw [cutWindow_engine]

theorem cutWindows_entries (c : Nat) (es : List EntryIx) : (es.foldl (cutWindow c) s).entries = s.entries := by
  refine foldl_related (R := fun s t : State => t.entries = s.entries) (fun _ => rfl) ?_ ?_ es s
  · intro s t u h k
    rw [k, h]
  · exact fun s e => s.cutWindow_entries e c

theorem cutCycle_engine (c : Nat) :
    (s.cutCycle c).engine = { s.engine with cuts := (s.cutCycle c).engine.cuts } := s.cutWindows_engine c s.openEntries

theorem cutCycle_entries (c : Nat) : (s.cutCycle c).entries = s.entries := s.cutWindows_entries c s.openEntries

/-! ### Window starts (R83) -/

/-- Step 5 of a window start opens the window. -/
theorem driveWindow_plan (gateOpen : Bool) :
    ∃ g, (s.driveWindow e gateOpen).plan = (s.setWindowState e (.opened gateOpen g)).plan := by
  unfold driveWindow
  split <;> exact ⟨_, rfl⟩

theorem driveWindow_only (gateOpen : Bool) : WindowsOnly s (s.driveWindow e gateOpen) := by
  unfold driveWindow
  split <;> rfl

/-- A window start up to its notice (R83, steps 1 to 5). -/
def openWindow : State :=
  ((s.countFire e).setHolding (s.entry e).descriptor.line (some e)).driveWindow e
    (s.gateIsOpen (s.entry e).descriptor.gate)

theorem startWindow_eq :
    s.startWindow e =
      (s.openWindow e).windowNotice e ((s.openWindow e).fireNotice e (s.gateIsOpen (s.entry e).descriptor.gate)) := rfl

theorem openWindow_only : WindowsOnly (s.countFire e) (s.openWindow e) := by
  have held : WindowsOnly (s.countFire e) ((s.countFire e).setHolding (s.entry e).descriptor.line (some e)) := rfl
  exact held.trans (driveWindow_only ..)

theorem openWindow_queue (p : Port) : (s.openWindow e).queue p = s.queue p := by
  unfold openWindow driveWindow
  split <;> rfl

/-- A window start beyond the counting of the entry's fire. -/
theorem startWindow_only : WindowsOnly (s.countFire e) (s.startWindow e) :=
  (s.openWindow_only e).trans (.of_notices (.windowNotice ..))

theorem startWindow_entries :
    (s.startWindow e).entries = s.entries.set e { s.entry e with fireCount := (s.entry e).fireCount + 1 } :=
  (s.startWindow_only e).entries

theorem startWindow_engine : (s.startWindow e).engine = s.engine := (s.startWindow_only e).engine

theorem startWindow_inputs : (s.startWindow e).inputs = s.inputs := (s.startWindow_only e).inputs

theorem startWindow_plan : ∃ b g, (s.startWindow e).plan = (s.setWindowState e (.opened b g)).plan := by
  obtain ⟨g, hg⟩ := ((s.countFire e).setHolding (s.entry e).descriptor.line (some e)).driveWindow_plan e
    (s.gateIsOpen (s.entry e).descriptor.gate)
  refine ⟨_, g, Eq.trans ?_ hg⟩
  rw [startWindow_eq, NoticesOnly.windowNotice]
  rfl

/-- Of an entry's record a window start moves the fire count alone. -/
theorem countFire_sameWindowFacts (f : EntryIx) : s.SameWindowFacts (s.countFire e) f := by
  by_cases h : f = e
  · subst h
    refine ⟨?_, ?_, ?_, rfl, rfl⟩ <;> rw [countFire, entry_setEntry]
  · refine ⟨?_, ?_, ?_, rfl, rfl⟩ <;> rw [countFire, entry_setEntry_ne _ _ h]

theorem SameWindowFacts.trans {s t u : State} {e : EntryIx} (h : SameWindowFacts s t e) (k : SameWindowFacts t u e) :
    SameWindowFacts s u e :=
  ⟨k.state.trans h.state, k.generation.trans h.generation, k.descriptor.trans h.descriptor, k.sessions.trans h.sessions,
    k.number.trans h.number⟩

theorem startWindow_sameWindowFacts (f : EntryIx) : s.SameWindowFacts (s.startWindow e) f :=
  (s.countFire_sameWindowFacts e f).trans ((s.startWindow_only e).sameWindowFacts f)

theorem startWindow_fireNote (p : Port) (f : EntryIx) : (s.startWindow e).fireNote p f = s.fireNote p f :=
  (s.startWindow_sameWindowFacts e f).fireNote (s.startWindow_inputs e) p

theorem startWindow_queue (p : Port) : (s.startWindow e).queue p = (s.queue p).after (s.fireNote p e).toList := by
  have only := s.openWindow_only e
  have facts := (s.countFire_sameWindowFacts e e).trans (only.sameWindowFacts e)
  have note : (s.openWindow e).fireNotice e (s.gateIsOpen (s.entry e).descriptor.gate) = s.fireBody e := by
    unfold fireNotice fireBody inputSnapshot input
    rw [facts.handleOf, facts.descriptor, facts.reportedNumber, only.inputs]
    rfl
  rw [startWindow_eq, queue_windowNotice, note, facts.hearsWindow, openWindow_queue, fireNote]

variable (es : List EntryIx)

theorem startWindows_engine : (s.startWindows es).engine = s.engine := by
  refine foldl_related (R := fun s t : State => t.engine = s.engine) (fun _ => rfl) ?_ startWindow_engine es s
  intro s t u h k
  rw [k, h]

variable {es}

/-- Every entry after window starts: the fire count of one that started is 1 more (R83). -/
theorem startWindows_entry (nd : es.Nodup) (f : EntryIx) :
    (s.startWindows es).entry f =
      if f ∈ es then { s.entry f with fireCount := (s.entry f).fireCount + 1 } else s.entry f :=
  Table.get_foldl State.entries (fun _ => ()) (fun _ x => { x with fireCount := x.fireCount + 1 }) startWindow_entries
    (fun _ _ => rfl) nd s f

theorem startWindows_queue (nd : es.Nodup) (p : Port) :
    (s.startWindows es).queue p = (s.queue p).after (s.firesFor p es) := by
  rw [firesFor_eq]
  exact queue_foldl_entries (note := fun s e => s.fireNote p e) (fun s e => s.startWindow_queue e p)
    (fun s e f _ => s.startWindow_fireNote e p f) nd s

theorem startWindows_firesFor (fs : List EntryIx) (p : Port) : (s.startWindows es).firesFor p fs = s.firesFor p fs := by
  rw [firesFor_eq, firesFor_eq]
  refine List.filterMap_congr fun f _ => ?_
  refine foldl_related (R := fun s t : State => t.fireNote p f = s.fireNote p f) (fun _ => rfl) ?_
    (fun s e => s.startWindow_fireNote e p f) es s
  intro s t u h k
  rw [k, h]

/-! ### Gate edges (R86) -/

theorem gateWindow_only (i : InputIx) (w : PlannedWindow) : WindowsOnly s (gateWindow i s w) := by
  unfold gateWindow
  split
  · dsimp only
    split
    · split
      · split <;> rfl
      · split <;> rfl
    · exact .rfl' s
  · exact .rfl' s

theorem gateEdge_only (i : InputIx) : WindowsOnly s (s.gateEdge i) := .foldl (fun s w => s.gateWindow_only i w) _ s

end State

end Sys2Proof.Machine
end

