-- ==== Sys2Proof/Proofs/CycleStarts.lean ====
section
/-! SUPPORT. The cycle numbers (R63), and a cycle start part by part: its number and engine, the boundary, the plan and the
windows with start 0 (R62, R80, R15, R83). -/

namespace Sys2Proof.Machine

/-! ### Cycle numbers (R63) -/

theorem toNat_nextMultipleOf8 {n : CycleNumber} (h : n.toNat < 4294967288) :
    (nextMultipleOf8 n).toNat = (n.toNat / 8 + 1) * 8 := by
  rw [nextMultipleOf8, BitVec.toNat_ofNat]
  exact Nat.mod_eq_of_lt (by omega)

/-- Above the largest multiple of 8 the next one is 0, by the wrap. -/
theorem nextMultipleOf8_wraps {n : CycleNumber} (h : 4294967288 ≤ n.toNat) : nextMultipleOf8 n = 0 := by
  have last : (n.toNat / 8 + 1) * 8 = 2 ^ 32 := by
    have := n.isLt
    omega
  rw [nextMultipleOf8, last]
  rfl

/-- Settles O29, by the restart flag and, at a restart, by whether the next multiple of 8 wraps. -/
theorem cyclesAreNumbered : Obligations.CyclesAreNumbered := by
  intro c
  refine ⟨fun hn => ?_, fun n hn hr => ?_, fun n hn hr hlt => ?_, fun n hn hr hle => ?_⟩
  · simp [CycleEngine.nextNumber, hn]
  · simp [CycleEngine.nextNumber, hn, hr]
  · have next : c.nextNumber.toNat = (n.toNat / 8 + 1) * 8 := by
      simp only [CycleEngine.nextNumber, hn, hr, if_true, toNat_nextMultipleOf8 hlt]
    omega
  · simp only [CycleEngine.nextNumber, hn, hr, if_true, nextMultipleOf8_wraps hle]

/-! ### The engine and the boundary of a cycle start (R62, steps 1 to 5) -/

/-- The cycle engine after a cycle start under a cycle length (R62). -/
def CycleEngine.started (c : CycleEngine) (cycleLength : Nat) : CycleEngine :=
  { c with
    state := .running, number := some c.nextNumber, restart := false, span := cycleLength, timer := some 0
    spacing := .counting }

namespace State

variable (s : State)

theorem enterRunning_only :
    s.enterRunning =
      { s with notices := s.enterRunning.notices, engine := { s.engine with state := .running } } := by
  unfold enterRunning
  split
  · rename_i running
    rw [← running]
  · exact NoticesOnly.broadcast (s.setEngineState .running) ..

theorem enterRunning_queue (p : Port) :
    s.enterRunning.queue p =
      (s.queue p).after
        (if s.engine.state = .running then [] else s.engineNotices p .running s.engine.reportedNumber) := by
  unfold enterRunning
  split
  · rfl
  · exact queue_changeEngine ..

theorem processBoundary_only (n : CycleNumber) : TableOnly s (s.processBoundary n) := by
  unfold processBoundary
  split
  · exact s.epochProcessing_only n
  · exact .rfl' s

/-- An entry as the boundary of cycle n leaves it: processed when the index is 0 (R15). -/
def inForce (n : CycleNumber) (e : EntryIx) : Entry :=
  if n.toNat % 8 = 0 then (s.epochProcessing n).entry e else s.entry e

/-- The notices of port p at the boundary of cycle n: those of epoch processing when the index is 0 (R15). -/
def boundaryNoticesAt (p : Port) (n : CycleNumber) : List NoticeBody :=
  if n.toNat % 8 = 0 then s.boundaryNotices p n else []

theorem processBoundary_entry (n : CycleNumber) (e : EntryIx) : (s.processBoundary n).entry e = s.inForce n e := by
  unfold processBoundary inForce superIndex
  split <;> rfl

theorem processBoundary_queue (n : CycleNumber) (p : Port) :
    (s.processBoundary n).queue p = (s.queue p).after (s.boundaryNoticesAt p n) := by
  unfold processBoundary boundaryNoticesAt superIndex
  split
  · exact s.epochProcessing_queue n p
  · rfl

variable {s} in
/-- The boundary is a matter of the entries and, for its notices, of the sessions. -/
theorem inForce_congr {t : State} (entries : t.entries = s.entries) (n : CycleNumber) (e : EntryIx) :
    t.inForce n e = s.inForce n e := by
  unfold inForce
  rw [epochProcessing_entry, epochProcessing_entry, entry, entries, entry]

variable {s} in
theorem boundaryNoticesAt_congr {t : State} (entries : t.entries = s.entries) (sessions : t.sessions = s.sessions)
    (p : Port) (n : CycleNumber) : t.boundaryNoticesAt p n = s.boundaryNoticesAt p n := by
  unfold boundaryNoticesAt
  rw [boundaryNotices_eq, boundaryNotices_eq]
  congr 1
  refine List.filterMap_congr fun e _ => boundaryNote_congr sessions ?_ p n
  rw [entry, entries, entry]

/-! ### The plan (R80) -/

theorem mem_plannedEntries {k : Nat} {e : EntryIx} :
    e ∈ s.plannedEntries k ↔ (s.entry e).state.inFiring = true ∧ (s.entry e).descriptor.fires k = true := by
  rw [plannedEntries, List.mem_insertionSort, List.mem_filter, mem_firingEntries]

theorem nodup_plannedEntries (k : Nat) : (s.plannedEntries k).Nodup :=
  (List.perm_insertionSort _ _).nodup_iff.2 ((nodup_firingEntries s).filter _)

theorem planBefore_iff {e f : EntryIx} :
    s.planBefore e f = true ↔
      (s.entry e).descriptor.start < (s.entry f).descriptor.start
        ∨ ((s.entry e).descriptor.start = (s.entry f).descriptor.start ∧ e ≤ f) := by
  simp [planBefore]

/-- Plan order is by start and then by index (R80). -/
theorem plannedEntries_ordered (k : Nat) :
    (s.plannedEntries k).Pairwise fun e f =>
      (s.entry e).descriptor.start < (s.entry f).descriptor.start
        ∨ ((s.entry e).descriptor.start = (s.entry f).descriptor.start ∧ e < f) := by
  have total : Std.Total fun e f : EntryIx => s.planBefore e f = true := by
    refine ⟨fun e f => ?_⟩
    simp only [planBefore_iff, Fin.le_def]
    omega
  have transitive : IsTrans EntryIx fun e f => s.planBefore e f = true := by
    refine ⟨fun e f g hef hfg => ?_⟩
    simp only [planBefore_iff, Fin.le_def] at *
    omega
  refine ((List.pairwise_insertionSort _ _).and (s.nodup_plannedEntries k)).imp fun {e f} ⟨hle, hne⟩ => ?_
  simp only [planBefore_iff, Fin.le_def, ne_eq, Fin.ext_iff] at hle hne
  rw [Fin.lt_def]
  omega

/-! ### The cycle planned, and its first windows -/

/-- A cycle start up to its plan (R62, steps 1 to 6). -/
def plannedCycle : State :=
  (s.numberCycle.enterRunning.processBoundary s.engine.nextNumber).buildPlan (superIndex s.engine.nextNumber)

theorem cycleStart_eq : s.cycleStart = s.plannedCycle.startWindows (s.plannedCycle.startingAt 0) := rfl

theorem plannedCycle_only :
    s.plannedCycle =
      { s with
        entries := s.plannedCycle.entries, notices := s.plannedCycle.notices, plan := s.plannedCycle.plan
        engine := s.engine.started s.hub.cycleLength } := by
  have running := s.numberCycle.enterRunning_only
  have boundary := s.numberCycle.enterRunning.processBoundary_only s.engine.nextNumber
  unfold plannedCycle
  generalize s.numberCycle.enterRunning.processBoundary s.engine.nextNumber = u at boundary
  generalize s.numberCycle.enterRunning = t at running boundary
  rw [boundary, running]
  rfl

theorem plannedCycle_engine : s.plannedCycle.engine = s.engine.started s.hub.cycleLength := by rw [plannedCycle_only]

theorem cycleStart_engine : s.cycleStart.engine = s.engine.started s.hub.cycleLength := by
  rw [cycleStart_eq, startWindows_engine, plannedCycle_engine]

theorem plannedCycle_entry (e : EntryIx) : s.plannedCycle.entry e = s.inForce s.engine.nextNumber e := by
  have running : s.numberCycle.enterRunning.entries = s.entries := by rw [enterRunning_only]; rfl
  exact (processBoundary_entry ..).trans (inForce_congr running ..)

/-- The notices of port p from a cycle start before its first windows (R62, R76, R15). -/
def plannedNotices (p : Port) : List NoticeBody :=
  (if s.engine.state = .running then [] else s.engineNotices p .running s.engine.nextNumber)
    ++ s.boundaryNoticesAt p s.engine.nextNumber

theorem plannedCycle_queue (p : Port) : s.plannedCycle.queue p = (s.queue p).after (s.plannedNotices p) := by
  have entries : s.numberCycle.enterRunning.entries = s.entries := by rw [enterRunning_only]; rfl
  have sessions : s.numberCycle.enterRunning.sessions = s.sessions := by rw [enterRunning_only]; rfl
  have boundary : s.plannedCycle.queue p = (s.numberCycle.enterRunning.queue p).after _ := processBoundary_queue ..
  rw [boundary, boundaryNoticesAt_congr entries sessions, enterRunning_queue, plannedNotices, NoticeQueue.after_append]
  rfl

/-- The entries planned in a cycle start, in plan order (R80). -/
def cycleEntries : List EntryIx :=
  (s.numberCycle.enterRunning.processBoundary s.engine.nextNumber).plannedEntries (superIndex s.engine.nextNumber)

theorem plannedCycle_plan :
    s.plannedCycle.plan = some (s.cycleEntries.map fun e => { entry := e, state := .scheduled }) := rfl

theorem mem_cycleEntries {e : EntryIx} :
    e ∈ s.cycleEntries ↔
      (s.inForce s.engine.nextNumber e).state.inFiring = true
        ∧ (s.inForce s.engine.nextNumber e).descriptor.fires (s.engine.nextNumber.toNat % 8) = true := by
  rw [← plannedCycle_entry]
  exact mem_plannedEntries ..

theorem nodup_cycleEntries : s.cycleEntries.Nodup := nodup_plannedEntries ..

theorem cycleEntries_ordered :
    s.cycleEntries.Pairwise fun e f =>
      (s.inForce s.engine.nextNumber e).descriptor.start < (s.inForce s.engine.nextNumber f).descriptor.start
        ∨ ((s.inForce s.engine.nextNumber e).descriptor.start = (s.inForce s.engine.nextNumber f).descriptor.start
            ∧ e < f) := by
  simp only [← plannedCycle_entry]
  exact plannedEntries_ordered ..

/-- The entries that start with the cycle, in plan order (R62, step 6). -/
def firstEntries : List EntryIx :=
  s.cycleEntries.filter fun e => decide ((s.inForce s.engine.nextNumber e).descriptor.start = 0)

theorem nodup_firstEntries : s.firstEntries.Nodup := s.nodup_cycleEntries.filter _

theorem startingAt_plannedCycle : s.plannedCycle.startingAt 0 = s.firstEntries := by
  have scheduled : (s.plannedCycle.planList.filter fun w => decide (w.state = .scheduled)).map (fun w => w.entry) =
      s.cycleEntries := by
    rw [planList, plannedCycle_plan]
    simp [List.filter_map, Function.comp_def]
  rw [startingAt, scheduled, firstEntries]
  simp only [plannedCycle_entry]

theorem cycleStart_starts : s.cycleStart = s.plannedCycle.startWindows s.firstEntries := by
  rw [cycleStart_eq, startingAt_plannedCycle]

/-- The plan after window starts: the windows of the plan in their order, those that started OPEN, the others as they
were. -/
theorem startWindows_plan {es : List EntryIx} {ws : List PlannedWindow} (h : s.plan = some ws) :
    ∃ vs, (s.startWindows es).plan = some vs ∧ vs.map (fun w => w.entry) = ws.map (fun w => w.entry)
      ∧ ∀ v ∈ vs, (v.entry ∈ es → v.state.isOpen = true) ∧ (v.entry ∉ es → v ∈ ws) := by
  induction es using List.reverseRecOn with
  | nil => exact ⟨ws, h, rfl, fun v hv => ⟨fun hm => absurd hm List.not_mem_nil, fun _ => hv⟩⟩
  | append_singleton es e ih =>
    obtain ⟨vs, hvs, entries, states⟩ := ih
    obtain ⟨b, g, started⟩ := (s.startWindows es).startWindow_plan e
    have plan : (s.startWindows (es ++ [e])).plan = some (setWindow e (.opened b g) vs) := by
      rw [startWindows, List.foldl_append]
      exact started.trans (by rw [setWindowState_plan, hvs]; rfl)
    refine ⟨_, plan, (setWindow_entries ..).trans entries, fun v hv => ?_⟩
    obtain ⟨u, hu, rfl⟩ := List.mem_map.1 hv
    obtain ⟨opened, kept⟩ := states u hu
    by_cases he : u.entry = e
    · simp [he, WindowState.isOpen]
    · have same : (if u.entry = e then { u with state := .opened b g } else u) = u := if_neg he
      rw [same]
      exact ⟨fun hm => opened (by simpa [he] using hm), fun hm => kept fun h => hm (by simp [h])⟩

end State

/-- Settles O31: the cycle up to its plan, and then the windows that start with it, part by part. -/
theorem cycleStartPlansTheCycle : Obligations.CycleStartPlansTheCycle := by
  intro s
  refine ⟨.cycleStart s, s.cycleStart_engine, s.plannedCycle, s.cycleEntries, s.plannedCycle_only, s.plannedCycle_entry,
    s.plannedCycle_queue, s.cycleEntries_ordered, fun _ => s.mem_cycleEntries, s.cycleStart_starts, ?_, fun e => ?_,
    fun p => ?_⟩
  · obtain ⟨ws, plan, entries, states⟩ := State.startWindows_plan s.plannedCycle (es := s.firstEntries) s.plannedCycle_plan
    refine ⟨ws, by rw [s.cycleStart_starts, plan], entries.trans (by simp [Function.comp_def]), fun w hw => ?_⟩
    obtain ⟨opened, kept⟩ := states w hw
    by_cases hf : w.entry ∈ s.firstEntries
    · have isOpen := opened hf
      have started : w.state ≠ .scheduled := fun hs => by simp [hs, WindowState.isOpen] at isOpen
      exact ⟨iff_of_false started (not_not.2 hf), iff_of_true isOpen hf⟩
    · have scheduled : w.state = .scheduled := by
        obtain ⟨e, -, rfl⟩ := List.mem_map.1 (kept hf)
        rfl
      exact ⟨iff_of_true scheduled hf, iff_of_false (by simp [scheduled, WindowState.isOpen]) hf⟩
  · rw [s.cycleStart_starts, State.startWindows_entry _ s.nodup_firstEntries, s.plannedCycle_entry]
    rfl
  · rw [s.cycleStart_starts, State.startWindows_queue _ s.nodup_firstEntries, s.plannedCycle_queue,
      ← NoticeQueue.after_append, ← State.startWindows_firesFor s.plannedCycle]
    rfl

end Sys2Proof.Machine
end

