-- ==== Sys2Proof/Proofs/EngineVotes.lean ====
section
/-! SUPPORT. The cycle engine and the run votes: what a cycle engine that follows the votes is, and that it stays one through
every event of the engine (R58 to R60, R64 to R72). -/

namespace Sys2Proof.Machine

/-! ### Votes (R58) -/

/-- A session record holds a run vote (R58). -/
def Session.voting (x : Session) : Bool :=
  match x.attachment with
  | some a => a.vote
  | none => false

namespace State

variable {s t : State} {p : Port} {x : Session}

theorem hasVote_eq : s.hasVote p = (s.session p).voting := rfl

theorem anyVote_eq_true : s.anyVote = true ↔ ∃ p, s.hasVote p = true := by
  simp [anyVote, mem_allPorts]

theorem anyVote_eq_false : s.anyVote = false ↔ ∀ p, s.hasVote p = false := by
  simp [anyVote, mem_allPorts]

theorem anyVote_congr (h : ∀ q, t.hasVote q = s.hasVote q) : t.anyVote = s.anyVote := by
  rw [anyVote, funext h, anyVote]

theorem anyVote_of_sessions (h : t.sessions = s.sessions) : t.anyVote = s.anyVote :=
  anyVote_congr fun q => by rw [hasVote_eq, session, h, hasVote_eq, session]

theorem hasVote_setSession (q : Port) : (s.setSession p x).hasVote q = if q = p then x.voting else s.hasVote q := by
  rw [hasVote_eq]
  by_cases h : q = p
  · rw [h, session_setSession, if_pos rfl]
  · rw [session_setSession_ne s x h, if_neg h, hasVote_eq]

/-- A record whose vote stays leaves the votes as they were. -/
theorem anyVote_setSession_of_same (h : x.voting = s.hasVote p) : (s.setSession p x).anyVote = s.anyVote :=
  anyVote_congr fun q => by
    rw [hasVote_setSession]
    split
    · rw [‹q = p›, h]
    · rfl

theorem anyVote_setSession_of_voting (h : x.voting = true) : (s.setSession p x).anyVote = true :=
  anyVote_eq_true.2 ⟨p, by rw [hasVote_setSession, if_pos rfl, h]⟩

end State

@[simp] theorem voting_restartLease (x : Session) : x.restartLease.voting = x.voting := by
  unfold Session.voting Session.restartLease
  cases x.attachment <;> rfl

@[simp] theorem voting_withMask (x : Session) (m : Mask) : (x.withMask m).voting = x.voting := by
  unfold Session.voting Session.withMask
  cases x.attachment <;> rfl

@[simp] theorem voting_tick (x : Session) : x.tick.voting = x.voting := by
  unfold Session.voting Session.tick
  cases x.attachment <;> rfl

theorem voting_withVote_false (x : Session) : (x.withVote false).voting = false := by
  unfold Session.voting Session.withVote
  cases x.attachment <;> rfl

theorem voting_withVote_true {x : Session} (h : x.attachment.isSome = true) : (x.withVote true).voting = true := by
  unfold Session.voting Session.withVote
  cases hx : x.attachment with
  | none => simp [hx] at h
  | some a => rfl

/-! ### An engine that follows the votes -/

/-- What `EngineFollowsVotes` says of the cycle engine, with whether any attached session votes (R58, R72, R56, R63). -/
structure CycleEngine.Follows (c : CycleEngine) (vote : Bool) : Prop where
  votes : (c.state = .stopped ∨ c.state = .halting) ↔ vote = false
  held : c.state = .held → c.inhAsserted = true
  released : c.state ≠ .stopped → c.state ≠ .held → c.inhAsserted = false
  spacing : c.spacing = .counting ↔ c.timer.isSome = true
  progress : c.state.inProgress = true → c.timer.isSome = true ∧ c.number.isSome = true
  restart : c.state = .stopped → c.restart = true
  first : c.number = none → c.restart = true

theorem engineFollowsVotes_iff {s : State} : EngineFollowsVotes s ↔ s.engine.Follows s.anyVote :=
  ⟨fun h => ⟨h.votes, h.held, h.released, h.spacing, h.progress, h.restart, h.first⟩,
    fun h => ⟨h.votes, h.held, h.released, h.spacing, h.progress, h.restart, h.first⟩⟩

namespace CycleEngine.Follows

section engine

variable {c : CycleEngine}

/-- The state moved, with the votes now as given. -/
theorem moved {v : Bool} (h : c.Follows v) {x : EngineState} {w : Bool} (votes : (x = .stopped ∨ x = .halting) ↔ w = false)
    (held : x = .held → c.inhAsserted = true) (released : x ≠ .stopped → x ≠ .held → c.inhAsserted = false)
    (progress : x.inProgress = true → c.state.inProgress = true) (restart : x = .stopped → c.restart = true) :
    CycleEngine.Follows { c with state := x } w :=
  ⟨votes, held, released, h.spacing, fun hx => h.progress (progress hx), restart, h.first⟩

/-- A cycle start, with INH released (R62). -/
theorem started (released : c.inhAsserted = false) (cycleLength : Nat) : (c.started cycleLength).Follows true where
  votes := by simp [CycleEngine.started]
  held := nofun
  released _ _ := released
  spacing := by simp [CycleEngine.started]
  progress _ := ⟨rfl, rfl⟩
  restart := nofun
  first := nofun

/-- The entry into STOPPED, when no vote is left (R73). -/
theorem stopped (spacing : c.spacing = .counting ↔ c.timer.isSome = true) :
    CycleEngine.Follows { c with state := .stopped, restart := true } false where
  votes := by simp
  held := nofun
  released hs := absurd rfl hs
  spacing := spacing
  progress := nofun
  restart _ := rfl
  first _ := rfl

/-- WAITING between two cycles, with the timer stopped and the spacing CLEAR (R64). -/
theorem waiting (h : c.Follows true) (released : c.inhAsserted = false) :
    CycleEngine.Follows { c with state := .waiting, timer := none, spacing := .clear } true where
  votes := by simp
  held := nofun
  released _ _ := released
  spacing := by simp
  progress := nofun
  restart := nofun
  first := h.first

/-- HELD at an assertion of INH (R70, R71). -/
theorem inhibited (h : c.Follows true) : CycleEngine.Follows { c with state := .held, inhAsserted := true } true where
  votes := by simp
  held _ := rfl
  released _ hs := absurd rfl hs
  spacing := h.spacing
  progress := nofun
  restart := nofun
  first := h.first

/-- WAITING after a release of INH (R72). -/
theorem resumed (h : c.Follows true) : CycleEngine.Follows { c with state := .waiting, inhAsserted := false } true where
  votes := by simp
  held := nofun
  released _ _ := rfl
  spacing := h.spacing
  progress := nofun
  restart := nofun
  first := h.first

variable {v : Bool} (h : c.Follows v)
include h

/-- An engine that is not STOPPED or HALTING has a vote. -/
theorem vote_of_state (hs : c.state ≠ .stopped) (hh : c.state ≠ .halting) : v = true := by
  cases v with
  | true => rfl
  | false => exact absurd (h.votes.2 rfl) (by simp [hs, hh])

/-- The counters are no part of it. -/
theorem counters (a b d : BitVec 16) :
    CycleEngine.Follows { c with earlyEdges := a, inhibitEpisodes := b, cuts := d } v :=
  ⟨h.votes, h.held, h.released, h.spacing, h.progress, h.restart, h.first⟩

/-- The level of INH recorded alone: asserted in STOPPED and HELD, released in every state but HELD (R71, R72). -/
theorem recordInh {b : Bool} (asserted : b = true → c.state = .stopped ∨ c.state = .held)
    (released : b = false → c.state ≠ .held) : CycleEngine.Follows { c with inhAsserted := b } v where
  votes := h.votes
  held hs := by
    cases b with
    | true => rfl
    | false => exact absurd hs (released rfl)
  released hs hh := by
    cases b with
    | true => exact absurd (asserted rfl) (by simp [hs, hh])
    | false => rfl
  spacing := h.spacing
  progress := h.progress
  restart := h.restart
  first := h.first

/-- The timer stopped and the spacing CLEAR while no cycle is in progress (R65). -/
theorem spaced (idle : c.state.inProgress = false) : CycleEngine.Follows { c with timer := none, spacing := .clear } v where
  votes := h.votes
  held := h.held
  released := h.released
  spacing := by simp
  progress hp := by simp [idle] at hp
  restart := h.restart
  first := h.first

/-- A tick leaves a timer that counts counting. -/
theorem tick : c.tick.Follows v where
  votes := h.votes
  held := h.held
  released := h.released
  spacing := by simpa [CycleEngine.tick] using h.spacing
  progress hp := by simpa [CycleEngine.tick] using h.progress hp
  restart := h.restart
  first := h.first

end engine

end CycleEngine.Follows

/-! ### The cycle end and INH, by the engine state (R64, R70 to R72) -/

namespace State

variable (s : State)

/-- The cycle in progress over: its OPEN windows ended, the plan discarded, the spacing CLEAR (R64). -/
def endedCycle : State := (s.endWindows s.openEntries).discardPlan.clearSpacing

theorem endedCycle_engine : s.endedCycle.engine = { s.engine with spacing := .clear } := by
  rw [endedCycle, clearSpacing_engine, discardPlan_engine, endWindows_engine]

/-- The cycle in progress cut at an assertion of INH, and the episode counted (R70, R71). -/
def inhibitedCycle : State := ((s.setInh true).cutCycle s.eventOffset).countEpisode

theorem inhibitedCycle_engine :
    s.inhibitedCycle.engine =
      { s.engine with
        inhAsserted := true, cuts := s.inhibitedCycle.engine.cuts
        inhibitEpisodes := saturatingInc s.engine.inhibitEpisodes } := by
  rw [inhibitedCycle, countEpisode_engine, cutCycle_engine]
  rfl

variable {s}

theorem cycleEnd_of_internal (state : s.engine.state = .running) (mode : s.hub.startMode = .internal) :
    s.cycleEnd = s.endedCycle.cycleStart := by
  simp [cycleEnd, state, mode, endedCycle]

theorem cycleEnd_of_external (state : s.engine.state = .running) (mode : s.hub.startMode = .external) :
    s.cycleEnd = s.endedCycle.stopTimer.changeEngine .waiting := by
  simp [cycleEnd, state, mode, endedCycle]

theorem cycleEnd_of_halting (state : s.engine.state = .halting) : s.cycleEnd = s.endedCycle.stopTimer.enterStopped := by
  simp [cycleEnd, state, endedCycle]

theorem inhAssert_of_running (state : s.engine.state = .running) : s.inhAssert = s.inhibitedCycle.changeEngine .held := by
  simp [inhAssert, state, inhibitedCycle]

theorem inhAssert_of_halting (state : s.engine.state = .halting) : s.inhAssert = s.inhibitedCycle.enterStopped := by
  simp [inhAssert, state, inhibitedCycle]

theorem inhAssert_of_waiting (state : s.engine.state = .waiting) :
    s.inhAssert = (s.setInh true).countEpisode.changeEngine .held := by
  simp [inhAssert, state]

theorem inhAssert_of_still (state : s.engine.state = .stopped ∨ s.engine.state = .held) : s.inhAssert = s.setInh true := by
  rcases state with state | state <;> simp [inhAssert, state]

theorem inhRelease_starts (state : s.engine.state = .held) (mode : s.hub.startMode = .internal)
    (spacing : s.engine.spacing = .clear) : s.inhRelease = (s.setInh false).cycleStart := by
  simp [inhRelease, state, mode, spacing]

theorem inhRelease_waits (state : s.engine.state = .held)
    (wait : s.hub.startMode = .external ∨ s.engine.spacing = .counting) :
    s.inhRelease = (s.setInh false).changeEngine .waiting := by
  cases mode : s.hub.startMode with
  | external => simp [inhRelease, state, mode]
  | internal =>
    have spacing : s.engine.spacing = .counting := wait.resolve_left (by simp [mode])
    simp [inhRelease, state, mode, spacing]

theorem inhRelease_of_not_held (state : s.engine.state ≠ .held) : s.inhRelease = s.setInh false := by
  simp [inhRelease, state]

end State

/-! ### The events of the engine -/

namespace CycleEngine.Follows

section events

variable {s : State}

theorem cycleStart (released : s.engine.inhAsserted = false) : s.cycleStart.engine.Follows true := by
  rw [State.cycleStart_engine]
  exact started released _

theorem enterStopped (spacing : s.engine.spacing = .counting ↔ s.engine.timer.isSome = true) :
    s.enterStopped.engine.Follows false := by
  rw [State.enterStopped_engine]
  exact stopped spacing

/-- The first vote moves an engine that has had none (R59). -/
theorem firstVote (h : s.engine.Follows false) : s.firstVote.engine.Follows true := by
  unfold State.firstVote
  split
  · split
    · rename_i asserted
      rw [State.changeEngine_engine]
      exact h.moved (by simp) (fun _ => asserted) (fun _ hs => absurd rfl hs) nofun nofun
    · rename_i released
      have released : s.engine.inhAsserted = false := by simpa using released
      have waits : (s.changeEngine .waiting).engine.Follows true := by
        rw [State.changeEngine_engine]
        exact h.moved (by simp) nofun (fun _ _ => released) nofun nofun
      split
      · exact cycleStart released
      · exact waits
      · exact waits
  · rename_i halting
    rw [State.changeEngine_engine]
    exact h.moved (by simp) nofun (fun _ _ => h.released (by simp [halting]) (by simp [halting])) (fun _ => by rw [halting]; rfl)
      nofun
  · rename_i stopped halting
    exact ((h.votes.2 rfl).elim stopped halting).elim

/-- The last vote cleared moves an engine that has had one (R60). -/
theorem lastVoteCleared (h : s.engine.Follows true) : s.lastVoteCleared.engine.Follows false := by
  unfold State.lastVoteCleared
  split
  · exact enterStopped h.spacing
  · rename_i running
    rw [State.changeEngine_engine]
    exact h.moved (by simp) nofun (fun _ _ => h.released (by simp [running]) (by simp [running])) (fun _ => by rw [running]; rfl)
      nofun
  · exact enterStopped h.spacing
  · rename_i waiting running held
    have : s.engine.state = .stopped ∨ s.engine.state = .halting := by
      cases hs : s.engine.state <;> simp_all
    exact absurd (h.votes.1 this) (by simp)

variable {v : Bool} (h : s.engine.Follows v)
include h

/-- The cycle end (R64): a RUNNING engine has a vote and goes on, a HALTING one has none and stops. -/
theorem cycleEnd (progress : s.engine.state.inProgress = true) : s.cycleEnd.engine.Follows v := by
  cases state : s.engine.state with
  | running =>
    obtain rfl := h.vote_of_state (by simp [state]) (by simp [state])
    have released := h.released (by simp [state]) (by simp [state])
    cases mode : s.hub.startMode with
    | internal =>
      rw [State.cycleEnd_of_internal state mode]
      exact cycleStart (by rw [State.endedCycle_engine]; exact released)
    | external =>
      rw [State.cycleEnd_of_external state mode, State.changeEngine_engine, State.stopTimer_engine,
        State.endedCycle_engine]
      exact h.waiting released
  | halting =>
    obtain rfl := h.votes.1 (.inr state)
    rw [State.cycleEnd_of_halting state]
    refine enterStopped ?_
    rw [State.stopTimer_engine, State.endedCycle_engine]
    simp
  | stopped | waiting | held => simp [state, EngineState.inProgress] at progress

/-- The spacing end (R65, R66). -/
theorem spacingEnd (idle : s.engine.state.inProgress = false) : s.spacingEnd.engine.Follows v := by
  unfold State.spacingEnd
  dsimp only
  split
  · rename_i waiting _
    obtain rfl := h.vote_of_state (by simp [waiting]) (by simp [waiting])
    exact cycleStart (h.released (by simp [waiting]) (by simp [waiting]))
  · exact h.spaced idle

theorem earlyEdge : s.earlyEdge.engine.Follows v := by
  rw [State.earlyEdge, (NoticesOnly.broadcast ..).engine]
  exact h.counters _ _ _

/-- A qualifying edge starts a cycle in WAITING, where there is a vote and INH is released (R67). -/
theorem qualifyingEdge : s.qualifyingEdge.engine.Follows v := by
  unfold State.qualifyingEdge
  split
  · exact h
  · rename_i waiting _
    obtain rfl := h.vote_of_state (by simp [waiting]) (by simp [waiting])
    exact cycleStart (h.released (by simp [waiting]) (by simp [waiting]))
  · exact h.earlyEdge
  · exact h.earlyEdge
  · exact h.earlyEdge
  · exact h
  · exact h

theorem handEdge (i : InputIx) : (s.handEdge i).engine.Follows v := by
  have gated : (s.gateEdge i).engine.Follows v := by
    rw [(s.gateEdge_only i).engine]
    exact h
  unfold State.handEdge
  dsimp only
  split
  · exact gated.qualifyingEdge
  · exact gated

/-- An assertion of INH (R70 to R72): what has a vote is HELD, what has none is STOPPED. -/
theorem inhAssert : s.inhAssert.engine.Follows v := by
  cases state : s.engine.state with
  | running =>
    obtain rfl := h.vote_of_state (by simp [state]) (by simp [state])
    rw [State.inhAssert_of_running state, State.changeEngine_engine, State.inhibitedCycle_engine]
    exact h.inhibited.counters _ _ _
  | waiting =>
    obtain rfl := h.vote_of_state (by simp [state]) (by simp [state])
    rw [State.inhAssert_of_waiting state, State.changeEngine_engine]
    exact h.inhibited.counters _ _ _
  | halting =>
    obtain rfl := h.votes.1 (.inr state)
    rw [State.inhAssert_of_halting state]
    refine enterStopped ?_
    rw [State.inhibitedCycle_engine]
    exact h.spacing
  | stopped =>
    rw [State.inhAssert_of_still (.inl state)]
    exact h.recordInh (fun _ => .inl state) nofun
  | held =>
    rw [State.inhAssert_of_still (.inr state)]
    exact h.recordInh (fun _ => .inr state) nofun

/-- A release of INH (R72): a HELD engine has a vote and goes on. -/
theorem inhRelease : s.inhRelease.engine.Follows v := by
  by_cases state : s.engine.state = .held
  · obtain rfl := h.vote_of_state (by simp [state]) (by simp [state])
    by_cases start : s.hub.startMode = .internal ∧ s.engine.spacing = .clear
    · rw [State.inhRelease_starts state start.1 start.2]
      exact cycleStart rfl
    · have wait : s.hub.startMode = .external ∨ s.engine.spacing = .counting := by
        cases mode : s.hub.startMode <;> cases spacing : s.engine.spacing <;> simp_all
      rw [State.inhRelease_waits state wait, State.changeEngine_engine]
      exact h.resumed
  · rw [State.inhRelease_of_not_held state]
    exact h.recordInh nofun fun _ => state

end events

end CycleEngine.Follows

end Sys2Proof.Machine
end

