-- ==== Sys2Proof/Proofs/EngineVoteSteps.lean ====
section
/-! SUPPORT. `EngineFollowsVotes` through the requests, the sessions, the inputs and the commands, and so every step (R58, R72). -/

namespace Sys2Proof.Machine

/-! ### What changes the tables only -/

/-- Only the reservation table, the line table, the peak loads, the driven levels and the notice queues may differ. -/
def ReservesOnly (s t : State) : Prop :=
  t = { s with entries := t.entries, lines := t.lines, peaks := t.peaks, driven := t.driven, notices := t.notices }

namespace ReservesOnly

theorem rfl' (s : State) : ReservesOnly s s := rfl

theorem trans {s t u : State} (h : ReservesOnly s t) (k : ReservesOnly t u) : ReservesOnly s u := by
  unfold ReservesOnly at *
  rw [k, h]

theorem of_table {s t : State} (h : TableOnly s t) : ReservesOnly s t := by
  unfold TableOnly at h
  unfold ReservesOnly
  rw [h]

theorem freeEntry (s : State) (e : EntryIx) : ReservesOnly s (s.freeEntry e) := rfl

theorem freeWithNotice (s : State) (e : EntryIx) (why : RetireReason) (boundary : Option CycleNumber) :
    ReservesOnly s (s.freeWithNotice e why boundary) :=
  (freeEntry s e).trans (of_table (.of_notices (.ownerNotice ..)))

variable (s : State) (me o : SessionId) (f : List Byte)

theorem retireWithdrawn (e : EntryIx) : ReservesOnly s (s.retireWithdrawn e o) := by
  unfold State.retireWithdrawn
  split <;> rfl

theorem withdrawEntry (e : EntryIx) : ReservesOnly s (s.withdrawEntry me e).state := by
  unfold State.withdrawEntry
  split
  · rfl
  · split
    · rfl
    · rfl
    · exact (retireWithdrawn s _ e).trans rfl
    · rfl

theorem withdrawAct : ReservesOnly s (withdrawAct s me f).state := by
  unfold Machine.withdrawAct
  split
  · rfl
  · split
    · exact withdrawEntry ..
    · rfl

theorem cleanup : ReservesOnly s (s.cleanup o) := by
  have only := s.cleanup_only o
  generalize s.cleanup o = t at only
  unfold ReservesOnly
  rw [only]

theorem claimLineAct : ReservesOnly s (claimLineAct s me f).state := by
  unfold Machine.claimLineAct
  split
  · rfl
  · split_ifs
    · rfl
    · rfl
    · rfl
    · rw [State.claimLine_only]
      rfl

theorem releaseLineAct : ReservesOnly s (releaseLineAct s me f).state := by
  unfold Machine.releaseLineAct
  split
  · rfl
  · split <;> rfl

theorem completeAdd (v : Verdict Descriptor) : ReservesOnly s (s.completeAdd me v).state := by
  unfold State.completeAdd
  split
  · rfl
  · split <;> rfl

theorem replaceFreed (d : Descriptor) : ReservesOnly s (s.replaceFreed me d).state := by
  unfold State.replaceFreed
  split <;> rfl

theorem retireReplaced (old : EntryIx) : ReservesOnly s (s.retireReplaced old o) := by
  unfold State.retireReplaced
  split
  · exact freeWithNotice ..
  · rfl

theorem replaceInForce (old : EntryIx) (d : Descriptor) : ReservesOnly s (s.replaceInForce me old o d).state := by
  unfold State.replaceInForce
  split
  · rfl
  · rename_i e _
    have written : ReservesOnly s (s.writePending e me d) := rfl
    exact (written.trans (retireReplaced _ o old)).trans rfl

theorem completeReplace (v : Verdict Replacement) : ReservesOnly s (s.completeReplace me v).state := by
  unfold State.completeReplace
  split
  · rfl
  · rename_i r
    have freed : ReservesOnly s ((s.freeEntry r.old).replaceFreed me r.descriptor).state :=
      (freeEntry s r.old).trans (replaceFreed ..)
    split
    · exact freed
    · split
      · exact freed
      · exact replaceInForce ..
    · rfl
    · rfl

end ReservesOnly

/-! ### Sessions, requests and flights -/

namespace EngineFollowsVotes

variable {s : State} (h : EngineFollowsVotes s)
include h

theorem follows : s.engine.Follows s.anyVote := engineFollowsVotes_iff.1 h

theorem of_votes_eq {t : State} (engine : t.engine = s.engine) (votes : t.anyVote = s.anyVote) : EngineFollowsVotes t := by
  rw [engineFollowsVotes_iff, engine, votes]
  exact h.follows

theorem of_sessions_eq {t : State} (engine : t.engine = s.engine) (sessions : t.sessions = s.sessions) :
    EngineFollowsVotes t := h.of_votes_eq engine (State.anyVote_of_sessions sessions)

theorem of_reservesOnly {t : State} (only : ReservesOnly s t) : EngineFollowsVotes t :=
  h.of_sessions_eq (by rw [only]) (by rw [only])

theorem of_transferOnly {t : State} (only : TransferOnly s t) : EngineFollowsVotes t :=
  h.of_sessions_eq (by rw [only]) (by rw [only])

/-- The schedule in motion leaves the sessions and so the votes. -/
theorem of_scheduleOnly {t : State} (only : ScheduleOnly s t)
    (engine : ∀ v, s.engine.Follows v → t.engine.Follows v) : EngineFollowsVotes t := by
  rw [engineFollowsVotes_iff, State.anyVote_of_sessions only.sessions]
  exact engine _ h.follows

theorem of_windowsOnly {t : State} (only : WindowsOnly s t) : EngineFollowsVotes t :=
  h.of_sessions_eq only.engine only.sessions

/-- A record whose vote stays. -/
theorem setSession (p : Port) {x : Session} (hx : x.voting = s.hasVote p) : EngineFollowsVotes (s.setSession p x) :=
  h.of_votes_eq rfl (State.anyVote_setSession_of_same hx)

theorem take (p : Port) : EngineFollowsVotes (s.take p) := by
  have restarted : EngineFollowsVotes (s.setSession p (s.session p).restartLease) :=
    h.setSession p (voting_restartLease _)
  exact restarted.of_sessions_eq rfl rfl

theorem reply (p : Port) (r : Request) (st : Status) (b : List Byte) : EngineFollowsVotes (s.reply p r st b) :=
  h.of_sessions_eq rfl rfl

/-- A vote that goes: the engine acts on it when it was the last (R58, R60). -/
theorem dropVote (p : Port) {x : Session} (hx : x.voting = false) : EngineFollowsVotes (s.dropVote p x) := by
  unfold State.dropVote
  dsimp only
  split
  · rename_i last
    obtain ⟨voted, gone⟩ : s.hasVote p = true ∧ (s.setSession p x).anyVote = false := by simpa using last
    have before : s.anyVote = true := State.anyVote_eq_true.2 ⟨p, voted⟩
    have follows : (s.setSession p x).engine.Follows true := before ▸ h.follows
    rw [engineFollowsVotes_iff, State.anyVote_of_sessions (ScheduleOnly.lastVoteCleared _).sessions, gone]
    exact follows.lastVoteCleared
  · rename_i notLast
    refine h.of_votes_eq rfl ?_
    cases voted : s.hasVote p with
    | false => exact State.anyVote_setSession_of_same (hx.trans voted.symm)
    | true =>
      have others : (s.setSession p x).anyVote = true := by simpa [voted] using notLast
      rw [others, State.anyVote_eq_true.2 ⟨p, voted⟩]

theorem endSession (p : Port) (expired : Bool) : EngineFollowsVotes (s.endSession p expired) := by
  have dropped : EngineFollowsVotes (s.dropVote p (s.session p).ended) := h.dropVote p rfl
  unfold State.endSession
  cases expired <;> exact dropped.of_sessions_eq rfl rfl

/-- A new session has no vote (R132). -/
theorem attachTaken (p : Port) (r : Request) : EngineFollowsVotes (s.attachTaken p r) := by
  unfold State.attachTaken
  split
  · exact h.reply ..
  · rename_i lease mask _
    split
    · exact h.reply ..
    · rename_i detached
      have none_before : (s.session p).attachment = none := by simpa using detached
      have attached : EngineFollowsVotes (s.setSession p
          { number := (s.session p).number + 1
            attachment := some { lease := lease, timer := 0, vote := false, mask := mask } }) :=
        h.setSession p (by rw [State.hasVote_eq, Session.voting, Session.voting, none_before])
      exact attached.of_sessions_eq rfl rfl

theorem setNoticesAct (me : SessionId) (f : List Byte) : EngineFollowsVotes (setNoticesAct s me f).state := by
  unfold Machine.setNoticesAct
  split
  · exact h
  · exact h.setSession me.port (voting_withMask ..)

/-- RUN of an attached session (R77): at the first vote the engine acts on it. -/
theorem runAct {me : SessionId} (attached : (s.session me.port).attachment.isSome = true) (f : List Byte) :
    EngineFollowsVotes (runAct s me f).state := by
  have votes : (s.setSession me.port ((s.session me.port).withVote true)).anyVote = true :=
    State.anyVote_setSession_of_voting (voting_withVote_true attached)
  unfold Machine.runAct
  dsimp only
  split
  · rename_i voted
    exact h.of_votes_eq rfl (votes.trans voted.symm)
  · rename_i unvoted
    have none_before : s.anyVote = false := by simpa using unvoted
    have follows : (s.setSession me.port ((s.session me.port).withVote true)).engine.Follows false :=
      none_before ▸ h.follows
    rw [engineFollowsVotes_iff, State.anyVote_of_sessions (ScheduleOnly.firstVote _).sessions, votes]
    exact follows.firstVote

theorem readHubAct (me : SessionId) (f : List Byte) : EngineFollowsVotes (readHubAct s me f).state := by
  unfold Machine.readHubAct
  split
  · exact h
  · dsimp only
    split
    · exact h.of_scheduleOnly rfl fun _ hv => hv.counters _ _ _
    · exact h

theorem answerRequest {p : Port} {kind : RequestKind} {act : State → SessionId → List Byte → Answer}
    (acts : ∀ t me f, EngineFollowsVotes t → EngineFollowsVotes (act t me f).state) :
    EngineFollowsVotes (s.answerRequest p kind act) :=
  State.answerRequest_keeps h (h.take p) (fun me f _ => acts _ me f (h.take p)) fun _ _ _ _ ht => ht.reply ..

/-- RUN acts for the attached session that its taking has found. -/
theorem execRun (p : Port) : Leads EngineFollowsVotes (execRun p s) := by
  rw [Machine.execRun, leads_next]
  unfold State.answerRequest
  split
  · exact h
  · split
    · exact (h.take p).reply ..
    · rename_i me found
      obtain ⟨attached, rfl⟩ := (s.take p).attachedSession_eq_some.1 found
      exact ((h.take p).runAct attached _).reply ..

theorem flyRequest {p : Port} {kind : RequestKind} {judge : State → SessionId → List Byte → FlightOp} :
    EngineFollowsVotes (s.flyRequest p kind judge) :=
  State.flyRequest_keeps h (h.take p) (fun _ _ _ => (h.take p).of_sessions_eq rfl rfl) fun _ _ _ _ ht => ht.reply ..

theorem complete {f : Flight} {act : State → Answer}
    (acts : EngineFollowsVotes s.releaseExecutor → EngineFollowsVotes (act s.releaseExecutor).state) :
    EngineFollowsVotes (s.complete f act) :=
  have released : EngineFollowsVotes s.releaseExecutor := h.of_sessions_eq rfl rfl
  State.complete_keeps released (acts released) (fun _ _ _ _ ht => ht.reply ..) fun _ ht => ht.of_sessions_eq rfl rfl

theorem runFrame {p : Port} (mine : FrameState → Bool) (part : FramePart) (bits : Nat) :
    EngineFollowsVotes (s.runFrame p mine part bits) :=
  State.runFrame_keeps (fun _ _ e ht => ht.of_transferOnly e) (fun _ ht => ht.endSession p false) h mine part bits

/-! ### Inputs and resets -/

theorem qualify (i : InputIx) : EngineFollowsVotes (s.qualify i) := by
  have filtered : EngineFollowsVotes (s.setInput i { s.input i with filtered := (s.input i).raw, timer := none }) :=
    h.of_sessions_eq rfl rfl
  exact filtered.of_scheduleOnly (s.qualify_only i) fun _ hv => hv.handEdge i

theorem rawChange (i : InputIx) : EngineFollowsVotes (s.rawChange i) := by
  have changed (x : InputChannel) : EngineFollowsVotes (s.setInput i x) := h.of_sessions_eq rfl rfl
  unfold State.rawChange
  dsimp only
  split
  · exact (changed _).qualify i
  · split
    · exact h.of_sessions_eq rfl rfl
    · exact h.of_sessions_eq rfl rfl

theorem rejudgeInput (i : InputIx) : EngineFollowsVotes (s.rejudgeInput i) := by
  unfold State.rejudgeInput
  split
  · exact h.qualify i
  · exact h

theorem rejudgeInputs (is : List InputIx) : EngineFollowsVotes (is.foldl State.rejudgeInput s) :=
  List.foldlRecOn is _ h fun _ ht i _ => ht.rejudgeInput i

theorem completeSetHub (v : Verdict HubRecord) : EngineFollowsVotes (s.completeSetHub v).state := by
  cases v with
  | refuse st b => exact h
  | pass hub =>
    have replaced : EngineFollowsVotes { s with hub := hub } := h.of_sessions_eq rfl rfl
    unfold State.completeSetHub
    dsimp only
    exact replaced.rejudgeInputs allInputs

/-- The start of a reset leaves the engine and the sessions until the release (R172; log 9). -/
theorem holdReset (cause : ResetCause) : EngineFollowsVotes (s.holdReset cause) := by
  have held : EngineFollowsVotes { s.stopConditioner with hold := some cause, driven := .fill 16 .low } :=
    h.of_sessions_eq rfl rfl
  exact held.of_transferOnly (foldl_related TransferOnly.rfl' (fun _ _ _ => .trans)
    (fun t p => (TransferOnly.setLink t p _).trans (.setQueue ..)) allPorts _)

theorem tick : EngineFollowsVotes s.tick := by
  have votes : s.tick.anyVote = s.anyVote := State.anyVote_congr fun q => by
    have session : s.tick.session q = (s.session q).tick := Table.get_map ..
    rw [State.hasVote_eq, session, voting_tick, State.hasVote_eq]
  rw [engineFollowsVotes_iff, votes]
  exact h.follows.tick

/-! ### Commands and steps -/

theorem execAddCompletion : Leads EngineFollowsVotes (execAddCompletion s) := by
  unfold Machine.execAddCompletion
  split
  · split
    · exact leads_ite (fun _ => h.complete fun ht => ht.of_reservesOnly (.completeAdd ..)) h
    · exact h
    · exact h
  · exact h

theorem execReplaceCompletion : Leads EngineFollowsVotes (execReplaceCompletion s) := by
  unfold Machine.execReplaceCompletion
  split
  · split
    · exact leads_ite (fun _ => h.complete fun ht => ht.of_reservesOnly (.completeReplace ..)) h
    · exact h
    · exact h
  · exact h

theorem execSetHubCompletion : Leads EngineFollowsVotes (execSetHubCompletion s) := by
  unfold Machine.execSetHubCompletion
  split
  · split
    · exact leads_ite (fun _ => h.complete fun ht => ht.completeSetHub _) h
    · exact h
    · exact h
  · exact h

theorem execAttach (p : Port) : Leads EngineFollowsVotes (execAttach p s) := by
  unfold Machine.execAttach
  split
  · exact h
  · exact (h.take p).attachTaken p _

theorem execBadKind (p : Port) : Leads EngineFollowsVotes (execBadKind p s) := by
  unfold Machine.execBadKind
  split
  · exact h
  · exact (h.take p).reply ..

theorem execCleanupClaim (p : Port) : Leads EngineFollowsVotes (execCleanupClaim p s) := by
  have claimed : EngineFollowsVotes (s.takeClaim p) := h.of_sessions_eq rfl rfl
  unfold Machine.execCleanupClaim
  split
  · split
    · exact claimed.of_reservesOnly (.cleanup ..)
    · exact h
  · exact h

theorem execHighTimeElapses (g : EngineIx) : Leads EngineFollowsVotes (execHighTimeElapses g s) := by
  unfold Machine.execHighTimeElapses
  split
  · exact leads_ite (fun _ => h.of_windowsOnly rfl) h
  · exact h

theorem execLowTimeElapses (g : EngineIx) : Leads EngineFollowsVotes (execLowTimeElapses g s) := by
  unfold Machine.execLowTimeElapses
  split
  · exact leads_ite (fun _ => h.of_windowsOnly rfl) h
  · exact h

theorem execRstnAsserted : Leads EngineFollowsVotes (execRstnAsserted s) := by
  unfold Machine.execRstnAsserted
  split
  · exact h.holdReset .pin
  · exact h

theorem execResetRelease (inputs : BitVec 8) (inh : Bool) (cs : BitVec 4) :
    Leads EngineFollowsVotes (execResetRelease inputs inh cs s) := by
  unfold Machine.execResetRelease
  split
  · exact h
  · exact engineFollowsVotes_afterRelease ..

theorem execCycleEnd : Leads EngineFollowsVotes (execCycleEnd s) := by
  refine leads_ite (fun due => h.of_scheduleOnly (.cycleEnd s) fun _ hv => hv.cycleEnd ?_) h
  simp only [State.cycleEndDue, Bool.and_eq_true] at due
  exact due.2.1

theorem execSpacingEnd : Leads EngineFollowsVotes (execSpacingEnd s) := by
  refine leads_ite (fun due => h.of_scheduleOnly (.spacingEnd s) fun _ hv => hv.spacingEnd ?_) h
  simp only [State.spacingEndDue, Bool.and_eq_true, Bool.not_eq_true'] at due
  exact due.2.1

theorem windowBoundary : EngineFollowsVotes s.windowBoundary := by
  refine h.of_sessions_eq ?_ (ScheduleOnly.windowBoundary s).sessions
  rw [State.windowBoundary, State.startWindows_engine, State.endWindows_engine]

/-- Every command keeps the engine following the votes. -/
theorem exec (c : Instr) : Leads EngineFollowsVotes (exec c s) := by
  cases c with
  | attach p => exact h.execAttach p
  | detach p => exact h.answerRequest fun _ me _ ht => ht.endSession me.port false
  | renew p => exact h.answerRequest fun _ _ _ ht => ht
  | setNotices p => exact h.answerRequest fun _ me f ht => ht.setNoticesAct me f
  | add p => exact h.flyRequest
  | addCompletion => exact h.execAddCompletion
  | withdraw p => exact h.answerRequest fun t me f ht => ht.of_reservesOnly (.withdrawAct t me f)
  | replace p => exact h.flyRequest
  | replaceCompletion => exact h.execReplaceCompletion
  | query p => exact h.answerRequest fun _ _ _ ht => by rwa [queryAct_state]
  | scan p => exact h.answerRequest fun _ _ _ ht => by rwa [scanAct_state]
  | claimLine p => exact h.answerRequest fun t me f ht => ht.of_reservesOnly (.claimLineAct t me f)
  | releaseLine p => exact h.answerRequest fun t me f ht => ht.of_reservesOnly (.releaseLineAct t me f)
  | lineInfo p => exact h.answerRequest fun _ _ _ ht => by rwa [lineInfoAct_state]
  | run p => exact h.execRun p
  | halt p => exact h.answerRequest fun _ me _ ht => ht.dropVote me.port (voting_withVote_false _)
  | setHub p => exact h.flyRequest
  | setHubCompletion => exact h.execSetHubCompletion
  | readHub p => exact h.answerRequest fun _ me f ht => ht.readHubAct me f
  | badKind p => exact h.execBadKind p
  | cleanupClaim p => exact h.execCleanupClaim p
  | submit p mosi => exact h.runFrame _ mosi 0
  | collect p bytes rise => exact h.runFrame _ _ 0
  | fetch p bytes rise => exact h.runFrame _ _ 0
  | status p bytes rise => exact h.runFrame _ _ 0
  | abandon p mosi => exact h.runFrame _ mosi 0
  | malformedFrame p mosi bits => exact h.runFrame _ mosi bits
  | cycleEnd => exact h.execCycleEnd
  | spacingEnd => exact h.execSpacingEnd
  | inhAsserted => exact leads_ite (fun _ => h.of_scheduleOnly (.inhAssert s) fun _ hv => hv.inhAssert) h
  | inhReleased => exact leads_ite (fun _ => h.of_scheduleOnly (.inhRelease s) fun _ hv => hv.inhRelease) h
  | rawChange i => exact leads_ite (fun _ => h.rawChange i) h
  | qualification i => exact leads_ite (fun _ => h.qualify i) h
  | windowBoundaryEvent => exact leads_ite (fun _ => h.windowBoundary) h
  | highTimeElapses g => exact h.execHighTimeElapses g
  | lowTimeElapses g => exact h.execLowTimeElapses g
  | leaseExpiry p => exact leads_ite (fun _ => h.endSession p true) h
  | powerOnReset => exact h.holdReset .power
  | rstnAsserted => exact h.execRstnAsserted
  | resetRelease inputs inh cs => exact h.execResetRelease inputs inh cs
  | csnRiseAfterReset p => exact leads_ite (fun _ => h.of_sessions_eq rfl rfl) h

end EngineFollowsVotes

/-- Settles O54: the votes change with a RUN, a HALT and the end of a session alone, where the engine acts on the first and the
last; and each of its own events takes an engine that follows the votes to one that does. -/
theorem stepKeepsEngineFollowingVotes : Obligations.StepKeepsEngineFollowingVotes := fun _ _ =>
  step_keeps (fun _ _ h => h.of_sessions_eq rfl rfl) (fun _ _ h => h.of_sessions_eq rfl rfl) (fun _ _ _ h => h.tick)
    fun c _ h => h.exec c

end Sys2Proof.Machine
end

