-- ==== Sys2Proof/Proofs/IdleSteps.lean ====
section
/-! SUPPORT. A step with no command waiting, by the events that are due, and what a tick makes of each timer (logs 1 and 2; R65,
R104, R119, R128). -/

namespace Sys2Proof.Machine

/-! ### A step with no command waiting -/

/-- The command chosen is one of those chosen from. -/
theorem chooseFrom_mem (c : Instr) (cs : List Instr) (n : Nat) : chooseFrom c cs n ∈ c :: cs := by
  have inside : n % (cs.length + 1) < (c :: cs).length := Nat.mod_lt n (Nat.succ_pos _)
  rw [chooseFrom, List.getD_eq_getElem _ _ inside]
  exact List.getElem_mem inside

section idle

variable {s : State} (empty : s.pending = [])
include empty

theorem step_of_empty : step s = s.idleStep := by
  simp [step, empty]

theorem step_in_reset (held : s.hold.isSome = true) : step s = .next s := by
  simp [step_of_empty empty, State.idleStep, held]

variable (hold : s.hold = none)
include hold

theorem step_of_nothing_due (due : s.dueEvents = []) : step s = .next s.tick := by
  simp [step_of_empty empty, State.idleStep, hold, due]

theorem step_of_one_due {c : Instr} (due : s.dueEvents = [c]) : step s = exec c s := by
  simp [step_of_empty empty, State.idleStep, hold, due]

theorem step_of_several_due (due : 2 ≤ s.dueEvents.length) :
    ∃ c ∈ s.dueEvents, step s = exec c { s with freeCount := s.freeCount + 1 } := by
  match h : s.dueEvents with
  | [] => simp [h] at due
  | [_] => simp [h] at due
  | c :: d :: cs =>
    refine ⟨chooseFrom c (d :: cs) (Config.freeOrder s.freeCount), chooseFrom_mem .., ?_⟩
    simp [step_of_empty empty, State.idleStep, hold, h]

end idle

/-! ### A tick, timer by timer -/

namespace State

variable (s : State)

theorem tick_burst (g : EngineIx) : s.tick.burst g = (s.burst g).tick := Table.get_map ..

theorem tick_input (i : InputIx) : s.tick.input i = (s.input i).tick := Table.get_map ..

theorem tick_session (p : Port) : s.tick.session p = (s.session p).tick := Table.get_map ..

end State

theorem BurstEngine.tick_high {j : BurstJob} {t : Nat} (h : j.phase = .high t) :
    (BurstEngine.busy j).tick = .busy { j with phase := .high (t + 1) } := by
  simp [BurstEngine.tick, h]

theorem BurstEngine.tick_low {j : BurstJob} {t : Nat} (h : j.phase = .low t) :
    (BurstEngine.busy j).tick = .busy { j with phase := .low (t + 1) } := by
  simp [BurstEngine.tick, h]

/-- In GATE_WAIT and SPENT no phase timer counts (R104). -/
theorem BurstEngine.tick_still {j : BurstJob} (h : j.phase = .gateWait ∨ j.phase = .spent) :
    (BurstEngine.busy j).tick = .busy j := by
  rcases h with h | h <;> simp [BurstEngine.tick, h]

/-- Settles O3, by the number of events due, and then by each timer's own tick. -/
theorem emptyQueueTakesADueEventOrATick : Obligations.EmptyQueueTakesADueEventOrATick := by
  refine ⟨fun s empty => ⟨step_in_reset empty, step_of_nothing_due empty, fun _ hold => step_of_one_due empty hold,
      step_of_several_due empty⟩,
    fun s => ⟨rfl, rfl, fun g hg => ?_, fun g j t hg hj => ?_, fun g j t hg hj => ?_, fun g j hg hj => ?_, s.tick_input,
      s.tick_session, rfl⟩⟩
  · rw [s.tick_burst, hg]
    rfl
  · rw [s.tick_burst, hg, BurstEngine.tick_high hj]
  · rw [s.tick_burst, hg, BurstEngine.tick_low hj]
  · rw [s.tick_burst, hg, BurstEngine.tick_still hj]

end Sys2Proof.Machine
end

