-- ==== Sys2Proof/Proofs/WindowRuns.lean ====
section
/-! SUPPORT. Several windows that end or are cut, in order: the windows, the lines, the burst engines and the notices they leave
(R88, R91, R92, R112, R114). -/

namespace Sys2Proof.Machine

/-! ### Records rewritten at the places of a run -/

/-- A table rewritten at the place of each step of a run, by a value for each place, where a step keeps the places and the
values. -/
theorem Table.get_foldl_places {σ α β : Type} {n : Nat} {g : σ → β → σ} (table : σ → Table α n) (place : σ → β → Fin n)
    (value : σ → Fin n → α) (hset : ∀ s b, table (g s b) = (table s).set (place s b) (value s (place s b)))
    (hplace : ∀ s b, place (g s b) = place s) (hvalue : ∀ s b, value (g s b) = value s) (bs : List β) (s : σ)
    (i : Fin n) :
    (table (bs.foldl g s)).get i = if i ∈ bs.map (place s) then value s i else (table s).get i := by
  induction bs generalizing s with
  | nil => simp
  | cons b bs ih =>
    rw [List.foldl_cons, ih, hset, hplace, hvalue, get_set]
    by_cases hi : i = place s b
    · simp [hi]
    · simp [hi]

/-! ### Runs of steps that each shut a window -/

namespace State

/-- Each step shuts the window of its entry in state x, as far as the plan and the burst engines tell. -/
structure Shuts (x : WindowState) (f : State → EntryIx → State) : Prop where
  plan : ∀ s e, (f s e).plan = (s.shutWindow x e).plan
  bursts : ∀ s e, (f s e).bursts = (s.shutWindow x e).bursts

theorem shuts_endWindow : Shuts .closed endWindow where
  plan s e := by rw [s.endWindow_notices e]
  bursts s e := by rw [s.endWindow_notices e]

theorem shuts_cutWindow (c : Nat) : Shuts .cut (cutWindow c) where
  plan s e := by
    obtain ⟨t, -, plan, -, eq⟩ := s.cutWindow_only e c
    rw [eq, countCut_plan, plan]
  bursts s e := by
    obtain ⟨t, -, -, bursts, eq⟩ := s.cutWindow_only e c
    rw [eq, countCut_bursts, bursts]

namespace Shuts

variable {x : WindowState} {f : State → EntryIx → State} (h : Shuts x f)
include h

theorem windowState (s : State) (e d : EntryIx) :
    (f s e).windowState d = (s.windowState d).map fun y => if d = e then x else y := by
  rw [windowState_congr (h.plan s e), shutWindow_windowState]

/-- The windows after a run: those of its entries are shut, the others as they were. -/
theorem foldl_windowState (es : List EntryIx) (s : State) (d : EntryIx) :
    (es.foldl f s).windowState d = (s.windowState d).map fun y => if d ∈ es then x else y := by
  induction es generalizing s with
  | nil => simp
  | cons e es ih =>
    rw [List.foldl_cons, ih, h.windowState, Option.map_map]
    congr 1
    funext y
    by_cases hd : d = e <;> by_cases hs : d ∈ es <;> simp [hd, hs]

variable (hx : x.engine = none) {s : State} (named : s.JobsNameWindows)
include hx named

theorem jobsNameWindows (e : EntryIx) : (f s e).JobsNameWindows :=
  (named.shutWindow hx).of_eq (h.plan s e) (h.bursts s e)

theorem jobOf {e d : EntryIx} (hd : d ≠ e) : (f s e).jobOf d = s.jobOf d := by
  rw [jobOf_congr (h.plan s e) (h.bursts s e), named.jobOf_shutWindow hx hd]

omit hx named in
theorem burst (s : State) (e : EntryIx) (g : EngineIx) :
    (f s e).burst g = if (s.jobOf e).map Prod.fst = some g then .idle else s.burst g := by
  rw [burst_congr (h.bursts s e), shutWindow_burst]

/-- The burst engines after a run: those that served its windows are IDLE, the others as they were. -/
theorem foldl_burst {es : List EntryIx} (nd : es.Nodup) (g : EngineIx) :
    (es.foldl f s).burst g = if ∃ e ∈ es, (s.jobOf e).map Prod.fst = some g then .idle else s.burst g := by
  induction es generalizing s with
  | nil => simp
  | cons e es ih =>
    obtain ⟨he, hnd⟩ := List.nodup_cons.1 nd
    have others : (∃ d ∈ es, ((f s e).jobOf d).map Prod.fst = some g) ↔ ∃ d ∈ es, (s.jobOf d).map Prod.fst = some g := by
      refine exists_congr fun d => and_congr_right fun hd => ?_
      rw [h.jobOf hx named (ne_of_mem_of_not_mem hd he)]
    rw [List.foldl_cons, ih (h.jobsNameWindows hx named e) hnd, h.burst]
    simp only [others, List.exists_mem_cons_iff]
    by_cases served : (s.jobOf e).map Prod.fst = some g
    · rw [if_pos served, ite_self, if_pos (.inl served)]
    · simp only [served, if_false, false_or]

end Shuts

theorem map_fst_jobOf {s : State} {e : EntryIx} {g : EngineIx} :
    (s.jobOf e).map Prod.fst = some g ↔ ∃ j, s.jobOf e = some (g, j) := by
  simp [Option.map_eq_some_iff]

end State

/-! ### The OPEN windows of a state whose lines are served (R79, R94, R104) -/

theorem BurstEngine.job_eq_none {b : BurstEngine} : b.job = none ↔ b = .idle := by
  cases b <;> simp [BurstEngine.job]

theorem State.mem_openEntries {s : State} {e : EntryIx} :
    e ∈ s.openEntries ↔ ∃ w ∈ s.planList, w.state.isOpen = true ∧ w.entry = e := by
  simp [State.openEntries, and_assoc]

theorem WindowState.isOpen_of_engine {x : WindowState} {g : EngineIx} (h : x.engine = some g) : x.isOpen = true := by
  cases x <;> simp_all [WindowState.engine, WindowState.isOpen]

namespace LinesServed

variable {s : State} (h : LinesServed s)
include h

theorem jobsNameWindows : s.JobsNameWindows := by
  intro e g j hj
  obtain ⟨hw, hb⟩ := s.jobOf_eq_some.1 hj
  obtain ⟨x, hx, hg⟩ := Option.bind_eq_some_iff.1 hw
  obtain ⟨w, hm, rfl, rfl⟩ := State.mem_of_windowState hx
  obtain ⟨i, hi, named⟩ := h.served w hm g hg
  obtain rfl : i = j := Option.some.inj (hi.symm.trans hb)
  exact named

theorem nodup_openEntries : s.openEntries.Nodup := (List.filter_sublist.map _).nodup h.distinct

/-- The window that a busy engine serves is OPEN, and the engine's job is its job. -/
theorem jobOf_of_busy {g : EngineIx} {j : BurstJob} (hj : (s.burst g).job = some j) :
    j.window ∈ s.openEntries ∧ s.jobOf j.window = some (g, j) := by
  obtain ⟨⟨w, hw, entry, engine⟩, -⟩ := h.engine g j hj
  refine ⟨State.mem_openEntries.2 ⟨w, hw, WindowState.isOpen_of_engine engine, entry⟩, s.jobOf_eq_some.2 ⟨?_, hj⟩⟩
  rw [← entry, State.windowState_of_mem h.distinct hw]
  exact engine

/-- When every OPEN window has been shut, every burst engine is IDLE (R114). -/
theorem bursts_idle {x : WindowState} {f : State → EntryIx → State} (shuts : State.Shuts x f) (hx : x.engine = none)
    (g : EngineIx) : (s.openEntries.foldl f s).burst g = .idle := by
  rw [shuts.foldl_burst hx h.jobsNameWindows h.nodup_openEntries]
  split
  · rfl
  · rename_i unserved
    cases hj : (s.burst g).job with
    | none => exact BurstEngine.job_eq_none.1 hj
    | some j =>
      obtain ⟨opened, job⟩ := h.jobOf_of_busy hj
      exact absurd ⟨_, opened, State.map_fst_jobOf.2 ⟨j, job⟩⟩ unserved

end LinesServed

/-! ### Windows that end (R88) -/

namespace State

variable (s : State)

theorem endWindow_holding (e : EntryIx) :
    (s.endWindow e).holding = s.holding.set (s.entry e).descriptor.line none := by
  rw [s.endWindow_notices e]
  exact s.shutWindow_holding .closed e

theorem endWindow_driven (e : EntryIx) :
    (s.endWindow e).driven =
      s.driven.set (s.entry e).descriptor.line (s.idleLevel (s.entry e).descriptor.line) := by
  rw [s.endWindow_notices e]
  exact s.shutWindow_driven .closed e

/-- The line of each entry's descriptor. -/
def lineOf (e : EntryIx) : LineIx := (s.entry e).descriptor.line

theorem endWindow_lineOf (e : EntryIx) : (s.endWindow e).lineOf = s.lineOf :=
  funext fun d => by rw [lineOf, (s.endWindow_only e).entry, lineOf]

theorem endWindow_idleLevel (e : EntryIx) : (s.endWindow e).idleLevel = s.idleLevel :=
  funext fun l => (s.endWindow_only e).idleLevel l

/-- The lines after window ends: those of the windows that ended are free, the others as they were. -/
theorem endWindows_holding (es : List EntryIx) (l : LineIx) :
    (s.endWindows es).holding.get l = if l ∈ es.map s.lineOf then none else s.holding.get l :=
  Table.get_foldl_places State.holding lineOf (fun _ _ => none) endWindow_holding endWindow_lineOf (fun _ _ => rfl) es s l

/-- The lines after window ends: those of the windows that ended are idle, the others as they were. -/
theorem endWindows_driven (es : List EntryIx) (l : LineIx) :
    (s.endWindows es).driven.get l = if l ∈ es.map s.lineOf then s.idleLevel l else s.driven.get l :=
  Table.get_foldl_places State.driven lineOf idleLevel endWindow_driven endWindow_lineOf endWindow_idleLevel es s l

variable {s}

theorem endWindows_queue (named : s.JobsNameWindows) {es : List EntryIx} (nd : es.Nodup) (p : Port) :
    (s.endWindows es).queue p = (s.queue p).after (s.talliesFor p es) := by
  rw [talliesFor_eq]
  refine queue_foldl_under (I := JobsNameWindows) (fun s e => s.tallyNote p e)
    (fun s e h => shuts_endWindow.jobsNameWindows rfl h e) (fun s e => s.endWindow_queue e p) (fun s e d h hd => ?_) nd named
  exact ((s.endWindow_only e).sameWindowFacts d).tallyNote (shuts_endWindow.jobOf rfl h hd) p

/-- What the ends of windows of the plan leave (R88). -/
theorem windowsEnded (named : s.JobsNameWindows) {es : List EntryIx} (nd : es.Nodup)
    (planned : ∀ e ∈ es, (s.windowState e).isSome = true) : WindowsEnded s (s.endWindows es) es where
  frame := s.endWindows_only es
  closed e he := by
    obtain ⟨y, hy⟩ := Option.isSome_iff_exists.1 (planned e he)
    rw [endWindows, shuts_endWindow.foldl_windowState, hy, Option.map_some, if_pos he]
  windows e he := by
    rw [endWindows, shuts_endWindow.foldl_windowState]
    simp [he]
  lines e he := by
    have mine : (s.entry e).descriptor.line ∈ es.map s.lineOf := List.mem_map_of_mem he
    rw [endWindows_holding, endWindows_driven, if_pos mine, if_pos mine]
    exact ⟨rfl, rfl⟩
  otherLines l hl := by
    have other : l ∉ es.map s.lineOf := fun h => by
      obtain ⟨e, he, line⟩ := List.mem_map.1 h
      exact hl e he line
    rw [endWindows_holding, endWindows_driven, if_neg other, if_neg other]
    exact ⟨rfl, rfl⟩
  engines e he g j hj := by
    rw [endWindows, shuts_endWindow.foldl_burst rfl named nd, if_pos ⟨e, he, map_fst_jobOf.2 ⟨j, hj⟩⟩]
  otherEngines g hg := by
    rw [endWindows, shuts_endWindow.foldl_burst rfl named nd, if_neg]
    rintro ⟨e, he, hj⟩
    obtain ⟨j, hj⟩ := map_fst_jobOf.1 hj
    exact hg e he j hj
  notices := endWindows_queue named nd

end State

/-- The OPEN windows of a served state, all ended. -/
theorem LinesServed.windowsEnded {s : State} (h : LinesServed s) :
    WindowsEnded s (s.endWindows s.openEntries) s.openEntries := by
  refine State.windowsEnded h.jobsNameWindows h.nodup_openEntries fun e he => ?_
  obtain ⟨w, hw, -, rfl⟩ := State.mem_openEntries.1 he
  rw [State.windowState_of_mem h.distinct hw]
  rfl

/-! ### Windows that are cut (R91, R92) -/

theorem toNat_saturatingInc (c : BitVec 16) : (saturatingInc c).toNat = min 65535 (c.toNat + 1) := by
  have bound := c.isLt
  unfold saturatingInc
  split
  · rename_i full
    rw [full]
    rfl
  · rename_i room
    have below : c.toNat ≠ 65535 := fun e => room (BitVec.eq_of_toNat_eq e)
    have one : (1 : BitVec 16).toNat = 1 := rfl
    rw [BitVec.toNat_add, one]
    omega

namespace State

/-- Each window cut is counted, up to the largest count (R91). -/
theorem toNat_cuts_cutWindows (s : State) (c : Nat) (es : List EntryIx) :
    (es.foldl (cutWindow c) s).engine.cuts.toNat = min 65535 (s.engine.cuts.toNat + es.length) := by
  induction es generalizing s with
  | nil =>
    have bound := s.engine.cuts.isLt
    rw [List.foldl_nil, List.length_nil]
    omega
  | cons e es ih =>
    rw [List.foldl_cons, ih, cutWindow_engine, toNat_saturatingInc, List.length_cons]
    omega

theorem cutWindows_queue {s : State} (named : s.JobsNameWindows) {es : List EntryIx} (nd : es.Nodup) (c : Nat) (p : Port) :
    (es.foldl (cutWindow c) s).queue p = (s.queue p).after (s.cutsFor p c es) := by
  rw [cutsFor_eq]
  refine queue_foldl_under (I := JobsNameWindows) (fun s e => s.cutNote p c e)
    (fun s e h => (shuts_cutWindow c).jobsNameWindows rfl h e) (fun s e => s.cutWindow_queue e c p) (fun s e d h hd => ?_)
    nd named
  exact (s.cutWindow_sameWindowFacts e c d).cutNote ((shuts_cutWindow c).jobOf rfl h hd) p c

end State

end Sys2Proof.Machine
end

