-- ==== Sys2Proof/Proofs/CycleEvents.lean ====
section
/-! SUPPORT. The cycle end and the spacing end (R64 to R66), and INH asserted and released (R70 to R72, R91, R92). -/

namespace Sys2Proof.Machine

/-! ### The cycle end and the spacing end (R64 to R66) -/

section timer

variable {s : State} {n : Nat} (hold : s.hold = none) (timer : s.engine.timer = some n) (done : s.engine.span ≤ n)
include hold timer done

theorem exec_cycleEnd (progress : s.engine.state.inProgress = true) : exec .cycleEnd s = .next s.cycleEnd := by
  have due : (s.hold.isNone && s.cycleEndDue) = true := by
    simp [State.cycleEndDue, CycleEngine.timerDone, hold, timer, done, progress]
  exact if_pos due

theorem exec_spacingEnd (idle : s.engine.state.inProgress = false) : exec .spacingEnd s = .next s.spacingEnd := by
  have due : (s.hold.isNone && s.spacingEndDue) = true := by
    simp [State.spacingEndDue, CycleEngine.timerDone, hold, timer, done, idle]
  exact if_pos due

end timer

namespace State

variable {s : State}

/-- A cycle that is over, in the words of the statement. -/
theorem endedCycle_eq :
    s.endedCycle =
      { s.endWindows s.openEntries with plan := none, engine := { s.engine with spacing := .clear } } := by
  rw [← s.endWindows_engine s.openEntries]
  rfl

theorem endedCycle_stopTimer_eq :
    s.endedCycle.stopTimer =
      { s.endWindows s.openEntries with
        plan := none, engine := { s.engine with timer := none, spacing := .clear } } := by
  rw [endedCycle_eq]
  rfl

theorem spacingEnd_of_waiting (state : s.engine.state = .waiting) (mode : s.hub.startMode = .internal) :
    s.spacingEnd = s.clearSpacing.stopTimer.cycleStart := by
  simp [spacingEnd, state, mode]

theorem spacingEnd_of_other (other : s.engine.state ≠ .waiting ∨ s.hub.startMode = .external) :
    s.spacingEnd = s.clearSpacing.stopTimer := by
  unfold spacingEnd
  split
  · rename_i state mode
    simp [state, mode] at other
  · rfl

theorem engineNotices_congr {t : State} (sessions : t.sessions = s.sessions) (p : Port) (x : EngineState)
    (n : CycleNumber) : t.engineNotices p x n = s.engineNotices p x n := by
  unfold engineNotices maskHolds session
  rw [sessions]

/-- A change of the engine state touches, beside that state, the notices alone. -/
theorem changeEngine_only (x : EngineState) :
    s.changeEngine x = { s with notices := (s.changeEngine x).notices, engine := { s.engine with state := x } } :=
  NoticesOnly.broadcast (s.setEngineState x) ..

/-- The cycle end of a RUNNING engine in INTERNAL mode starts the next cycle (R64). -/
theorem cycleEnd_internal_engine (state : s.engine.state = .running) (mode : s.hub.startMode = .internal) :
    s.cycleEnd.engine =
      { s.engine with
        number := some s.engine.nextNumber, restart := false, span := s.hub.cycleLength, timer := some 0
        spacing := .counting } := by
  have hub : s.endedCycle.hub = s.hub := (ScheduleOnly.endWindows s s.openEntries).hub
  rw [cycleEnd_of_internal state mode, cycleStart_engine, endedCycle_engine, hub, CycleEngine.started, ← state]
  rfl

/-- The cycle end of a RUNNING engine in EXTERNAL mode (R64). -/
theorem cycleEnd_external_eq (state : s.engine.state = .running) (mode : s.hub.startMode = .external) :
    s.cycleEnd = { s.endWindows s.openEntries with
      plan := none, notices := s.cycleEnd.notices
      engine := { s.engine with state := .waiting, timer := none, spacing := .clear } } := by
  rw [cycleEnd_of_external state mode, changeEngine_only, endedCycle_stopTimer_eq]

theorem cycleEnd_external_queue (state : s.engine.state = .running) (mode : s.hub.startMode = .external) (p : Port) :
    s.cycleEnd.queue p =
      ((s.endWindows s.openEntries).queue p).after (s.engineNotices p .waiting s.engine.reportedNumber) := by
  rw [cycleEnd_of_external state mode, queue_changeEngine, endedCycle_stopTimer_eq,
    ← engineNotices_congr (s.endWindows_only s.openEntries).sessions]
  rfl

/-- The cycle end of a HALTING engine leaves it STOPPED, with no plan and nothing RETIRING (R64, R73). -/
theorem cycleEnd_halting_leaves (state : s.engine.state = .halting) :
    s.cycleEnd.plan = none ∧ (∀ e, (s.cycleEnd.entry e).state.isRetiring = false)
      ∧ s.cycleEnd.engine = { s.engine with state := .stopped, restart := true, timer := none, spacing := .clear } := by
  rw [cycleEnd_of_halting state]
  refine ⟨?_, fun e => ?_, ?_⟩
  · rw [enterStopped_only, endedCycle_stopTimer_eq]
  · rw [enterStopped_entry, Entry.atStop_isRetiring]
  · rw [enterStopped_engine, endedCycle_stopTimer_eq]

end State

/-- Settles O33, by the state and the start mode; what the ends leave is that of a run of window ends. -/
theorem cycleAndSpacingEnd : Obligations.CycleAndSpacingEnd := by
  refine ⟨fun s n hold progress timer done => ?_, fun s n hold idle timer done => ?_⟩
  · have ends := exec_cycleEnd hold timer done progress
    refine ⟨fun state mode => ?_, fun state mode => ?_, fun state => ?_,
      fun served => ⟨served.windowsEnded, served.bursts_idle State.shuts_endWindow rfl⟩,
      s.cycleEnd, ends, .cycleEnd s, State.cycleEnd_internal_engine, State.cycleEnd_halting_leaves⟩
    · rw [ends, State.cycleEnd_of_internal state mode, State.endedCycle_eq]
      rfl
    · exact ⟨s.cycleEnd, ends, State.cycleEnd_external_eq state mode, State.cycleEnd_external_queue state mode⟩
    · rw [ends, State.cycleEnd_of_halting state, State.endedCycle_stopTimer_eq]
      rfl
  · have ends := exec_spacingEnd hold timer done idle
    refine ⟨fun state mode => ?_, fun other => ?_⟩
    · rw [ends, State.spacingEnd_of_waiting state mode]
      rfl
    · rw [ends, State.spacingEnd_of_other other]
      rfl

/-! ### INH (R70 to R72) -/

theorem exec_inhAsserted {s : State} (hold : s.hold = none) (released : s.engine.inhAsserted = false) :
    exec .inhAsserted s = .next s.inhAssert := by
  have due : (s.hold.isNone && !s.engine.inhAsserted) = true := by simp [hold, released]
  exact if_pos due

theorem exec_inhReleased {s : State} (hold : s.hold = none) (asserted : s.engine.inhAsserted = true) :
    exec .inhReleased s = .next s.inhRelease := by
  have due : (s.hold.isNone && s.engine.inhAsserted) = true := by simp [hold, asserted]
  exact if_pos due

/-- A change of the engine state, in a state u that differs from s in nothing it reads and nothing that stays with it. -/
theorem engineMoved_changeEngine {s u : State} (x : EngineState) (notices : u.notices = s.notices)
    (masks : ∀ p, u.maskHolds p .engine = s.maskHolds p .engine) (number : u.engine.number = s.engine.number)
    (entries : u.entries = s.entries)
    (windows : u.plan = s.plan ∧ u.holding = s.holding ∧ u.driven = s.driven ∧ u.bursts = s.bursts) :
    EngineMoved s (u.changeEngine x) x where
  state := by rw [State.changeEngine_engine]
  notices p := by
    have queue : u.queue p = s.queue p := by rw [State.queue, notices, State.queue]
    rw [State.queue_changeEngine, queue, State.engineNotices, masks, CycleEngine.reportedNumber, number]
    rfl
  entries := by rw [State.changeEngine_entries, entries]
  windows := by
    rw [State.changeEngine_only]
    exact windows

namespace State

variable (s : State)

theorem inhibitedCycle_entries : s.inhibitedCycle.entries = s.entries := by
  rw [inhibitedCycle, countEpisode_entries, cutCycle_entries, setInh_entries]

theorem inhibitedCycle_only : ScheduleOnly s s.inhibitedCycle := by
  have asserted : ScheduleOnly s (s.setInh true) := rfl
  exact (asserted.trans (.cutCycle ..)).trans rfl

theorem inhibitedCycle_plan : s.inhibitedCycle.plan = none := rfl

theorem inhibitedCycle_holding (l : LineIx) : s.inhibitedCycle.holding.get l = none := Table.get_fill ..

theorem inhibitedCycle_driven (l : LineIx) : s.inhibitedCycle.driven.get l = s.idleLevel l := by
  have lines : s.inhibitedCycle.lines = s.lines := s.inhibitedCycle_only.lines
  have idle : s.inhibitedCycle.driven.get l = s.inhibitedCycle.idleLevel l := Table.get_build ..
  rw [idle, idleLevel, line, lines, idleLevel, line]

theorem inhibitedCycle_cuts :
    s.inhibitedCycle.engine.cuts.toNat = min 65535 (s.engine.cuts.toNat + s.openEntries.length) :=
  toNat_cuts_cutWindows ..

theorem stopNotices_congr {s t : State} (entries : t.entries = s.entries) (sessions : t.sessions = s.sessions)
    (p : Port) : t.stopNotices p = s.stopNotices p := by
  rw [stopNotices_eq, stopNotices_eq]
  refine List.filterMap_congr fun e _ => stopNote_congr sessions ?_ p
  rw [entry, entries, entry]

theorem inhibitedCycle_reportedNumber : s.inhibitedCycle.engine.reportedNumber = s.engine.reportedNumber := by
  rw [inhibitedCycle_engine]
  rfl

theorem inhibitedCycle_engineNotices (p : Port) (x : EngineState) :
    s.inhibitedCycle.engineNotices p x s.inhibitedCycle.engine.reportedNumber =
      s.engineNotices p x s.engine.reportedNumber := by
  rw [engineNotices_congr s.inhibitedCycle_only.sessions, inhibitedCycle_reportedNumber]

theorem enterStopped_entries_congr {s t : State} (entries : t.entries = s.entries) :
    t.enterStopped.entries = s.enterStopped.entries := by
  refine Table.eq_of_get_eq fun e => ?_
  have mine := t.enterStopped_entry e
  have yours := s.enterStopped_entry e
  unfold entry at mine yours
  rw [mine, yours, entries]

end State

namespace LinesServed

variable {s : State} (h : LinesServed s)
include h

/-- The CUT notices of the cycle in progress, in plan order (R92). -/
theorem inhibitedCycle_queue (p : Port) :
    s.inhibitedCycle.queue p = (s.queue p).after (s.cutsFor p s.eventOffset s.openEntries) := by
  have named : (s.setInh true).JobsNameWindows := h.jobsNameWindows.of_eq rfl rfl
  exact State.cutWindows_queue named h.nodup_openEntries s.eventOffset p

/-- A cut leaves every burst engine IDLE (R91, R114). -/
theorem inhibitedCycle_burst (g : EngineIx) : s.inhibitedCycle.burst g = .idle := by
  have asserted : LinesServed (s.setInh true) :=
    ⟨h.plan, h.distinct, h.inForce, h.holder, h.driven, h.engine, h.served, h.flight⟩
  exact asserted.bursts_idle (State.shuts_cutWindow s.eventOffset) rfl g

theorem inhAssert_burst (progress : s.engine.state = .running ∨ s.engine.state = .halting) (g : EngineIx) :
    s.inhAssert.burst g = .idle := by
  rw [← h.inhibitedCycle_burst g]
  refine State.burst_congr ?_ g
  rcases progress with state | state
  · rw [State.inhAssert_of_running state, State.changeEngine_only]
  · rw [State.inhAssert_of_halting state, State.enterStopped_only]

theorem inhAssert_queue_of_running (state : s.engine.state = .running) (p : Port) :
    s.inhAssert.queue p = (s.queue p).after
      (s.cutsFor p s.eventOffset s.openEntries ++ s.engineNotices p .held s.engine.reportedNumber) := by
  rw [State.inhAssert_of_running state, State.queue_changeEngine, h.inhibitedCycle_queue,
    State.inhibitedCycle_engineNotices, NoticeQueue.after_append]

theorem inhAssert_queue_of_halting (state : s.engine.state = .halting) (p : Port) :
    s.inhAssert.queue p = (s.queue p).after
      (s.cutsFor p s.eventOffset s.openEntries ++ s.engineNotices p .stopped s.engine.reportedNumber
        ++ s.stopNotices p) := by
  rw [State.inhAssert_of_halting state, State.enterStopped_queue, h.inhibitedCycle_queue,
    State.inhibitedCycle_engineNotices, State.stopNotices_congr s.inhibitedCycle_entries s.inhibitedCycle_only.sessions,
    List.append_assoc, NoticeQueue.after_append _ (s.cutsFor ..)]

end LinesServed

/-- What a cut at an assertion of INH leaves of the plan, the lines, the engine and the entries (R70, R71, R91). -/
theorem inhAssert_leaves {s : State} (progress : s.engine.state = .running ∨ s.engine.state = .halting) :
    s.inhAssert.plan = none
      ∧ (∀ l, s.inhAssert.holding.get l = none ∧ s.inhAssert.driven.get l = s.idleLevel l)
      ∧ s.inhAssert.engine =
        { s.engine with
          state := if s.engine.state = .running then .held else .stopped
          restart := if s.engine.state = .running then s.engine.restart else true
          inhAsserted := true
          inhibitEpisodes := saturatingInc s.engine.inhibitEpisodes
          cuts := s.inhAssert.engine.cuts }
      ∧ s.inhAssert.engine.cuts.toNat = min 65535 (s.engine.cuts.toNat + s.openEntries.length)
      ∧ s.inhAssert.entries = if s.engine.state = .running then s.entries else s.enterStopped.entries := by
  have lines (l : LineIx) := And.intro (s.inhibitedCycle_holding l) (s.inhibitedCycle_driven l)
  rcases progress with state | state
  · have moved := State.changeEngine_only (s := s.inhibitedCycle) .held
    rw [State.inhAssert_of_running state, State.changeEngine_engine, State.changeEngine_entries]
    refine ⟨by rw [moved, s.inhibitedCycle_plan], by rw [moved]; exact lines, ?_, s.inhibitedCycle_cuts, ?_⟩
    · rw [State.inhibitedCycle_engine, state]
      rfl
    · rw [s.inhibitedCycle_entries, if_pos state]
  · have running : s.engine.state ≠ .running := by simp [state]
    have entered := s.inhibitedCycle.enterStopped_only
    rw [State.inhAssert_of_halting state, State.enterStopped_engine]
    refine ⟨by rw [entered, s.inhibitedCycle_plan], by rw [entered]; exact lines, ?_, s.inhibitedCycle_cuts, ?_⟩
    · rw [State.inhibitedCycle_engine, if_neg running, if_neg running]
    · rw [State.enterStopped_entries_congr s.inhibitedCycle_entries, if_neg running]

/-- A WAITING engine at an assertion of INH, which moves and counts no more than itself. -/
theorem inhAssert_waiting_moves {s : State} (state : s.engine.state = .waiting) :
    s.inhAssert.engine =
        { s.engine with
          state := .held, inhAsserted := true, inhibitEpisodes := saturatingInc s.engine.inhibitEpisodes }
      ∧ EngineMoved s s.inhAssert .held := by
  rw [State.inhAssert_of_waiting state, State.changeEngine_engine]
  exact ⟨rfl, engineMoved_changeEngine .held rfl (fun _ => rfl) rfl rfl ⟨rfl, rfl, rfl, rfl⟩⟩

/-! ### The offset of a cut (R69, R74, R91) -/

namespace State

variable (s : State) (n : Nat)

theorem endingAt_ne_nil :
    s.endingAt n ≠ [] ↔ ∃ w ∈ s.planList, w.state.isOpen = true ∧ (s.entry w.entry).descriptor.stop = n := by
  simp [endingAt, openEntries, and_assoc]

theorem startingAt_ne_nil :
    s.startingAt n ≠ [] ↔ ∃ w ∈ s.planList, w.state = .scheduled ∧ (s.entry w.entry).descriptor.start = n := by
  simp [startingAt, and_assoc]

variable {s n}

/-- A window boundary event is due at the count n exactly when a window of the plan ends or starts there (R82). -/
theorem boundaryDue_iff (timer : s.engine.timer = some n) :
    s.boundaryDue = true ↔
      s.engine.state.inProgress = true ∧ 1 ≤ n ∧ n < s.engine.span
        ∧ ∃ w ∈ s.planList, (w.state.isOpen = true ∧ (s.entry w.entry).descriptor.stop = n)
            ∨ (w.state = .scheduled ∧ (s.entry w.entry).descriptor.start = n) := by
  have count : s.engine.count = n := by simp [CycleEngine.count, timer]
  have windows : (!(s.endingAt n).isEmpty || !(s.startingAt n).isEmpty) = true ↔
      ∃ w ∈ s.planList, (w.state.isOpen = true ∧ (s.entry w.entry).descriptor.stop = n)
        ∨ (w.state = .scheduled ∧ (s.entry w.entry).descriptor.start = n) := by
    simp only [and_or_left, exists_or, ← endingAt_ne_nil, ← startingAt_ne_nil, Bool.or_eq_true, Bool.not_eq_true',
      List.isEmpty_eq_false_iff]
  simp only [boundaryDue, count, Bool.and_eq_true, decide_eq_true_eq, windows, and_assoc]

/-- The offset is the count, less 1 while the timer's own event at that count is untaken. -/
theorem eventOffset_eq (timer : s.engine.timer = some n) :
    s.eventOffset = if s.engine.span ≤ n ∨ s.boundaryDue = true then n - 1 else n := by
  have count : s.engine.count = n := by simp [CycleEngine.count, timer]
  have done : s.engine.timerDone = true ↔ s.engine.span ≤ n := by simp [CycleEngine.timerDone, timer]
  simp only [eventOffset, count, Bool.or_eq_true, done, or_comm]

end State

/-- Settles O34: an assertion by the engine state, a release by the state, the start mode and the spacing, and the offset by
the events of the timer that are due. -/
theorem inhibitCutsAndResumes : Obligations.InhibitCutsAndResumes := by
  refine ⟨fun s hold released => ?_, fun s hold asserted => ?_, fun s n timer => ?_⟩
  · exact ⟨s.inhAssert, exec_inhAsserted hold released, .inhAssert s, inhAssert_leaves,
      fun served => ⟨served.inhAssert_burst, served.inhAssert_queue_of_running, served.inhAssert_queue_of_halting⟩,
      inhAssert_waiting_moves, State.inhAssert_of_still⟩
  · rw [exec_inhReleased hold asserted]
    refine ⟨fun held => ⟨fun mode spacing => ?_, fun wait => ⟨s.inhRelease, rfl, .inhRelease s, ?_⟩⟩, fun state => ?_⟩
    · rw [State.inhRelease_starts held mode spacing]
      rfl
    · rw [State.inhRelease_waits held wait, State.changeEngine_engine]
      exact ⟨rfl, engineMoved_changeEngine .waiting rfl (fun _ => rfl) rfl rfl ⟨rfl, rfl, rfl, rfl⟩⟩
    · rw [State.inhRelease_of_not_held state]
      rfl
  · have due := State.boundaryDue_iff timer
    rw [State.eventOffset_eq timer]
    exact ⟨fun untaken => if_pos (untaken.imp_right due.2), fun taken => if_neg fun h => taken (h.imp_right due.1)⟩

end Sys2Proof.Machine
end

