-- ==== Sys2Proof/Proofs/RunAndHalt.lean ====
section
/-! SUPPORT. What the last vote cleared leaves (R60), and the requests RUN and HALT, which set and clear a vote (R77, R78). -/

namespace Sys2Proof.Machine

/-! ### What a port hears -/

namespace State

/-- Port q hears in t what it hears in s: the same session is attached, with the same mask. -/
structure HearsAlike (s t : State) (q : Port) : Prop where
  attached : t.attachedSession q = s.attachedSession q
  mask : ∀ k, t.maskHolds q k = s.maskHolds q k

namespace HearsAlike

variable {s t : State} {q : Port} (h : HearsAlike s t q)
include h

theorem engineNotices (x : EngineState) (n : CycleNumber) : t.engineNotices q x n = s.engineNotices q x n := by
  rw [State.engineNotices, h.mask, State.engineNotices]

theorem stopNotices (entries : t.entries = s.entries) : t.stopNotices q = s.stopNotices q := by
  unfold State.stopNotices State.hearsLifecycle State.handleOf State.entry
  rw [h.attached, h.mask, entries]

/-- A port that hears alike receives the same notices at the entry into STOPPED (R73). -/
theorem enterStopped_queue (entries : t.entries = s.entries) (number : t.engine.number = s.engine.number)
    (queue : t.queue q = s.queue q) : t.enterStopped.queue q = s.enterStopped.queue q := by
  rw [State.enterStopped_queue, State.enterStopped_queue, queue, h.stopNotices entries, h.engineNotices,
    CycleEngine.reportedNumber, CycleEngine.reportedNumber, number]

end HearsAlike

/-! ### The votes, by the engine state (R59, R60) -/

variable {s : State}

theorem firstVote_held (state : s.engine.state = .stopped) (asserted : s.engine.inhAsserted = true) :
    s.firstVote = s.changeEngine .held := by
  simp [firstVote, state, asserted]

theorem firstVote_starts (state : s.engine.state = .stopped) (released : s.engine.inhAsserted = false)
    (start : s.hub.startMode = .internal ∧ s.engine.spacing = .clear) : s.firstVote = s.cycleStart := by
  simp [firstVote, state, released, start]

theorem firstVote_waits (state : s.engine.state = .stopped) (released : s.engine.inhAsserted = false)
    (wait : ¬ (s.hub.startMode = .internal ∧ s.engine.spacing = .clear)) : s.firstVote = s.changeEngine .waiting := by
  cases mode : s.hub.startMode <;> cases spacing : s.engine.spacing <;> simp_all [firstVote]

theorem firstVote_of_halting (state : s.engine.state = .halting) : s.firstVote = s.changeEngine .running := by
  simp [firstVote, state]

theorem firstVote_of_other (stopped : s.engine.state ≠ .stopped) (halting : s.engine.state ≠ .halting) :
    s.firstVote = s := by
  unfold firstVote
  split
  · exact absurd ‹_› stopped
  · exact absurd ‹_› halting
  · rfl

theorem lastVoteCleared_stops (state : s.engine.state = .waiting ∨ s.engine.state = .held) :
    s.lastVoteCleared = s.enterStopped := by
  rcases state with state | state <;> simp [lastVoteCleared, state]

theorem lastVoteCleared_of_running (state : s.engine.state = .running) :
    s.lastVoteCleared = s.changeEngine .halting := by
  simp [lastVoteCleared, state]

theorem lastVoteCleared_of_still (state : s.engine.state = .stopped ∨ s.engine.state = .halting) :
    s.lastVoteCleared = s := by
  rcases state with state | state <;> simp [lastVoteCleared, state]

/-- The engine after the last vote has been cleared: its state and, at an entry into STOPPED, its restart flag (R60, R73). -/
theorem lastVoteCleared_engine :
    s.lastVoteCleared.engine =
      { s.engine with
        state := stateAfterLastVote s.engine.state
        restart := s.engine.restart
          || decide (stateAfterLastVote s.engine.state = .stopped ∧ s.engine.state ≠ .stopped) } := by
  cases state : s.engine.state with
  | waiting =>
    rw [lastVoteCleared_stops (.inl state), enterStopped_engine]
    simp [stateAfterLastVote]
  | held =>
    rw [lastVoteCleared_stops (.inr state), enterStopped_engine]
    simp [stateAfterLastVote]
  | running =>
    rw [lastVoteCleared_of_running state, changeEngine_engine]
    simp [stateAfterLastVote]
  | stopped =>
    rw [lastVoteCleared_of_still (.inl state)]
    simp [stateAfterLastVote, ← state]
  | halting =>
    rw [lastVoteCleared_of_still (.inr state)]
    simp [stateAfterLastVote, ← state]

theorem lastVoteCleared_windows :
    s.lastVoteCleared.plan = s.plan ∧ s.lastVoteCleared.holding = s.holding ∧ s.lastVoteCleared.driven = s.driven
      ∧ s.lastVoteCleared.bursts = s.bursts := by
  unfold lastVoteCleared
  split
  · rw [enterStopped_only]
    exact ⟨rfl, rfl, rfl, rfl⟩
  · rw [changeEngine_only]
    exact ⟨rfl, rfl, rfl, rfl⟩
  · rw [enterStopped_only]
    exact ⟨rfl, rfl, rfl, rfl⟩
  · exact ⟨rfl, rfl, rfl, rfl⟩

end State

/-! ### A vote that goes (R58, R60) -/

/-- The state u is s with port p's vote gone, as far as the votes, the engine and the other ports can tell. -/
structure VoteCleared (s u : State) (p : Port) : Prop where
  engine : u.engine = s.engine
  entries : u.entries = s.entries
  gone : u.hasVote p = false
  votes : ∀ q, q ≠ p → u.hasVote q = s.hasVote q
  hears : ∀ q, q ≠ p → State.HearsAlike s u q
  queues : ∀ q, q ≠ p → u.queue q = s.queue q

namespace VoteCleared

variable {s u : State} {p : Port} (h : VoteCleared s u p)
include h

/-- The vote was the last exactly when none is left. -/
theorem lastVoteAt_iff : s.lastVoteAt p ↔ (s.hasVote p && !u.anyVote) = true := by
  have left : u.anyVote = false ↔ ∀ q, q ≠ p → s.hasVote q = false := by
    rw [State.anyVote_eq_false]
    constructor
    · intro hu q hq
      rw [← h.votes q hq, hu]
    · intro hs q
      by_cases hq : q = p
      · rw [hq, h.gone]
      · rw [h.votes q hq, hs q hq]
  rw [Bool.and_eq_true, Bool.not_eq_true', left]
  rfl

/-- What the engine does when the vote was the last (R60). -/
theorem voteGone_of_last (last : s.lastVoteAt p) : VoteGone s u.lastVoteCleared p := by
  have engine := u.lastVoteCleared_engine
  rw [h.engine] at engine
  have number : u.engine.number = s.engine.number := by rw [h.engine]
  refine ⟨by rw [engine], fun _ => by rw [engine], fun _ => by rw [engine], fun _ state => ?_, fun _ state => ?_, ?_⟩
  · rw [State.lastVoteCleared_stops (by rwa [h.engine])]
    exact ⟨State.enterStopped_entries_congr h.entries,
      fun q hq => (h.hears q hq).enterStopped_queue h.entries number (h.queues q hq)⟩
  · rw [State.lastVoteCleared_of_running (by rwa [h.engine])]
    refine ⟨(State.changeEngine_entries ..).trans h.entries, fun q hq => ?_⟩
    rw [State.queue_changeEngine, h.queues q hq, (h.hears q hq).engineNotices, h.engine]
  · rintro (notLast | state)
    · exact absurd last notLast
    · rw [State.lastVoteCleared_of_still (by rwa [h.engine])]
      exact ⟨h.engine, h.entries, h.queues⟩

/-- With votes left nothing moves. -/
theorem voteGone_of_not_last (notLast : ¬ s.lastVoteAt p) : VoteGone s u p where
  engine := by rw [h.engine]
  last last := absurd last notLast
  restart last := absurd last notLast
  stopped last := absurd last notLast
  halting last := absurd last notLast
  still _ := ⟨h.engine, h.entries, h.queues⟩

end VoteCleared

/-! ### The taking of a RUN or a HALT -/

/-- A reply touches none of what `EngineMoved` and `VoteGone` speak of. -/
theorem EngineMoved.reply {s t : State} {x : EngineState} (h : EngineMoved s t x) (p : Port) (r : Request) (st : Status)
    (b : List Byte) : EngineMoved s (t.reply p r st b) x := ⟨h.state, h.notices, h.entries, h.windows⟩

theorem VoteGone.reply {s t : State} {p : Port} (h : VoteGone s t p) (r : Request) (st : Status) (b : List Byte) :
    VoteGone s (t.reply p r st b) p := ⟨h.engine, h.last, h.restart, h.stopped, h.halting, h.still⟩

namespace State

variable (s : State) (p : Port) (v : Bool)

/-- Port p's request has been taken and its vote set or cleared, and the engine has not acted yet (R77, R78). -/
def voted : State := (s.take p).setSession p (((s.take p).session p).withVote v)

/-- The taking of a RUN or a HALT touches the sessions, the port's link and the last port served. -/
theorem voted_only :
    s.voted p v =
      { s with
        sessions := (s.voted p v).sessions, links := (s.take p).links
        arbiter := { s.arbiter with lastServed := p } } := by
  have record : s.voted p v = { s.take p with sessions := (s.voted p v).sessions } := rfl
  rw [record, take_only]
  rfl

theorem session_take : (s.take p).session p = (s.session p).restartLease := Table.get_set_self ..

/-- The state with the vote set or cleared, in the words of the statement. -/
theorem voted_eq {a : Attachment} (attached : (s.session p).attachment = some a) :
    s.voted p v =
      { s with
        sessions := s.sessions.set p { s.session p with attachment := some { a with timer := 0, vote := v } }
        links := s.links.set p { s.link p with requests := (s.link p).requests.tail }
        arbiter := { s.arbiter with lastServed := p } } := by
  have record : (s.session p).restartLease.withVote v =
      { s.session p with attachment := some { a with timer := 0, vote := v } } := by
    simp [Session.restartLease, Session.withVote, attached]
  rw [voted, session_take, record]
  simp [take, setSession, setLink]

theorem session_voted (q : Port) :
    (s.voted p v).session q = if q = p then (s.session p).restartLease.withVote v else s.session q := by
  by_cases hq : q = p
  · rw [hq, voted, session_setSession, session_take, if_pos rfl]
  · rw [voted, session_setSession_ne _ _ hq, if_neg hq]
    exact Table.get_set_ne _ _ hq

/-- A vote is no part of what a port hears. -/
theorem voted_hearsAlike (q : Port) : HearsAlike s (s.voted p v) q := by
  by_cases hq : q = p
  · subst hq
    cases ha : (s.session q).attachment <;>
      refine ⟨?_, fun k => ?_⟩ <;>
      simp [attachedSession, maskHolds, session_voted, Session.restartLease, Session.withVote, ha]
  · refine ⟨?_, fun k => ?_⟩ <;> simp [attachedSession, maskHolds, session_voted, hq]

theorem hasVote_take (q : Port) : (s.take p).hasVote q = s.hasVote q := by
  rw [hasVote_eq, hasVote_eq]
  by_cases hq : q = p
  · rw [hq, session_take, voting_restartLease]
  · exact congrArg Session.voting (Table.get_set_ne _ _ hq)

theorem voted_engine : (s.voted p v).engine = s.engine := by rw [voted_only]

theorem voted_entries : (s.voted p v).entries = s.entries := by rw [voted_only]

theorem voted_hub : (s.voted p v).hub = s.hub := by rw [voted_only]

theorem voted_notices : (s.voted p v).notices = s.notices := by rw [voted_only]

theorem voted_windows :
    (s.voted p v).plan = s.plan ∧ (s.voted p v).holding = s.holding ∧ (s.voted p v).driven = s.driven
      ∧ (s.voted p v).bursts = s.bursts := by
  rw [voted_only]
  exact ⟨rfl, rfl, rfl, rfl⟩

theorem voted_stands :
    (s.voted p v).engine = s.engine ∧ (s.voted p v).entries = s.entries ∧ (s.voted p v).plan = s.plan
      ∧ (s.voted p v).holding = s.holding ∧ (s.voted p v).driven = s.driven ∧ (s.voted p v).bursts = s.bursts
      ∧ (s.voted p v).notices = s.notices := by
  rw [voted_only]
  exact ⟨rfl, rfl, rfl, rfl, rfl, rfl, rfl⟩

theorem voted_queue (q : Port) : (s.voted p v).queue q = s.queue q := by rw [queue, voted_notices, queue]

theorem voted_voteCleared : VoteCleared s (s.voted p false) p where
  engine := s.voted_engine p false
  entries := s.voted_entries p false
  gone := by rw [hasVote_eq, session_voted, if_pos rfl, voting_withVote_false]
  votes q hq := by rw [hasVote_eq, session_voted, if_neg hq, hasVote_eq]
  hears q _ := s.voted_hearsAlike p false q
  queues q _ := s.voted_queue p false q

variable {s p}

theorem dropVote_of_last {x : Session} (last : (s.hasVote p && !(s.setSession p x).anyVote) = true) :
    s.dropVote p x = (s.setSession p x).lastVoteCleared := if_pos last

theorem dropVote_of_not_last {x : Session} (notLast : ¬ (s.hasVote p && !(s.setSession p x).anyVote) = true) :
    s.dropVote p x = s.setSession p x := if_neg notLast

/-- The link of a port whose request is answered, when no other link has changed since its taking. -/
theorem reply_links {u : State} (links : u.links = (s.take p).links) (r : Request) (st : Status) (b : List Byte) :
    (u.reply p r st b).links = s.links.set p ((s.link p).answered r st b) := by
  simp [reply, setLink, link, links, take, setSession, Link.answered]

/-- The state after a RUN but for its reply (R77). -/
def afterRun (s : State) (p : Port) : State := if s.anyVote then s.voted p true else (s.voted p true).firstVote

/-- The state after a HALT but for its reply (R78). -/
def afterHalt (s : State) (p : Port) : State := (s.take p).dropVote p (((s.take p).session p).withVote false)

theorem afterRun_only : ScheduleOnly (s.voted p true) (s.afterRun p) := by
  unfold afterRun
  split
  · exact .rfl' _
  · exact .firstVote _

theorem afterHalt_only : ScheduleOnly (s.voted p false) (s.afterHalt p) := dropVote_only ..

theorem afterHalt_of_last (last : s.lastVoteAt p) : s.afterHalt p = (s.voted p false).lastVoteCleared := by
  have clear := (s.voted_voteCleared p).lastVoteAt_iff.1 last
  rw [← s.hasVote_take p p] at clear
  exact dropVote_of_last clear

theorem afterHalt_of_not_last (notLast : ¬ s.lastVoteAt p) : s.afterHalt p = s.voted p false := by
  have clear := (s.voted_voteCleared p).lastVoteAt_iff.not.1 notLast
  rw [← s.hasVote_take p p] at clear
  exact dropVote_of_not_last clear

theorem afterHalt_of_running (last : s.lastVoteAt p) (state : s.engine.state = .running) :
    s.afterHalt p = (s.voted p false).changeEngine .halting := by
  rw [← s.voted_engine p false] at state
  rw [afterHalt_of_last last, lastVoteCleared_of_running state]

theorem afterHalt_stops (last : s.lastVoteAt p) (state : s.engine.state = .waiting ∨ s.engine.state = .held) :
    s.afterHalt p = (s.voted p false).enterStopped := by
  rw [← s.voted_engine p false] at state
  rw [afterHalt_of_last last, lastVoteCleared_stops state]

theorem afterHalt_windows :
    (s.afterHalt p).plan = s.plan ∧ (s.afterHalt p).holding = s.holding ∧ (s.afterHalt p).driven = s.driven
      ∧ (s.afterHalt p).bursts = s.bursts := by
  by_cases last : s.lastVoteAt p
  · obtain ⟨plan, holding, driven, bursts⟩ := (s.voted p false).lastVoteCleared_windows
    rw [afterHalt_of_last last, plan, holding, driven, bursts]
    exact s.voted_windows p false
  · rw [afterHalt_of_not_last last]
    exact s.voted_windows p false

theorem afterHalt_voteGone : VoteGone s (s.afterHalt p) p := by
  by_cases last : s.lastVoteAt p
  · rw [afterHalt_of_last last]
    exact (s.voted_voteCleared p).voteGone_of_last last
  · rw [afterHalt_of_not_last last]
    exact (s.voted_voteCleared p).voteGone_of_not_last last

/-- A change of the engine state after the taking of a RUN or a HALT. -/
theorem engineMoved_voted (x : EngineState) : EngineMoved s ((s.voted p v).changeEngine x) x :=
  engineMoved_changeEngine x (s.voted_notices p v) (fun q => (s.voted_hearsAlike p v q).mask _)
    (by rw [voted_engine]) (s.voted_entries p v) (s.voted_windows p v)

section taken

variable {r : Request} (attached : (s.session p).attachment.isSome = true)
include attached

theorem exec_run (taken : s.takenRequest p .run = some r) :
    exec (.run p) s = .next ((s.afterRun p).reply p r .ok [engineStateByte (s.afterRun p).engine.state]) := by
  have votes : (s.take p).anyVote = s.anyVote := anyVote_congr (s.hasVote_take p)
  refine congrArg Host.Outcome.next ?_
  rw [answerRequest_attached taken (s.attachedSession_of_attachment attached)]
  unfold afterRun
  rw [← votes]
  rfl

theorem exec_halt (taken : s.takenRequest p .halt = some r) :
    exec (.halt p) s = .next ((s.afterHalt p).reply p r .ok [engineStateByte (s.afterHalt p).engine.state]) := by
  refine congrArg Host.Outcome.next ?_
  rw [answerRequest_attached taken (s.attachedSession_of_attachment attached)]
  rfl

end taken

/-- What stands after a RUN or a HALT, whatever the schedule in motion does. -/
theorem rest_of_voted {u : State} (only : ScheduleOnly (s.voted p v) u) (r : Request) (st : Status) (b : List Byte) :
    (u.reply p r st b).arbiter = { s.arbiter with lastServed := p }
      ∧ (u.reply p r st b).lines = s.lines ∧ (u.reply p r st b).hub = s.hub ∧ (u.reply p r st b).peaks = s.peaks
      ∧ (u.reply p r st b).inputs = s.inputs ∧ (u.reply p r st b).resetCause = s.resetCause
      ∧ (u.reply p r st b).hold = s.hold ∧ (u.reply p r st b).pending = s.pending
      ∧ (u.reply p r st b).freeCount = s.freeCount := by
  rw [reply_only]
  dsimp only
  rw [only.arbiter, only.lines, only.hub, only.peaks, only.inputs, only.resetCause, only.hold, only.pending,
    only.freeCount, voted_only]
  exact ⟨rfl, rfl, rfl, rfl, rfl, rfl, rfl, rfl, rfl⟩

theorem reply_sessions {u : State} (r : Request) (st : Status) (b : List Byte) :
    (u.reply p r st b).sessions = u.sessions := rfl

theorem reply_engine {u : State} (r : Request) (st : Status) (b : List Byte) :
    (u.reply p r st b).engine = u.engine := rfl

theorem reply_queue {u : State} (r : Request) (st : Status) (b : List Byte) (q : Port) :
    (u.reply p r st b).queue q = u.queue q := rfl

end State

/-- A RUN with a vote already held moves nothing (R77). -/
theorem afterRun_of_voted {s : State} {p : Port} (voted : s.anyVote = true) : s.afterRun p = s.voted p true :=
  if_pos voted

/-- A cycle start at a RUN, with its reply (R77, R62). -/
theorem reply_cycleStart {s : State} {p : Port} {r : Request} :
    (s.voted p true).cycleStart.reply p r .ok [engineStateByte (s.voted p true).cycleStart.engine.state] =
      { (s.voted p true).cycleStart with links := s.links.set p ((s.link p).answered r .ok [2]) } := by
  have running : (s.voted p true).cycleStart.engine.state = .running := by
    rw [State.cycleStart_engine]
    rfl
  have links : (s.voted p true).cycleStart.links = (s.take p).links :=
    (ScheduleOnly.cycleStart _).links.trans (by rw [State.voted_only])
  have byte : engineStateByte .running = 2 := rfl
  rw [running, byte, State.reply_only, State.reply_links links]

/-- The links after a RUN or a HALT: the request answered. -/
theorem links_of_voted {s u : State} {p : Port} {v : Bool} (only : ScheduleOnly (s.voted p v) u) (r : Request)
    (st : Status) (b : List Byte) : (u.reply p r st b).links = s.links.set p ((s.link p).answered r st b) :=
  State.reply_links (only.links.trans (by rw [State.voted_only])) r st b

/-- The sessions after a RUN or a HALT: the vote set or cleared, the lease timer at 0. -/
theorem sessions_of_voted {s u : State} {p : Port} {v : Bool} (only : ScheduleOnly (s.voted p v) u) {a : Attachment}
    (attached : (s.session p).attachment = some a) (r : Request) (st : Status) (b : List Byte) :
    (u.reply p r st b).sessions =
      s.sessions.set p { s.session p with attachment := some { a with timer := 0, vote := v } } := by
  rw [State.reply_sessions, only.sessions, s.voted_eq p v attached]

/-- A change of the engine state at a RUN or a HALT, with its reply. -/
theorem answer_moves (s : State) (p : Port) (v : Bool) (x : EngineState) (r : Request) (st : Status) (b : List Byte) :
    (((s.voted p v).changeEngine x).reply p r st b).engine = { s.engine with state := x }
      ∧ EngineMoved s (((s.voted p v).changeEngine x).reply p r st b) x := by
  refine ⟨?_, (State.engineMoved_voted v x).reply p r st b⟩
  rw [State.reply_engine, State.changeEngine_engine, State.voted_engine]

/-! ### RUN at the first vote, by the engine state (R59, R77) -/

section unvoted

variable {s : State} {p : Port} (unvoted : s.anyVote = false)
include unvoted

theorem afterRun_of_unvoted : s.afterRun p = (s.voted p true).firstVote := if_neg (by simp [unvoted])

theorem afterRun_held (state : s.engine.state = .stopped) (asserted : s.engine.inhAsserted = true) :
    s.afterRun p = (s.voted p true).changeEngine .held := by
  rw [← s.voted_engine p true] at state asserted
  rw [afterRun_of_unvoted unvoted, State.firstVote_held state asserted]

theorem afterRun_starts (state : s.engine.state = .stopped) (released : s.engine.inhAsserted = false)
    (start : s.hub.startMode = .internal ∧ s.engine.spacing = .clear) :
    s.afterRun p = (s.voted p true).cycleStart := by
  rw [← s.voted_engine p true] at state released start
  rw [← s.voted_hub p true] at start
  rw [afterRun_of_unvoted unvoted, State.firstVote_starts state released start]

theorem afterRun_waits (state : s.engine.state = .stopped) (released : s.engine.inhAsserted = false)
    (wait : ¬ (s.hub.startMode = .internal ∧ s.engine.spacing = .clear)) :
    s.afterRun p = (s.voted p true).changeEngine .waiting := by
  rw [← s.voted_engine p true] at state released wait
  rw [← s.voted_hub p true] at wait
  rw [afterRun_of_unvoted unvoted, State.firstVote_waits state released wait]

theorem afterRun_of_halting (state : s.engine.state = .halting) :
    s.afterRun p = (s.voted p true).changeEngine .running := by
  rw [← s.voted_engine p true] at state
  rw [afterRun_of_unvoted unvoted, State.firstVote_of_halting state]

theorem afterRun_of_other (stopped : s.engine.state ≠ .stopped) (halting : s.engine.state ≠ .halting) :
    s.afterRun p = s.voted p true := by
  rw [← s.voted_engine p true] at stopped halting
  rw [afterRun_of_unvoted unvoted, State.firstVote_of_other stopped halting]

end unvoted

/-- Settles O32: the vote set or cleared at the taking, and then the engine's act on it by its state. -/
theorem runAndHaltActOnTheVotes : Obligations.RunAndHaltActOnTheVotes := by
  refine ⟨fun s p r a taken attached => ?_, fun s p r a taken attached => ?_⟩
  · have only := State.afterRun_only (s := s) (p := p)
    obtain ⟨arbiter, rest⟩ := State.rest_of_voted true only r .ok [engineStateByte (s.afterRun p).engine.state]
    dsimp only
    refine ⟨_, State.exec_run (by simp [attached]) taken, sessions_of_voted only attached .., links_of_voted only ..,
      arbiter, rest, fun voted => ?_, fun unvoted => ?_⟩
    · rw [afterRun_of_voted voted, State.reply_only]
      exact s.voted_stands p true
    · split
      · rename_i state
        split_ifs with asserted start
        · rw [afterRun_held unvoted state asserted]
          exact answer_moves ..
        · rw [afterRun_starts unvoted state (by simpa using asserted) start, ← s.voted_eq p true attached]
          exact reply_cycleStart
        · rw [afterRun_waits unvoted state (by simpa using asserted) start]
          exact answer_moves ..
      · rename_i state
        rw [afterRun_of_halting unvoted state]
        exact answer_moves ..
      · rename_i stopped halting
        rw [afterRun_of_other unvoted stopped halting, State.reply_engine, State.voted_engine]
  · have only := State.afterHalt_only (s := s) (p := p)
    obtain ⟨arbiter, rest⟩ := State.rest_of_voted false only r .ok [engineStateByte (s.afterHalt p).engine.state]
    refine ⟨_, State.exec_halt (by simp [attached]) taken, sessions_of_voted only attached .., links_of_voted only ..,
      arbiter, State.afterHalt_voteGone.reply .., fun last => ⟨fun state => ?_, fun state => ?_⟩, fun notLast => ?_,
      ?_, rest⟩
    · rw [State.afterHalt_of_running last state]
      exact (answer_moves ..).2
    · rw [State.afterHalt_stops last state, State.reply_queue]
      exact (s.voted_hearsAlike p false p).enterStopped_queue (s.voted_entries p false) (by rw [State.voted_engine])
        (s.voted_queue p false p)
    · rw [State.afterHalt_of_not_last notLast, State.reply_only]
      exact s.voted_notices p false
    · rw [State.reply_only]
      exact State.afterHalt_windows

end Sys2Proof.Machine
end

