-- ==== Sys2Proof/Proofs/Keeping.lean ====
section
/-! SUPPORT. The parts that every command and every tick is made of, and that a predicate which each part keeps is kept by every
step. What the parts leave beside is shared by all invariants; an invariant's own work is the parts it reads. -/

namespace Sys2Proof.Machine

/-! ### The parts -/

/-- Links, notice queues, inputs, the queue of commands and the free count may differ, and of the sessions and the arbiter what
neither attaches nor ends a session, nor touches a flight or a claim. -/
structure Beside (s t : State) : Prop where
  rest : t = { s with
    links := t.links, notices := t.notices, inputs := t.inputs, sessions := t.sessions, arbiter := t.arbiter
    pending := t.pending, freeCount := t.freeCount }
  executor : t.arbiter.executor = s.arbiter.executor
  claims : t.arbiter.claims = s.arbiter.claims
  attached : ∀ p, (t.session p).attachment.isSome = (s.session p).attachment.isSome
  number : ∀ p, (t.session p).number = (s.session p).number

/-- What the schedule in motion does at one event. -/
inductive MotionEvent : State → State → Prop
  | cycleEnd (s : State) : MotionEvent s s.cycleEnd
  | spacingEnd (s : State) (idle : s.engine.state.inProgress = false) : MotionEvent s s.spacingEnd
  | inhAssert (s : State) : MotionEvent s s.inhAssert
  | inhRelease (s : State) : MotionEvent s s.inhRelease
  | windowBoundary (s : State) (due : s.boundaryDue = true) : MotionEvent s s.windowBoundary
  | handEdge (s : State) (i : InputIx) : MotionEvent s (s.handEdge i)
  | firstVote (s : State) (free : s.arbiter.executor = none) : MotionEvent s s.firstVote
  | lastVoteCleared (s : State) : MotionEvent s s.lastVoteCleared
  | highElapsed (s : State) (g : EngineIx) (j : BurstJob) (busy : (s.burst g).job = some j) :
      MotionEvent s (s.setJob g j.highElapsed)
  | lowElapsed (s : State) (g : EngineIx) (j : BurstJob) (busy : (s.burst g).job = some j) :
      MotionEvent s (s.setJob g j.lowElapsed)

/-- What a taking judges for the flight that begins (R24, R38, R164). -/
inductive Judged (s : State) (me : SessionId) : FlightOp → Prop
  | add (f : List Byte) : Judged s me (.add (s.judgeAdd me f))
  | replace (f : List Byte) : Judged s me (.replace (s.judgeReplace me f))
  | setHub (f : List Byte) : Judged s me (.setHub (s.judgeSetHub f))

/-- A predicate that every part keeps. -/
structure KeptByParts (P : State → Prop) : Prop where
  beside : ∀ {s t}, Beside s t → P s → P t
  event : ∀ {s t}, MotionEvent s t → P s → P t
  tick : ∀ {s : State}, s.dueEvents = [] → P s → P s.tick
  withdraw : ∀ {s : State} (me : SessionId) (f : List Byte), s.arbiter.executor = none → P s → P (withdrawAct s me f).state
  claimLine : ∀ {s : State} {me : SessionId} (f : List Byte), s.arbiter.executor = none →
    s.attachedSession me.port = some me → P s → P (claimLineAct s me f).state
  releaseLine : ∀ {s : State} (me : SessionId) (f : List Byte), P s → P (releaseLineAct s me f).state
  clearCounters : ∀ {s : State}, P s → P s.clearCounters
  attach : ∀ {s : State} {p : Port} (lease : Nat) (mask : Mask), (∀ q, s.arbiter.claims.get q = none) →
    (s.session p).attachment = none → P s → P (s.attachSession p lease mask)
  endSession : ∀ {s : State} (p : Port) (expired : Bool), P s → P (s.endSession p expired)
  cleanup : ∀ {s : State} {p : Port} {n : Byte}, s.arbiter.executor = none → s.arbiter.claims.get p = some n →
    P s → P ((s.takeClaim p).cleanup { port := p, number := n })
  beginFlight : ∀ {s : State} {me : SessionId} {op : FlightOp} (r : Request), s.arbiter.executor = none →
    Judged s me op → P s → P (s.beginFlight me.port me r op)
  release : ∀ {s : State}, P s → P s.releaseExecutor
  completeAdd : ∀ {s : State} {f : Flight} {v : Verdict Descriptor}, s.arbiter.executor = some f → f.op = .add v →
    s.attachedSession f.session.port = some f.session → P s → P (s.releaseExecutor.completeAdd f.session v).state
  completeReplace : ∀ {s : State} {f : Flight} {v : Verdict Replacement}, s.arbiter.executor = some f →
    f.op = .replace v → s.attachedSession f.session.port = some f.session → P s →
      P (s.releaseExecutor.completeReplace f.session v).state
  setHub : ∀ {s : State} {f : Flight} {hub : HubRecord}, s.arbiter.executor = some f → f.op = .setHub (.pass hub) →
    P s → P { s.releaseExecutor with hub := hub }
  holdReset : ∀ {s : State} (cause : ResetCause),
    P s → P { s.stopConditioner with hold := some cause, driven := .fill 16 .low }
  afterRelease : ∀ (cause : ResetCause) (inputs : BitVec 8) (inh : Bool) (cs : BitVec 4) (cmds : List Instr) (n : Nat),
    P (State.afterRelease cause inputs inh cs cmds n)

/-! ### What leaves all beside -/

namespace Beside

theorem of_transfer {s t : State} (h : TransferOnly s t) : Beside s t := by
  unfold TransferOnly at h
  refine ⟨?_, ?_, ?_, fun p => ?_, fun p => ?_⟩ <;> rw [h]
  · rfl
  · rfl

variable (s : State)

theorem setInput (i : InputIx) (x : InputChannel) : Beside s (s.setInput i x) :=
  ⟨rfl, rfl, rfl, fun _ => rfl, fun _ => rfl⟩

theorem reply (p : Port) (r : Request) (st : Status) (b : List Byte) : Beside s (s.reply p r st b) := .of_transfer rfl

/-- A record that stays attached or DETACHED under its number. -/
theorem setSession (p : Port) {x : Session} (attached : x.attachment.isSome = (s.session p).attachment.isSome)
    (number : x.number = (s.session p).number) : Beside s (s.setSession p x) := by
  refine ⟨rfl, rfl, rfl, fun q => ?_, fun q => ?_⟩ <;> by_cases hq : q = p
  · rw [hq, State.session_setSession, attached]
  · rw [State.session_setSession_ne s x hq]
  · rw [hq, State.session_setSession, number]
  · rw [State.session_setSession_ne s x hq]

theorem withVote (p : Port) (v : Bool) : Beside s (s.setSession p ((s.session p).withVote v)) :=
  setSession s p (by simp [Session.withVote]) rfl

theorem withMask (p : Port) (m : Mask) : Beside s (s.setSession p ((s.session p).withMask m)) :=
  setSession s p (by simp [Session.withMask]) rfl

theorem take (p : Port) : Beside s (s.take p) where
  rest := s.take_only p
  executor := rfl
  claims := rfl
  attached := (setSession s p (State.restartLease_isSome _) rfl).attached
  number := (setSession s p (State.restartLease_isSome _) rfl).number

variable {s} {t : State} (h : Beside s t)
include h

theorem entry (e : EntryIx) : t.entry e = s.entry e := by rw [h.rest]; rfl

theorem attachedSession (p : Port) : t.attachedSession p = s.attachedSession p := by
  unfold State.attachedSession
  rw [h.attached, h.number]

end Beside

/-! ### A request, with the session it acts for -/

namespace State

variable {P : State → Prop} {s : State} {p : Port} {kind : RequestKind}

theorem port_of_attachedSession {o : SessionId} (h : s.attachedSession p = some o) : o.port = p := by
  obtain ⟨-, rfl⟩ := s.attachedSession_eq_some.1 h
  rfl

/-- `answerRequest_keeps`, where the act is by the session attached at its port. -/
theorem answerRequest_keeps_attached {act : State → SessionId → List Byte → Answer} (h : P s) (take : P (s.take p))
    (act_keeps : ∀ me f, (s.take p).arbiter.executor = none → (s.take p).attachedSession me.port = some me →
      P (act (s.take p) me f).state)
    (reply : ∀ t r st b, P t → P (t.reply p r st b)) : P (s.answerRequest p kind act) := by
  unfold answerRequest
  split
  · exact h
  · rename_i r hr
    obtain ⟨-, -, -, free, -⟩ := s.takenRequest_spec hr
    split
    · exact reply _ _ _ _ take
    · rename_i me found
      exact reply _ _ _ _ (act_keeps me _ free (by rwa [port_of_attachedSession found]))

/-- `flyRequest_keeps`, where the flight is of the session attached at its port. -/
theorem flyRequest_keeps_attached {judge : State → SessionId → List Byte → FlightOp} (h : P s) (take : P (s.take p))
    (begin_keeps : ∀ me r, (s.take p).arbiter.executor = none →
      P ((s.take p).beginFlight me.port me r (judge (s.take p) me r.fields)))
    (reply : ∀ t r st b, P t → P (t.reply p r st b)) : P (s.flyRequest p kind judge) := by
  unfold flyRequest
  split
  · exact h
  · rename_i r hr
    obtain ⟨-, -, -, free, -⟩ := s.takenRequest_spec hr
    split
    · exact reply _ _ _ _ take
    · rename_i me found
      have begun := begin_keeps me r free
      rwa [port_of_attachedSession found] at begun

/-- The end of a session: its record and vote go, and then notices and its cleanup claim come (R139). -/
theorem endSession_eq (expired : Bool) :
    s.endSession p expired =
      { s.dropVote p (s.session p).ended with
        notices := (s.endSession p expired).notices
        arbiter :=
          { (s.dropVote p (s.session p).ended).arbiter with
            claims := (s.dropVote p (s.session p).ended).arbiter.claims.set p (some (s.session p).number) } } := by
  unfold endSession
  cases expired <;> rfl

/-- A predicate that reads no session and no claim, through the end of a session: kept by the engine's act on the last vote. -/
theorem endSession_keeps (h : ∀ x, P (s.setSession p x)) (last : ∀ t, P t → P t.lastVoteCleared)
    (rest : ∀ t notices claims, P t → P { t with notices := notices, arbiter := { t.arbiter with claims := claims } })
    (expired : Bool) : P (s.endSession p expired) := by
  have dropped : P (s.dropVote p (s.session p).ended) := by
    unfold dropVote
    dsimp only
    split
    · exact last _ (h _)
    · exact h _
  rw [endSession_eq]
  exact rest _ _ _ dropped

/-- No claim is pending when a request is taken (R183). -/
theorem claims_of_takenRequest {r : Request} (h : s.takenRequest p kind = some r) (q : Port) :
    s.arbiter.claims.get q = none := by
  obtain ⟨next, -⟩ := s.takenRequest_spec h
  unfold nextTaking at next
  split at next
  · cases next
  · split at next
    · cases next
    · rename_i unclaimed
      simpa using List.find?_eq_none.1 unclaimed q (mem_allPorts q)

end State

/-! ### Commands and steps -/

namespace KeptByParts

variable {P : State → Prop} (k : KeptByParts P) {s : State} (h : P s)
include k h

theorem transfer {t : State} (e : TransferOnly s t) : P t := k.beside (.of_transfer e) h

theorem reply (p : Port) (r : Request) (st : Status) (b : List Byte) : P (s.reply p r st b) := k.beside (.reply ..) h

theorem answerRequest {p : Port} {kind : RequestKind} {act : State → SessionId → List Byte → Answer}
    (acts : ∀ t me f, P t → t.arbiter.executor = none → t.attachedSession me.port = some me → P (act t me f).state) :
    P (s.answerRequest p kind act) :=
  State.answerRequest_keeps_attached h (k.beside (.take ..) h) (fun me f => acts _ me f (k.beside (.take ..) h))
    fun _ _ _ _ ht => k.reply ht ..

theorem flyRequest {p : Port} {kind : RequestKind} {judge : State → SessionId → List Byte → FlightOp}
    (judged : ∀ t me f, Judged t me (judge t me f)) : P (s.flyRequest p kind judge) :=
  State.flyRequest_keeps_attached h (k.beside (.take ..) h)
    (fun me r free => k.beginFlight r free (judged _ me _) (k.beside (.take ..) h)) fun _ _ _ _ ht => k.reply ht ..

theorem runFrame {p : Port} (mine : FrameState → Bool) (part : FramePart) (bits : Nat) :
    P (s.runFrame p mine part bits) :=
  State.runFrame_keeps (fun _ _ e ht => k.transfer ht e) (fun _ ht => k.endSession p false ht) h mine part bits

theorem qualify (i : InputIx) : P (s.qualify i) := k.event (.handEdge _ i) (k.beside (.setInput ..) h)

theorem rawChange (i : InputIx) : P (s.rawChange i) := by
  have changed (x : InputChannel) : P (s.setInput i x) := k.beside (.setInput ..) h
  unfold State.rawChange
  dsimp only
  split
  · exact k.qualify (changed _) i
  · split
    · exact k.beside (.setInput ..) (changed _)
    · exact k.beside (.setInput ..) (changed _)

theorem rejudgeInputs (is : List InputIx) : P (is.foldl State.rejudgeInput s) := by
  refine List.foldlRecOn is _ h fun t ht i _ => ?_
  unfold State.rejudgeInput
  split
  · exact k.qualify ht i
  · exact ht

theorem runAct (free : s.arbiter.executor = none) (me : SessionId) (f : List Byte) : P (runAct s me f).state := by
  have voted := k.beside (.withVote s me.port true) h
  unfold Machine.runAct
  dsimp only
  split
  · exact voted
  · exact k.event (.firstVote _ free) voted

theorem haltAct (me : SessionId) (f : List Byte) : P (haltAct s me f).state := by
  have voted := k.beside (.withVote s me.port false) h
  unfold Machine.haltAct State.dropVote
  dsimp only
  split
  · exact k.event (.lastVoteCleared _) voted
  · exact voted

theorem setNoticesAct (me : SessionId) (f : List Byte) : P (setNoticesAct s me f).state := by
  unfold Machine.setNoticesAct
  split
  · exact h
  · exact k.beside (.withMask ..) h

theorem readHubAct (me : SessionId) (f : List Byte) : P (readHubAct s me f).state := by
  unfold Machine.readHubAct
  split
  · exact h
  · dsimp only
    split
    · exact k.clearCounters h
    · exact h

theorem execAttach (p : Port) : Leads P (execAttach p s) := by
  have taken : P (s.take p) := k.beside (.take ..) h
  unfold Machine.execAttach
  split
  · exact h
  · rename_i r found
    rw [leads_next]
    unfold State.attachTaken
    split
    · exact k.reply taken ..
    · split
      · exact k.reply taken ..
      · rename_i detached
        have unclaimed (q : Port) : (s.take p).arbiter.claims.get q = none := by
          rw [State.take_claims]
          exact State.claims_of_takenRequest found q
        have free : ((s.take p).session p).attachment = none := by simpa using detached
        exact k.reply (k.attach _ _ unclaimed free taken) ..

theorem execBadKind (p : Port) : Leads P (execBadKind p s) := by
  unfold Machine.execBadKind
  split
  · exact h
  · exact k.reply (k.beside (.take ..) h) ..

theorem execCleanupClaim (p : Port) : Leads P (execCleanupClaim p s) := by
  unfold Machine.execCleanupClaim
  split
  · rename_i taking
    split
    · exact k.cleanup (s.free_of_nextTaking taking).1 ‹_› h
    · exact h
  · exact h

/-- A flight completes: the executor is released, and the act is for a session still attached (R46, R51). -/
theorem complete {f : Flight} {act : State → Answer}
    (acts : s.attachedSession f.session.port = some f.session → P (act s.releaseExecutor).state) :
    P (s.complete f act) := by
  unfold State.complete
  split
  · rename_i attached
    exact k.reply (acts (of_decide_eq_true attached)) ..
  · exact k.transfer (k.release h) rfl

theorem execAddCompletion : Leads P (execAddCompletion s) := by
  unfold Machine.execAddCompletion
  split
  · rename_i f hf
    split
    · exact leads_ite (fun _ => k.complete h fun attached => k.completeAdd hf ‹_› attached h) h
    · exact h
    · exact h
  · exact h

theorem execReplaceCompletion : Leads P (execReplaceCompletion s) := by
  unfold Machine.execReplaceCompletion
  split
  · rename_i f hf
    split
    · exact leads_ite (fun _ => k.complete h fun attached => k.completeReplace hf ‹_› attached h) h
    · exact h
    · exact h
  · exact h

theorem completeSetHub {f : Flight} {v : Verdict HubRecord} (hf : s.arbiter.executor = some f) (hv : f.op = .setHub v) :
    P (s.releaseExecutor.completeSetHub v).state := by
  cases v with
  | refuse st b => exact k.release h
  | pass hub =>
    have replaced := k.setHub hf hv h
    unfold State.completeSetHub
    dsimp only
    exact k.rejudgeInputs replaced allInputs

theorem execSetHubCompletion : Leads P (execSetHubCompletion s) := by
  unfold Machine.execSetHubCompletion
  split
  · rename_i f hf
    split
    · exact leads_ite (fun _ => k.complete h fun _ => k.completeSetHub h hf ‹_›) h
    · exact h
    · exact h
  · exact h

theorem execHighTimeElapses (g : EngineIx) : Leads P (execHighTimeElapses g s) := by
  unfold Machine.execHighTimeElapses
  split
  · exact leads_ite (fun _ => k.event (.highElapsed s g _ ‹_›) h) h
  · exact h

theorem execLowTimeElapses (g : EngineIx) : Leads P (execLowTimeElapses g s) := by
  unfold Machine.execLowTimeElapses
  split
  · exact leads_ite (fun _ => k.event (.lowElapsed s g _ ‹_›) h) h
  · exact h

theorem execSpacingEnd : Leads P (execSpacingEnd s) := by
  refine leads_ite (fun due => k.event (.spacingEnd s ?_) h) h
  simp only [State.spacingEndDue, Bool.and_eq_true, Bool.not_eq_true'] at due
  exact due.2.1

theorem execWindowBoundaryEvent : Leads P (execWindowBoundaryEvent s) := by
  refine leads_ite (fun due => k.event (.windowBoundary s ?_) h) h
  exact (Bool.and_eq_true_iff.1 due).2

/-- Beside what is held from the start of a reset, the frames are discarded. -/
theorem startOfReset (cause : ResetCause) : P (s.holdReset cause) := by
  refine k.transfer (k.holdReset cause h) ?_
  exact foldl_related TransferOnly.rfl' (fun _ _ _ => .trans) (fun t p => (TransferOnly.setLink t p _).trans (.setQueue ..))
    allPorts _

theorem execRstnAsserted : Leads P (execRstnAsserted s) := by
  unfold Machine.execRstnAsserted
  split
  · exact k.startOfReset h .pin
  · exact h

theorem execResetRelease (inputs : BitVec 8) (inh : Bool) (cs : BitVec 4) :
    Leads P (execResetRelease inputs inh cs s) := by
  unfold Machine.execResetRelease
  split
  · exact h
  · exact k.afterRelease ..

/-- What every part keeps, every command keeps. -/
theorem exec (c : Instr) : Leads P (exec c s) := by
  cases c with
  | attach p => exact k.execAttach h p
  | detach p => exact k.answerRequest h fun _ me _ ht _ _ => k.endSession me.port false ht
  | renew p => exact k.answerRequest h fun _ _ _ ht _ _ => ht
  | setNotices p => exact k.answerRequest h fun _ me f ht _ _ => k.setNoticesAct ht me f
  | add p => exact k.flyRequest h fun _ _ f => .add f
  | addCompletion => exact k.execAddCompletion h
  | withdraw p => exact k.answerRequest h fun _ me f ht free _ => k.withdraw me f free ht
  | replace p => exact k.flyRequest h fun _ _ f => .replace f
  | replaceCompletion => exact k.execReplaceCompletion h
  | query p => exact k.answerRequest h fun _ _ _ ht _ _ => by rwa [queryAct_state]
  | scan p => exact k.answerRequest h fun _ _ _ ht _ _ => by rwa [scanAct_state]
  | claimLine p => exact k.answerRequest h fun _ _ f ht free attached => k.claimLine f free attached ht
  | releaseLine p => exact k.answerRequest h fun _ me f ht _ _ => k.releaseLine me f ht
  | lineInfo p => exact k.answerRequest h fun _ _ _ ht _ _ => by rwa [lineInfoAct_state]
  | run p => exact k.answerRequest h fun _ me f ht free _ => k.runAct ht free me f
  | halt p => exact k.answerRequest h fun _ me f ht _ _ => k.haltAct ht me f
  | setHub p => exact k.flyRequest h fun _ _ f => .setHub f
  | setHubCompletion => exact k.execSetHubCompletion h
  | readHub p => exact k.answerRequest h fun _ me f ht _ _ => k.readHubAct ht me f
  | badKind p => exact k.execBadKind h p
  | cleanupClaim p => exact k.execCleanupClaim h p
  | submit p mosi => exact k.runFrame h _ mosi 0
  | collect p bytes rise => exact k.runFrame h _ _ 0
  | fetch p bytes rise => exact k.runFrame h _ _ 0
  | status p bytes rise => exact k.runFrame h _ _ 0
  | abandon p mosi => exact k.runFrame h _ mosi 0
  | malformedFrame p mosi bits => exact k.runFrame h _ mosi bits
  | cycleEnd => exact leads_ite (fun _ => k.event (.cycleEnd s) h) h
  | spacingEnd => exact k.execSpacingEnd h
  | inhAsserted => exact leads_ite (fun _ => k.event (.inhAssert s) h) h
  | inhReleased => exact leads_ite (fun _ => k.event (.inhRelease s) h) h
  | rawChange i => exact leads_ite (fun _ => k.rawChange h i) h
  | qualification i => exact leads_ite (fun _ => k.qualify h i) h
  | windowBoundaryEvent => exact k.execWindowBoundaryEvent h
  | highTimeElapses g => exact k.execHighTimeElapses h g
  | lowTimeElapses g => exact k.execLowTimeElapses h g
  | leaseExpiry p => exact leads_ite (fun _ => k.endSession p true h) h
  | powerOnReset => exact k.startOfReset h .power
  | rstnAsserted => exact k.execRstnAsserted h
  | resetRelease inputs inh cs => exact k.execResetRelease h inputs inh cs
  | csnRiseAfterReset p => exact leads_ite (fun _ => k.transfer h (.setLink ..)) h

omit h in
/-- What every part keeps, every step keeps. -/
theorem step {s t : State} (h : P s) (e : step s = .next t) : P t :=
  step_keeps (fun s cs hs => k.beside (s := s) (t := { s with pending := cs }) ⟨rfl, rfl, rfl, fun _ => rfl, fun _ => rfl⟩ hs)
    (fun s n hs => k.beside (s := s) (t := { s with freeCount := n }) ⟨rfl, rfl, rfl, fun _ => rfl, fun _ => rfl⟩ hs)
    (fun _ _ due hs => k.tick due hs) (fun c _ hs => k.exec hs c) h e

end KeptByParts

end Sys2Proof.Machine
end

