-- ==== Sys2Proof/Proofs/EntriesInMotion.lean ====
section
/-! SUPPORT. What the schedule in motion makes of the reservation table: entries are counted, activated and freed, and no more
(R15, R16, R83). -/

namespace Sys2Proof.Machine

/-! ### One entry -/

/-- An entry that is left, counted, activated, or freed when it was RETIRING. -/
structure Entry.Moves (x y : Entry) : Prop where
  descriptor : y.descriptor = x.descriptor
  nextEpoch : y.state.inNextEpoch = x.state.inNextEpoch
  generation : y.state.inNextEpoch = true → y.generation = x.generation
  reserved : y.state ≠ .free → x.state ≠ .free ∧ y.state.owner = x.state.owner

namespace Entry.Moves

theorem refl (x : Entry) : Entry.Moves x x := ⟨rfl, rfl, fun _ => rfl, fun h => ⟨h, rfl⟩⟩

theorem trans {x y z : Entry} (h : Entry.Moves x y) (k : Entry.Moves y z) : Entry.Moves x z where
  descriptor := k.descriptor.trans h.descriptor
  nextEpoch := k.nextEpoch.trans h.nextEpoch
  generation hz := (k.generation hz).trans (h.generation (k.nextEpoch ▸ hz))
  reserved hz := by
    obtain ⟨hy, owner⟩ := k.reserved hz
    obtain ⟨hx, owner'⟩ := h.reserved hy
    exact ⟨hx, owner.trans owner'⟩

theorem counted (x : Entry) (n : BitVec 16) : Entry.Moves x { x with fireCount := n } :=
  ⟨rfl, rfl, fun _ => rfl, fun h => ⟨h, rfl⟩⟩

theorem atBoundary (x : Entry) : Entry.Moves x x.atBoundary := by
  refine ⟨x.atBoundary_descriptor, x.atBoundary_inNextEpoch, ?_, ?_⟩ <;>
    cases h : x.state <;> simp [Entry.atBoundary, h, freedEntry, EntryState.inNextEpoch, EntryState.owner]

theorem atStop (x : Entry) : Entry.Moves x x.atStop := by
  refine ⟨x.atStop_descriptor, x.atStop_inNextEpoch, ?_, ?_⟩ <;>
    cases h : x.state <;> simp [Entry.atStop, h, freedEntry, EntryState.isRetiring, EntryState.inNextEpoch]

end Entry.Moves

/-! ### The table -/

/-- What the schedule in motion can do: of the entries, what each can undergo by itself. -/
structure Motion (s t : State) : Prop where
  only : ScheduleOnly s t
  entries : ∀ e, Entry.Moves (s.entry e) (t.entry e)

namespace Motion

theorem of_entries_eq {s t : State} (only : ScheduleOnly s t) (entries : t.entries = s.entries) : Motion s t :=
  ⟨only, fun e => by rw [State.entry, State.entry, entries]; exact .refl _⟩

theorem rfl' (s : State) : Motion s s := of_entries_eq (.rfl' s) rfl

theorem trans {s t u : State} (h : Motion s t) (k : Motion t u) : Motion s u :=
  ⟨h.only.trans k.only, fun e => (h.entries e).trans (k.entries e)⟩

/-- The members of the next-epoch set stay, handles and descriptors with them. -/
theorem nextEpochSet {s t : State} (h : Motion s t) : t.nextEpochSet = s.nextEpochSet := by
  have entries : t.nextEpochEntries = s.nextEpochEntries :=
    List.filter_congr fun e _ => (h.entries e).nextEpoch
  rw [State.nextEpochSet, entries, State.nextEpochSet]
  refine List.map_congr_left fun e he => ?_
  have member : (t.entry e).state.inNextEpoch = true := mem_nextEpochEntries.1 (entries ▸ he)
  rw [State.memberOf, State.handleOf, (h.entries e).generation member, (h.entries e).descriptor]
  rfl

variable (s : State)

theorem changeEngine (x : EngineState) : Motion s (s.changeEngine x) :=
  of_entries_eq (.changeEngine s x) (s.changeEngine_entries x)

theorem enterStopped : Motion s s.enterStopped :=
  ⟨.enterStopped s, fun e => by rw [s.enterStopped_entry e]; exact .atStop _⟩

theorem cycleStart : Motion s s.cycleStart := by
  refine ⟨.cycleStart s, fun e => ?_⟩
  have planned : Entry.Moves (s.entry e) (s.plannedCycle.entry e) := by
    rw [s.plannedCycle_entry, State.inForce]
    split
    · rw [State.epochProcessing_entry]
      exact .atBoundary _
    · exact .refl _
  rw [s.cycleStart_starts, State.startWindows_entry _ s.nodup_firstEntries]
  split
  · exact planned.trans (.counted ..)
  · exact planned

theorem startWindows (es : List EntryIx) : Motion s (s.startWindows es) := by
  refine foldl_related rfl' (fun _ _ _ => trans) (fun s e => ⟨.startWindow s e, fun f => ?_⟩) es s
  have counted : (s.startWindow e).entry f =
      if f = e then { s.entry e with fireCount := (s.entry e).fireCount + 1 } else s.entry f := by
    rw [State.entry, s.startWindow_entries, Table.get_set]
    rfl
  rw [counted]
  split
  · rename_i he
    rw [he]
    exact .counted ..
  · exact .refl _

theorem endWindows (es : List EntryIx) : Motion s (s.endWindows es) :=
  of_entries_eq (.endWindows s es) (s.endWindows_only es).entries

theorem gateEdge (i : InputIx) : Motion s (s.gateEdge i) := of_entries_eq (.gateEdge s i) (s.gateEdge_only i).entries

theorem earlyEdge : Motion s s.earlyEdge := of_entries_eq (.earlyEdge s) (NoticesOnly.broadcast ..).entries

theorem firstVote : Motion s s.firstVote := by
  unfold State.firstVote
  split
  · split
    · exact changeEngine ..
    · split
      · exact cycleStart s
      · exact changeEngine ..
      · exact changeEngine ..
  · exact changeEngine ..
  · exact rfl' s

theorem lastVoteCleared : Motion s s.lastVoteCleared := by
  unfold State.lastVoteCleared
  split
  · exact enterStopped s
  · exact changeEngine ..
  · exact enterStopped s
  · exact rfl' s

theorem cycleEnd : Motion s s.cycleEnd := by
  have closed : Motion s (s.endWindows s.openEntries).discardPlan.clearSpacing :=
    (endWindows s _).trans (of_entries_eq rfl rfl)
  have stopped : Motion s (s.endWindows s.openEntries).discardPlan.clearSpacing.stopTimer :=
    closed.trans (of_entries_eq rfl rfl)
  unfold State.cycleEnd
  dsimp only
  split
  · exact closed.trans (cycleStart _)
  · exact stopped.trans (changeEngine ..)
  · exact stopped.trans (enterStopped _)

theorem spacingEnd : Motion s s.spacingEnd := by
  have spaced : Motion s s.clearSpacing.stopTimer := of_entries_eq rfl rfl
  unfold State.spacingEnd
  dsimp only
  split
  · exact spaced.trans (cycleStart _)
  · exact spaced

theorem qualifyingEdge : Motion s s.qualifyingEdge := by
  unfold State.qualifyingEdge
  split
  · exact rfl' s
  · exact cycleStart s
  · exact earlyEdge s
  · exact earlyEdge s
  · exact earlyEdge s
  · exact rfl' s
  · exact rfl' s

theorem handEdge (i : InputIx) : Motion s (s.handEdge i) := by
  unfold State.handEdge
  dsimp only
  split
  · exact (gateEdge s i).trans (qualifyingEdge _)
  · exact gateEdge s i

theorem inhAssert : Motion s s.inhAssert := by
  have asserted : Motion s (s.setInh true) := of_entries_eq rfl rfl
  have counted : Motion s (s.setInh true).countEpisode := of_entries_eq rfl rfl
  have cut : Motion s s.inhibitedCycle := of_entries_eq s.inhibitedCycle_only s.inhibitedCycle_entries
  unfold State.inhAssert
  dsimp only
  split
  · exact cut.trans (changeEngine ..)
  · exact counted.trans (changeEngine ..)
  · exact cut.trans (enterStopped _)
  · exact asserted
  · exact asserted

theorem inhRelease : Motion s s.inhRelease := by
  have released : Motion s (s.setInh false) := of_entries_eq rfl rfl
  unfold State.inhRelease
  dsimp only
  split
  · exact released.trans (cycleStart _)
  · exact released.trans (changeEngine ..)
  · exact released.trans (changeEngine ..)
  · exact released

end Motion

/-- Every event of the schedule in motion is motion. -/
theorem MotionEvent.motion {s t : State} (h : MotionEvent s t) : Motion s t := by
  cases h with
  | cycleEnd => exact .cycleEnd s
  | spacingEnd => exact .spacingEnd s
  | inhAssert => exact .inhAssert s
  | inhRelease => exact .inhRelease s
  | windowBoundary => exact (Motion.endWindows s _).trans (.startWindows _ _)
  | handEdge i => exact .handEdge s i
  | firstVote => exact .firstVote s
  | lastVoteCleared => exact .lastVoteCleared s
  | highElapsed g j => exact .of_entries_eq rfl rfl
  | lowElapsed g j => exact .of_entries_eq rfl rfl

end Sys2Proof.Machine
end

