-- ==== Sys2Proof/Proofs/Lapses.lean ====
section
/-! SUPPORT. Reservations that are left, freed or retired and lines that are left or opened: what WITHDRAW, RELEASE_LINE and the
cleanup claim make of the tables, and the parts of the completions (R18, R20, R36, R41 to R44, R100, R101). -/

namespace Sys2Proof.Machine

/-! ### One entry -/

/-- An entry that is left, freed, or retired: no reservation is new, and one that stays keeps its owner and descriptor. -/
structure Entry.Lapses (x y : Entry) : Prop where
  descriptor : y.state ≠ .free → y.descriptor = x.descriptor
  reserved : y.state ≠ .free → x.state ≠ .free ∧ y.state.owner = x.state.owner
  nextEpoch : y.state.inNextEpoch = true → x.state.inNextEpoch = true

namespace Entry.Lapses

theorem refl (x : Entry) : Entry.Lapses x x := ⟨fun _ => rfl, fun h => ⟨h, rfl⟩, fun h => h⟩

theorem trans {x y z : Entry} (h : Entry.Lapses x y) (k : Entry.Lapses y z) : Entry.Lapses x z where
  descriptor hz := (k.descriptor hz).trans (h.descriptor (k.reserved hz).1)
  reserved hz := by
    obtain ⟨hy, owner⟩ := k.reserved hz
    obtain ⟨hx, owner'⟩ := h.reserved hy
    exact ⟨hx, owner.trans owner'⟩
  nextEpoch hz := h.nextEpoch (k.nextEpoch hz)

theorem freed (x : Entry) : Entry.Lapses x (freedEntry x) :=
  ⟨fun h => absurd rfl h, fun h => absurd rfl h, fun h => nomatch h⟩

theorem retired {x : Entry} {o : SessionId} (h : x.state = .active o) (why : RetireReason) :
    Entry.Lapses x { x with state := .retiring o why } :=
  ⟨fun _ => rfl, fun _ => by simp [h, EntryState.owner], fun h => nomatch h⟩

theorem cleaned (x : Entry) (o : SessionId) (c : EngineState) : Entry.Lapses x (x.cleaned o c) := by
  unfold Entry.cleaned
  split_ifs
  · exact freed x
  · exact retired ‹_› _
  · exact refl x

end Entry.Lapses

theorem Entry.Moves.lapses {x y : Entry} (h : Entry.Moves x y) : Entry.Lapses x y :=
  ⟨fun _ => h.descriptor, h.reserved, fun hy => h.nextEpoch ▸ hy⟩

/-! ### The tables -/

/-- Every entry of s is left, freed or retired in t, and every line left or opened, its levels as they were; the rest of the
part but the peak loads and the notices stands. -/
structure Lapse (s t : State) : Prop where
  only : ReservesOnly s t
  entries : ∀ e, Entry.Lapses (s.entry e) (t.entry e)
  holders : ∀ l, ∀ o ∈ (t.line l).holder, (s.line l).holder = some o
  idle : ∀ l, t.idleLevel l = s.idleLevel l
  driven : t.driven = s.driven

/-- While the engine is not STOPPED the entries that fire go on firing. -/
def FiringKept (s t : State) : Prop :=
  s.engine.state ≠ .stopped → ∀ e, (s.entry e).state.inFiring = true → (t.entry e).state.inFiring = true

theorem FiringKept.rfl' (s : State) : FiringKept s s := fun _ _ h => h

/-- Only the reservation table, the peak loads and the notices may differ, and each entry lapses. -/
theorem Lapse.of_entries {s t : State}
    (only : t = { s with entries := t.entries, peaks := t.peaks, notices := t.notices })
    (entries : ∀ e, Entry.Lapses (s.entry e) (t.entry e)) : Lapse s t := by
  refine ⟨?_, entries, fun l o ho => ?_, fun l => ?_, ?_⟩
  · unfold ReservesOnly
    rw [only]
  · rw [only] at ho
    exact ho
  · rw [only]
    rfl
  · rw [only]

namespace Lapse

theorem rfl' (s : State) : Lapse s s := of_entries rfl fun e => .refl (s.entry e)

theorem trans {s t u : State} (h : Lapse s t) (k : Lapse t u) : Lapse s u :=
  ⟨h.only.trans k.only, fun e => (h.entries e).trans (k.entries e), fun l o ho => h.holders l o (k.holders l o ho),
    fun l => (k.idle l).trans (h.idle l), k.driven.trans h.driven⟩

theorem engine {s t : State} (h : Lapse s t) : t.engine = s.engine := by rw [h.only]
theorem arbiter {s t : State} (h : Lapse s t) : t.arbiter = s.arbiter := by rw [h.only]
theorem sessions {s t : State} (h : Lapse s t) : t.sessions = s.sessions := by rw [h.only]

variable (s : State)

theorem setEntry {e : EntryIx} {x : Entry} (h : Entry.Lapses (s.entry e) x) : Lapse s (s.setEntry e x) := by
  refine of_entries rfl fun f => ?_
  by_cases hf : f = e
  · rw [hf, State.entry_setEntry]
    exact h
  · rw [State.entry_setEntry_ne s x hf]
    exact .refl _

theorem freeEntry (e : EntryIx) : Lapse s (s.freeEntry e) := setEntry s (.freed _)

theorem recomputePeaks : Lapse s s.recomputePeaks := of_entries rfl fun _ => .refl _

theorem withdrawAct (me : SessionId) (f : List Byte) : Lapse s (withdrawAct s me f).state := by
  unfold Machine.withdrawAct
  split
  · exact rfl' s
  · rename_i h _
    split
    · by_cases ho : s.ownerOf h.index = some me
      · by_cases hr : (s.entry h.index).state.isRetiring = true
        · rw [withdrawEntry_retiring ho hr]
          exact rfl' s
        · by_cases hf : (s.entry h.index).state = .pending me
            ∨ (s.entry h.index).state = .active me ∧ s.engine.state = .stopped
          · rw [withdrawEntry_frees ho hf]
            exact (freeEntry s _).trans (recomputePeaks _)
          · have := State.pending_or_active ho hr
            obtain ⟨active, running⟩ : (s.entry h.index).state = .active me ∧ s.engine.state ≠ .stopped := by tauto
            rw [withdrawEntry_retires ho active running]
            exact (setEntry s (.retired active _)).trans (recomputePeaks _)
      · rw [withdrawEntry_notOwner ho]
        exact rfl' s
    · exact rfl' s

theorem cleanup (o : SessionId) : Lapse s (s.cleanup o) := by
  have only := s.cleanup_only o
  refine ⟨.cleanup s o, fun e => ?_, fun l w hw => ?_, fun l => ?_, ?_⟩
  · rw [State.cleanup_entry]
    exact .cleaned ..
  · rw [State.cleanup_line, Line.cleaned] at hw
    split at hw
    · cases hw
    · exact hw
  · rw [State.idleLevel, State.cleanup_line, Line.cleaned]
    split <;> rfl
  · rw [only]

theorem releaseLineAct (me : SessionId) (f : List Byte) : Lapse s (releaseLineAct s me f).state := by
  unfold Machine.releaseLineAct
  split
  · exact rfl' s
  · rename_i l _
    split
    · refine ⟨rfl, fun _ => .refl _, fun m o ho => ?_, fun m => ?_, rfl⟩ <;> by_cases hm : m = l
      · rw [hm, State.line_setLine] at ho
        cases ho
      · rwa [State.line_setLine_ne s _ hm] at ho
      · rw [hm, State.idleLevel, State.line_setLine, State.idleLevel]
      · rw [State.idleLevel, State.line_setLine_ne s _ hm, State.idleLevel]
    · exact rfl' s

theorem retireReplaced {old : EntryIx} {o : SessionId} (h : (s.entry old).state = .active o) :
    Lapse s (s.retireReplaced old o) := by
  unfold State.retireReplaced
  split
  · refine (freeEntry s old).trans (of_entries ?_ fun e => ?_)
    · have notices := NoticesOnly.ownerNotice (s.freeEntry old) (s.ownerOf old) .lifecycle
        (.retired (s.handleOf old) (s.entry old).descriptor.label .replaced none)
      rw [State.freeWithNotice, notices]
    · unfold State.freeWithNotice State.entry
      rw [State.ownerNotice_entries]
      exact .refl _
  · exact setEntry s (.retired h _)

end Lapse

/-! ### The entries that go on firing -/

namespace FiringKept

variable (s : State)

theorem setEntry {e : EntryIx} {x : Entry}
    (h : s.engine.state ≠ .stopped → (s.entry e).state.inFiring = true → x.state.inFiring = true) :
    FiringKept s (s.setEntry e x) := by
  intro running f hf
  by_cases hfe : f = e
  · rw [hfe] at hf
    rw [hfe, State.entry_setEntry]
    exact h running hf
  · rwa [State.entry_setEntry_ne s x hfe]

theorem withdrawAct (me : SessionId) (f : List Byte) : FiringKept s (withdrawAct s me f).state := by
  unfold Machine.withdrawAct
  split
  · exact rfl' s
  · rename_i h _
    split
    · by_cases ho : s.ownerOf h.index = some me
      · by_cases hr : (s.entry h.index).state.isRetiring = true
        · rw [withdrawEntry_retiring ho hr]
          exact rfl' s
        · by_cases hf : (s.entry h.index).state = .pending me
            ∨ (s.entry h.index).state = .active me ∧ s.engine.state = .stopped
          · rw [withdrawEntry_frees ho hf]
            refine setEntry s fun running firing => ?_
            rcases hf with pending | ⟨-, stopped⟩
            · rw [pending] at firing
              cases firing
            · exact absurd stopped running
          · have := State.pending_or_active ho hr
            obtain ⟨active, running⟩ : (s.entry h.index).state = .active me ∧ s.engine.state ≠ .stopped := by tauto
            rw [withdrawEntry_retires ho active running]
            exact setEntry s fun _ _ => rfl
      · rw [withdrawEntry_notOwner ho]
        exact rfl' s
    · exact rfl' s

/-- A cleanup frees what is PENDING and, in STOPPED, what is ACTIVE. -/
theorem cleanup (o : SessionId) : FiringKept s (s.cleanup o) := by
  intro running e he
  rw [State.cleanup_entry, Entry.cleaned]
  split_ifs with freed
  · rcases freed with pending | ⟨-, stopped⟩
    · rw [pending] at he
      cases he
    · exact absurd stopped running
  · rfl
  · exact he

theorem freeEntry {e : EntryIx} (h : s.engine.state ≠ .stopped → (s.entry e).state.inFiring = false) :
    FiringKept s (s.freeEntry e) :=
  setEntry s fun running firing => by simp [h running] at firing

theorem retireReplaced (old : EntryIx) (o : SessionId) : FiringKept s (s.retireReplaced old o) := by
  intro running
  have retires : s.retireReplaced old o = s.setEntry old { s.entry old with state := .retiring o .replaced } :=
    if_neg running
  rw [retires]
  exact setEntry s (fun _ _ => rfl) running

/-- A new reservation is written on a FREE entry. -/
theorem writePending {e : EntryIx} (free : (s.entry e).state = .free) (o : SessionId) (d : Descriptor) :
    FiringKept s (s.writePending e o d) :=
  setEntry s fun _ firing => by
    rw [free] at firing
    cases firing

end FiringKept

/-! ### The completions (R36, R41) -/

namespace State

variable {P : State → Prop} {s : State} {me : SessionId}

/-- A predicate through the completion of an ADD that passed. -/
theorem completeAdd_keeps {d : Descriptor} (h : P s)
    (write : ∀ e, (s.entry e).state = .free → P (s.writePending e me d).recomputePeaks) :
    P (s.completeAdd me (.pass d)).state := by
  unfold completeAdd
  dsimp only
  split
  · exact h
  · exact write _ (s.state_of_lowestFree ‹_›)

/-- A predicate through the completion of a REPLACE that passed: the old entry freed, or retired after the new one is
written. -/
theorem completeReplace_keeps {r : Replacement} (h : P s)
    (free : (∃ o, (s.entry r.old).state = .pending o) ∨
      (∃ o, (s.entry r.old).state = .active o) ∧ r.stoppedAtTaking = true → P (s.freeEntry r.old))
    (write : ∀ t e, (t.entry e).state = .free → P t → P (t.writePending e me r.descriptor))
    (retire : ∀ t o, (t.entry r.old).state = .active o → P t → P (t.retireReplaced r.old o))
    (peaks : ∀ t, P t → P t.recomputePeaks) : P (s.completeReplace me (.pass r)).state := by
  have replaced (t : State) (ht : P t) : P (t.replaceFreed me r.descriptor).state := by
    unfold replaceFreed
    split
    · exact ht
    · exact peaks _ (write _ _ (t.state_of_lowestFree ‹_›) ht)
  unfold completeReplace
  dsimp only
  split
  · exact replaced _ (free (.inl ⟨_, ‹_›⟩))
  · rename_i o active
    split
    · exact replaced _ (free (.inr ⟨⟨_, active⟩, ‹_›⟩))
    · unfold replaceInForce
      split
      · exact h
      · rename_i e found
        have vacant := s.state_of_lowestFree found
        have ne : r.old ≠ e := by
          rintro rfl
          rw [vacant] at active
          cases active
        refine peaks _ (retire _ o ?_ (write _ _ vacant h))
        rwa [entry_writePending_ne ne]
  · exact h
  · exact h

end State

end Sys2Proof.Machine
end

