-- ==== Sys2Proof/Proofs/Claims.lean ====
section
/-! SUPPORT. On a CLAIMED line the holder's entries alone: `ClaimsRespected` through the parts of every step (R27, R46, R99). -/

namespace Sys2Proof.Machine

/-! ### A line claimed, an entry on a line -/

theorem Entry.isOn_iff {x : Entry} {l : LineIx} : x.isOn l = true ↔ x.state ≠ .free ∧ x.descriptor.line = l := by
  simp [Entry.isOn]

/-- An entry that lapses stays on its line or leaves it. -/
theorem Entry.Lapses.isOn {x y : Entry} (h : Entry.Lapses x y) {l : LineIx} (hy : y.isOn l = true) :
    x.isOn l = true ∧ y.state.owner = x.state.owner := by
  obtain ⟨busy, line⟩ := Entry.isOn_iff.1 hy
  obtain ⟨busy', owner⟩ := h.reserved busy
  exact ⟨Entry.isOn_iff.2 ⟨busy', h.descriptor busy ▸ line⟩, owner⟩

namespace State

variable {s : State} {l : LineIx} {me : SessionId}

theorem lineUsedByOther_eq_false :
    s.lineUsedByOther l me = false ↔ ∀ e, (s.entry e).isOn l = true → s.ownerOf e = some me := by
  simp [lineUsedByOther, mem_allEntries]

theorem lineInUse_eq_false : s.lineInUse l = false ↔ ∀ e, (s.entry e).isOn l = false := by
  simp [lineInUse, mem_allEntries]

/-- A predicate through CLAIM_LINE: kept when the line is claimed in the case that no refusal comes first (R97). -/
theorem claimLineAct_keeps {P : State → Prop} (h : P s)
    (claim : ∀ l idle gap, s.lineHeldByOther l me = false → s.lineUsedByOther l me = false →
      (idle = (s.line l).idle ∧ gap = (s.line l).gap) ∨ s.lineInUse l = false → P (s.claimLine l me idle gap))
    (f : List Byte) : P (claimLineAct s me f).state := by
  unfold claimLineAct
  split
  · exact h
  · split_ifs with held used changed
    · exact h
    · exact h
    · exact h
    · refine claim _ _ _ (by simpa using held) (by simpa using used) ?_
      rw [not_and_or, not_or, not_not, not_not, Bool.not_eq_true] at changed
      exact changed

theorem line_claimLine (l m : LineIx) (me : SessionId) (idle : Level) (gap : Nat) :
    (s.claimLine l me idle gap).line m = if m = l then { holder := some me, idle := idle, gap := gap } else s.line m := by
  unfold claimLine line
  dsimp only
  split <;> exact Table.get_set ..

end State

/-! ### What a flight has found of its line (R27, R46) -/

/-- A flight that has passed is for a line that no session other than its own holds. -/
def ClaimStands (s : State) (me : SessionId) : FlightOp → Prop
  | .add (.pass d) => ∀ o ∈ (s.line d.line).holder, o = me
  | .replace (.pass r) => ∀ o ∈ (s.line r.descriptor.line).holder, o = me
  | _ => True

theorem ClaimStands.of_holders {s t : State} {me : SessionId} {op : FlightOp} (h : ClaimStands s me op)
    (holders : ∀ l, ∀ o ∈ (t.line l).holder, (s.line l).holder = some o) : ClaimStands t me op := by
  match op with
  | .add (.pass d) => exact fun o ho => h o (holders _ o ho)
  | .replace (.pass r) => exact fun o ho => h o (holders _ o ho)
  | .add (.refuse _ _) => trivial
  | .replace (.refuse _ _) => trivial
  | .setHub _ => trivial

theorem Judged.claimStands {s : State} {me : SessionId} {op : FlightOp} (h : Judged s me op) : ClaimStands s me op := by
  cases h with
  | add f =>
    cases hv : s.judgeAdd me f with
    | refuse _ _ => trivial
    | pass d =>
      unfold State.judgeAdd at hv
      split at hv
      · cases hv
      · simp only [failWhen_eq_pass, State.judgeTrial_eq_pass] at hv
        obtain ⟨held, -, -, rfl⟩ := hv
        exact State.lineHeldByOther_eq_false.1 held
  | replace f =>
    cases hv : s.judgeReplace me f with
    | refuse _ _ => trivial
    | pass r =>
      unfold State.judgeReplace at hv
      split at hv
      · cases hv
      · split at hv
        · cases hv
        · simp only [failWhen_eq_pass] at hv
          obtain ⟨-, -, -, hv⟩ := hv
          unfold State.judgeReplacement at hv
          split at hv
          · cases hv
          · simp only [failWhen_eq_pass, State.judgeTrial_eq_pass] at hv
            obtain ⟨held, -, -, rfl⟩ := hv
            exact State.lineHeldByOther_eq_false.1 held
  | setHub f => trivial

namespace ClaimsRespected

variable {s : State}

theorem claimStands (h : ClaimsRespected s) {f : Flight} (hf : s.arbiter.executor = some f) :
    ClaimStands s f.session f.op := h.flight f hf

theorem of_stands (owners : ∀ l, ∀ o ∈ (s.line l).holder, ∀ e, (s.entry e).isOn l = true → s.ownerOf e = some o)
    (stands : ∀ f ∈ s.arbiter.executor, ClaimStands s f.session f.op) : ClaimsRespected s := ⟨owners, stands⟩

/-- Entries that lapse, lines that are left or opened, and the flight in progress or none. -/
theorem of_lapses {t : State} (h : ClaimsRespected s)
    (entries : ∀ e, Entry.Lapses (s.entry e) (t.entry e))
    (holders : ∀ l, ∀ o ∈ (t.line l).holder, (s.line l).holder = some o)
    (flights : ∀ f ∈ t.arbiter.executor, ∃ g ∈ s.arbiter.executor, g.op = f.op ∧ g.session = f.session) :
    ClaimsRespected t := by
  refine of_stands (fun l o ho e he => ?_) fun f hf => ?_
  · obtain ⟨on, owner⟩ := (entries e).isOn he
    exact owner.trans (h.owners l o (holders l o ho) e on)
  · obtain ⟨g, hg, op, session⟩ := flights f hf
    rw [← op, ← session]
    exact (h.claimStands hg).of_holders holders

theorem lapse {t : State} (h : ClaimsRespected s) (l : Lapse s t) : ClaimsRespected t := by
  refine h.of_lapses l.entries l.holders fun f hf => ?_
  rw [l.arbiter] at hf
  exact ⟨f, hf, rfl, rfl⟩

theorem motion {t : State} (h : ClaimsRespected s) (m : Motion s t) : ClaimsRespected t := by
  refine h.of_lapses (fun e => (m.entries e).lapses) (fun l o ho => ?_) fun f hf => ?_
  · rw [State.line, m.only.lines] at ho
    exact ho
  · rw [m.only.arbiter] at hf
    exact ⟨f, hf, rfl, rfl⟩

/-- The entries and the lines as they were, and the flight in progress or none. -/
theorem of_tables_eq {t : State} (h : ClaimsRespected s) (entries : t.entries = s.entries) (lines : t.lines = s.lines)
    (flights : ∀ f ∈ t.arbiter.executor, ∃ g ∈ s.arbiter.executor, g.op = f.op ∧ g.session = f.session) :
    ClaimsRespected t := by
  refine h.of_lapses (fun e => ?_) (fun l o ho => ?_) flights
  · rw [State.entry, State.entry, entries]
    exact .refl _
  · rw [State.line, lines] at ho
    exact ho

theorem of_books_eq {t : State} (h : ClaimsRespected s) (entries : t.entries = s.entries) (lines : t.lines = s.lines)
    (executor : t.arbiter.executor = s.arbiter.executor) : ClaimsRespected t :=
  h.of_tables_eq entries lines fun f hf => ⟨f, executor ▸ hf, rfl, rfl⟩

theorem release (h : ClaimsRespected s) : ClaimsRespected s.releaseExecutor := h.of_tables_eq rfl rfl nofun

theorem beginFlight (h : ClaimsRespected s) {p : Port} {me : SessionId} {r : Request} {op : FlightOp}
    (stands : ClaimStands s me op) : ClaimsRespected (s.beginFlight p me r op) := by
  refine of_stands h.owners fun f hf => ?_
  cases hf
  exact stands.of_holders fun _ _ ho => ho

/-- A new reservation on a line that no other session holds (R36). -/
theorem writePending (h : ClaimsRespected s) (free : s.arbiter.executor = none) {e : EntryIx} {me : SessionId}
    {d : Descriptor} (line : ∀ o ∈ (s.line d.line).holder, o = me) : ClaimsRespected (s.writePending e me d) := by
  refine of_stands (fun l o ho f hf => ?_) fun f hf => ?_
  · by_cases hfe : f = e
    · rw [hfe, State.entry_writePending, Entry.isOn_iff] at hf
      have mine : o = me := line o (hf.2 ▸ ho)
      rw [hfe, State.ownerOf, State.entry_writePending, mine]
      rfl
    · rw [State.ownerOf, State.entry_writePending_ne hfe] at *
      exact h.owners l o ho f hf
  · have : f ∈ s.arbiter.executor := hf
    simp [free] at this

/-- A line claimed by the session to which every entry on it belongs (R97, R98). -/
theorem claimLine (h : ClaimsRespected s) (free : s.arbiter.executor = none) {l : LineIx} {me : SessionId}
    (used : s.lineUsedByOther l me = false) (idle : Level) (gap : Nat) : ClaimsRespected (s.claimLine l me idle gap) := by
  have only := s.claimLine_only l me idle gap
  have entry (e : EntryIx) : (s.claimLine l me idle gap).entry e = s.entry e := by rw [only]; rfl
  refine of_stands (fun m o ho e he => ?_) fun f hf => ?_
  · rw [State.ownerOf, entry]
    rw [entry] at he
    rw [State.line_claimLine] at ho
    split at ho
    · rename_i same
      cases ho
      exact State.lineUsedByOther_eq_false.1 used e (same ▸ he)
    · exact h.owners m o ho e he
  · rw [only] at hf
    have : f ∈ s.arbiter.executor := hf
    simp [free] at this

/-- While a flight of session me for line l completes: the executor is free, and no other session holds the line. -/
structure Admits (me : SessionId) (l : LineIx) (s : State) : Prop where
  respected : ClaimsRespected s
  free : s.arbiter.executor = none
  line : ∀ o ∈ (s.line l).holder, o = me

theorem Admits.lapse {me : SessionId} {l : LineIx} {t : State} (h : Admits me l s) (p : Lapse s t) : Admits me l t :=
  ⟨h.respected.lapse p, p.arbiter ▸ h.free, fun o ho => h.line o (p.holders _ o ho)⟩

theorem Admits.writePending {me : SessionId} {d : Descriptor} {e : EntryIx} (h : Admits me d.line s) :
    Admits me d.line (s.writePending e me d) :=
  ⟨h.respected.writePending h.free h.line, h.free, h.line⟩

theorem completeAdd (h : ClaimsRespected s) {f : Flight} (hf : s.arbiter.executor = some f) {v : Verdict Descriptor}
    (hv : f.op = .add v) : ClaimsRespected (s.releaseExecutor.completeAdd f.session v).state := by
  have stands := h.claimStands hf
  rw [hv] at stands
  cases v with
  | refuse st b => exact h.release
  | pass d =>
    refine State.completeAdd_keeps h.release fun e _ => ?_
    exact (h.release.writePending rfl stands).lapse (.recomputePeaks _)

theorem completeReplace (h : ClaimsRespected s) {f : Flight} (hf : s.arbiter.executor = some f)
    {v : Verdict Replacement} (hv : f.op = .replace v) :
    ClaimsRespected (s.releaseExecutor.completeReplace f.session v).state := by
  have stands := h.claimStands hf
  rw [hv] at stands
  cases v with
  | refuse st b => exact h.release
  | pass r =>
    have released : Admits f.session r.descriptor.line s.releaseExecutor := ⟨h.release, rfl, stands⟩
    exact (State.completeReplace_keeps released (fun _ => released.lapse (.freeEntry ..))
      (fun _ _ _ ht => ht.writePending) (fun t _ active ht => ht.lapse (.retireReplaced t active))
      fun t ht => ht.lapse (.recomputePeaks t)).respected

/-- Every part of a step keeps the claims respected. -/
theorem keptByParts : KeptByParts ClaimsRespected where
  beside b h := h.of_books_eq (by rw [b.rest]) (by rw [b.rest]) b.executor
  event e h := h.motion e.motion
  tick _ h := h.of_tables_eq rfl rfl fun f hf => by
    obtain ⟨g, hg, rfl⟩ := Option.map_eq_some_iff.1 hf
    exact ⟨g, hg, rfl, rfl⟩
  withdraw me f _ h := h.lapse (.withdrawAct _ me f)
  claimLine f free _ h := State.claimLineAct_keeps h (fun _ _ _ _ used _ => h.claimLine free used _ _) f
  releaseLine me f h := h.lapse (.releaseLineAct _ me f)
  clearCounters h := h.of_books_eq rfl rfl rfl
  attach _ _ _ _ h := h.of_books_eq rfl rfl rfl
  endSession p expired h := State.endSession_keeps (fun _ => h.of_books_eq rfl rfl rfl)
    (fun t ht => ht.motion (.lastVoteCleared t)) (fun _ _ _ ht => ht.of_books_eq rfl rfl rfl) expired
  cleanup _ _ h := (h.of_books_eq rfl rfl rfl : ClaimsRespected (State.takeClaim _ _)).lapse (.cleanup ..)
  beginFlight _ _ judged h := h.beginFlight judged.claimStands
  release h := h.release
  completeAdd hf hv _ h := h.completeAdd hf hv
  completeReplace hf hv _ h := h.completeReplace hf hv
  setHub _ _ h := h.release.of_books_eq rfl rfl rfl
  holdReset _ h := h.of_books_eq rfl rfl rfl
  afterRelease := claimsRespected_afterRelease

end ClaimsRespected

end Sys2Proof.Machine
end

