-- ==== Sys2Proof/Proofs/OwnersAndPeaks.lean ====
section
/-! SUPPORT. Every owner attached or with its claim pending, and the peak loads current: `OwnersAccountable` and `PeaksCurrent`
through the parts of every step (R14, R54, R101, R143). -/

namespace Sys2Proof.Machine

/-! ### The sessions and the claims -/

namespace State

variable {s : State} {p : Port}

/-- The session records after the end of port p's session (R139). -/
theorem endSession_session (expired : Bool) (q : Port) :
    (s.endSession p expired).session q = if q = p then (s.session p).ended else s.session q := by
  rw [endSession_eq, session]
  dsimp only
  rw [(s.dropVote_only p _).sessions]
  exact Table.get_set ..

theorem endSession_claims (expired : Bool) :
    (s.endSession p expired).arbiter.claims = s.arbiter.claims.set p (some (s.session p).number) := by
  rw [endSession_eq]
  dsimp only
  rw [(s.dropVote_only p _).arbiter]
  rfl

theorem endSession_lines (expired : Bool) : (s.endSession p expired).lines = s.lines := by
  rw [endSession_eq]
  exact (s.dropVote_only p _).lines

/-- The vote going with a record is motion. -/
theorem dropVote_motion (x : Session) : Motion (s.setSession p x) (s.dropVote p x) := by
  unfold dropVote
  dsimp only
  split
  · exact .lastVoteCleared _
  · exact .rfl' _

theorem endSession_moves (expired : Bool) (e : EntryIx) :
    Entry.Moves (s.entry e) ((s.endSession p expired).entry e) := by
  rw [endSession_eq]
  exact (s.dropVote_motion (p := p) _).entries e

theorem attachSession_session (lease : Nat) (mask : Mask) {q : Port} (hq : q ≠ p) :
    (s.attachSession p lease mask).session q = s.session q := session_setSession_ne s _ hq

variable {t : State}

theorem attachedSession_congr {q : Port} (h : t.session q = s.session q) : t.attachedSession q = s.attachedSession q := by
  unfold attachedSession
  rw [h]

/-- An attached session is named by its port's number. -/
theorem number_of_attachedSession {o : SessionId} (h : s.attachedSession p = some o) : o.number = (s.session p).number := by
  obtain ⟨-, rfl⟩ := s.attachedSession_eq_some.1 h
  rfl

theorem accountable_congr {o : SessionId} (h : s.accountable o)
    (attached : t.attachedSession o.port = s.attachedSession o.port)
    (claims : t.arbiter.claims.get o.port = s.arbiter.claims.get o.port) : t.accountable o := by
  unfold accountable
  rw [attached, claims]
  exact h

end State

/-! ### Owners (R14, R101, R143) -/

/-- What a cleanup of session o leaves in the next-epoch set is another session's. -/
theorem Entry.owner_of_cleaned {o w : SessionId} {c : EngineState} {y : Entry}
    (next : (y.cleaned o c).state.inNextEpoch = true) (owner : (y.cleaned o c).state.owner = some w) : w ≠ o := by
  rintro rfl
  unfold Entry.cleaned at next owner
  split_ifs at next owner with freed active
  · cases next
  · cases next
  · cases hy : y.state <;> simp_all [EntryState.inNextEpoch, EntryState.owner]

namespace OwnersAccountable

variable {s : State} (h : OwnersAccountable s)
include h

/-- Entries that lapse and lines that are left or opened, while no session that may own one is lost. -/
theorem of_lapses {t : State} (entries : ∀ e, Entry.Lapses (s.entry e) (t.entry e))
    (holders : ∀ l, ∀ o ∈ (t.line l).holder, (s.line l).holder = some o)
    (accountable : ∀ o, s.accountable o → t.accountable o)
    (claims : ∀ p, ∀ n ∈ t.arbiter.claims.get p, (t.session p).attachment = none ∧ (t.session p).number = n) :
    OwnersAccountable t where
  entries e he o ho := by
    have busy : (t.entry e).state ≠ .free := EntryState.ne_free_iff.2 (.inl he)
    have owner : s.ownerOf e = some o := ((entries e).reserved busy).2.symm.trans ho
    exact accountable o (h.entries e ((entries e).nextEpoch he) o owner)
  lines l o ho := accountable o (h.lines l o (holders l o ho))
  claims := claims

/-- The sessions stay attached or DETACHED under their numbers, and the claims stay. -/
theorem of_sessions {t : State} (entries : ∀ e, Entry.Lapses (s.entry e) (t.entry e))
    (holders : ∀ l, ∀ o ∈ (t.line l).holder, (s.line l).holder = some o)
    (attached : ∀ p, (t.session p).attachment.isSome = (s.session p).attachment.isSome)
    (number : ∀ p, (t.session p).number = (s.session p).number) (claims : t.arbiter.claims = s.arbiter.claims) :
    OwnersAccountable t := by
  refine h.of_lapses entries holders (fun o ho => ?_) fun p n hn => ?_
  · refine State.accountable_congr ho ?_ (by rw [claims])
    unfold State.attachedSession
    rw [attached, number]
  · rw [claims] at hn
    obtain ⟨detached, mine⟩ := h.claims p n hn
    refine ⟨?_, (number p).trans mine⟩
    rw [← Option.isNone_iff_eq_none, ← Option.not_isSome, attached, detached]
    rfl

theorem lapse {t : State} (l : Lapse s t) : OwnersAccountable t :=
  h.of_sessions l.entries l.holders (fun _ => by rw [State.session, l.sessions, State.session])
    (fun _ => by rw [State.session, l.sessions, State.session]) (by rw [l.arbiter])

/-- The entries, the lines and the claims as they were. -/
theorem of_books_eq {t : State} (entries : t.entries = s.entries) (lines : t.lines = s.lines)
    (attached : ∀ p, (t.session p).attachment.isSome = (s.session p).attachment.isSome)
    (number : ∀ p, (t.session p).number = (s.session p).number) (claims : t.arbiter.claims = s.arbiter.claims) :
    OwnersAccountable t := by
  refine h.of_sessions (fun e => ?_) (fun l o ho => ?_) attached number claims
  · rw [State.entry, State.entry, entries]
    exact .refl _
  · rw [State.line, lines] at ho
    exact ho

/-- What touches neither entries, lines, sessions nor claims. -/
theorem of_rest {t : State} (entries : t.entries = s.entries) (lines : t.lines = s.lines)
    (sessions : t.sessions = s.sessions) (claims : t.arbiter.claims = s.arbiter.claims) : OwnersAccountable t :=
  h.of_books_eq entries lines (fun _ => by rw [State.session, sessions, State.session])
    (fun _ => by rw [State.session, sessions, State.session]) claims

theorem motion {t : State} (m : Motion s t) : OwnersAccountable t :=
  h.of_sessions (fun e => (m.entries e).lapses)
    (fun l o ho => by
      rw [State.line, m.only.lines] at ho
      exact ho)
    (fun _ => by rw [State.session, m.only.sessions, State.session])
    (fun _ => by rw [State.session, m.only.sessions, State.session]) (by rw [m.only.arbiter])

/-- A new session at a port of which no claim is pending: no owner is of that port (R132). -/
theorem attach {p : Port} (lease : Nat) (mask : Mask) (unclaimed : ∀ q, s.arbiter.claims.get q = none)
    (detached : (s.session p).attachment = none) : OwnersAccountable (s.attachSession p lease mask) := by
  refine h.of_lapses (fun _ => .refl _) (fun _ _ ho => ho) (fun o ho => ?_) fun q n hn => ?_
  · rcases ho with attached | claimed
    · have other : o.port ≠ p := fun mine => by
        rw [mine, s.attachedSession_eq_none.2 detached] at attached
        cases attached
      exact .inl ((State.attachedSession_congr (State.attachSession_session lease mask other)).trans attached)
    · rw [unclaimed] at claimed
      cases claimed
  · have : s.arbiter.claims.get q = some n := hn
    rw [unclaimed] at this
    cases this

/-- A session that ends leaves its claim in its place (R139). -/
theorem endSession (p : Port) (expired : Bool) : OwnersAccountable (s.endSession p expired) := by
  refine h.of_lapses (fun e => (s.endSession_moves expired e).lapses) (fun l o ho => ?_) (fun o ho => ?_)
    fun q n hn => ?_
  · rw [State.line, State.endSession_lines] at ho
    exact ho
  · by_cases mine : o.port = p
    · have number : o.number = (s.session p).number := by
        rcases ho with attached | claimed
        · exact State.number_of_attachedSession (mine ▸ attached)
        · exact ((h.claims p _ (mine ▸ claimed)).2).symm
      refine .inr ?_
      rw [State.endSession_claims, mine, Table.get_set_self, number]
    · refine State.accountable_congr ho (State.attachedSession_congr ?_) ?_
      · rw [State.endSession_session, if_neg mine]
      · rw [State.endSession_claims, Table.get_set_ne _ _ mine]
  · rw [State.endSession_claims, Table.get_set] at hn
    rw [State.endSession_session]
    split at hn
    · cases hn
      rw [if_pos ‹_›]
      exact ⟨rfl, rfl⟩
    · rw [if_neg ‹_›]
      exact h.claims q n hn

/-- A claim that is taken leaves nothing of its session's (R20, R101, R143). -/
theorem cleanup {p : Port} {n : Byte} (claimed : s.arbiter.claims.get p = some n) :
    OwnersAccountable ((s.takeClaim p).cleanup { port := p, number := n }) := by
  have only := (s.takeClaim p).cleanup_only { port := p, number := n }
  have lapse := Lapse.cleanup (s.takeClaim p) { port := p, number := n }
  have claims : ((s.takeClaim p).cleanup { port := p, number := n }).arbiter.claims = s.arbiter.claims.set p none := by
    rw [only]
    rfl
  have sessions : ((s.takeClaim p).cleanup { port := p, number := n }).sessions = s.sessions := by rw [only]; rfl
  have session (q : Port) : ((s.takeClaim p).cleanup { port := p, number := n }).session q = s.session q := by
    rw [State.session, sessions, State.session]
  have others {o : SessionId} (ho : s.accountable o) (ne : o ≠ { port := p, number := n }) :
      ((s.takeClaim p).cleanup { port := p, number := n }).accountable o := by
    rcases ho with attached | pending
    · exact .inl ((State.attachedSession_congr (session _)).trans attached)
    · refine .inr ?_
      have other : o.port ≠ p := by
        intro mine
        rw [mine, claimed, Option.some.injEq] at pending
        exact ne (by rw [← mine, pending])
      rw [claims, Table.get_set_ne _ _ other, pending]
  refine ⟨fun e he o ho => ?_, fun l o ho => ?_, fun q m hm => ?_⟩
  · have owner : s.ownerOf e = some o :=
      ((lapse.entries e).reserved (EntryState.ne_free_iff.2 (.inl he))).2.symm.trans ho
    refine others (h.entries e ((lapse.entries e).nextEpoch he) o owner) ?_
    rw [State.cleanup_entry] at he
    rw [State.ownerOf, State.cleanup_entry] at ho
    exact Entry.owner_of_cleaned he ho
  · refine others (h.lines l o (lapse.holders l o ho)) ?_
    rw [State.cleanup_line, Line.cleaned] at ho
    split at ho
    · cases ho
    · rename_i kept
      rintro rfl
      exact kept ho
  · rw [claims, Table.get_set] at hm
    rw [session]
    split at hm
    · cases hm
    · exact h.claims q m hm

/-- A new reservation of an attached session (R36). -/
theorem writePending {me : SessionId} (attached : s.attachedSession me.port = some me) (e : EntryIx) (d : Descriptor) :
    OwnersAccountable (s.writePending e me d) where
  entries f hf o ho := by
    by_cases hfe : f = e
    · rw [hfe, State.ownerOf, State.entry_writePending] at ho
      cases ho
      exact .inl attached
    · rw [State.ownerOf, State.entry_writePending_ne hfe] at ho
      rw [State.entry_writePending_ne hfe] at hf
      exact h.entries f hf o ho
  lines := h.lines
  claims := h.claims

/-- A line claimed by an attached session (R98). -/
theorem claimLine {me : SessionId} (attached : s.attachedSession me.port = some me) (l : LineIx) (idle : Level)
    (gap : Nat) : OwnersAccountable (s.claimLine l me idle gap) := by
  have lines := s.line_claimLine l (me := me) (idle := idle) (gap := gap)
  have only := s.claimLine_only l me idle gap
  generalize s.claimLine l me idle gap = t at lines only
  have sound : t.accountable = s.accountable := by rw [only]; rfl
  refine ⟨fun e he o ho => ?_, fun m o ho => ?_, ?_⟩
  · rw [sound]
    rw [only] at he ho
    exact h.entries e he o ho
  · rw [sound]
    rw [lines] at ho
    split at ho
    · cases ho
      exact .inl attached
    · exact h.lines m o ho
  · rw [only]
    exact h.claims

theorem release : OwnersAccountable s.releaseExecutor := h.of_rest rfl rfl rfl rfl

/-- While a flight of the attached session me completes. -/
structure Completing (me : SessionId) (s : State) : Prop where
  accountable : OwnersAccountable s
  attached : s.attachedSession me.port = some me

omit h in
theorem Completing.lapse {me : SessionId} {t : State} (h : Completing me s) (p : Lapse s t) : Completing me t :=
  ⟨h.accountable.lapse p,
    (State.attachedSession_congr (by rw [State.session, p.sessions, State.session])).trans h.attached⟩

omit h in
theorem Completing.writePending {me : SessionId} (h : Completing me s) (e : EntryIx) (d : Descriptor) :
    Completing me (s.writePending e me d) := ⟨h.accountable.writePending h.attached e d, h.attached⟩

theorem completeAdd {me : SessionId} (attached : s.attachedSession me.port = some me) (v : Verdict Descriptor) :
    OwnersAccountable (s.completeAdd me v).state := by
  cases v with
  | refuse st b => exact h
  | pass d => exact State.completeAdd_keeps h fun e _ => (h.writePending attached e d).lapse (.recomputePeaks _)

theorem completeReplace {me : SessionId} (attached : s.attachedSession me.port = some me) (v : Verdict Replacement) :
    OwnersAccountable (s.completeReplace me v).state := by
  cases v with
  | refuse st b => exact h
  | pass r =>
    have completing : Completing me s := ⟨h, attached⟩
    exact (State.completeReplace_keeps completing (fun _ => completing.lapse (.freeEntry ..))
      (fun _ e _ ht => ht.writePending e _) (fun t _ active ht => ht.lapse (.retireReplaced t active))
      fun t ht => ht.lapse (.recomputePeaks t)).accountable

omit h in
/-- Every part of a step keeps the owners accountable. -/
theorem keptByParts : KeptByParts OwnersAccountable where
  beside b h := h.of_books_eq (by rw [b.rest]) (by rw [b.rest]) b.attached b.number b.claims
  event e h := h.motion e.motion
  tick _ h := h.of_books_eq rfl rfl (fun p => by rw [State.tick_session]; simp [Session.tick])
    (fun p => by rw [State.tick_session]; rfl) rfl
  withdraw me f _ h := h.lapse (.withdrawAct _ me f)
  claimLine f _ attached h := State.claimLineAct_keeps h (fun l idle gap _ _ _ => h.claimLine attached l idle gap) f
  releaseLine me f h := h.lapse (.releaseLineAct _ me f)
  clearCounters h := h.of_rest rfl rfl rfl rfl
  attach lease mask unclaimed detached h := h.attach lease mask unclaimed detached
  endSession p expired h := h.endSession p expired
  cleanup _ claimed h := h.cleanup claimed
  beginFlight _ _ _ h := h.of_rest rfl rfl rfl rfl
  release h := h.release
  completeAdd _ _ attached h := h.release.completeAdd attached _
  completeReplace _ _ attached h := h.release.completeReplace attached _
  setHub _ _ h := h.of_rest rfl rfl rfl rfl
  holdReset _ h := h.of_rest rfl rfl rfl rfl
  afterRelease := ownersAccountable_afterRelease

end OwnersAccountable

/-! ### Peak loads (R54) -/

namespace PeaksCurrent

variable {s : State}

/-- The peak loads and the reservation table as they were. -/
theorem of_entries_eq {t : State} (h : PeaksCurrent s) (peaks : t.peaks = s.peaks) (entries : t.entries = s.entries) :
    PeaksCurrent t := by
  refine h.of_eq peaks ?_
  unfold State.nextEpochSet State.nextEpochEntries State.memberOf State.handleOf State.entry
  rw [entries]

theorem motion {t : State} (h : PeaksCurrent s) (m : Motion s t) : PeaksCurrent t := h.of_eq m.only.peaks m.nextEpochSet

theorem withdrawAct (h : PeaksCurrent s) (me : SessionId) (f : List Byte) : PeaksCurrent (withdrawAct s me f).state := by
  unfold Machine.withdrawAct
  split
  · exact h
  · split
    · unfold State.withdrawEntry
      split
      · exact h
      · split
        · exact h
        · exact State.recomputePeaks_current _
        · exact State.recomputePeaks_current _
        · exact h
    · exact h

theorem completeAdd (h : PeaksCurrent s) (me : SessionId) (v : Verdict Descriptor) :
    PeaksCurrent (s.completeAdd me v).state := by
  cases v with
  | refuse st b => exact h
  | pass d => exact State.completeAdd_keeps h fun _ _ => State.recomputePeaks_current _

/-- With an entry just freed a new one is written, and the peak loads follow (R42, R44). -/
theorem replaceFreed (s : State) (old : EntryIx) (me : SessionId) (d : Descriptor) :
    PeaksCurrent ((s.freeEntry old).replaceFreed me d).state := by
  unfold State.replaceFreed
  split
  · rename_i full
    have occupied := find_allEntries_eq_none.1 full old
    simp [State.freeEntry, freedEntry] at occupied
  · exact State.recomputePeaks_current _

theorem completeReplace (h : PeaksCurrent s) (me : SessionId) (v : Verdict Replacement) :
    PeaksCurrent (s.completeReplace me v).state := by
  unfold State.completeReplace
  split
  · exact h
  · split
    · exact replaceFreed ..
    · split
      · exact replaceFreed ..
      · unfold State.replaceInForce
        split
        · exact h
        · exact State.recomputePeaks_current _
    · exact h
    · exact h

theorem claimLineAct (h : PeaksCurrent s) (me : SessionId) (f : List Byte) : PeaksCurrent (claimLineAct s me f).state := by
  refine State.claimLineAct_keeps h (fun l idle gap _ _ _ => ?_) f
  rw [State.claimLine_only]
  exact h.of_entries_eq rfl rfl

theorem releaseLineAct (h : PeaksCurrent s) (me : SessionId) (f : List Byte) :
    PeaksCurrent (releaseLineAct s me f).state := by
  unfold Machine.releaseLineAct
  split
  · exact h
  · split
    · exact h.of_entries_eq rfl rfl
    · exact h

/-- Every part of a step keeps the peak loads current. -/
theorem keptByParts : KeptByParts PeaksCurrent where
  beside b h := h.of_entries_eq (by rw [b.rest]) (by rw [b.rest])
  event e h := h.motion e.motion
  tick _ h := h.of_entries_eq rfl rfl
  withdraw me f _ h := h.withdrawAct me f
  claimLine f _ _ h := h.claimLineAct _ f
  releaseLine me f h := h.releaseLineAct me f
  clearCounters h := h.of_entries_eq rfl rfl
  attach _ _ _ _ h := h.of_entries_eq rfl rfl
  endSession _ expired h := State.endSession_keeps (fun _ => h.of_entries_eq rfl rfl)
    (fun t ht => ht.motion (.lastVoteCleared t)) (fun _ _ _ ht => ht.of_entries_eq rfl rfl) expired
  cleanup _ _ _ := State.recomputePeaks_current _
  beginFlight _ _ _ h := h.of_entries_eq rfl rfl
  release h := h.of_entries_eq rfl rfl
  completeAdd _ _ _ h := (h.of_entries_eq rfl rfl : PeaksCurrent (State.releaseExecutor _)).completeAdd _ _
  completeReplace _ _ _ h := (h.of_entries_eq rfl rfl : PeaksCurrent (State.releaseExecutor _)).completeReplace _ _
  setHub _ _ h := h.of_entries_eq rfl rfl
  holdReset _ h := h.of_entries_eq rfl rfl
  afterRelease := peaksCurrent_afterRelease

end PeaksCurrent

/-- Settles O59: no part of a step writes a reservation or a holder other than of the attached session that the line and the
flight are for, and what changes the next-epoch set recomputes the peak loads. -/
theorem stepKeepsClaimsOwnersAndPeaks : Obligations.StepKeepsClaimsOwnersAndPeaks :=
  ⟨fun _ _ => ClaimsRespected.keptByParts.step, fun _ _ => OwnersAccountable.keptByParts.step,
    fun _ _ => PeaksCurrent.keptByParts.step⟩

end Sys2Proof.Machine
end

