-- ==== Sys2Proof/Proofs/ServedWindows.lean ====
section
/-! SUPPORT. Lines and burst engines served by the OPEN windows of the plan, entry by entry: what each operation of the window
sequencer keeps of it (R79, R83, R86, R88, R91, R94, R104). -/

namespace Sys2Proof.Machine

/-! ### The windows of the plan, by their entries -/

/-- The window of entry e is OPEN. -/
def State.opened (s : State) (e : EntryIx) : Prop := ∃ x, s.windowState e = some x ∧ x.isOpen = true

/-- The engine that is assigned to the window of entry e. -/
def State.engineOf (s : State) (e : EntryIx) : Option EngineIx := (s.windowState e).bind WindowState.engine

namespace State

variable {s t : State} {e f : EntryIx} {x : WindowState}

theorem opened_congr (h : t.plan = s.plan) : t.opened e ↔ s.opened e := by
  unfold opened
  rw [windowState_congr h]

theorem engineOf_congr (h : t.plan = s.plan) : t.engineOf e = s.engineOf e := by
  rw [engineOf, windowState_congr h, engineOf]

theorem opened_of_engineOf {g : EngineIx} (h : s.engineOf e = some g) : s.opened e := by
  obtain ⟨x, hx, hg⟩ := Option.bind_eq_some_iff.1 h
  exact ⟨x, hx, WindowState.isOpen_of_engine hg⟩

theorem planned_of_opened (h : s.opened e) : (s.windowState e).isSome = true := by
  obtain ⟨x, hx, -⟩ := h
  rw [hx]
  rfl

section window

variable (window : ∀ d, t.windowState d = (s.windowState d).map fun y => if d = e then x else y)
include window

theorem opened_of_window_ne (hf : f ≠ e) : t.opened f ↔ s.opened f := by
  unfold opened
  simp [window, hf]

theorem engineOf_of_window_ne (hf : f ≠ e) : t.engineOf f = s.engineOf f := by
  unfold engineOf
  simp [window, hf]

theorem engineOf_of_window_self : t.engineOf e = if (s.windowState e).isSome then x.engine else none := by
  unfold engineOf
  cases h : s.windowState e <;> simp [window, h]

end window

end State

/-- `LinesServed` but for the plan's presence and the flight, window by window. -/
structure WindowsServed (s : State) : Prop where
  distinct : (s.planList.map fun w => w.entry).Nodup
  inForce : ∀ e, (s.windowState e).isSome = true → (s.entry e).state.inFiring = true
  holder : ∀ l e, s.holding.get l = some e → s.opened e ∧ s.lineOf e = l
  driven : s.hold = none → ∀ l, s.driven.get l ≠ s.idleLevel l → ∃ e, s.opened e ∧ s.lineOf e = l
  engine : ∀ g j, (s.burst g).job = some j →
    s.engineOf j.window = some g ∧ j.line = s.lineOf j.window ∧ j.idle = s.idleLevel j.line
      ∧ (s.entry j.window).descriptor.isBurst = true
  served : ∀ e g, s.engineOf e = some g → ∃ j, (s.burst g).job = some j ∧ j.window = e

/-- A flight that rests on a STOPPED engine (R41, R44). -/
def FlightOp.restsOnStop : FlightOp → Bool
  | .replace (.pass r) => r.stoppedAtTaking
  | _ => false

/-- While a flight rests on a STOPPED engine, the engine is STOPPED. -/
def FlightWaits (s : State) : Prop :=
  ∀ f ∈ s.arbiter.executor, f.op.restsOnStop = true → s.engine.state = .stopped

namespace WindowsServed

variable {s : State}

theorem of_linesServed (h : LinesServed s) : WindowsServed s where
  distinct := h.distinct
  inForce e he := by
    obtain ⟨x, hx⟩ := Option.isSome_iff_exists.1 he
    obtain ⟨w, hw, rfl, -⟩ := State.mem_of_windowState hx
    exact h.inForce w hw
  holder l e he := by
    obtain ⟨w, hw, rfl, isOpen, line⟩ := h.holder l e he
    exact ⟨⟨w.state, State.windowState_of_mem h.distinct hw, isOpen⟩, line⟩
  driven hold l hl := by
    obtain ⟨w, hw, isOpen, line⟩ := h.driven hold l hl
    exact ⟨w.entry, ⟨w.state, State.windowState_of_mem h.distinct hw, isOpen⟩, line⟩
  engine g j hj := by
    obtain ⟨⟨w, hw, entry, engine⟩, rest⟩ := h.engine g j hj
    refine ⟨?_, rest⟩
    rw [State.engineOf, ← entry, State.windowState_of_mem h.distinct hw]
    exact engine
  served e g hg := by
    obtain ⟨x, hx, engine⟩ := Option.bind_eq_some_iff.1 hg
    obtain ⟨w, hw, rfl, rfl⟩ := State.mem_of_windowState hx
    exact h.served w hw g engine

theorem linesServed (h : WindowsServed s) (plan : s.plan.isSome = s.engine.state.inProgress) (waits : FlightWaits s) :
    LinesServed s where
  plan := plan
  distinct := h.distinct
  inForce w hw := by
    refine h.inForce w.entry ?_
    rw [State.windowState_of_mem h.distinct hw]
    rfl
  holder l e he := by
    obtain ⟨⟨x, hx, isOpen⟩, line⟩ := h.holder l e he
    obtain ⟨w, hw, entry, rfl⟩ := State.mem_of_windowState hx
    exact ⟨w, hw, entry, isOpen, line⟩
  driven hold l hl := by
    obtain ⟨e, ⟨x, hx, isOpen⟩, line⟩ := h.driven hold l hl
    obtain ⟨w, hw, rfl, rfl⟩ := State.mem_of_windowState hx
    exact ⟨w, hw, isOpen, line⟩
  engine g j hj := by
    obtain ⟨mine, rest⟩ := h.engine g j hj
    obtain ⟨x, hx, engine⟩ := Option.bind_eq_some_iff.1 mine
    obtain ⟨w, hw, entry, rfl⟩ := State.mem_of_windowState hx
    exact ⟨⟨w, hw, entry, engine⟩, rest⟩
  served w hw g hg := by
    refine h.served w.entry g ?_
    rw [State.engineOf, State.windowState_of_mem h.distinct hw]
    exact hg
  flight f hf := by
    have stops := waits f hf
    split
    · rename_i hop
      rw [hop] at stops
      exact stops
    · trivial

end WindowsServed

theorem LinesServed.flightWaits {s : State} (h : LinesServed s) : FlightWaits s := by
  intro f hf rests
  have stops := h.flight f hf
  match hop : f.op with
  | .replace (.pass r) =>
    rw [hop] at stops rests
    exact stops rests
  | .replace (.refuse _ _) | .add _ | .setHub _ =>
    rw [hop] at rests
    cases rests

/-! ### What is read of a state -/

theorem State.planList_congr {s t : State} (h : t.plan = s.plan) : t.planList = s.planList := by
  rw [planList, h, planList]

/-- The windows, lines and burst engines as they were; planned entries still in force, with their descriptors. -/
theorem WindowsServed.of_facts {s t : State} (h : WindowsServed s) (plan : t.plan = s.plan)
    (holding : t.holding = s.holding) (driven : t.driven = s.driven) (bursts : t.bursts = s.bursts)
    (hold : t.hold = none → s.hold = none) (idle : ∀ l, t.idleLevel l = s.idleLevel l)
    (entries : ∀ e, (s.windowState e).isSome = true →
      (t.entry e).state.inFiring = true ∧ (t.entry e).descriptor = (s.entry e).descriptor) : WindowsServed t := by
  have line {e : EntryIx} (he : s.opened e) : t.lineOf e = s.lineOf e := by
    rw [State.lineOf, (entries e (State.planned_of_opened he)).2, State.lineOf]
  have opened (e : EntryIx) : t.opened e ↔ s.opened e := State.opened_congr plan
  have engineOf (e : EntryIx) : t.engineOf e = s.engineOf e := State.engineOf_congr plan
  refine ⟨?_, fun e he => ?_, fun l e he => ?_, fun ht l hl => ?_, fun g j hj => ?_, fun e g hg => ?_⟩
  · rw [State.planList_congr plan]
    exact h.distinct
  · rw [State.windowState_congr plan] at he
    exact (entries e he).1
  · rw [holding] at he
    obtain ⟨hopen, hline⟩ := h.holder l e he
    exact ⟨(opened e).2 hopen, (line hopen).trans hline⟩
  · rw [driven, idle] at hl
    obtain ⟨e, hopen, hline⟩ := h.driven (hold ht) l hl
    exact ⟨e, (opened e).2 hopen, (line hopen).trans hline⟩
  · rw [State.burst_congr bursts] at hj
    obtain ⟨mine, hline, hidle, hburst⟩ := h.engine g j hj
    have hopen := State.opened_of_engineOf mine
    refine ⟨(engineOf _).trans mine, hline.trans (line hopen).symm, hidle.trans (idle _).symm, ?_⟩
    rw [(entries _ (State.planned_of_opened hopen)).2]
    exact hburst
  · rw [engineOf] at hg
    rw [State.burst_congr bursts]
    exact h.served e g hg

/-- What touches neither windows, lines, burst engines nor entries. -/
theorem WindowsServed.of_eq {s t : State} (h : WindowsServed s) (plan : t.plan = s.plan) (holding : t.holding = s.holding)
    (driven : t.driven = s.driven) (bursts : t.bursts = s.bursts) (hold : t.hold = s.hold) (lines : t.lines = s.lines)
    (entries : t.entries = s.entries) : WindowsServed t := by
  refine h.of_facts plan holding driven bursts (fun ht => hold ▸ ht) (fun l => ?_) fun e he => ?_
  · rw [State.idleLevel, State.line, lines, State.idleLevel, State.line]
  · rw [State.entry, entries]
    exact ⟨h.inForce e he, rfl⟩

theorem WindowsServed.notices {s t : State} (h : WindowsServed s) (n : NoticesOnly s t) : WindowsServed t := by
  unfold NoticesOnly at n
  refine h.of_eq ?_ ?_ ?_ ?_ ?_ ?_ ?_ <;> rw [n]

namespace WindowsServed

variable {s : State} (h : WindowsServed s)
include h

/-- A busy engine serves one window. -/
theorem engineOf_inj {e f : EntryIx} {g : EngineIx} (he : s.engineOf e = some g) (hf : s.engineOf f = some g) : e = f := by
  obtain ⟨i, hi, rfl⟩ := h.served e g he
  obtain ⟨j, hj, rfl⟩ := h.served f g hf
  rw [Option.some.inj (hi.symm.trans hj)]

theorem fst_jobOf {e : EntryIx} : (s.jobOf e).map Prod.fst = s.engineOf e := by
  refine Option.ext fun g => ⟨fun hg => ?_, fun hg => ?_⟩
  · obtain ⟨j, hj⟩ := State.map_fst_jobOf.1 hg
    exact (s.jobOf_eq_some.1 hj).1
  · obtain ⟨j, hj, -⟩ := h.served e g hg
    exact State.map_fst_jobOf.2 ⟨j, s.jobOf_eq_some.2 ⟨hg, hj⟩⟩

/-! ### A window that ends or is cut (R88, R91) -/

/-- A window shut in a state that is not OPEN leaves its line and its engine. -/
theorem shutWindow {x : WindowState} (shut : x.isOpen = false) (e : EntryIx) : WindowsServed (s.shutWindow x e) := by
  have window := s.shutWindow_windowState x e
  have only := s.shutWindow_only x e
  have line : (s.shutWindow x e).lineOf = s.lineOf := funext fun f => by rw [State.lineOf, only.entry, State.lineOf]
  have unserved : x.engine = none := by
    cases hx : x.engine with
    | none => rfl
    | some g => simp [WindowState.isOpen_of_engine hx] at shut
  have released {f : EntryIx} {g : EngineIx} (hg : (s.shutWindow x e).engineOf f = some g) : f ≠ e := by
    rintro rfl
    rw [State.engineOf_of_window_self window, unserved, ite_self] at hg
    cases hg
  refine ⟨?_, fun f hf => ?_, fun l f hl => ?_, fun hold l hl => ?_, fun g j hj => ?_, fun f g hg => ?_⟩
  · rw [State.planList_congr (s.shutWindow_plan x e), State.planList_setWindowState, setWindow_entries]
    exact h.distinct
  · rw [window, Option.isSome_map] at hf
    rw [only.entry]
    exact h.inForce f hf
  · rw [s.shutWindow_holding, Table.get_set] at hl
    split at hl
    · cases hl
    · rename_i other
      obtain ⟨hopen, hline⟩ := h.holder l f hl
      have ne : f ≠ e := fun he => other (by rw [← hline, he]; rfl)
      exact ⟨(State.opened_of_window_ne window ne).2 hopen, line ▸ hline⟩
  · rw [s.shutWindow_driven, Table.get_set, only.idleLevel] at hl
    split at hl
    · exact absurd (by rw [‹l = _›]) hl
    · rename_i other
      have free : s.hold = none := by rw [only] at hold; exact hold
      obtain ⟨f, hopen, hline⟩ := h.driven free l hl
      have ne : f ≠ e := fun he => other (by rw [← hline, he]; rfl)
      exact ⟨f, (State.opened_of_window_ne window ne).2 hopen, line ▸ hline⟩
  · rw [s.shutWindow_burst, h.fst_jobOf] at hj
    split at hj
    · cases hj
    · rename_i other
      obtain ⟨mine, hline, hidle, hburst⟩ := h.engine g j hj
      have ne : j.window ≠ e := fun he => other (he ▸ mine)
      rw [State.engineOf_of_window_ne window ne, line, only.idleLevel, only.entry]
      exact ⟨mine, hline, hidle, hburst⟩
  · have ne := released hg
    rw [State.engineOf_of_window_ne window ne] at hg
    obtain ⟨j, hj, named⟩ := h.served f g hg
    refine ⟨j, ?_, named⟩
    rw [s.shutWindow_burst, h.fst_jobOf, if_neg fun he => ne (h.engineOf_inj hg he)]
    exact hj

theorem endWindow (e : EntryIx) : WindowsServed (s.endWindow e) :=
  (h.shutWindow (x := .closed) rfl e).notices (s.endWindow_notices e)

theorem endWindows (es : List EntryIx) : WindowsServed (s.endWindows es) :=
  List.foldlRecOn es _ h fun _ ht e _ => ht.endWindow e

theorem cutWindow (c : Nat) (e : EntryIx) : WindowsServed (State.cutWindow c s e) := by
  rw [s.cutWindow_eq e c]
  exact ((h.shutWindow (x := .cut) rfl e).notices (.windowNotice ..)).of_eq rfl rfl rfl rfl rfl rfl rfl

theorem cutWindows (c : Nat) (es : List EntryIx) : WindowsServed (es.foldl (State.cutWindow c) s) :=
  List.foldlRecOn es _ h fun _ ht e _ => ht.cutWindow c e

/-! ### A job goes on (R104) -/

/-- An engine whose job goes on for the same window on the same line. -/
theorem setJob {g : EngineIx} {j k : BurstJob} (hj : (s.burst g).job = some j) (window : k.window = j.window)
    (line : k.line = j.line) (idle : k.idle = j.idle) : WindowsServed (s.setJob g k) := by
  obtain ⟨mine, hline, hidle, hburst⟩ := h.engine g j hj
  have burst (i : EngineIx) : (s.setJob g k).burst i = if i = g then .busy k else s.burst i := Table.get_set ..
  have drivenAt (l : LineIx) : (s.setJob g k).driven.get l = if l = k.line then k.level else s.driven.get l :=
    Table.get_set ..
  refine ⟨h.distinct, h.inForce, h.holder, fun hold l hl => ?_, fun i m hm => ?_, fun e i hi => ?_⟩
  · rw [drivenAt] at hl
    split at hl
    · rename_i same
      exact ⟨j.window, State.opened_of_engineOf mine, (by rw [same, line, hline] : s.lineOf j.window = l)⟩
    · exact h.driven hold l hl
  · rw [burst] at hm
    split at hm
    · rename_i same
      cases hm
      rw [window, line, idle, same]
      exact ⟨mine, hline, hidle, hburst⟩
    · exact h.engine i m hm
  · obtain ⟨m, hm, named⟩ := h.served e i hi
    rw [burst]
    split
    · rename_i same
      rw [same, hj] at hm
      cases hm
      exact ⟨k, rfl, window.trans named⟩
    · exact ⟨m, hm, named⟩

end WindowsServed

end Sys2Proof.Machine
end

