-- ==== Sys2Proof/Proofs/ServedStarts.lean ====
section
/-! SUPPORT. What a window start leaves of each block, by the window's kind (R83, R85, R87, R106), and that it and a gate's edge
keep lines and burst engines served (R94, R104). -/

namespace Sys2Proof.Machine

/-! ### A window start up to its notice, by the kind of the window -/

namespace State

variable (s : State) (e : EntryIx)

theorem gateIsOpen_eq_startFlag : s.gateIsOpen (s.entry e).descriptor.gate = s.startFlag e := rfl

/-- The state in which step 5 of a window start drives the window. -/
def takenLine : State := (s.countFire e).setHolding (s.entry e).descriptor.line (some e)

theorem openWindow_eq : s.openWindow e = (s.takenLine e).driveWindow e (s.startFlag e) := rfl

theorem takenLine_descriptor (f : EntryIx) : ((s.takenLine e).entry f).descriptor = (s.entry f).descriptor :=
  (s.countFire_sameWindowFacts e f).descriptor

/-- The state after a window start but for the burst engines and the notice: the window OPEN with engine g, its line taken and
driven to level v. -/
def drivenWindow (g : Option EngineIx) (v : Level) : State :=
  { s.setWindowState e (.opened (s.startFlag e) g) with
    entries := s.entries.set e { s.entry e with fireCount := (s.entry e).fireCount + 1 }
    holding := s.holding.set (s.entry e).descriptor.line (some e)
    driven := s.driven.set (s.entry e).descriptor.line v }

variable {s e}

theorem openWindow_solid (kind : (s.entry e).descriptor.kind = .solid) :
    s.openWindow e = s.drivenWindow e none (s.solidLevel (s.entry e).descriptor.line (s.startFlag e)) := by
  rw [openWindow_eq, driveWindow, takenLine_descriptor, kind]
  rfl

theorem openWindow_burst {part : BurstPart} {g : EngineIx} (kind : (s.entry e).descriptor.kind = .burst part)
    (idle : s.idleEngine = some g) :
    s.openWindow e =
      { s.drivenWindow e (some g) (s.freshJob e part (s.startFlag e)).level with
        bursts := s.bursts.set g (.busy (s.freshJob e part (s.startFlag e))) } := by
  have taken : (s.takenLine e).idleEngine = some g := idle
  have job : (s.takenLine e).freshJob e part (s.startFlag e) = s.freshJob e part (s.startFlag e) := by
    unfold freshJob
    rw [takenLine_descriptor]
    rfl
  rw [openWindow_eq, driveWindow, takenLine_descriptor, kind, taken]
  dsimp only
  rw [job]
  rfl

theorem openWindow_unserved {part : BurstPart} (kind : (s.entry e).descriptor.kind = .burst part)
    (busy : s.idleEngine = none) :
    s.openWindow e = s.drivenWindow e none (s.idleLevel (s.entry e).descriptor.line) := by
  have taken : (s.takenLine e).idleEngine = none := busy
  rw [openWindow_eq, driveWindow, takenLine_descriptor, kind, taken]
  rfl

theorem idleEngine_eq_some {g : EngineIx} : s.idleEngine = some g ↔ s.burst g = .idle ∧ ∀ h < g, s.burst h ≠ .idle := by
  rw [idleEngine, allEngines, List.find?_eq_some_iff_getElem]
  simp only [List.getElem_finRange, List.length_finRange, Fin.cast_mk, Bool.not_eq_true', decide_eq_true_eq,
    decide_eq_false_iff_not]
  constructor
  · rintro ⟨h, i, hi, rfl, hlt⟩
    exact ⟨h, fun f hf => hlt f.val hf⟩
  · rintro ⟨h, hlt⟩
    exact ⟨h, g.val, g.isLt, rfl, fun j hj => hlt ⟨j, by omega⟩ hj⟩

/-- A window start opens the window, with the lowest-numbered IDLE engine when it is a BURST one, and no other window. -/
theorem drivenWindow_windowState (g : Option EngineIx) (v : Level) (f : EntryIx) :
    (s.drivenWindow e g v).windowState f =
      (s.windowState f).map fun y => if f = e then .opened (s.startFlag e) g else y :=
  (windowState_congr rfl f).trans (s.windowState_setWindowState e f _)

theorem drivenWindow_entry (g : Option EngineIx) (v : Level) (f : EntryIx) :
    (s.drivenWindow e g v).entry f =
      if f = e then { s.entry e with fireCount := (s.entry e).fireCount + 1 } else s.entry f := Table.get_set ..

theorem drivenWindow_descriptor (g : Option EngineIx) (v : Level) (f : EntryIx) :
    ((s.drivenWindow e g v).entry f).descriptor = (s.entry f).descriptor := by
  rw [drivenWindow_entry]
  split
  · rename_i h
    rw [h]
  · rfl

theorem drivenWindow_state (g : Option EngineIx) (v : Level) (f : EntryIx) :
    ((s.drivenWindow e g v).entry f).state = (s.entry f).state := by
  rw [drivenWindow_entry]
  split
  · rename_i h
    rw [h]
  · rfl

end State

/-! ### A window that starts (R83) -/

namespace WindowsServed

variable {s : State} (h : WindowsServed s) {e : EntryIx}
include h

/-- A SCHEDULED window that opens with engine g, none but an IDLE one: a BURST window's takes its job. -/
theorem drivenWindow (scheduled : s.windowState e = some .scheduled) {g : Option EngineIx} {v : Level}
    {bursts : Table BurstEngine 2} {j : BurstJob}
    (burst : ∀ k, bursts.get k = if g = some k then .busy j else s.burst k) (idle : ∀ k ∈ g, s.burst k = .idle)
    (window : j.window = e) (line : j.line = s.lineOf e) (level : j.idle = s.idleLevel (s.lineOf e))
    (kind : g.isSome = true → (s.entry e).descriptor.isBurst = true) :
    WindowsServed { s.drivenWindow e g v with bursts := bursts } := by
  have windows := s.drivenWindow_windowState (e := e) g v
  have lineOf : (s.drivenWindow e g v).lineOf = s.lineOf :=
    funext fun f => congrArg Descriptor.line (s.drivenWindow_descriptor g v f)
  have opened : (s.drivenWindow e g v).opened e := ⟨_, by rw [windows, scheduled]; rfl, by simp [WindowState.isOpen]⟩
  have stays {f : EntryIx} (hf : s.opened f) : (s.drivenWindow e g v).opened f := by
    by_cases hfe : f = e
    · rw [hfe]
      exact opened
    · exact (State.opened_of_window_ne windows hfe).2 hf
  have unserved : s.engineOf e = none := by
    rw [State.engineOf, scheduled]
    rfl
  have engineOf_self : (s.drivenWindow e g v).engineOf e = g := by
    rw [State.engineOf_of_window_self windows, scheduled]
    rfl
  refine ⟨?_, fun f hf => ?_, fun l f hl => ?_, fun hold l hl => ?_, fun k i hi => ?_, fun f k hk => ?_⟩
  · have entries : ((s.drivenWindow e g v).planList.map fun w => w.entry) = s.planList.map fun w => w.entry := by
      rw [State.planList_congr (t := s.drivenWindow e g v) (s := s.setWindowState e (.opened (s.startFlag e) g)) rfl,
        State.planList_setWindowState, setWindow_entries]
    exact entries.symm ▸ h.distinct
  · have planned : ((s.drivenWindow e g v).windowState f).isSome = true := hf
    rw [windows, Option.isSome_map] at planned
    exact (s.drivenWindow_state g v f).symm ▸ h.inForce f planned
  · have held : (s.holding.set (s.lineOf e) (some e)).get l = some f := hl
    rw [Table.get_set] at held
    split at held
    · cases held
      exact ⟨opened, (congrFun lineOf e).trans ‹l = _›.symm⟩
    · obtain ⟨hopen, hline⟩ := h.holder l f held
      exact ⟨stays hopen, (congrFun lineOf f).trans hline⟩
  · by_cases mine : l = s.lineOf e
    · exact ⟨e, opened, (congrFun lineOf e).trans mine.symm⟩
    · have other : s.driven.get l ≠ s.idleLevel l := fun same => hl ((Table.get_set_ne _ _ mine).trans same)
      obtain ⟨f, hopen, hline⟩ := h.driven hold l other
      exact ⟨f, stays hopen, (congrFun lineOf f).trans hline⟩
  · have job : (bursts.get k).job = some i := hi
    rw [burst] at job
    split at job
    · rename_i same
      cases job
      rw [window]
      refine ⟨engineOf_self.trans same, line.trans (congrFun lineOf e).symm, line ▸ level, ?_⟩
      exact (s.drivenWindow_descriptor g v e).symm ▸ kind (by rw [same]; rfl)
    · obtain ⟨mine, hline, hidle, hburst⟩ := h.engine k i job
      have other : i.window ≠ e := fun he => by
        rw [he, unserved] at mine
        cases mine
      exact ⟨(State.engineOf_of_window_ne windows other).trans mine, hline.trans (congrFun lineOf _).symm, hidle,
        (s.drivenWindow_descriptor g v _).symm ▸ hburst⟩
  · have mine : (s.drivenWindow e g v).engineOf f = some k := hk
    suffices ∃ i, (bursts.get k).job = some i ∧ i.window = f from this
    rw [burst]
    by_cases hfe : f = e
    · rw [hfe, engineOf_self] at mine
      rw [if_pos mine]
      exact ⟨j, rfl, window.trans hfe.symm⟩
    · rw [State.engineOf_of_window_ne windows hfe] at mine
      obtain ⟨i, hi, named⟩ := h.served f k mine
      have busy : ¬ g = some k := fun same => by
        rw [idle k same] at hi
        cases hi
      rw [if_neg busy]
      exact ⟨i, hi, named⟩

/-- A window that opens without an engine. -/
theorem drivenWindow_none (scheduled : s.windowState e = some .scheduled) (v : Level) :
    WindowsServed (s.drivenWindow e none v) :=
  h.drivenWindow (j := s.freshJob e ⟨0, 0, none⟩ true) scheduled (bursts := s.bursts) (by simp [State.burst]) (by simp) rfl
    rfl rfl (by simp)

theorem startWindow (scheduled : s.windowState e = some .scheduled) : WindowsServed (s.startWindow e) := by
  rw [State.startWindow_eq]
  refine WindowsServed.notices ?_ (.windowNotice ..)
  cases kind : (s.entry e).descriptor.kind with
  | solid =>
    rw [State.openWindow_solid kind]
    exact h.drivenWindow_none scheduled _
  | burst part =>
    cases engine : s.idleEngine with
    | none =>
      rw [State.openWindow_unserved kind engine]
      exact h.drivenWindow_none scheduled _
    | some g =>
      rw [State.openWindow_burst kind engine]
      obtain ⟨idle, -⟩ := State.idleEngine_eq_some.1 engine
      refine h.drivenWindow scheduled (j := s.freshJob e part (s.startFlag e)) (fun k => ?_) (by simp [idle]) rfl rfl rfl
        fun _ => by simp [Descriptor.isBurst, kind, kindHasBurst]
      rw [Table.get_set]
      by_cases hk : k = g
      · simp [hk]
      · simp [hk, Ne.symm hk, State.burst]

end WindowsServed

namespace State

variable (s : State) (e : EntryIx)

/-- A window start opens its window and leaves the others. -/
theorem startWindow_windowState :
    ∃ b g, ∀ f, (s.startWindow e).windowState f = (s.windowState f).map fun y => if f = e then .opened b g else y := by
  obtain ⟨b, g, plan⟩ := s.startWindow_plan e
  exact ⟨b, g, fun f => (windowState_congr plan f).trans (s.windowState_setWindowState e f _)⟩

theorem startWindow_windowState_ne {f : EntryIx} (hf : f ≠ e) :
    (s.startWindow e).windowState f = s.windowState f := by
  obtain ⟨b, g, window⟩ := s.startWindow_windowState e
  simp [window, hf]

end State

/-- A predicate through a run of window starts: kept by the start of a window that is ready, as each stays until it starts. -/
theorem State.startWindows_keeps {P : State → Prop} {Ready : State → EntryIx → Prop}
    (start : ∀ s e, Ready s e → P s → P (s.startWindow e))
    (still : ∀ s e f, f ≠ e → Ready s f → Ready (s.startWindow e) f) {es : List EntryIx} (nd : es.Nodup) {s : State}
    (ready : ∀ e ∈ es, Ready s e) (h : P s) : P (s.startWindows es) := by
  induction es generalizing s with
  | nil => exact h
  | cons e es ih =>
    obtain ⟨he, hnd⟩ := List.nodup_cons.1 nd
    refine ih hnd (fun f hf => ?_) (start s e (ready e List.mem_cons_self) h)
    exact still s e f (ne_of_mem_of_not_mem hf he) (ready f (List.mem_cons_of_mem e hf))

theorem WindowsServed.startWindows {s : State} (h : WindowsServed s) {es : List EntryIx} (nd : es.Nodup)
    (scheduled : ∀ e ∈ es, s.windowState e = some .scheduled) : WindowsServed (s.startWindows es) :=
  State.startWindows_keeps (Ready := fun s e => s.windowState e = some .scheduled) (fun _ _ hs ht => ht.startWindow hs)
    (fun s _ _ other hs => (s.startWindow_windowState_ne _ other).trans hs) nd scheduled h

/-! ### A gate's edge (R86) -/

theorem BurstJob.gateEvent_window (j : BurstJob) (b : Bool) :
    (j.gateEvent b).window = j.window ∧ (j.gateEvent b).line = j.line ∧ (j.gateEvent b).idle = j.idle := by
  unfold gateEvent
  dsimp only
  split <;> exact ⟨rfl, rfl, rfl⟩

/-- A flag that changes on an OPEN window leaves it OPEN with its engine. -/
theorem WindowsServed.setFlag {s : State} (h : WindowsServed s) {e : EntryIx} {b : Bool} {g : Option EngineIx}
    (opened : s.windowState e = some (.opened b g)) (c : Bool) :
    WindowsServed (s.setWindowState e (.opened c g)) := by
  have window := s.windowState_setWindowState e (x := .opened c g)
  have open_iff (f : EntryIx) : (s.setWindowState e (.opened c g)).opened f ↔ s.opened f := by
    by_cases hf : f = e
    · rw [hf, State.opened, State.opened, window, opened]
      simp [WindowState.isOpen]
    · exact State.opened_of_window_ne (window ·) hf
  have engineOf (f : EntryIx) : (s.setWindowState e (.opened c g)).engineOf f = s.engineOf f := by
    by_cases hf : f = e
    · rw [hf, State.engineOf, State.engineOf, window, opened]
      simp [WindowState.engine]
    · exact State.engineOf_of_window_ne (window ·) hf
  refine ⟨?_, fun f hf => ?_, fun l f hl => ?_, fun hold l hl => ?_, fun k j hj => ?_, fun f k hk => ?_⟩
  · rw [State.planList_setWindowState, setWindow_entries]
    exact h.distinct
  · rw [window, Option.isSome_map] at hf
    exact h.inForce f hf
  · rw [open_iff]
    exact h.holder l f hl
  · simp only [open_iff]
    exact h.driven hold l hl
  · rw [engineOf]
    exact h.engine k j hj
  · rw [engineOf] at hk
    exact h.served f k hk

/-- A level on the line of an OPEN window. -/
theorem WindowsServed.setDriven {s : State} (h : WindowsServed s) {e : EntryIx} (opened : s.opened e) (v : Level) :
    WindowsServed (s.setDriven (s.lineOf e) v) := by
  refine ⟨h.distinct, h.inForce, h.holder, fun hold l hl => ?_, h.engine, h.served⟩
  by_cases mine : l = s.lineOf e
  · exact ⟨e, opened, mine.symm⟩
  · exact h.driven hold l fun same => hl ((Table.get_set_ne _ _ mine).trans same)

/-- What the gate edge makes of one window: its flag at most (R86). -/
theorem State.gateWindow_windowState (s : State) (i : InputIx) (w : PlannedWindow) :
    (∀ f, (State.gateWindow i s w).windowState f = s.windowState f)
      ∨ ∃ b c g, w.state = .opened b g ∧
        ∀ f, (State.gateWindow i s w).windowState f =
          (s.windowState f).map fun y => if f = w.entry then .opened c g else y := by
  unfold gateWindow
  split
  · rename_i flag engine gate hw hg
    dsimp only
    split
    · refine .inr ⟨flag, s.gateIsOpen (some gate), engine, hw, fun f => ?_⟩
      rw [← windowState_setWindowState]
      split
      · split <;> exact windowState_congr rfl f
      · split <;> exact windowState_congr rfl f
    · exact .inl fun _ => rfl
  · exact .inl fun _ => rfl

theorem WindowsServed.gateWindow {s : State} (h : WindowsServed s) (i : InputIx) {w : PlannedWindow}
    (planned : s.windowState w.entry = some w.state) : WindowsServed (State.gateWindow i s w) := by
  unfold State.gateWindow
  split
  · rename_i flag engine gate hw hg
    rw [hw] at planned
    dsimp only
    split
    · have flagged := h.setFlag planned (s.gateIsOpen (some gate))
      split
      · split
        · exact flagged
        · refine flagged.setDriven (e := w.entry) ?_ _
          rw [State.opened, s.windowState_setWindowState, planned]
          exact ⟨_, rfl, by simp [WindowState.isOpen]⟩
      · split
        · exact flagged
        · rename_i j hj
          obtain ⟨window, line, idle⟩ := j.gateEvent_window (s.gateIsOpen (some gate))
          exact flagged.setJob hj window line idle
    · exact h
  · exact h

/-- A predicate through an edge of an input at the gates: kept at each window that stands as planned. -/
theorem State.gateEdge_keeps {P : State → Prop} (i : InputIx)
    (gate : ∀ s w, s.windowState w.entry = some w.state → P s → P (State.gateWindow i s w)) {s : State}
    (distinct : (s.planList.map fun w => w.entry).Nodup) (h : P s) : P (s.gateEdge i) := by
  have run : ∀ (ws : List PlannedWindow) (t : State), (ws.map fun w => w.entry).Nodup →
      (∀ w ∈ ws, t.windowState w.entry = some w.state) → P t → P (ws.foldl (State.gateWindow i) t) := by
    intro ws
    induction ws with
    | nil => exact fun _ _ _ ht => ht
    | cons w ws ih =>
      intro t nd planned ht
      obtain ⟨hw, hnd⟩ := List.nodup_cons.1 nd
      refine ih _ hnd (fun v hv => ?_) (gate t w (planned w List.mem_cons_self) ht)
      have ne : v.entry ≠ w.entry := fun same => hw (List.mem_map.2 ⟨v, hv, same⟩)
      rw [← planned v (List.mem_cons_of_mem w hv)]
      rcases t.gateWindow_windowState i w with same | ⟨b, c, g, -, window⟩
      · exact same _
      · simp [window, ne]
  exact run _ s distinct (fun w hw => State.windowState_of_mem distinct hw) h

theorem WindowsServed.gateEdge {s : State} (h : WindowsServed s) (i : InputIx) : WindowsServed (s.gateEdge i) :=
  State.gateEdge_keeps i (fun _ _ planned ht => ht.gateWindow i planned) h.distinct h

end Sys2Proof.Machine
end

