-- ==== Sys2Proof/Proofs/ServedSteps.lean ====
section
/-! SUPPORT. Idle lines and burst engines outside a cycle, and `LinesServed` through the parts of every step (R79, R81, R94, R104,
R114, R17). -/

namespace Sys2Proof.Machine

/-! ### Idle lines and burst engines (R94, R114) -/

/-- There is no plan, no line has a holding window, every line is idle outside a reset, and every burst engine is IDLE. -/
structure LinesIdle (s : State) : Prop where
  plan : s.plan = none
  holding : ∀ l, s.holding.get l = none
  driven : s.hold = none → ∀ l, s.driven.get l = s.idleLevel l
  bursts : ∀ g, s.burst g = .idle

theorem State.windowState_of_no_plan {s : State} (h : s.plan = none) (e : EntryIx) : s.windowState e = none := by
  simp [windowState, planList, h]

/-- With no window OPEN, lines and burst engines are idle once the plan is discarded. -/
theorem WindowsServed.discardPlan {s : State} (h : WindowsServed s) (shut : ∀ e, ¬ s.opened e) :
    LinesIdle s.discardPlan where
  plan := rfl
  holding l := by
    cases hl : s.holding.get l with
    | none => exact hl
    | some e => exact absurd (h.holder l e hl).1 (shut e)
  driven hold l := by
    by_contra hl
    obtain ⟨e, opened, -⟩ := h.driven hold l hl
    exact shut e opened
  bursts g := by
    cases hj : (s.burst g).job with
    | none => exact BurstEngine.job_eq_none.1 hj
    | some j => exact absurd (State.opened_of_engineOf (h.engine g j hj).1) (shut _)

theorem WindowsServed.linesIdle {s : State} (h : WindowsServed s) (plan : s.plan = none) : LinesIdle s := by
  have discarded := h.discardPlan fun e ⟨x, hx, _⟩ => by
    rw [State.windowState_of_no_plan plan] at hx
    cases hx
  exact ⟨plan, discarded.holding, discarded.driven, discarded.bursts⟩

namespace LinesIdle

variable {s : State} (h : LinesIdle s)
include h

theorem of_eq {t : State} (plan : t.plan = s.plan) (holding : t.holding = s.holding) (driven : t.driven = s.driven)
    (bursts : t.bursts = s.bursts) (hold : t.hold = s.hold) (lines : t.lines = s.lines) : LinesIdle t where
  plan := plan.trans h.plan
  holding l := by rw [holding, h.holding]
  driven ht l := by
    rw [driven, h.driven (hold ▸ ht), State.idleLevel, State.line, ← lines]
    rfl
  bursts g := by rw [State.burst_congr bursts, h.bursts]

theorem windowsServed : WindowsServed s := by
  have window := State.windowState_of_no_plan h.plan
  have unserved (e : EntryIx) : s.engineOf e = none := by rw [State.engineOf, window]; rfl
  refine ⟨?_, fun e he => ?_, fun l e he => ?_, fun hold l hl => absurd (h.driven hold l) hl, fun g j hj => ?_,
    fun e g hg => ?_⟩
  · simp [State.planList, h.plan]
  · simp [window] at he
  · simp [h.holding] at he
  · simp [h.bursts, BurstEngine.job] at hj
  · simp [unserved] at hg

theorem linesServed (idle : s.engine.state.inProgress = false) (waits : FlightWaits s) : LinesServed s :=
  h.windowsServed.linesServed (by rw [h.plan, idle]; rfl) waits

theorem changeEngine (x : EngineState) : LinesIdle (s.changeEngine x) := by
  rw [State.changeEngine_only]
  exact h.of_eq rfl rfl rfl rfl rfl rfl

theorem enterStopped : LinesIdle s.enterStopped := by
  rw [State.enterStopped_only]
  exact h.of_eq rfl rfl rfl rfl rfl rfl

end LinesIdle

/-! ### Flights that rest on a STOPPED engine (R41) -/

namespace FlightWaits

variable {s t : State}

theorem of_stopped (stopped : s.engine.state = .stopped) : FlightWaits s := fun _ _ _ => stopped

theorem of_eq (h : FlightWaits s) (executor : t.arbiter.executor = s.arbiter.executor)
    (state : t.engine.state = s.engine.state) : FlightWaits t := by
  unfold FlightWaits
  rw [executor, state]
  exact h

/-- When the engine may leave STOPPED no flight rests on it. -/
theorem of_mayStart (h : FlightWaits s) (start : s.MayStart) (executor : t.arbiter.executor = s.arbiter.executor) :
    FlightWaits t := by
  intro f hf rests
  rw [executor] at hf
  have free := start (h f hf rests)
  rw [free] at hf
  cases hf

end FlightWaits

theorem Judged.rests {s : State} {me : SessionId} {op : FlightOp} (h : Judged s me op) (rests : op.restsOnStop = true) :
    s.engine.state = .stopped := by
  cases h with
  | add f => cases s.judgeAdd me f <;> cases rests
  | setHub f => cases s.judgeSetHub f <;> cases rests
  | replace f =>
    have stands := ScheduleSound.judgeReplace_stands s me f
    cases hv : s.judgeReplace me f with
    | refuse st b =>
      rw [hv] at rests
      cases rests
    | pass r =>
      rw [hv] at rests stands
      obtain ⟨-, -, stops, -⟩ := stands
      exact stops rests

/-! ### A cycle start (R62, R80) -/

namespace State

variable (s : State)

theorem plannedCycle_windowState (e : EntryIx) :
    s.plannedCycle.windowState e = if e ∈ s.cycleEntries then some .scheduled else none := by
  have list : s.plannedCycle.planList = s.cycleEntries.map fun e => { entry := e, state := .scheduled } := by
    rw [planList, plannedCycle_plan]
    rfl
  rw [windowState, list]
  generalize s.cycleEntries = es
  induction es with
  | nil => rfl
  | cons d es ih =>
    by_cases hd : d = e
    · simp [hd]
    · rw [List.map_cons, List.find?_cons_of_neg (by simpa using hd), ih]
      simp [Ne.symm hd]

theorem firstEntries_scheduled {e : EntryIx} (he : e ∈ s.firstEntries) :
    s.plannedCycle.windowState e = some .scheduled := by
  rw [plannedCycle_windowState, if_pos (List.mem_of_mem_filter he)]

theorem cycleEnd_of_other {s : State} (other : s.engine.state ≠ .running) :
    s.cycleEnd = s.endedCycle.stopTimer.enterStopped := by
  cases state : s.engine.state with
  | running => exact absurd state other
  | stopped | waiting | halting | held => simp [cycleEnd, state, endedCycle]

theorem cycleStart_state : s.cycleStart.engine.state = .running := by rw [cycleStart_engine]; rfl

theorem cycleStart_plan : s.cycleStart.plan.isSome = true := by
  obtain ⟨ws, plan, -⟩ := s.plannedCycle.startWindows_plan (es := s.firstEntries) s.plannedCycle_plan
  rw [cycleStart_starts, plan]
  rfl

end State

namespace LinesIdle

variable {s : State} (h : LinesIdle s)
include h

/-- The plan of a new cycle, with no window started. -/
theorem plannedCycle : WindowsServed s.plannedCycle := by
  have window := s.plannedCycle_windowState
  have only := s.plannedCycle_only
  have idle (l : LineIx) : s.plannedCycle.idleLevel l = s.idleLevel l := by rw [only]; rfl
  have unserved (e : EntryIx) : s.plannedCycle.engineOf e = none := by
    rw [State.engineOf, window]
    split <;> rfl
  refine ⟨?_, fun e he => ?_, fun l e he => ?_, fun hold l hl => ?_, fun g j hj => ?_, fun e g hg => ?_⟩
  · rw [State.planList, State.plannedCycle_plan]
    simpa [Function.comp_def] using s.nodup_cycleEntries
  · rw [window] at he
    split at he
    · rw [s.plannedCycle_entry]
      exact (s.mem_cycleEntries.1 ‹_›).1
    · cases he
  · rw [only] at he
    simp [h.holding] at he
  · rw [idle] at hl
    rw [only] at hold hl
    exact absurd (h.driven hold l) hl
  · rw [State.burst_congr (show s.plannedCycle.bursts = s.bursts by rw [only])] at hj
    simp [h.bursts, BurstEngine.job] at hj
  · simp [unserved] at hg

theorem cycleStart (start : s.MayStart) (waits : FlightWaits s) : LinesServed s.cycleStart := by
  have started : WindowsServed s.cycleStart := by
    rw [s.cycleStart_starts]
    exact h.plannedCycle.startWindows s.nodup_firstEntries fun _ he => s.firstEntries_scheduled he
  refine started.linesServed ?_ (waits.of_mayStart start (by rw [(ScheduleOnly.cycleStart s).arbiter]))
  rw [s.cycleStart_plan, s.cycleStart_state]
  rfl

end LinesIdle

/-! ### The events of the schedule in motion -/

namespace LinesServed

variable {s : State} (h : LinesServed s)
include h

theorem windowsServed : WindowsServed s := .of_linesServed h

/-- Outside a cycle lines and burst engines are idle. -/
theorem linesIdle (idle : s.engine.state.inProgress = false) : LinesIdle s := by
  refine h.windowsServed.linesIdle ?_
  rw [← Option.not_isSome_iff_eq_none, h.plan, idle]
  exact Bool.false_ne_true

/-- Windows that are served, with the plan's presence, the engine state and the flight as they were. -/
theorem of_windows {t : State} (served : WindowsServed t) (plan : t.plan.isSome = s.plan.isSome)
    (state : t.engine.state = s.engine.state) (executor : t.arbiter.executor = s.arbiter.executor) : LinesServed t :=
  served.linesServed (by rw [plan, h.plan, state]) (h.flightWaits.of_eq executor state)

/-- What touches neither windows, lines, burst engines, entries, engine state nor flight. -/
theorem of_eq {t : State} (plan : t.plan = s.plan) (holding : t.holding = s.holding) (driven : t.driven = s.driven)
    (bursts : t.bursts = s.bursts) (hold : t.hold = s.hold) (lines : t.lines = s.lines) (entries : t.entries = s.entries)
    (state : t.engine.state = s.engine.state) (executor : t.arbiter.executor = s.arbiter.executor) : LinesServed t :=
  h.of_windows (h.windowsServed.of_eq plan holding driven bursts hold lines entries) (by rw [plan]) state executor

/-- A change of the engine state in which a cycle in progress stays one. -/
theorem changeEngine {x : EngineState} (start : s.MayStart) (progress : x.inProgress = s.engine.state.inProgress) :
    LinesServed (s.changeEngine x) := by
  rw [State.changeEngine_only]
  refine WindowsServed.linesServed (h.windowsServed.of_eq rfl rfl rfl rfl rfl rfl rfl) (h.plan.trans progress.symm) ?_
  exact h.flightWaits.of_mayStart start rfl

theorem enterStopped (idle : s.engine.state.inProgress = false) : LinesServed s.enterStopped := by
  have stopped : s.enterStopped.engine.state = .stopped := by rw [State.enterStopped_engine]
  exact (h.linesIdle idle).enterStopped.linesServed (by rw [stopped]; rfl) (.of_stopped stopped)

theorem firstVote (start : s.MayStart) : LinesServed s.firstVote := by
  unfold State.firstVote
  split
  · rename_i stopped
    have idle : s.engine.state.inProgress = false := by rw [stopped]; rfl
    split
    · exact h.changeEngine start idle.symm
    · split
      · exact (h.linesIdle idle).cycleStart start h.flightWaits
      · exact h.changeEngine start idle.symm
      · exact h.changeEngine start idle.symm
  · rename_i halting
    exact h.changeEngine start (by rw [halting]; rfl)
  · exact h

theorem lastVoteCleared : LinesServed s.lastVoteCleared := by
  unfold State.lastVoteCleared
  split
  · rename_i waiting
    exact h.enterStopped (by rw [waiting]; rfl)
  · rename_i running
    exact h.changeEngine (.of_state running (by decide)) (by rw [running]; rfl)
  · rename_i held
    exact h.enterStopped (by rw [held]; rfl)
  · exact h

omit h in
theorem shut_of_ended (s : State) (e : EntryIx) : ¬ (s.endWindows s.openEntries).opened e := by
  rintro ⟨x, hx, isOpen⟩
  rw [State.endWindows, State.shuts_endWindow.foldl_windowState] at hx
  obtain ⟨y, hy, rfl⟩ := Option.map_eq_some_iff.1 hx
  split at isOpen
  · cases isOpen
  · obtain ⟨w, hw, rfl, rfl⟩ := State.mem_of_windowState hy
    exact absurd (State.mem_openEntries.2 ⟨w, hw, isOpen, rfl⟩) ‹_›

omit h in
theorem shut_of_cut (s : State) (c : Nat) (e : EntryIx) : ¬ (s.openEntries.foldl (State.cutWindow c) s).opened e := by
  rintro ⟨x, hx, isOpen⟩
  rw [(State.shuts_cutWindow c).foldl_windowState] at hx
  obtain ⟨y, hy, rfl⟩ := Option.map_eq_some_iff.1 hx
  split at isOpen
  · cases isOpen
  · obtain ⟨w, hw, rfl, rfl⟩ := State.mem_of_windowState hy
    exact absurd (State.mem_openEntries.2 ⟨w, hw, isOpen, rfl⟩) ‹_›

theorem endedCycle_idle : LinesIdle s.endedCycle :=
  ((h.windowsServed.endWindows s.openEntries).discardPlan (shut_of_ended s)).of_eq rfl rfl rfl rfl rfl rfl

theorem cutCycle_idle (c : Nat) : LinesIdle (s.cutCycle c) := by
  have discarded := (h.windowsServed.cutWindows c s.openEntries).discardPlan (shut_of_cut s c)
  exact ⟨rfl, fun l => Table.get_fill .., fun _ l => Table.get_build .., discarded.bursts⟩

/-- Whatever the state of the engine, once the cycle is over and the engine state is not that of a cycle. -/
theorem cycleEnd : LinesServed s.cycleEnd := by
  have ended : LinesIdle s.endedCycle := h.endedCycle_idle
  have stopped : LinesIdle s.endedCycle.stopTimer := ended.of_eq rfl rfl rfl rfl rfl rfl
  have only : ScheduleOnly s s.endedCycle.stopTimer := (ScheduleOnly.endWindows s _).trans rfl
  have executor : s.endedCycle.arbiter.executor = s.arbiter.executor := by
    have : s.endedCycle.arbiter = s.arbiter := only.arbiter
    rw [this]
  have state : s.endedCycle.engine.state = s.engine.state := by rw [State.endedCycle_engine]
  cases engine : s.engine.state with
  | running =>
    have start : s.MayStart := .of_state engine (by decide)
    cases mode : s.hub.startMode with
    | internal =>
      rw [State.cycleEnd_of_internal engine mode]
      exact ended.cycleStart (.of_state (state.trans engine) (by decide)) (h.flightWaits.of_eq executor state)
    | external =>
      rw [State.cycleEnd_of_external engine mode]
      refine (stopped.changeEngine .waiting).linesServed (by rw [State.changeEngine_engine]; rfl) ?_
      refine h.flightWaits.of_mayStart start ?_
      rw [State.changeEngine_only]
      exact executor
  | stopped | waiting | halting | held =>
    rw [State.cycleEnd_of_other (by simp [engine])]
    refine stopped.enterStopped.linesServed (by rw [State.enterStopped_engine]; rfl) (.of_stopped ?_)
    rw [State.enterStopped_engine]

theorem spacingEnd (idle : s.engine.state.inProgress = false) : LinesServed s.spacingEnd := by
  have spaced : LinesServed s.clearSpacing.stopTimer := h.of_eq rfl rfl rfl rfl rfl rfl rfl rfl rfl
  unfold State.spacingEnd
  dsimp only
  split
  · rename_i waiting _
    exact (spaced.linesIdle idle).cycleStart (.of_state (x := .waiting) waiting (by decide)) spaced.flightWaits
  · exact spaced

theorem inhAssert : LinesServed s.inhAssert := by
  have asserted : LinesServed (s.setInh true) := h.of_eq rfl rfl rfl rfl rfl rfl rfl rfl rfl
  have counted : LinesServed (s.setInh true).countEpisode := h.of_eq rfl rfl rfl rfl rfl rfl rfl rfl rfl
  have cut : LinesIdle s.inhibitedCycle := (asserted.cutCycle_idle s.eventOffset).of_eq rfl rfl rfl rfl rfl rfl
  have executor : s.inhibitedCycle.arbiter.executor = s.arbiter.executor := by rw [s.inhibitedCycle_only.arbiter]
  cases engine : s.engine.state with
  | running =>
    rw [State.inhAssert_of_running engine]
    refine (cut.changeEngine .held).linesServed (by rw [State.changeEngine_engine]; rfl) ?_
    refine h.flightWaits.of_mayStart (.of_state engine (by decide)) ?_
    rw [State.changeEngine_only]
    exact executor
  | halting =>
    rw [State.inhAssert_of_halting engine]
    refine cut.enterStopped.linesServed (by rw [State.enterStopped_engine]; rfl) (.of_stopped ?_)
    rw [State.enterStopped_engine]
  | waiting =>
    rw [State.inhAssert_of_waiting engine]
    exact counted.changeEngine (.of_state (x := .waiting) engine (by decide)) (congrArg EngineState.inProgress engine).symm
  | stopped | held =>
    rw [State.inhAssert_of_still (by simp [engine])]
    exact asserted

theorem inhRelease : LinesServed s.inhRelease := by
  have released : LinesServed (s.setInh false) := h.of_eq rfl rfl rfl rfl rfl rfl rfl rfl rfl
  have start (held : s.engine.state = .held) : (s.setInh false).MayStart := .of_state (x := .held) held (by decide)
  have idle (held : s.engine.state = .held) : (s.setInh false).engine.state.inProgress = false :=
    congrArg EngineState.inProgress held
  unfold State.inhRelease
  dsimp only
  split
  · rename_i held _ _
    exact (released.linesIdle (idle held)).cycleStart (start held) released.flightWaits
  · rename_i held _ _
    exact released.changeEngine (start held) (idle held).symm
  · rename_i held _
    exact released.changeEngine (start held) (idle held).symm
  · exact released

theorem earlyEdge : LinesServed s.earlyEdge := by
  have counted : LinesServed { s with engine := { s.engine with earlyEdges := saturatingInc s.engine.earlyEdges } } :=
    h.of_eq rfl rfl rfl rfl rfl rfl rfl rfl rfl
  have notices := NoticesOnly.broadcast
    { s with engine := { s.engine with earlyEdges := saturatingInc s.engine.earlyEdges } } .early
    (.early s.engine.reportedNumber s.eventOffset)
  rw [State.earlyEdge, notices]
  exact counted.of_eq rfl rfl rfl rfl rfl rfl rfl rfl rfl

theorem qualifyingEdge : LinesServed s.qualifyingEdge := by
  unfold State.qualifyingEdge
  split
  · exact h
  · rename_i waiting _
    exact (h.linesIdle (by rw [waiting]; rfl)).cycleStart (.of_state waiting (by decide)) h.flightWaits
  · exact h.earlyEdge
  · exact h.earlyEdge
  · exact h.earlyEdge
  · exact h
  · exact h

omit h in
/-- The window sequencer keeps a plan a plan. -/
theorem plan_isSome_startWindows (s : State) (es : List EntryIx) : (s.startWindows es).plan.isSome = s.plan.isSome := by
  refine foldl_related (R := fun s t : State => t.plan.isSome = s.plan.isSome) (fun _ => rfl)
    (fun _ _ _ h k => k.trans h) (fun s e => ?_) es s
  obtain ⟨b, g, plan⟩ := s.startWindow_plan e
  rw [plan, State.setWindowState_plan, Option.isSome_map]

omit h in
theorem plan_isSome_endWindows (s : State) (es : List EntryIx) : (s.endWindows es).plan.isSome = s.plan.isSome := by
  refine foldl_related (R := fun s t : State => t.plan.isSome = s.plan.isSome) (fun _ => rfl)
    (fun _ _ _ h k => k.trans h) (fun s e => ?_) es s
  rw [State.shuts_endWindow.plan, State.shutWindow_plan, State.setWindowState_plan, Option.isSome_map]

omit h in
theorem plan_isSome_gateEdge (s : State) (i : InputIx) : (s.gateEdge i).plan.isSome = s.plan.isSome := by
  refine foldl_related (R := fun s t : State => t.plan.isSome = s.plan.isSome) (fun _ => rfl)
    (fun _ _ _ h k => k.trans h) (fun s w => ?_) _ s
  unfold State.gateWindow
  split
  · dsimp only
    split
    · split
      · split <;> exact Option.isSome_map
      · split <;> exact Option.isSome_map
    · rfl
  · rfl

theorem endWindows (es : List EntryIx) : LinesServed (s.endWindows es) := by
  have only := s.endWindows_only es
  exact h.of_windows (h.windowsServed.endWindows es) (plan_isSome_endWindows s es) (by rw [only.engine]) (by rw [only])

theorem startWindows {es : List EntryIx} (nd : es.Nodup) (scheduled : ∀ e ∈ es, s.windowState e = some .scheduled) :
    LinesServed (s.startWindows es) :=
  h.of_windows (h.windowsServed.startWindows nd scheduled) (plan_isSome_startWindows s es)
    (by rw [State.startWindows_engine]) (by rw [(ScheduleOnly.startWindows s es).arbiter])

/-- The windows that start at a tick are SCHEDULED, each once. -/
theorem startingAt_scheduled {t : Nat} {e : EntryIx} (he : e ∈ s.startingAt t) :
    s.windowState e = some .scheduled ∧ (s.entry e).descriptor.start = t := by
  simp only [State.startingAt, List.mem_filter, List.mem_map, decide_eq_true_eq] at he
  obtain ⟨⟨w, ⟨hw, scheduled⟩, rfl⟩, start⟩ := he
  exact ⟨by rw [State.windowState_of_mem h.distinct hw, scheduled], start⟩

theorem nodup_startingAt (t : Nat) : (s.startingAt t).Nodup :=
  ((List.filter_sublist.map _).nodup h.distinct).filter _

theorem windowBoundary : LinesServed s.windowBoundary := by
  have ended := h.endWindows (s.endingAt s.engine.count)
  exact ended.startWindows (ended.nodup_startingAt _) fun _ he => (ended.startingAt_scheduled he).1

theorem gateEdge (i : InputIx) : LinesServed (s.gateEdge i) := by
  have only := s.gateEdge_only i
  exact h.of_windows (h.windowsServed.gateEdge i) (plan_isSome_gateEdge s i) (by rw [only.engine]) (by rw [only])

theorem handEdge (i : InputIx) : LinesServed (s.handEdge i) := by
  unfold State.handEdge
  dsimp only
  split
  · exact (h.gateEdge i).qualifyingEdge
  · exact h.gateEdge i

theorem highElapsed {g : EngineIx} {j : BurstJob} (hj : (s.burst g).job = some j) : LinesServed (s.setJob g j.highElapsed) :=
  h.of_windows (h.windowsServed.setJob hj rfl rfl rfl) rfl rfl rfl

theorem lowElapsed {g : EngineIx} {j : BurstJob} (hj : (s.burst g).job = some j) : LinesServed (s.setJob g j.lowElapsed) :=
  h.of_windows (h.windowsServed.setJob hj rfl rfl rfl) rfl rfl rfl

theorem event {t : State} (e : MotionEvent s t) : LinesServed t := by
  cases e with
  | cycleEnd => exact h.cycleEnd
  | spacingEnd idle => exact h.spacingEnd idle
  | inhAssert => exact h.inhAssert
  | inhRelease => exact h.inhRelease
  | windowBoundary due => exact h.windowBoundary
  | handEdge i => exact h.handEdge i
  | firstVote free => exact h.firstVote fun _ => free
  | lastVoteCleared => exact h.lastVoteCleared
  | highElapsed g j busy => exact h.highElapsed busy
  | lowElapsed g j busy => exact h.lowElapsed busy

/-! ### The clock and the tables -/

/-- A tick leaves each job's window, line and level. -/
theorem tick : LinesServed s.tick := by
  have served := h.windowsServed
  have job {g : EngineIx} {j : BurstJob} (hj : (s.burst g).job = some j) :
      ∃ i, (s.tick.burst g).job = some i ∧ i.window = j.window ∧ i.line = j.line ∧ i.idle = j.idle := by
    rw [s.tick_burst]
    cases hb : s.burst g with
    | idle =>
      rw [hb] at hj
      cases hj
    | busy k =>
      rw [hb] at hj
      cases hj
      cases hp : j.phase <;> simp [BurstEngine.tick, hp, BurstEngine.job]
  have before {g : EngineIx} {i : BurstJob} (hi : (s.tick.burst g).job = some i) : ∃ j, (s.burst g).job = some j := by
    rw [s.tick_burst] at hi
    cases hb : s.burst g with
    | idle =>
      rw [hb] at hi
      cases hi
    | busy k => exact ⟨k, rfl⟩
  have ticked : WindowsServed s.tick := by
    refine ⟨served.distinct, served.inForce, served.holder, served.driven, fun g i hi => ?_, fun e g hg => ?_⟩
    · obtain ⟨j, hj⟩ := before hi
      obtain ⟨k, hk, window, line, idle⟩ := job hj
      cases hi.symm.trans hk
      rw [window, line, idle]
      exact served.engine g j hj
    · obtain ⟨j, hj, named⟩ := served.served e g hg
      obtain ⟨k, hk, window, -⟩ := job hj
      exact ⟨k, hk, window.trans named⟩
  refine ticked.linesServed h.plan fun f hf rests => ?_
  obtain ⟨k, hk, rfl⟩ := Option.map_eq_some_iff.1 hf
  exact h.flightWaits k hk rests

/-- A planned entry fires, and the engine is not STOPPED. -/
theorem planned_of_window {e : EntryIx} (planned : (s.windowState e).isSome = true) :
    s.engine.state ≠ .stopped ∧ (s.entry e).state.inFiring = true := by
  refine ⟨fun stopped => ?_, h.windowsServed.inForce e planned⟩
  rw [State.windowState_of_no_plan (h.linesIdle (by rw [stopped]; rfl)).plan] at planned
  cases planned

/-- Entries that lapse while those that fire go on firing. -/
theorem lapse {t : State} (l : Lapse s t) (kept : FiringKept s t) : LinesServed t := by
  have only := l.only
  refine h.of_windows (h.windowsServed.of_facts (by rw [only]) (by rw [only]) l.driven (by rw [only])
    (fun ht => by rw [only] at ht; exact ht) l.idle fun e planned => ?_) (by rw [only]) (by rw [l.engine])
    (by rw [l.arbiter])
  obtain ⟨running, firing⟩ := h.planned_of_window planned
  have fires := kept running e firing
  exact ⟨fires, (l.entries e).descriptor (EntryState.ne_free_iff.2 (.inr fires))⟩

theorem writePending {e : EntryIx} (free : (s.entry e).state = .free) (o : SessionId) (d : Descriptor) :
    LinesServed (s.writePending e o d) := by
  refine h.of_windows (h.windowsServed.of_facts rfl rfl rfl rfl (fun ht => ht) (fun _ => rfl) fun f planned => ?_) rfl rfl
    rfl
  have firing := (h.planned_of_window planned).2
  have other : f ≠ e := by
    rintro rfl
    rw [free] at firing
    cases firing
  rw [State.entry_writePending_ne other]
  exact ⟨firing, rfl⟩

theorem release : LinesServed s.releaseExecutor := by
  have served : WindowsServed s.releaseExecutor := h.windowsServed.of_eq rfl rfl rfl rfl rfl rfl rfl
  exact served.linesServed h.plan fun f hf => nomatch hf

theorem beginFlight {p : Port} {me : SessionId} {r : Request} {op : FlightOp}
    (rests : op.restsOnStop = true → s.engine.state = .stopped) : LinesServed (s.beginFlight p me r op) := by
  have served : WindowsServed (s.beginFlight p me r op) := h.windowsServed.of_eq rfl rfl rfl rfl rfl rfl rfl
  refine served.linesServed h.plan fun f hf => ?_
  cases hf
  exact rests

theorem completeAdd (me : SessionId) (v : Verdict Descriptor) : LinesServed (s.completeAdd me v).state := by
  cases v with
  | refuse st b => exact h
  | pass d =>
    exact State.completeAdd_keeps h fun e free =>
      (h.writePending free me d).of_eq rfl rfl rfl rfl rfl rfl rfl rfl rfl

/-- The old entry of a REPLACE taken in STOPPED is not planned, since the engine is still STOPPED (R44). -/
theorem completeReplace (me : SessionId) {v : Verdict Replacement}
    (rests : (FlightOp.replace v).restsOnStop = true → s.engine.state = .stopped) :
    LinesServed (s.completeReplace me v).state := by
  cases v with
  | refuse st b => exact h
  | pass r =>
    refine State.completeReplace_keeps h (fun freed => ?_) (fun _ _ free ht => ht.writePending free ..)
      (fun _ _ active ht => ht.lapse (.retireReplaced _ active) (.retireReplaced _ _ _))
      fun _ ht => ht.of_eq rfl rfl rfl rfl rfl rfl rfl rfl rfl
    refine h.lapse (.freeEntry ..) (.freeEntry s fun running => ?_)
    rcases freed with ⟨o, pending⟩ | ⟨-, stopped⟩
    · rw [pending]
      rfl
    · exact absurd (rests stopped) running

/-- A line whose idle level changes carries no reservation and so no window (R97, R98). -/
theorem claimLine {l : LineIx} {me : SessionId} {idle : Level} {gap : Nat}
    (unchanged : (idle = (s.line l).idle ∧ gap = (s.line l).gap) ∨ s.lineInUse l = false) :
    LinesServed (s.claimLine l me idle gap) := by
  have served := h.windowsServed
  have line := s.line_claimLine l (me := me) (idle := idle) (gap := gap)
  by_cases same : idle = (s.line l).idle
  · have claim : s.claimLine l me idle gap = s.setLine l { holder := some me, idle := idle, gap := gap } := if_pos same
    refine h.of_windows (served.of_facts (by rw [claim]; rfl) (by rw [claim]; rfl) (by rw [claim]; rfl)
      (by rw [claim]; rfl) (fun ht => by rw [claim] at ht; exact ht) (fun m => ?_) fun e planned => ?_)
      (by rw [claim]; rfl) (by rw [claim]; rfl) (by rw [claim]; rfl)
    · rw [State.idleLevel, line, State.idleLevel]
      split
      · rename_i hm
        rw [hm, same]
      · rfl
    · rw [claim]
      exact ⟨served.inForce e planned, rfl⟩
  · have claim : s.claimLine l me idle gap =
        (s.setLine l { holder := some me, idle := idle, gap := gap }).setDriven l idle := if_neg same
    have unused := State.lineInUse_eq_false.1 (unchanged.resolve_left fun k => same k.1)
    have other {e : EntryIx} (opened : s.opened e) : s.lineOf e ≠ l := fun hl => by
      have firing := served.inForce e (State.planned_of_opened opened)
      have on : (s.entry e).isOn l = true := Entry.isOn_iff.2 ⟨EntryState.ne_free_iff.2 (.inr firing), hl⟩
      rw [unused] at on
      cases on
    have idleAt (m : LineIx) : (s.claimLine l me idle gap).idleLevel m = if m = l then idle else s.idleLevel m := by
      rw [State.idleLevel, line]
      split <;> rfl
    refine h.of_windows ⟨?_, ?_, ?_, fun hold m hm => ?_, fun g j hj => ?_, ?_⟩ (by rw [claim]; rfl) (by rw [claim]; rfl)
      (by rw [claim]; rfl)
    · rw [claim]
      exact served.distinct
    · rw [claim]
      exact served.inForce
    · rw [claim]
      exact served.holder
    · rw [idleAt] at hm
      rw [claim] at hold hm ⊢
      have driven : (s.driven.set l idle).get m ≠ if m = l then idle else s.idleLevel m := hm
      rw [Table.get_set] at driven
      split at driven
      · exact absurd rfl driven
      · exact served.driven hold m driven
    · have job : (s.burst g).job = some j := by rw [claim] at hj; exact hj
      obtain ⟨mine, hline, hidle, hburst⟩ := served.engine g j job
      rw [idleAt, if_neg (hline ▸ other (State.opened_of_engineOf mine)), claim]
      exact ⟨mine, hline, hidle, hburst⟩
    · rw [claim]
      exact served.served

omit h in
theorem releaseLineAct_entries (s : State) (me : SessionId) (f : List Byte) :
    (releaseLineAct s me f).state.entries = s.entries := by
  unfold Machine.releaseLineAct
  split
  · rfl
  · split <;> rfl

/-- From the start of a reset the outputs are LOW, whatever the lines' idle levels (R172). -/
theorem holdReset (cause : ResetCause) :
    LinesServed { s.stopConditioner with hold := some cause, driven := .fill 16 .low } := by
  have served := h.windowsServed
  exact h.of_windows ⟨served.distinct, served.inForce, served.holder, nofun, served.engine, served.served⟩ rfl rfl rfl

omit h in
/-- Every part of a step keeps lines and burst engines served. -/
theorem keptByParts : KeptByParts LinesServed where
  beside b h := h.of_eq (by rw [b.rest]) (by rw [b.rest]) (by rw [b.rest]) (by rw [b.rest]) (by rw [b.rest])
    (by rw [b.rest]) (by rw [b.rest]) (by rw [b.rest]) b.executor
  event e h := h.event e
  tick _ h := h.tick
  withdraw me f _ h := h.lapse (.withdrawAct _ me f) (.withdrawAct _ me f)
  claimLine f _ _ h := State.claimLineAct_keeps h (fun _ _ _ _ _ unchanged => h.claimLine unchanged) f
  releaseLine me f h := h.lapse (.releaseLineAct _ me f) fun _ e he => by
    rw [State.entry, releaseLineAct_entries]
    exact he
  clearCounters h := h.of_eq rfl rfl rfl rfl rfl rfl rfl rfl rfl
  attach _ _ _ _ h := h.of_eq rfl rfl rfl rfl rfl rfl rfl rfl rfl
  endSession _ expired h := State.endSession_keeps (fun _ => h.of_eq rfl rfl rfl rfl rfl rfl rfl rfl rfl)
    (fun _ ht => ht.lastVoteCleared) (fun _ _ _ ht => ht.of_eq rfl rfl rfl rfl rfl rfl rfl rfl rfl) expired
  cleanup _ _ h := (h.of_eq rfl rfl rfl rfl rfl rfl rfl rfl rfl : LinesServed (State.takeClaim _ _)).lapse (.cleanup ..)
    (.cleanup _ _)
  beginFlight _ _ judged h := h.beginFlight judged.rests
  release h := h.release
  completeAdd _ _ _ h := h.release.completeAdd _ _
  completeReplace hf hv _ h := h.release.completeReplace _ fun rests => h.flightWaits _ hf (hv ▸ rests)
  setHub _ _ h := h.release.of_eq rfl rfl rfl rfl rfl rfl rfl rfl rfl
  holdReset cause h := h.holdReset cause
  afterRelease := linesServed_afterRelease

end LinesServed

/-- Settles O56: a window start takes an IDLE engine, an end or a cut leaves the line and the engine, a cycle starts and ends
with all idle, and no entry of the plan is freed or rewritten while the cycle is in progress. -/
theorem stepKeepsLinesServed : Obligations.StepKeepsLinesServed := fun _ _ => LinesServed.keptByParts.step

end Sys2Proof.Machine
end

