-- ==== Sys2Proof/Proofs/CoveringWindows.lean ====
section
/-! SUPPORT. Windows in force that cover one tick in one index: what the conditions on the firing set leave of them, and the
windows in progress as such windows (R8, R9, R11, R12, R82, R90). -/

namespace Sys2Proof.Machine

/-! ### Windows in force that cover one tick -/

/-- Entry e is in force, and its window fires in k and covers tick t. -/
structure State.Covers (s : State) (k t : Nat) (e : EntryIx) : Prop where
  firing : (s.entry e).state.inFiring = true
  fires : (s.entry e).descriptor.fires k = true
  start : (s.entry e).descriptor.start ≤ t
  stop : t < (s.entry e).descriptor.stop

/-- Condition (a) between the windows of entries e and f in index k (R9). -/
def State.ApartIn (s : State) (k : Nat) (e f : EntryIx) : Prop :=
  (s.entry e).descriptor.line = (s.entry f).descriptor.line → (s.entry e).descriptor.fires k = true →
    (s.entry f).descriptor.fires k = true →
      Descriptor.Apart (s.gapOf (s.entry e).descriptor.line) (s.entry e).descriptor (s.entry f).descriptor

theorem State.ApartIn.symm {s : State} {k : Nat} {e f : EntryIx} (h : s.ApartIn k e f) : s.ApartIn k f e := by
  intro line hf he
  rw [line]
  exact (h line.symm he hf).symm

namespace State.Covers

variable {s : State} {k t : Nat}

theorem covers {e : EntryIx} (h : s.Covers k t e) : (s.entry e).descriptor.covers t = true :=
  Descriptor.covers_iff.2 ⟨h.start, h.stop⟩

/-- Entries that cover one tick are a part of the firing set. -/
theorem members_subperm {es : List EntryIx} (nd : es.Nodup) (hc : ∀ e ∈ es, s.Covers k t e) :
    ((es.map s.memberOf).map Member.d).Subperm (s.firingSet.map Member.d) :=
  Machine.members_subperm nd (fun e he => mem_firingEntries.2 (hc e he).firing) fun _ _ => rfl

/-- No more than two BURST windows cover one tick (R12). -/
theorem length_burst_le (hd : ConditionD s.firingSet) (hk : k < 8) {es : List EntryIx} (nd : es.Nodup)
    (hc : ∀ e ∈ es, s.Covers k t e) (burst : ∀ e ∈ es, (s.entry e).descriptor.isBurst = true) : es.length ≤ 2 := by
  have all : (burstMembers (es.map s.memberOf) k t).length = es.length := by
    rw [burstMembers, List.filter_eq_self.2, List.length_map]
    intro m hm
    obtain ⟨e, he, rfl⟩ := List.mem_map.1 hm
    simp [State.memberOf, burst e he, (hc e he).fires, (hc e he).covers]
  rw [← all]
  exact (hd.of_subperm (members_subperm nd hc)).length_le hk t

/-- The draws of windows of a rail that cover one tick are within its capacity (R11). -/
theorem sum_draw_le {capacity : Nat} {rail : Rail} (hcap : ConditionC capacity rail s.firingSet) (hk : k < 8)
    {es : List EntryIx} (nd : es.Nodup) (hc : ∀ e ∈ es, s.Covers k t e)
    (on : ∀ e ∈ es, (s.entry e).descriptor.rail = some rail) :
    (es.map fun e => (s.entry e).descriptor.draw).sum ≤ capacity := by
  have all : railSum (es.map s.memberOf) rail k t = (es.map fun e => (s.entry e).descriptor.draw).sum := by
    rw [railSum, railMembers, List.filter_eq_self.2]
    · simp [State.memberOf, Function.comp_def]
    · intro m hm
      obtain ⟨e, he, rfl⟩ := List.mem_map.1 hm
      simp [State.memberOf, on e he, (hc e he).fires, (hc e he).covers]
  rw [← all]
  exact (hcap.of_subperm (members_subperm nd hc)).railSum_le hk t

/-- One window of a line covers a tick (R9). -/
theorem eq_of_line_eq (ha : ConditionA s.gapOf s.firingSet) (hk : k < 8) {e f : EntryIx} (he : s.Covers k t e)
    (hf : s.Covers k t f) (line : s.lineOf e = s.lineOf f) : e = f := by
  by_contra ne
  have apart : s.firingEntries.Pairwise (s.ApartIn k) := (List.pairwise_map (f := s.memberOf)).1 (ha k hk)
  have symm : Std.Symm (s.ApartIn k) := ⟨fun _ _ => ApartIn.symm⟩
  obtain ⟨starts, before, after⟩ :=
    apart.forall (mem_firingEntries.2 he.firing) (mem_firingEntries.2 hf.firing) ne line he.fires hf.fires
  have := he.start
  have := he.stop
  have := hf.start
  have := hf.stop
  omega

end State.Covers

/-! ### The windows in progress (R90) -/

theorem superIndex_lt (n : CycleNumber) : superIndex n < 8 := Nat.mod_lt _ (by decide)

/-- All OPEN windows cover one tick. -/
theorem WindowsTimed.exists_tick {s : State} (h : WindowsTimed s) :
    ∃ t, ∀ w ∈ s.planList, w.state.isOpen = true →
      (s.entry w.entry).descriptor.start ≤ t ∧ t < (s.entry w.entry).descriptor.stop := by
  rcases h.together with before | started
  · exact ⟨s.engine.count, fun w hw isOpen => ⟨(h.opened w hw isOpen).1, before w hw isOpen⟩⟩
  · refine ⟨s.engine.count - 1, fun w hw isOpen => ?_⟩
    have := started w hw isOpen
    have := (h.opened w hw isOpen).2
    omega

theorem WindowsTimed.exists_covers {s : State} (h : WindowsTimed s) (served : LinesServed s) :
    ∃ t, ∀ e ∈ s.openEntries, s.Covers (superIndex s.engine.reportedNumber) t e := by
  obtain ⟨t, cover⟩ := h.exists_tick
  refine ⟨t, fun e he => ?_⟩
  obtain ⟨w, hw, isOpen, rfl⟩ := State.mem_openEntries.1 he
  obtain ⟨start, stop⟩ := cover w hw isOpen
  exact ⟨served.inForce w hw, h.fires w hw, start, stop⟩

/-- The windows in progress are within the budget (R90). -/
theorem windows_within_budget {s : State} (sound : ScheduleSound s) (served : LinesServed s) (timed : WindowsTimed s) :
    s.openDraw .a ≤ s.hub.capacityA ∧ s.openDraw .b ≤ s.hub.capacityB
      ∧ (s.openEntries.filter fun e => (s.entry e).descriptor.isBurst).length ≤ 2
      ∧ s.openEntries.Pairwise fun e g => (s.entry e).descriptor.line ≠ (s.entry g).descriptor.line := by
  obtain ⟨t, cover⟩ := timed.exists_covers served
  have hk := superIndex_lt s.engine.reportedNumber
  have nd := served.nodup_openEntries
  have draw {rail : Rail} {capacity : Nat} (hc : ConditionC capacity rail s.firingSet) : s.openDraw rail ≤ capacity :=
    State.Covers.sum_draw_le hc hk (nd.filter _) (fun e he => cover e (List.mem_of_mem_filter he))
      fun e he => of_decide_eq_true (List.mem_filter.1 he).2
  refine ⟨draw sound.firing.railA, draw sound.firing.railB, ?_, ?_⟩
  · exact State.Covers.length_burst_le sound.firing.d hk (nd.filter _) (fun e he => cover e (List.mem_of_mem_filter he))
      fun e he => (List.mem_filter.1 he).2
  · refine nd.imp_of_mem fun he hf ne line => ne ?_
    exact State.Covers.eq_of_line_eq sound.firing.a hk (cover _ he) (cover _ hf) line

/-- Settles O58: the windows in progress cover one tick together, where the conditions bound them; without a cycle no window
is OPEN. -/
theorem invariantsGiveIdleLinesAndTheBudget : Obligations.InvariantsGiveIdleLinesAndTheBudget := by
  refine ⟨fun _ => windows_within_budget, fun s served hold idle => ?_⟩
  have lines := served.linesIdle idle
  exact ⟨lines.plan, fun l => ⟨lines.holding l, lines.driven hold l⟩, lines.bursts⟩

end Sys2Proof.Machine
end

