-- ==== Sys2Proof/Proofs/ScheduleParts.lean ====
section
/-! SUPPORT. `ScheduleSound` through the parts that every command and every tick is made of (R13, R47). -/

namespace Sys2Proof.Machine

theorem Beside.schedule_eq {s t : State} (h : Beside s t) : t.schedule = s.schedule := by
  have executor := h.executor
  have rest := h.rest
  generalize t.arbiter = a at executor rest
  rw [rest]
  exact congrArg (fun x => { s.schedule with op := x.map Flight.op }) executor

namespace ScheduleSound

variable {s : State}

theorem handEdge (h : ScheduleSound s) (i : InputIx) : ScheduleSound (s.handEdge i) := by
  have gated : ScheduleSound (s.gateEdge i) := h.of_schedule_eq (s.schedule_gateEdge i)
  unfold State.handEdge
  dsimp only
  split
  · exact gated.qualifyingEdge
  · exact gated

theorem event (h : ScheduleSound s) {t : State} (e : MotionEvent s t) : ScheduleSound t := by
  cases e with
  | cycleEnd => exact h.cycleEnd
  | spacingEnd => exact h.spacingEnd
  | inhAssert => exact h.inhAssert
  | inhRelease => exact h.inhRelease
  | windowBoundary => exact h.of_schedule_eq s.schedule_windowBoundary
  | handEdge i => exact h.handEdge i
  | firstVote free => exact h.firstVote fun _ => free
  | lastVoteCleared => exact h.lastVoteCleared
  | highElapsed g j => exact h.of_schedule_eq (s.schedule_setJob ..)
  | lowElapsed g j => exact h.of_schedule_eq (s.schedule_setJob ..)

/-- What is judged at a taking stands. -/
theorem judged_stands (h : ScheduleSound s) {me : SessionId} {op : FlightOp} (j : Judged s me op) : FlightStands s op := by
  cases j with
  | add f => exact judgeAdd_stands s me f
  | replace f => exact judgeReplace_stands s me f
  | setHub f => exact h.judgeSetHub_stands f

/-- What the flight in progress has found stands after its release. -/
theorem flightStands_released (h : ScheduleSound s) {f : Flight} (hf : s.arbiter.executor = some f) :
    FlightStands s.releaseExecutor f.op := h.flightStands_releaseExecutor (h.flight f hf)

theorem keptByParts : KeptByParts ScheduleSound where
  beside b h := h.of_schedule_eq b.schedule_eq
  event e h := h.event e
  tick _ h := h.of_schedule_eq (State.schedule_tick _)
  withdraw me f free h := h.withdrawAct free me f
  claimLine f free _ h := h.claimLineAct free _ f
  releaseLine me f h := h.releaseLineAct me f
  clearCounters h := h.of_schedule_eq (State.schedule_clearCounters _)
  attach _ _ _ _ h := h.of_schedule_eq rfl
  endSession p expired h := h.endSession p expired
  cleanup free _ h := (h.of_schedule_eq (State.schedule_takeClaim ..)).cleanup free _
  beginFlight r _ judged h := h.beginFlight _ _ r (h.judged_stands judged)
  release h := h.releaseExecutor
  completeAdd hf hv _ h := h.releaseExecutor.completeAdd rfl _ (hv ▸ h.flightStands_released hf)
  completeReplace hf hv _ h := h.releaseExecutor.completeReplace rfl _ (hv ▸ h.flightStands_released hf)
  setHub hf hv h := h.releaseExecutor.setHub rfl (hv ▸ h.flightStands_released hf)
  holdReset _ h := h.of_schedule_eq rfl
  afterRelease := scheduleSound_afterRelease

end ScheduleSound

end Sys2Proof.Machine
end

