-- ==== Sys2Proof/Proofs/TimedStarts.lean ====
section
/-! SUPPORT. Windows that start at one offset: an IDLE engine is left for each BURST one, and those in progress are in time with
the cycle timer (R12, R82, R83, R87). -/

namespace Sys2Proof.Machine

/-! ### Runs of window starts -/

namespace State

variable (s : State)

theorem startWindow_opened {e : EntryIx} (planned : (s.windowState e).isSome = true) : (s.startWindow e).opened e := by
  obtain ⟨b, g, window⟩ := s.startWindow_windowState e
  obtain ⟨y, hy⟩ := Option.isSome_iff_exists.1 planned
  exact ⟨.opened b g, by simp [window, hy], rfl⟩

/-- The windows that are OPEN once a window has started: it and those that were. -/
theorem opened_of_startWindow {e f : EntryIx} (h : (s.startWindow e).opened f) : f = e ∨ s.opened f := by
  by_cases hf : f = e
  · exact .inl hf
  · obtain ⟨x, hx, isOpen⟩ := h
    exact .inr ⟨x, (s.startWindow_windowState_ne e hf).symm.trans hx, isOpen⟩

theorem planned_startWindow (e f : EntryIx) : ((s.startWindow e).windowState f).isSome = (s.windowState f).isSome := by
  obtain ⟨b, g, window⟩ := s.startWindow_windowState e
  rw [window, Option.isSome_map]

theorem startWindow_descriptor (e f : EntryIx) : ((s.startWindow e).entry f).descriptor = (s.entry f).descriptor :=
  (s.startWindow_sameWindowFacts e f).descriptor

theorem startWindows_descriptor (es : List EntryIx) (f : EntryIx) :
    ((s.startWindows es).entry f).descriptor = (s.entry f).descriptor :=
  foldl_related (R := fun s t : State => (t.entry f).descriptor = (s.entry f).descriptor) (fun _ => rfl)
    (fun _ _ _ h k => k.trans h) (fun s e => s.startWindow_descriptor e f) es s

theorem startWindows_windowState_of_not_mem {es : List EntryIx} {f : EntryIx} (hf : f ∉ es) :
    (s.startWindows es).windowState f = s.windowState f :=
  List.foldlRecOn (motive := fun t : State => t.windowState f = s.windowState f) es _ rfl fun t ht e he =>
    (t.startWindow_windowState_ne e (ne_of_mem_of_not_mem he hf).symm).trans ht

/-- A window that has started stays OPEN through further starts. -/
theorem opened_startWindow {e f : EntryIx} (h : s.opened f) : (s.startWindow e).opened f := by
  by_cases hf : f = e
  · rw [hf]
    exact s.startWindow_opened (hf ▸ planned_of_opened h)
  · obtain ⟨x, hx, isOpen⟩ := h
    exact ⟨x, (s.startWindow_windowState_ne e hf).trans hx, isOpen⟩

theorem opened_startWindows {es : List EntryIx} {f : EntryIx} (hf : f ∈ es) (planned : (s.windowState f).isSome = true) :
    (s.startWindows es).opened f := by
  obtain ⟨before, after, rfl⟩ := List.append_of_mem hf
  rw [startWindows, List.foldl_append, List.foldl_cons]
  refine List.foldlRecOn (motive := fun t : State => t.opened f) after _ (startWindow_opened _ ?_) fun t ht e _ =>
    t.opened_startWindow ht
  exact List.foldlRecOn (motive := fun t : State => (t.windowState f).isSome = true) before _ planned fun t ht e _ =>
    (t.planned_startWindow e f).trans ht

/-- After a run of starts a SCHEDULED window is one that has been so and has not started. -/
theorem scheduled_of_startWindows {es : List EntryIx} {f : EntryIx}
    (h : (s.startWindows es).windowState f = some .scheduled) : f ∉ es ∧ s.windowState f = some .scheduled := by
  have planned : (s.windowState f).isSome = true := by
    have kept : ((s.startWindows es).windowState f).isSome = (s.windowState f).isSome :=
      foldl_related (R := fun s t : State => (t.windowState f).isSome = (s.windowState f).isSome) (fun _ => rfl)
        (fun _ _ _ h k => k.trans h) (fun s e => s.planned_startWindow e f) es s
    rw [← kept, h]
    rfl
  have outside : f ∉ es := by
    intro hf
    obtain ⟨x, hx, isOpen⟩ := s.opened_startWindows hf planned
    rw [h] at hx
    cases hx
    cases isOpen
  exact ⟨outside, (s.startWindows_windowState_of_not_mem outside).symm.trans h⟩

/-- The window of a BURST entry opens with the lowest-numbered IDLE engine. -/
theorem startWindow_windowState_burst {e : EntryIx} {part : BurstPart} {g : EngineIx}
    (kind : (s.entry e).descriptor.kind = .burst part) (idle : s.idleEngine = some g) (f : EntryIx) :
    (s.startWindow e).windowState f =
      (s.windowState f).map fun y => if f = e then .opened (s.startFlag e) (some g) else y := by
  rw [← drivenWindow_windowState (some g) (s.freshJob e part (s.startFlag e)).level, startWindow_eq, NoticesOnly.windowNotice, openWindow_burst kind idle]
  rfl

end State

/-! ### Windows that start at one offset (R12, R87) -/

/-- The window of an entry in force has a tick (R1). -/
theorem ScheduleSound.start_lt_stop {s : State} (h : ScheduleSound s) {e : EntryIx}
    (firing : (s.entry e).state.inFiring = true) : (s.entry e).descriptor.start < (s.entry e).descriptor.stop := by
  have := (h.ranges e (EntryState.ne_free_iff.2 (.inr firing))).duration
  unfold Descriptor.stop
  omega

/-- The window of entry e is SCHEDULED and starts at offset n. -/
structure State.Ready (s : State) (n : Nat) (e : EntryIx) : Prop where
  scheduled : s.windowState e = some .scheduled
  start : (s.entry e).descriptor.start = n

theorem State.Ready.startWindow {s : State} {n : Nat} {e f : EntryIx} (h : s.Ready n f) (other : f ≠ e) :
    (s.startWindow e).Ready n f :=
  ⟨(s.startWindow_windowState_ne e other).trans h.scheduled, by rw [s.startWindow_descriptor, h.start]⟩

/-- The windows in progress at offset n of a cycle with index k, also between the starts there: those that are OPEN cover n,
and a BURST one has an engine. -/
structure WindowsRunning (k n : Nat) (s : State) : Prop where
  sound : ScheduleSound s
  served : WindowsServed s
  fires : ∀ e, (s.windowState e).isSome = true → (s.entry e).descriptor.fires k = true
  covers : ∀ e, s.opened e → (s.entry e).descriptor.start ≤ n ∧ n < (s.entry e).descriptor.stop
  engines : ∀ e, s.opened e → (s.entry e).descriptor.isBurst = true → (s.engineOf e).isSome = true

namespace WindowsRunning

variable {k n : Nat} {s : State} (h : WindowsRunning k n s)
include h

theorem covers_of_opened {e : EntryIx} (opened : s.opened e) : s.Covers k n e := by
  obtain ⟨start, stop⟩ := h.covers e opened
  have planned := State.planned_of_opened opened
  exact ⟨h.served.inForce e planned, h.fires e planned, start, stop⟩

theorem start_lt_stop {e : EntryIx} (planned : (s.windowState e).isSome = true) :
    (s.entry e).descriptor.start < (s.entry e).descriptor.stop := h.sound.start_lt_stop (h.served.inForce e planned)

theorem covers_of_ready {e : EntryIx} (ready : s.Ready n e) : s.Covers k n e := by
  have planned : (s.windowState e).isSome = true := by rw [ready.scheduled]; rfl
  have long := h.start_lt_stop planned
  rw [ready.start] at long
  exact ⟨h.served.inForce e planned, h.fires e planned, ready.start.le, long⟩

/-- While a BURST window is to start an engine is IDLE: a third BURST window would cover its start. -/
theorem exists_idleEngine (hk : k < 8) {e : EntryIx} (ready : s.Ready n e)
    (burst : (s.entry e).descriptor.isBurst = true) : ∃ g, s.idleEngine = some g := by
  by_contra none
  have busy (g : EngineIx) : ∃ f, s.engineOf f = some g ∧ (s.entry f).descriptor.isBurst = true := by
    cases hg : (s.burst g).job with
    | none =>
      have found : s.idleEngine ≠ Option.none := by
        intro all
        have := List.find?_eq_none.1 all g (List.mem_finRange g)
        simp [BurstEngine.job_eq_none.1 hg] at this
      exact absurd (Option.ne_none_iff_exists'.1 found) none
    | some j =>
      obtain ⟨mine, -, -, isBurst⟩ := h.served.engine g j hg
      exact ⟨j.window, mine, isBurst⟩
  obtain ⟨f₀, mine₀, burst₀⟩ := busy 0
  obtain ⟨f₁, mine₁, burst₁⟩ := busy 1
  have unserved : s.engineOf e = Option.none := by rw [State.engineOf, ready.scheduled]; rfl
  have ne₀ : e ≠ f₀ := fun same => by simp [same, mine₀] at unserved
  have ne₁ : e ≠ f₁ := fun same => by simp [same, mine₁] at unserved
  have ne : f₀ ≠ f₁ := fun same => by simp [same, mine₁] at mine₀
  have three : [e, f₀, f₁].length ≤ 2 := by
    refine State.Covers.length_burst_le (t := n) h.sound.firing.d hk (by simp [ne₀, ne₁, ne]) ?_ ?_
    · simp [h.covers_of_ready ready, h.covers_of_opened (State.opened_of_engineOf mine₀),
        h.covers_of_opened (State.opened_of_engineOf mine₁)]
    · simp [burst, burst₀, burst₁]
  simp at three

theorem startWindow (hk : k < 8) {e : EntryIx} (ready : s.Ready n e) : WindowsRunning k n (s.startWindow e) := by
  refine ⟨h.sound.of_schedule_eq (s.schedule_startWindow e), h.served.startWindow ready.scheduled, fun f hf => ?_,
    fun f hf => ?_, fun f hf burst => ?_⟩
  · rw [s.planned_startWindow] at hf
    rw [s.startWindow_descriptor]
    exact h.fires f hf
  · rw [s.startWindow_descriptor]
    rcases s.opened_of_startWindow hf with rfl | opened
    · exact ⟨(h.covers_of_ready ready).start, (h.covers_of_ready ready).stop⟩
    · exact h.covers f opened
  · rw [s.startWindow_descriptor] at burst
    by_cases hfe : f = e
    · rw [hfe] at burst ⊢
      obtain ⟨g, idle⟩ := h.exists_idleEngine hk ready burst
      cases kind : (s.entry e).descriptor.kind with
      | solid => simp [Descriptor.isBurst, kind, kindHasBurst] at burst
      | burst part => simp [State.engineOf, s.startWindow_windowState_burst kind idle, ready.scheduled, WindowState.engine]
    · have opened := (s.opened_of_startWindow hf).resolve_left hfe
      rw [State.engineOf, s.startWindow_windowState_ne e hfe]
      exact h.engines f opened burst

theorem startWindows (hk : k < 8) {es : List EntryIx} (nd : es.Nodup) (ready : ∀ e ∈ es, s.Ready n e) :
    WindowsRunning k n (s.startWindows es) :=
  State.startWindows_keeps (Ready := fun s => s.Ready n) (fun _ _ hs ht => ht.startWindow hk hs)
    (fun _ _ _ other hs => hs.startWindow other) nd ready h

end WindowsRunning

/-! ### The windows of the plan in time, by their entries -/

/-- `WindowsTimed` but for the timer, window by window. -/
structure WindowsOnTime (s : State) : Prop where
  fires : ∀ e, (s.windowState e).isSome = true →
    (s.entry e).descriptor.fires (superIndex s.engine.reportedNumber) = true
  scheduled : ∀ e, s.windowState e = some .scheduled →
    s.engine.count ≤ (s.entry e).descriptor.start ∧ (s.engine.count = 0 → 0 < (s.entry e).descriptor.start)
  opened : ∀ e, s.opened e →
    (s.entry e).descriptor.start ≤ s.engine.count ∧ s.engine.count ≤ (s.entry e).descriptor.stop
  together : (∀ e, s.opened e → s.engine.count < (s.entry e).descriptor.stop)
    ∨ ∀ e, s.opened e → (s.entry e).descriptor.start < s.engine.count
  served : ∀ e, s.opened e → (s.entry e).descriptor.isBurst = true → (s.engineOf e).isSome = true

/-- The timer of a cycle in progress is within the span, which is the cycle length in force. -/
def CycleTimed (s : State) : Prop :=
  s.engine.state.inProgress = true →
    s.engine.timer.isSome = true ∧ s.engine.count ≤ s.engine.span ∧ s.engine.span = s.hub.cycleLength

theorem State.exists_of_opened {s : State} {e : EntryIx} :
    s.opened e → ∃ w ∈ s.planList, w.entry = e ∧ w.state.isOpen = true := by
  rintro ⟨x, hx, isOpen⟩
  obtain ⟨w, hw, rfl, rfl⟩ := State.mem_of_windowState hx
  exact ⟨w, hw, rfl, isOpen⟩

theorem WindowsTimed.onTime {s : State} (h : WindowsTimed s) (distinct : (s.planList.map fun w => w.entry).Nodup) :
    WindowsOnTime s where
  fires e he := by
    obtain ⟨x, hx⟩ := Option.isSome_iff_exists.1 he
    obtain ⟨w, hw, rfl, -⟩ := State.mem_of_windowState hx
    exact h.fires w hw
  scheduled e he := by
    obtain ⟨w, hw, rfl, state⟩ := State.mem_of_windowState he
    exact h.scheduled w hw state
  opened e he := by
    obtain ⟨w, hw, rfl, isOpen⟩ := State.exists_of_opened he
    exact h.opened w hw isOpen
  together := by
    refine h.together.imp (fun before e he => ?_) fun started e he => ?_
    · obtain ⟨w, hw, rfl, isOpen⟩ := State.exists_of_opened he
      exact before w hw isOpen
    · obtain ⟨w, hw, rfl, isOpen⟩ := State.exists_of_opened he
      exact started w hw isOpen
  served e he burst := by
    obtain ⟨w, hw, rfl, isOpen⟩ := State.exists_of_opened he
    rw [State.engineOf, State.windowState_of_mem distinct hw]
    exact h.served w hw isOpen burst

theorem WindowsOnTime.windowsTimed {s : State} (h : WindowsOnTime s)
    (distinct : (s.planList.map fun w => w.entry).Nodup) (timer : CycleTimed s) : WindowsTimed s := by
  have window {w : PlannedWindow} (hw : w ∈ s.planList) : s.windowState w.entry = some w.state :=
    State.windowState_of_mem distinct hw
  have opened {w : PlannedWindow} (hw : w ∈ s.planList) (isOpen : w.state.isOpen = true) : s.opened w.entry :=
    ⟨_, window hw, isOpen⟩
  refine ⟨fun w hw => h.fires w.entry (by rw [window hw]; rfl), fun w hw state => h.scheduled w.entry ?_,
    fun w hw isOpen => h.opened w.entry (opened hw isOpen), ?_, fun w hw isOpen burst => ?_, timer⟩
  · rw [window hw, state]
  · exact h.together.imp (fun before w hw isOpen => before w.entry (opened hw isOpen))
      fun started w hw isOpen => started w.entry (opened hw isOpen)
  · have mine := h.served w.entry (opened hw isOpen) burst
    rwa [State.engineOf, window hw] at mine

/-- The windows are in time once those that start at the present offset have started. -/
theorem WindowsRunning.onTime {s : State}
    (h : WindowsRunning (superIndex s.engine.reportedNumber) s.engine.count (s.startWindows (s.startingAt s.engine.count)))
    (ahead : ∀ e, s.windowState e = some .scheduled → s.engine.count ≤ (s.entry e).descriptor.start) :
    WindowsOnTime (s.startWindows (s.startingAt s.engine.count)) := by
  have engine := s.startWindows_engine (s.startingAt s.engine.count)
  refine ⟨?_, fun e he => ?_, fun e he => ?_, .inl fun e he => ?_, h.engines⟩
  · rw [engine]
    exact h.fires
  · obtain ⟨outside, scheduled⟩ := s.scheduled_of_startWindows he
    obtain ⟨w, hw, rfl, state⟩ := State.mem_of_windowState scheduled
    have late : (s.entry w.entry).descriptor.start ≠ s.engine.count := fun start => outside <| by
      simp only [State.startingAt, List.mem_filter, List.mem_map, decide_eq_true_eq]
      exact ⟨⟨w, ⟨hw, state⟩, rfl⟩, start⟩
    have := ahead w.entry scheduled
    rw [engine, s.startWindows_descriptor]
    omega
  · rw [engine]
    exact ⟨(h.covers e he).1, (h.covers e he).2.le⟩
  · rw [engine]
    exact (h.covers e he).2

end Sys2Proof.Machine
end

