-- ==== Sys2Proof/Proofs/TimedSteps.lean ====
section
/-! SUPPORT. `WindowsTimed` through the parts of every step, in the states whose schedule is sound and whose lines are served
(R56, R62, R82, R87). -/

namespace Sys2Proof.Machine

/-! ### What is read of a state -/

/-- What `WindowsTimed` reads of the cycle engine. -/
def CycleEngine.clock (c : CycleEngine) : Option CycleNumber × Option Nat × Nat × Bool :=
  (c.number, c.timer, c.span, c.state.inProgress)

section clock

variable {c d : CycleEngine} (h : d.clock = c.clock)
include h

theorem CycleEngine.reportedNumber_of_clock_eq : d.reportedNumber = c.reportedNumber := by
  simp only [clock, Prod.mk.injEq] at h
  rw [reportedNumber, h.1, reportedNumber]

theorem CycleEngine.count_of_clock_eq : d.count = c.count := by
  simp only [clock, Prod.mk.injEq] at h
  rw [count, h.2.1, count]

end clock

/-- A window in state x for one that was in state y: SCHEDULED or OPEN only if it was, and with the engine it had. -/
structure WindowState.Follows (x y : WindowState) : Prop where
  scheduled : x = .scheduled → y = .scheduled
  opened : x.isOpen = true → y.isOpen = true ∧ y.engine = x.engine

theorem WindowState.Follows.rfl' (x : WindowState) : x.Follows x := ⟨id, fun h => ⟨h, rfl⟩⟩

/-- Every window of t is one that s has planned, and follows it. -/
def WindowsFollow (s t : State) : Prop := ∀ e x, t.windowState e = some x → ∃ y, s.windowState e = some y ∧ x.Follows y

theorem WindowsFollow.of_plan_eq {s t : State} (h : t.plan = s.plan) : WindowsFollow s t := fun e x hx =>
  ⟨x, (State.windowState_congr h e).symm.trans hx, .rfl' x⟩

theorem State.windowsFollow_endWindows (s : State) (es : List EntryIx) : WindowsFollow s (s.endWindows es) := by
  intro e x hx
  rw [endWindows, shuts_endWindow.foldl_windowState] at hx
  obtain ⟨y, hy, rfl⟩ := Option.map_eq_some_iff.1 hx
  refine ⟨y, hy, ?_⟩
  split
  · exact { scheduled := nofun, opened := nofun }
  · exact .rfl' y

theorem State.not_opened_endWindows (s : State) {es : List EntryIx} {e : EntryIx} (he : e ∈ es) :
    ¬ (s.endWindows es).opened e := by
  rintro ⟨x, hx, isOpen⟩
  rw [endWindows, shuts_endWindow.foldl_windowState] at hx
  obtain ⟨y, -, rfl⟩ := Option.map_eq_some_iff.1 hx
  rw [if_pos he] at isOpen
  cases isOpen

theorem WindowsFollow.opened {s t : State} (h : WindowsFollow s t) {e : EntryIx} (he : t.opened e) :
    s.opened e ∧ t.engineOf e = s.engineOf e := by
  obtain ⟨x, hx, isOpen⟩ := he
  obtain ⟨y, hy, follows⟩ := h e x hx
  obtain ⟨wasOpen, engine⟩ := follows.opened isOpen
  refine ⟨⟨y, hy, wasOpen⟩, ?_⟩
  rw [State.engineOf, hx, State.engineOf, hy]
  exact engine.symm

theorem WindowsFollow.planned {s t : State} (h : WindowsFollow s t) {e : EntryIx}
    (he : (t.windowState e).isSome = true) : (s.windowState e).isSome = true := by
  obtain ⟨x, hx⟩ := Option.isSome_iff_exists.1 he
  obtain ⟨y, hy, -⟩ := h e x hx
  rw [hy]
  rfl

/-- Windows that follow those in time, at the same count of the same cycle. -/
theorem WindowsOnTime.follow {s t : State} (h : WindowsOnTime s) (follow : WindowsFollow s t)
    (clock : t.engine.clock = s.engine.clock)
    (descriptor : ∀ e, (s.windowState e).isSome = true → (t.entry e).descriptor = (s.entry e).descriptor) :
    WindowsOnTime t := by
  have number := CycleEngine.reportedNumber_of_clock_eq clock
  have count := CycleEngine.count_of_clock_eq clock
  have kept {e : EntryIx} (he : t.opened e) : (t.entry e).descriptor = (s.entry e).descriptor :=
    descriptor e (State.planned_of_opened (follow.opened he).1)
  refine ⟨fun e he => ?_, fun e he => ?_, fun e he => ?_, ?_, fun e he burst => ?_⟩
  · rw [number, descriptor e (follow.planned he)]
    exact h.fires e (follow.planned he)
  · obtain ⟨y, hy, follows⟩ := follow e _ he
    rw [follows.scheduled rfl] at hy
    rw [count, descriptor e (by rw [hy]; rfl)]
    exact h.scheduled e hy
  · rw [count, kept he]
    exact h.opened e (follow.opened he).1
  · rw [count]
    refine h.together.imp (fun before e he => ?_) fun started e he => ?_
    · rw [kept he]
      exact before e (follow.opened he).1
    · rw [kept he]
      exact started e (follow.opened he).1
  · rw [kept he] at burst
    rw [(follow.opened he).2]
    exact h.served e (follow.opened he).1 burst

theorem CycleTimed.of_clock_eq {s t : State} (h : CycleTimed s) (clock : t.engine.clock = s.engine.clock)
    (hub : t.hub.cycleLength = s.hub.cycleLength) : CycleTimed t := by
  have count := CycleEngine.count_of_clock_eq clock
  simp only [CycleEngine.clock, Prod.mk.injEq] at clock
  obtain ⟨-, timer, span, progress⟩ := clock
  unfold CycleTimed
  rw [progress, timer, count, span, hub]
  exact h

/-- Lines and burst engines are served, and the windows of the plan are in time. -/
structure PlanInTime (s : State) : Prop where
  served : LinesServed s
  timed : WindowsTimed s

namespace PlanInTime

theorem of_onTime {s : State} (served : LinesServed s) (onTime : WindowsOnTime s) (timer : CycleTimed s) :
    PlanInTime s := ⟨served, onTime.windowsTimed served.distinct timer⟩

/-- Outside a cycle there is no window. -/
theorem of_idle {s : State} (served : LinesServed s) (idle : s.engine.state.inProgress = false) : PlanInTime s := by
  have window := State.windowState_of_no_plan (served.linesIdle idle).plan
  have shut (e : EntryIx) : ¬ s.opened e := by
    rintro ⟨x, hx, -⟩
    rw [window] at hx
    cases hx
  refine of_onTime served ⟨fun e he => ?_, fun e he => ?_, fun e he => absurd he (shut e),
    .inl fun e he => absurd he (shut e), fun e he => absurd he (shut e)⟩ fun progress => ?_
  · rw [window] at he
    cases he
  · rw [window] at he
    cases he
  · rw [idle] at progress
    cases progress

variable {s : State} (h : PlanInTime s)
include h

theorem onTime : WindowsOnTime s := h.timed.onTime h.served.distinct

theorem follow {t : State} (served : LinesServed t) (follow : WindowsFollow s t)
    (clock : t.engine.clock = s.engine.clock) (hub : t.hub.cycleLength = s.hub.cycleLength)
    (descriptor : ∀ e, (s.windowState e).isSome = true → (t.entry e).descriptor = (s.entry e).descriptor) :
    PlanInTime t :=
  of_onTime served (h.onTime.follow follow clock descriptor) (CycleTimed.of_clock_eq h.timed.timer clock hub)

/-- What touches neither windows, entries, the engine's clock nor the cycle length. -/
theorem of_eq {t : State} (served : LinesServed t) (plan : t.plan = s.plan) (entries : t.entries = s.entries)
    (clock : t.engine.clock = s.engine.clock) (hub : t.hub.cycleLength = s.hub.cycleLength) : PlanInTime t :=
  h.follow served (.of_plan_eq plan) clock hub fun e _ => by rw [State.entry, entries, State.entry]

/-! ### The tables -/

/-- Entries that lapse while those that fire go on firing. -/
theorem lapse {t : State} (l : Lapse s t) (kept : FiringKept s t) : PlanInTime t := by
  have only := l.only
  refine h.follow (h.served.lapse l kept) (.of_plan_eq (by rw [only])) (by rw [only]) (by rw [only]) fun e planned => ?_
  obtain ⟨running, firing⟩ := h.served.planned_of_window planned
  exact (l.entries e).descriptor (EntryState.ne_free_iff.2 (.inr (kept running e firing)))

theorem writePending {e : EntryIx} (free : (s.entry e).state = .free) (o : SessionId) (d : Descriptor) :
    PlanInTime (s.writePending e o d) := by
  refine h.follow (h.served.writePending free o d) (.of_plan_eq rfl) rfl rfl fun f planned => ?_
  have firing := (h.served.planned_of_window planned).2
  have other : f ≠ e := by
    rintro rfl
    rw [free] at firing
    cases firing
  rw [State.entry_writePending_ne other]

theorem release : PlanInTime s.releaseExecutor := h.of_eq h.served.release rfl rfl rfl rfl

theorem completeAdd (me : SessionId) (v : Verdict Descriptor) : PlanInTime (s.completeAdd me v).state := by
  cases v with
  | refuse st b => exact h
  | pass d =>
    refine State.completeAdd_keeps h fun e free => ?_
    have written := h.writePending free me d
    exact written.lapse (.recomputePeaks _) (.rfl' _)

theorem completeReplace (me : SessionId) {v : Verdict Replacement}
    (rests : (FlightOp.replace v).restsOnStop = true → s.engine.state = .stopped) :
    PlanInTime (s.completeReplace me v).state := by
  cases v with
  | refuse st b => exact h
  | pass r =>
    refine State.completeReplace_keeps h (fun freed => ?_) (fun _ _ free ht => ht.writePending free ..)
      (fun _ _ active ht => ht.lapse (.retireReplaced _ active) (.retireReplaced _ _ _))
      fun _ ht => ht.lapse (.recomputePeaks _) (.rfl' _)
    refine h.lapse (.freeEntry ..) (.freeEntry s fun running => ?_)
    rcases freed with ⟨o, pending⟩ | ⟨-, stopped⟩
    · rw [pending]
      rfl
    · exact absurd (rests stopped) running

theorem claimLine {l : LineIx} {me : SessionId} {idle : Level} {gap : Nat}
    (unchanged : (idle = (s.line l).idle ∧ gap = (s.line l).gap) ∨ s.lineInUse l = false) :
    PlanInTime (s.claimLine l me idle gap) := by
  have only := s.claimLine_only l me idle gap
  exact h.of_eq (h.served.claimLine unchanged) (by rw [only]) (by rw [only]) (by rw [only]) (by rw [only])

/-! ### The engine state, the gates and the clock -/

theorem changeEngine {x : EngineState} (start : s.MayStart) (progress : x.inProgress = s.engine.state.inProgress) :
    PlanInTime (s.changeEngine x) := by
  have only := s.changeEngine_only x
  have clock : (s.changeEngine x).engine.clock = s.engine.clock := by
    rw [State.changeEngine_engine, CycleEngine.clock, progress]
    rfl
  exact h.of_eq (h.served.changeEngine start progress) (by rw [only]) (s.changeEngine_entries x) clock (by rw [only])

theorem gateEdge (i : InputIx) : PlanInTime (s.gateEdge i) := by
  have only := s.gateEdge_only i
  have follow : WindowsFollow s (s.gateEdge i) := by
    refine State.gateEdge_keeps i (fun t w planned ht => ?_) h.served.distinct (.of_plan_eq rfl)
    rcases t.gateWindow_windowState i w with same | ⟨b, c, g, flagged, window⟩
    · exact fun e x hx => ht e x ((same e).symm.trans hx)
    · intro e x hx
      obtain ⟨y, hy, rfl⟩ := Option.map_eq_some_iff.1 ((window e).symm.trans hx)
      split
      · rename_i mine
        rw [← mine, hy, flagged] at planned
        cases planned
        obtain ⟨z, hz, follows⟩ := ht e _ hy
        exact ⟨z, hz, { scheduled := nofun, opened := fun _ => follows.opened rfl }⟩
      · exact ht e y hy
  exact h.follow (h.served.gateEdge i) follow (by rw [only.engine]) (by rw [only]) fun e _ => by rw [only.entry]

end PlanInTime

/-- With a timer that counts a cycle and no event due, neither the span is reached nor does a window end or start. -/
theorem State.nothing_due_of_dueEvents {s : State} {n : Nat} (due : s.dueEvents = [])
    (progress : s.engine.state.inProgress = true) (timer : s.engine.timer = some n) :
    n < s.engine.span ∧ (1 ≤ n → ∀ w ∈ s.planList,
      (w.state.isOpen = true → (s.entry w.entry).descriptor.stop ≠ n)
        ∧ (w.state = .scheduled → (s.entry w.entry).descriptor.start ≠ n)) := by
  have early : n < s.engine.span := by
    simpa [CycleEngine.timerDone, timer] using (nothingDue_of_dueEvents due).cycle
  have quiet : s.boundaryDue = false := by
    simp only [State.dueEvents, List.append_eq_nil_iff, dueWhen_eq_nil] at due
    obtain ⟨⟨⟨⟨⟨⟨⟨-, boundary⟩, -⟩, -⟩, -⟩, -⟩, -⟩, -⟩ := due
    exact boundary
  refine ⟨early, fun counted w hw => ⟨fun isOpen stop => ?_, fun scheduled start => ?_⟩⟩ <;>
    refine Bool.false_ne_true (quiet.symm.trans ((State.boundaryDue_iff timer).2 ⟨progress, counted, early, w, hw, ?_⟩))
  · exact .inl ⟨isOpen, stop⟩
  · exact .inr ⟨scheduled, start⟩

namespace State

variable (s : State)

/-- The state after the ends of a window boundary event, before its starts (R82). -/
def afterEnds : State := s.endWindows (s.endingAt s.engine.count)

theorem afterEnds_only : WindowsOnly s s.afterEnds := s.endWindows_only _

theorem tick_entry (e : EntryIx) : s.tick.entry e = s.entry e := rfl

theorem tick_timer : s.tick.engine.timer = s.engine.timer.map (· + 1) := rfl

theorem earlyEdge_only :
    s.earlyEdge =
      { s with
        engine := { s.engine with earlyEdges := saturatingInc s.engine.earlyEdges }, notices := s.earlyEdge.notices } :=
  NoticesOnly.broadcast ..

theorem windowBoundary_eq :
    s.windowBoundary = s.afterEnds.startWindows (s.afterEnds.startingAt s.afterEnds.engine.count) := by
  rw [s.afterEnds_only.engine]
  rfl

end State

/-- The schedule is sound, lines and burst engines are served, and the windows of the plan are in time. -/
structure CycleInTime (s : State) : Prop where
  sound : ScheduleSound s
  plan : PlanInTime s

namespace CycleInTime

/-- No event is due at the present count, so the next one is still in time. -/
theorem tick {s : State} (h : CycleInTime s) (due : s.dueEvents = []) : CycleInTime s.tick := by
  refine ⟨h.sound.of_schedule_eq s.schedule_tick, ?_⟩
  have served := h.plan.served.tick
  cases progress : s.engine.state.inProgress with
  | false => exact .of_idle served progress
  | true =>
    obtain ⟨counting, within, span⟩ := h.plan.timed.timer progress
    obtain ⟨n, timer⟩ := Option.isSome_iff_exists.1 counting
    obtain ⟨early, quiet⟩ := State.nothing_due_of_dueEvents due progress timer
    have count : s.engine.count = n := by rw [CycleEngine.count, timer]; rfl
    have next : s.tick.engine.timer = some (n + 1) := by rw [s.tick_timer, timer]; rfl
    have ticked : s.tick.engine.count = n + 1 := by rw [CycleEngine.count, next]; rfl
    refine ⟨served, h.plan.timed.fires, fun w hw scheduled => ?_, fun w hw isOpen => ?_, .inr fun w hw isOpen => ?_,
      h.plan.timed.served, fun _ => ⟨by rw [next]; rfl, ticked ▸ early, span⟩⟩
    · obtain ⟨ahead, fresh⟩ := h.plan.timed.scheduled w hw scheduled
      have := fun counted => (quiet counted w hw).2 scheduled
      rw [ticked, s.tick_entry]
      omega
    · obtain ⟨start, stop⟩ := h.plan.timed.opened w hw isOpen
      have := fun counted => (quiet counted w hw).1 isOpen
      have := h.sound.start_lt_stop (h.plan.served.inForce w hw)
      rw [ticked, s.tick_entry]
      omega
    · have := (h.plan.timed.opened w hw isOpen).1
      rw [ticked, s.tick_entry]
      omega

/-! ### A cycle start (R62) -/

/-- The cycle planned, as its first windows start. -/
theorem plannedCycle_running {s : State} (sound : ScheduleSound s) (lines : LinesIdle s) (start : s.MayStart) :
    WindowsRunning (superIndex s.engine.nextNumber) 0 s.plannedCycle := by
  have shut (e : EntryIx) : ¬ s.plannedCycle.opened e := by
    rintro ⟨x, hx, isOpen⟩
    rw [s.plannedCycle_windowState] at hx
    split at hx
    · cases hx
      cases isOpen
    · cases hx
  have planned : ScheduleSound s.plannedCycle :=
    (sound.cycleStart start).of_schedule_eq (State.schedule_startWindows _ _).symm
  refine ⟨planned, lines.plannedCycle, fun e he => ?_, fun e he => absurd he (shut e), fun e he => absurd he (shut e)⟩
  rw [s.plannedCycle_windowState] at he
  split at he
  · rename_i planned
    rw [s.plannedCycle_entry]
    exact (s.mem_cycleEntries.1 planned).2
  · cases he

theorem cycleStart {s : State} (sound : ScheduleSound s) (lines : LinesIdle s) (start : s.MayStart)
    (waits : FlightWaits s) : CycleInTime s.cycleStart := by
  have count : s.plannedCycle.engine.count = 0 := by rw [s.plannedCycle_engine]; rfl
  have number : s.plannedCycle.engine.reportedNumber = s.engine.nextNumber := by rw [s.plannedCycle_engine]; rfl
  have ready : ∀ e ∈ s.plannedCycle.startingAt 0, s.plannedCycle.Ready 0 e := fun e he => by
    rw [s.startingAt_plannedCycle] at he
    refine ⟨s.firstEntries_scheduled he, ?_⟩
    rw [s.plannedCycle_entry]
    exact of_decide_eq_true (List.mem_filter.1 he).2
  have nd : (s.plannedCycle.startingAt 0).Nodup := by
    rw [s.startingAt_plannedCycle]
    exact s.nodup_firstEntries
  have started := (plannedCycle_running sound lines start).startWindows (superIndex_lt _) nd ready
  refine ⟨sound.cycleStart start, .of_onTime (lines.cycleStart start waits) ?_ fun _ => ?_⟩
  · rw [← number, ← count] at started
    rw [s.cycleStart_eq, ← count]
    exact started.onTime fun e _ => by rw [count]; exact Nat.zero_le _
  · rw [s.cycleStart_engine, (ScheduleOnly.cycleStart s).hub]
    exact ⟨rfl, Nat.zero_le _, rfl⟩

/-! ### The events of the schedule in motion -/

theorem of_idle {s : State} (sound : ScheduleSound s) (served : LinesServed s)
    (idle : s.engine.state.inProgress = false) : CycleInTime s := ⟨sound, .of_idle served idle⟩

variable {s : State} (h : CycleInTime s)
include h

theorem cycleStart_of_idle (idle : s.engine.state.inProgress = false) (start : s.MayStart) :
    CycleInTime s.cycleStart :=
  cycleStart h.sound (h.plan.served.linesIdle idle) start h.plan.served.flightWaits

theorem changeEngine {x : EngineState} (start : s.MayStart) (running : x ≠ .stopped)
    (progress : x.inProgress = s.engine.state.inProgress) : CycleInTime (s.changeEngine x) :=
  ⟨h.sound.changeEngine running start, h.plan.changeEngine start progress⟩

theorem firstVote (start : s.MayStart) : CycleInTime s.firstVote := by
  unfold State.firstVote
  split
  · rename_i stopped
    have idle : s.engine.state.inProgress = false := by rw [stopped]; rfl
    split
    · exact h.changeEngine start (by decide) idle.symm
    · split
      · exact h.cycleStart_of_idle idle start
      · exact h.changeEngine start (by decide) idle.symm
      · exact h.changeEngine start (by decide) idle.symm
  · rename_i halting
    exact h.changeEngine start (by decide) (by rw [halting]; rfl)
  · exact h

theorem enterStopped (idle : s.engine.state.inProgress = false) : CycleInTime s.enterStopped :=
  of_idle h.sound.enterStopped (h.plan.served.enterStopped idle) (by rw [State.enterStopped_engine]; rfl)

theorem lastVoteCleared : CycleInTime s.lastVoteCleared := by
  unfold State.lastVoteCleared
  split
  · rename_i waiting
    exact h.enterStopped (by rw [waiting]; rfl)
  · rename_i running
    exact h.changeEngine (.of_state running (by decide)) (by decide) (by rw [running]; rfl)
  · rename_i held
    exact h.enterStopped (by rw [held]; rfl)
  · exact h

theorem cycleEnd : CycleInTime s.cycleEnd := by
  have sound := h.sound.cycleEnd
  have served := h.plan.served.cycleEnd
  by_cases state : s.engine.state = .running
  · cases mode : s.hub.startMode with
    | internal =>
      have ended : s.endedCycle.schedule = s.schedule := s.schedule_endWindows _
      have executor : s.endedCycle.arbiter.executor = s.arbiter.executor := by
        have : s.endedCycle.arbiter = s.arbiter := (ScheduleOnly.endWindows s _).arbiter
        rw [this]
      rw [State.cycleEnd_of_internal state mode]
      exact cycleStart (h.sound.of_schedule_eq ended) h.plan.served.endedCycle_idle
        (.of_schedule_eq (.of_state state (by decide)) ended)
        (h.plan.served.flightWaits.of_eq executor (by rw [State.endedCycle_engine]))
    | external =>
      refine of_idle sound served ?_
      rw [State.cycleEnd_of_external state mode, State.changeEngine_engine]
      rfl
  · refine of_idle sound served ?_
    rw [State.cycleEnd_of_other state, State.enterStopped_engine]
    rfl

theorem spacingEnd (idle : s.engine.state.inProgress = false) : CycleInTime s.spacingEnd := by
  have spaced : CycleInTime s.clearSpacing.stopTimer :=
    of_idle (h.sound.of_schedule_eq rfl) (h.plan.served.of_eq rfl rfl rfl rfl rfl rfl rfl rfl rfl) idle
  unfold State.spacingEnd
  dsimp only
  split
  · rename_i waiting _
    exact spaced.cycleStart_of_idle idle (.of_state (x := .waiting) waiting (by decide))
  · exact spaced

/-- No cycle is in progress once INH is asserted. -/
theorem inhAssert : CycleInTime s.inhAssert := by
  refine of_idle h.sound.inhAssert h.plan.served.inhAssert ?_
  cases state : s.engine.state with
  | running =>
    rw [State.inhAssert_of_running state, State.changeEngine_engine]
    rfl
  | halting =>
    rw [State.inhAssert_of_halting state, State.enterStopped_engine]
    rfl
  | waiting =>
    rw [State.inhAssert_of_waiting state, State.changeEngine_engine]
    rfl
  | stopped | held =>
    rw [State.inhAssert_of_still (by simp [state])]
    exact congrArg EngineState.inProgress state

theorem inhRelease : CycleInTime s.inhRelease := by
  have released : CycleInTime (s.setInh false) :=
    ⟨h.sound.of_schedule_eq rfl, h.plan.of_eq (h.plan.served.of_eq rfl rfl rfl rfl rfl rfl rfl rfl rfl) rfl rfl rfl rfl⟩
  have start (held : s.engine.state = .held) : (s.setInh false).MayStart := .of_state (x := .held) held (by decide)
  have idle (held : s.engine.state = .held) : (s.setInh false).engine.state.inProgress = false :=
    congrArg EngineState.inProgress held
  unfold State.inhRelease
  dsimp only
  split
  · rename_i held _ _
    exact released.cycleStart_of_idle (idle held) (start held)
  · rename_i held _ _
    exact released.changeEngine (start held) (by decide) (idle held).symm
  · rename_i held _
    exact released.changeEngine (start held) (by decide) (idle held).symm
  · exact released

theorem qualifyingEdge : CycleInTime s.qualifyingEdge := by
  have only := s.earlyEdge_only
  have early : CycleInTime s.earlyEdge := ⟨h.sound.of_schedule_eq s.schedule_earlyEdge,
    h.plan.of_eq h.plan.served.earlyEdge (by rw [only]) (by rw [only]) (by rw [only]; rfl) (by rw [only])⟩
  unfold State.qualifyingEdge
  split
  · exact h
  · rename_i waiting _
    exact h.cycleStart_of_idle (by rw [waiting]; rfl) (.of_state waiting (by decide))
  · exact early
  · exact early
  · exact early
  · exact h
  · exact h

theorem handEdge (i : InputIx) : CycleInTime (s.handEdge i) := by
  have gated : CycleInTime (s.gateEdge i) := ⟨h.sound.of_schedule_eq (s.schedule_gateEdge i), h.plan.gateEdge i⟩
  unfold State.handEdge
  dsimp only
  split
  · exact gated.qualifyingEdge
  · exact gated

/-! ### A window boundary event (R82) -/

theorem afterEnds_planInTime : PlanInTime s.afterEnds :=
  h.plan.follow (h.plan.served.endWindows _) (s.windowsFollow_endWindows _) (by rw [s.afterEnds_only.engine])
    (by rw [s.afterEnds_only]) fun e _ => by rw [s.afterEnds_only.entry]

/-- Once the windows that end at the present offset have ended, the OPEN ones cover it. -/
theorem afterEnds_running :
    WindowsRunning (superIndex s.afterEnds.engine.reportedNumber) s.afterEnds.engine.count s.afterEnds := by
  have only := s.afterEnds_only
  have ended := h.afterEnds_planInTime
  refine ⟨h.sound.of_schedule_eq (s.schedule_endWindows _), ended.served.windowsServed, ended.onTime.fires,
    fun e he => ?_, ended.onTime.served⟩
  obtain ⟨start, stop⟩ := ended.onTime.opened e he
  obtain ⟨opened, -⟩ := (s.windowsFollow_endWindows _).opened he
  obtain ⟨w, hw, rfl, isOpen⟩ := State.exists_of_opened opened
  have late : (s.entry w.entry).descriptor.stop ≠ s.engine.count := fun ends =>
    s.not_opened_endWindows (List.mem_filter.2 ⟨State.mem_openEntries.2 ⟨w, hw, isOpen, rfl⟩, decide_eq_true ends⟩) he
  rw [only.entry, only.engine] at start stop ⊢
  omega

/-- The windows of a boundary event's starts are ready. -/
theorem startingAt_ready : ∀ e ∈ s.afterEnds.startingAt s.afterEnds.engine.count,
    s.afterEnds.Ready s.afterEnds.engine.count e := fun _ he =>
  have found := h.afterEnds_planInTime.served.startingAt_scheduled he
  ⟨found.1, found.2⟩

theorem windowBoundary : CycleInTime s.windowBoundary := by
  have ended := h.afterEnds_planInTime
  have started := h.afterEnds_running.startWindows (superIndex_lt _) (ended.served.nodup_startingAt _) h.startingAt_ready
  refine ⟨h.sound.of_schedule_eq s.schedule_windowBoundary, .of_onTime h.plan.served.windowBoundary ?_ ?_⟩
  · rw [s.windowBoundary_eq]
    exact started.onTime fun e he => (ended.onTime.scheduled e he).1
  · refine CycleTimed.of_clock_eq ended.timed.timer ?_ ?_ <;> rw [s.windowBoundary_eq]
    · rw [State.startWindows_engine]
    · rw [(ScheduleOnly.startWindows _ _).hub]

theorem event {t : State} (e : MotionEvent s t) : CycleInTime t := by
  have sound := h.sound.event e
  have served := h.plan.served.event e
  cases e with
  | cycleEnd => exact h.cycleEnd
  | spacingEnd idle => exact h.spacingEnd idle
  | inhAssert => exact h.inhAssert
  | inhRelease => exact h.inhRelease
  | windowBoundary due => exact h.windowBoundary
  | handEdge i => exact h.handEdge i
  | firstVote free => exact h.firstVote fun _ => free
  | lastVoteCleared => exact h.lastVoteCleared
  | highElapsed g j busy => exact ⟨sound, h.plan.of_eq served rfl rfl rfl rfl⟩
  | lowElapsed g j busy => exact ⟨sound, h.plan.of_eq served rfl rfl rfl rfl⟩

/-! ### The parts of a step -/

/-- What touches neither the schedule, windows, lines, burst engines, entries, the engine nor the flight. -/
theorem beside_windows {t : State} (schedule : t.schedule = s.schedule) (plan : t.plan = s.plan)
    (holding : t.holding = s.holding) (driven : t.driven = s.driven) (bursts : t.bursts = s.bursts)
    (hold : t.hold = s.hold) (lines : t.lines = s.lines) (entries : t.entries = s.entries) (engine : t.engine = s.engine)
    (executor : t.arbiter.executor = s.arbiter.executor) : CycleInTime t := by
  have served := h.plan.served.of_eq plan holding driven bursts hold lines entries (by rw [engine]) executor
  exact ⟨h.sound.of_schedule_eq schedule, h.plan.of_eq served plan entries (by rw [engine])
    (congrArg Schedule.cycleLength schedule)⟩

omit h in
theorem keptByParts : KeptByParts CycleInTime where
  beside b h := ⟨ScheduleSound.keptByParts.beside b h.sound, h.plan.of_eq (LinesServed.keptByParts.beside b h.plan.served)
    (by rw [b.rest]) (by rw [b.rest]) (by rw [b.rest]) (by rw [b.rest])⟩
  event e h := h.event e
  tick due h := h.tick due
  withdraw me f free h := ⟨h.sound.withdrawAct free me f, h.plan.lapse (.withdrawAct _ me f) (.withdrawAct _ me f)⟩
  claimLine f free _ h := ⟨h.sound.claimLineAct free _ f,
    State.claimLineAct_keeps h.plan (fun _ _ _ _ _ unchanged => h.plan.claimLine unchanged) f⟩
  releaseLine me f h := ⟨h.sound.releaseLineAct me f, h.plan.lapse (.releaseLineAct _ me f) fun _ e he => by
    rw [State.entry, LinesServed.releaseLineAct_entries]
    exact he⟩
  clearCounters h := ⟨h.sound.of_schedule_eq (State.schedule_clearCounters _),
    h.plan.of_eq (LinesServed.keptByParts.clearCounters h.plan.served) rfl rfl rfl rfl⟩
  attach lease mask unclaimed detached h := ⟨h.sound.of_schedule_eq rfl,
    h.plan.of_eq (LinesServed.keptByParts.attach lease mask unclaimed detached h.plan.served) rfl rfl rfl rfl⟩
  endSession _ expired h := State.endSession_keeps (fun _ => h.beside_windows rfl rfl rfl rfl rfl rfl rfl rfl rfl rfl)
    (fun _ ht => ht.lastVoteCleared) (fun _ _ _ ht => ht.beside_windows rfl rfl rfl rfl rfl rfl rfl rfl rfl rfl) expired
  cleanup free claim h := ⟨ScheduleSound.keptByParts.cleanup free claim h.sound,
    (h.plan.of_eq (h.plan.served.of_eq rfl rfl rfl rfl rfl rfl rfl rfl rfl) rfl rfl rfl rfl
      : PlanInTime (State.takeClaim _ _)).lapse (.cleanup ..) (.cleanup _ _)⟩
  beginFlight r free judged h := ⟨ScheduleSound.keptByParts.beginFlight r free judged h.sound,
    h.plan.of_eq (h.plan.served.beginFlight judged.rests) rfl rfl rfl rfl⟩
  release h := ⟨h.sound.releaseExecutor, h.plan.release⟩
  completeAdd hf hv attached h := ⟨ScheduleSound.keptByParts.completeAdd hf hv attached h.sound,
    h.plan.release.completeAdd _ _⟩
  completeReplace hf hv attached h := ⟨ScheduleSound.keptByParts.completeReplace hf hv attached h.sound,
    h.plan.release.completeReplace _ fun rests => h.plan.served.flightWaits _ hf (hv ▸ rests)⟩
  setHub hf hv h := by
    have stands := h.sound.flight _ hf
    rw [hv] at stands
    refine of_idle (ScheduleSound.keptByParts.setHub hf hv h.sound) (LinesServed.keptByParts.setHub hf hv h.plan.served) ?_
    exact congrArg EngineState.inProgress stands.1
  holdReset cause h := ⟨h.sound.of_schedule_eq rfl, h.plan.of_eq (h.plan.served.holdReset cause) rfl rfl rfl rfl⟩
  afterRelease cause inputs inh cs cmds n :=
    of_idle (scheduleSound_afterRelease ..) (linesServed_afterRelease ..) rfl

end CycleInTime

/-- Settles O57: the clock passes no end and no start, a boundary event takes each window of its offset, and a BURST window
finds an engine, since three that cover its start would break condition (d). -/
theorem stepKeepsWindowsTimed : Obligations.StepKeepsWindowsTimed := fun _ _ sound served timed next =>
  (CycleInTime.keptByParts.step ⟨sound, served, timed⟩ next).plan.timed

end Sys2Proof.Machine
end

