-- ==== Sys2Proof/Proofs/OneWindow.lean ====
section
/-! SUPPORT. One window: its start by its kind, its end and its cut, as whole states (R83 to R85, R87, R88, R91, R92, R106,
R117). -/

namespace Sys2Proof.Machine

/-! ### The input snapshot of a FIRE notice (R125) -/

/-- Bits weighed by their places, as the number that they write. -/
theorem sum_weigh_eq_ofBits {n : Nat} (f : Fin n → Bool) :
    ((List.finRange n).map fun i => weigh (f i) (2 ^ i.val)).sum = Nat.ofBits f := by
  induction n with
  | zero => rfl
  | succ n ih =>
    have double (b : Bool) (v : Nat) : weigh b (2 ^ (v + 1)) = 2 * weigh b (2 ^ v) := by
      cases b <;> simp [weigh, Nat.pow_succ, Nat.mul_comm]
    have low : weigh (f 0) (2 ^ 0) = (f 0).toNat := by cases f 0 <;> rfl
    have high : ((List.finRange n).map fun i => weigh (f i.succ) (2 ^ (i.val + 1))).sum =
        2 * Nat.ofBits (f ∘ Fin.succ) := by
      simp only [double, List.sum_map_mul_left, ← ih, Function.comp_apply]
    rw [List.finRange_succ, List.map_cons, List.sum_cons, List.map_map, Nat.ofBits_succ, Nat.add_comm]
    exact congrArg₂ (· + ·) high low

theorem State.getLsbD_inputSnapshot (s : State) (i : InputIx) :
    s.inputSnapshot.getLsbD i.val = decide ((s.input i).filtered = .high) := by
  rw [inputSnapshot, allInputs, sum_weigh_eq_ofBits, BitVec.getLsbD_ofNat, Nat.testBit_ofBits_lt _ _ i.isLt]
  simp

/-! ### A window start (R83) -/

namespace State

variable {s : State} {e : EntryIx}

/-- The FIRE notice is built once the window is open, from what was so before. -/
theorem fireNotice_openWindow (s : State) (e : EntryIx) :
    (s.openWindow e).fireNotice e (s.startFlag e) = s.fireBody e := by
  have only := s.openWindow_only e
  have facts := (s.countFire_sameWindowFacts e e).trans (only.sameWindowFacts e)
  unfold fireNotice fireBody inputSnapshot input
  rw [facts.handleOf, facts.descriptor, facts.reportedNumber, only.inputs]
  rfl

theorem startWindow_eq_fire (s : State) (e : EntryIx) :
    s.startWindow e = (s.openWindow e).windowNotice e (s.fireBody e) := by
  rw [startWindow_eq, gateIsOpen_eq_startFlag, fireNotice_openWindow]

theorem startWindow_solid (kind : (s.entry e).descriptor.kind = .solid) :
    s.startWindow e =
      (s.drivenWindow e none (s.solidLevel (s.entry e).descriptor.line (s.startFlag e))).windowNotice e (s.fireBody e) := by
  rw [startWindow_eq_fire, openWindow_solid kind]

/-- A fresh job drives its line by the flag, as a SOLID window does. -/
theorem freshJob_level (s : State) (e : EntryIx) (part : BurstPart) (b : Bool) :
    (s.freshJob e part b).level = s.solidLevel (s.entry e).descriptor.line b := by
  cases b <;> rfl

/-- The gate's state in a fresh job, in the words of the statement. -/
theorem freshJob_eq (s : State) (e : EntryIx) (part : BurstPart) (b : Bool) :
    s.freshJob e part b =
      { phase := if b then .high 0 else .gateWait
        window := e
        part := part
        line := (s.entry e).descriptor.line
        idle := (s.line (s.entry e).descriptor.line).idle
        gate := if (s.entry e).descriptor.gate.isSome then some b else none
        pulses := 0
        closures := 0 } := by
  unfold freshJob
  cases (s.entry e).descriptor.gate <;> rfl

theorem startWindow_burst {part : BurstPart} {g : EngineIx} (kind : (s.entry e).descriptor.kind = .burst part)
    (idle : s.idleEngine = some g) :
    s.startWindow e =
      windowNotice
        { s.drivenWindow e (some g) (s.solidLevel (s.entry e).descriptor.line (s.startFlag e)) with
          bursts := s.bursts.set g (.busy (s.freshJob e part (s.startFlag e))) }
        e (s.fireBody e) := by
  rw [startWindow_eq_fire, openWindow_burst kind idle, freshJob_level]

end State

/-- Settles O37: a window start by the kind of its window; the snapshot is the number that the eight levels write. -/
theorem windowsStart : Obligations.WindowsStart := by
  refine ⟨fun s e kind => State.startWindow_solid kind, fun s e part g kind idle lowest => ?_,
    State.getLsbD_inputSnapshot⟩
  rw [State.startWindow_burst kind (State.idleEngine_eq_some.2 ⟨idle, lowest⟩), State.freshJob_eq]
  rfl

/-! ### A window end and a cut (R88, R91) -/

namespace State

variable {s : State} {e : EntryIx} {flag : Bool}

theorem jobOf_of_no_engine (window : s.windowState e = some (.opened flag none)) : s.jobOf e = none := by
  simp [jobOf, window, WindowState.engine]

theorem jobOf_of_engine {g : EngineIx} {j : BurstJob} (window : s.windowState e = some (.opened flag (some g)))
    (busy : s.burst g = .busy j) : s.jobOf e = some (g, j) := by
  simp [jobOf, window, WindowState.engine, busy, BurstEngine.job]

theorem countCut_windowNotice (s : State) (e : EntryIx) (b : NoticeBody) :
    (s.windowNotice e b).countCut =
      { s.windowNotice e b with engine := { s.engine with cuts := saturatingInc s.engine.cuts } } := by
  have engine : (s.windowNotice e b).engine = s.engine := by rw [NoticesOnly.windowNotice s e b]
  rw [countCut, engine]

end State

/-- Settles O38: an end or a cut by the job of the window's engine, if it has one. -/
theorem windowsEndAndAreCut : Obligations.WindowsEndAndAreCut := by
  refine ⟨fun s e flag => ⟨fun window => ?_, fun g j window busy => ?_⟩,
    fun s e c flag => ⟨fun window => ?_, fun g j window busy => ?_⟩⟩
  · rw [s.endWindow_of_none e (State.jobOf_of_no_engine window), State.shutWindow_of_none s (State.jobOf_of_no_engine window)]
    rfl
  · have job := State.jobOf_of_engine window busy
    rw [s.endWindow_of_some e job, State.shutWindow_of_some s job]
    rfl
  · have job := State.jobOf_of_no_engine window
    rw [s.cutWindow_eq e c, State.shutWindow_of_none s job, State.pulsesOf, job, State.countCut_windowNotice]
    rfl
  · have job := State.jobOf_of_engine window busy
    rw [s.cutWindow_eq e c, State.shutWindow_of_some s job, State.pulsesOf, job, State.countCut_windowNotice]
    rfl

end Sys2Proof.Machine
end

