-- ==== Sys2Proof/Proofs/BoundaryEvents.lean ====
section
/-! SUPPORT. A window boundary event: the windows that end and those that start at its offset, and each window in charge of its
line once it has started (R82, R83, R88, R89). -/

namespace Sys2Proof.Machine

/-! ### The windows that end and start at an offset (R82) -/

namespace State

variable (s : State)

/-- The entries of the plan, in plan order. -/
def planEntries : List EntryIx := s.planList.map fun w => w.entry

theorem endingAt_eq (n : Nat) :
    s.endingAt n =
      (s.planList.filter fun w => w.state.isOpen && decide ((s.entry w.entry).descriptor.stop = n)).map
        fun w => w.entry := by
  rw [endingAt, openEntries, List.filter_map, List.filter_filter]
  simp only [Function.comp_apply, Bool.and_comm]

theorem startingAt_eq (n : Nat) :
    s.startingAt n =
      (s.planList.filter fun w => decide (w.state = .scheduled) && decide ((s.entry w.entry).descriptor.start = n)).map
        fun w => w.entry := by
  rw [startingAt, List.filter_map, List.filter_filter]
  simp only [Function.comp_apply, Bool.and_comm]

theorem planEntries_endWindows (es : List EntryIx) : (s.endWindows es).planEntries = s.planEntries :=
  foldl_related (R := fun s t : State => t.planEntries = s.planEntries) (fun _ => rfl) (fun _ _ _ h k => k.trans h)
    (fun s e => by
      rw [planEntries, planList_congr (shuts_endWindow.plan s e), planList_congr (s.shutWindow_plan .closed e),
        planList_setWindowState, setWindow_entries, planEntries]) es s

theorem endWindows_windowState (es : List EntryIx) (e : EntryIx) :
    (s.endWindows es).windowState e = (s.windowState e).map fun y => if e ∈ es then .closed else y :=
  shuts_endWindow.foldl_windowState ..

section distinct

variable {s} (distinct : s.planEntries.Nodup)
include distinct

theorem nodup_endingAt (n : Nat) : (s.endingAt n).Nodup := ((List.filter_sublist.map _).nodup distinct).filter _

theorem mem_endingAt {n : Nat} {e : EntryIx} : e ∈ s.endingAt n ↔ s.opened e ∧ (s.entry e).descriptor.stop = n := by
  have isOpen : e ∈ s.openEntries ↔ s.opened e := by
    rw [mem_openEntries]
    constructor
    · rintro ⟨w, hw, isOpen, rfl⟩
      exact ⟨w.state, windowState_of_mem distinct hw, isOpen⟩
    · intro opened
      obtain ⟨w, hw, entry, isOpen⟩ := exists_of_opened opened
      exact ⟨w, hw, isOpen, entry⟩
  simp only [endingAt, List.mem_filter, isOpen, decide_eq_true_eq]

/-- The windows that start at an offset, told by the windows' states. -/
theorem startingAt_eq_filter (n : Nat) :
    s.startingAt n =
      s.planEntries.filter fun e =>
        decide (s.windowState e = some .scheduled) && decide ((s.entry e).descriptor.start = n) := by
  rw [startingAt_eq, planEntries, List.filter_map]
  congr 1
  refine List.filter_congr fun w hw => ?_
  simp [windowState_of_mem distinct hw]

theorem mem_startingAt {n : Nat} {e : EntryIx} : e ∈ s.startingAt n ↔ s.Ready n e := by
  rw [startingAt_eq_filter distinct]
  simp only [List.mem_filter, Bool.and_eq_true, decide_eq_true_eq]
  constructor
  · rintro ⟨-, scheduled, start⟩
    exact ⟨scheduled, start⟩
  · intro ready
    obtain ⟨w, hw, entry, -⟩ := mem_of_windowState ready.scheduled
    exact ⟨List.mem_map.2 ⟨w, hw, entry⟩, ready.scheduled, ready.start⟩

theorem nodup_startingAt (n : Nat) : (s.startingAt n).Nodup := by
  rw [startingAt_eq_filter distinct]
  exact distinct.filter _

theorem not_mem_endingAt_of_scheduled {n : Nat} {e : EntryIx} (scheduled : s.windowState e = some .scheduled) :
    e ∉ s.endingAt n := by
  intro ends
  obtain ⟨⟨x, hx, isOpen⟩, -⟩ := (mem_endingAt distinct).1 ends
  rw [scheduled] at hx
  cases hx
  cases isOpen

/-- The ends of an event leave its starts. -/
theorem startingAt_afterEnds (n : Nat) : s.afterEnds.startingAt n = s.startingAt n := by
  have entries : s.afterEnds.planEntries = s.planEntries := s.planEntries_endWindows _
  rw [startingAt_eq_filter (entries ▸ distinct), startingAt_eq_filter distinct, entries]
  refine List.filter_congr fun e _ => ?_
  have window : s.afterEnds.windowState e = some .scheduled ↔ s.windowState e = some .scheduled := by
    rw [afterEnds, endWindows_windowState]
    by_cases ends : e ∈ s.endingAt s.engine.count
    · have ended : s.windowState e ≠ some .scheduled := fun scheduled =>
        not_mem_endingAt_of_scheduled distinct scheduled ends
      simp [ends, ended]
    · simp [ends]
  simp only [window, s.afterEnds_only.entry]

theorem windowBoundary_eq_starts :
    s.windowBoundary = s.afterEnds.startWindows (s.startingAt s.engine.count) := by
  rw [windowBoundary_eq, startingAt_afterEnds distinct, s.afterEnds_only.engine]

/-! ### The windows and the entries after the event -/

theorem windowBoundary_of_ends {e : EntryIx} (ends : e ∈ s.endingAt s.engine.count) :
    s.windowBoundary.windowState e = some .closed ∧ s.windowBoundary.entry e = s.entry e := by
  have outside : e ∉ s.startingAt s.engine.count := fun starts =>
    not_mem_endingAt_of_scheduled distinct ((mem_startingAt distinct).1 starts).scheduled ends
  obtain ⟨⟨x, hx, -⟩, -⟩ := (mem_endingAt distinct).1 ends
  rw [windowBoundary_eq_starts distinct, startWindows_windowState_of_not_mem _ outside,
    startWindows_entry _ (nodup_startingAt distinct _), if_neg outside, s.afterEnds_only.entry, afterEnds,
    endWindows_windowState, hx]
  simp [ends]

theorem windowBoundary_of_starts {e : EntryIx} (starts : e ∈ s.startingAt s.engine.count) :
    (∃ flag g, s.windowBoundary.windowState e = some (.opened flag g))
      ∧ s.windowBoundary.entry e = { s.entry e with fireCount := (s.entry e).fireCount + 1 } := by
  have scheduled := ((mem_startingAt distinct).1 starts).scheduled
  have planned : (s.afterEnds.windowState e).isSome = true := by
    rw [afterEnds, endWindows_windowState, scheduled]
    rfl
  rw [windowBoundary_eq_starts distinct, startWindows_entry _ (nodup_startingAt distinct _), if_pos starts,
    s.afterEnds_only.entry]
  obtain ⟨x, hx, isOpen⟩ := s.afterEnds.opened_startWindows starts planned
  refine ⟨?_, rfl⟩
  cases x with
  | opened flag g => exact ⟨flag, g, hx⟩
  | scheduled | closed | cut => cases isOpen

theorem windowBoundary_of_neither {e : EntryIx} (ends : e ∉ s.endingAt s.engine.count)
    (starts : e ∉ s.startingAt s.engine.count) :
    s.windowBoundary.windowState e = s.windowState e ∧ s.windowBoundary.entry e = s.entry e := by
  rw [windowBoundary_eq_starts distinct, startWindows_windowState_of_not_mem _ starts,
    startWindows_entry _ (nodup_startingAt distinct _), if_neg starts, s.afterEnds_only.entry, afterEnds,
    endWindows_windowState]
  simp [ends]

end distinct

end State

/-! ### A window in charge of its line (R83, R85, R87) -/

/-- The window of entry e is OPEN with this flag, holds its line, and drives it by the flag. -/
structure State.InCharge (s : State) (e : EntryIx) (flag : Bool) : Prop where
  window : ∃ g, s.windowState e = some (.opened flag g)
  holding : s.holding.get (s.lineOf e) = some e
  driven : s.driven.get (s.lineOf e) = s.solidLevel (s.lineOf e) flag

namespace State

variable (s : State) {e f : EntryIx}

theorem startWindow_lineOf : (s.startWindow e).lineOf f = s.lineOf f :=
  congrArg Descriptor.line (s.startWindow_descriptor e f)

theorem startWindow_startFlag : (s.startWindow e).startFlag f = s.startFlag f := by
  unfold startFlag input
  rw [startWindow_descriptor, startWindow_inputs]

theorem startWindow_solidLevel (l : LineIx) (b : Bool) : (s.startWindow e).solidLevel l b = s.solidLevel l b := by
  have lines : (s.startWindow e).lines = s.lines := (s.startWindow_only e).lines
  simp only [solidLevel, activeLevel, idleLevel, line, lines]

/-- What a window start leaves of the window and the lines, when an engine is IDLE for a BURST one. -/
theorem startWindow_lines (engine : (s.entry e).descriptor.isBurst = true → ∃ g, s.idleEngine = some g) :
    (∃ g, ∀ d, (s.startWindow e).windowState d =
        (s.windowState d).map fun y => if d = e then .opened (s.startFlag e) g else y)
      ∧ (s.startWindow e).holding = s.holding.set (s.lineOf e) (some e)
      ∧ (s.startWindow e).driven = s.driven.set (s.lineOf e) (s.solidLevel (s.lineOf e) (s.startFlag e)) := by
  cases kind : (s.entry e).descriptor.kind with
  | solid =>
    rw [startWindow_solid kind, NoticesOnly.windowNotice]
    exact ⟨⟨none, drivenWindow_windowState none (s.solidLevel (s.lineOf e) (s.startFlag e))⟩, rfl, rfl⟩
  | burst part =>
    obtain ⟨g, idle⟩ := engine (by rw [Descriptor.isBurst, kind]; rfl)
    rw [startWindow_burst kind idle, NoticesOnly.windowNotice]
    exact ⟨⟨some g, drivenWindow_windowState (some g) (s.solidLevel (s.lineOf e) (s.startFlag e))⟩, rfl, rfl⟩

end State

namespace WindowsRunning

variable {k n : Nat} {s : State} (h : WindowsRunning k n s) (hk : k < 8)
include h hk

theorem inCharge_startWindow {e : EntryIx} (ready : s.Ready n e) : (s.startWindow e).InCharge e (s.startFlag e) := by
  obtain ⟨⟨g, window⟩, holding, driven⟩ := s.startWindow_lines (h.exists_idleEngine hk ready)
  refine ⟨⟨g, by simp [window, ready.scheduled]⟩, ?_, ?_⟩
  · rw [s.startWindow_lineOf, holding, Table.get_set_self]
  · rw [s.startWindow_lineOf, s.startWindow_solidLevel, driven, Table.get_set_self]

/-- A window in charge stays so when another starts: the other is on another line, since both cover the offset. -/
theorem inCharge_startWindow_ne {e f : EntryIx} {flag : Bool} (ready : s.Ready n e) (mine : s.InCharge f flag) :
    (s.startWindow e).InCharge f flag := by
  obtain ⟨g, window⟩ := mine.window
  have opened : s.opened f := ⟨_, window, rfl⟩
  have ne : f ≠ e := by
    rintro rfl
    rw [ready.scheduled] at window
    cases window
  have line : s.lineOf f ≠ s.lineOf e := fun same =>
    ne (State.Covers.eq_of_line_eq h.sound.firing.a hk (h.covers_of_opened opened) (h.covers_of_ready ready) same)
  obtain ⟨-, holding, driven⟩ := s.startWindow_lines (h.exists_idleEngine hk ready)
  refine ⟨⟨g, (s.startWindow_windowState_ne e ne).trans window⟩, ?_, ?_⟩
  · rw [s.startWindow_lineOf, holding, Table.get_set_ne _ _ line, mine.holding]
  · rw [s.startWindow_lineOf, s.startWindow_solidLevel, driven, Table.get_set_ne _ _ line, mine.driven]

theorem inCharge_startWindows_of_inCharge {es : List EntryIx} (nd : es.Nodup) (ready : ∀ e ∈ es, s.Ready n e)
    {f : EntryIx} {flag : Bool} (mine : s.InCharge f flag) : (s.startWindows es).InCharge f flag := by
  have kept : WindowsRunning k n (s.startWindows es) ∧ (s.startWindows es).InCharge f flag :=
    State.startWindows_keeps (P := fun t => WindowsRunning k n t ∧ t.InCharge f flag) (Ready := fun s => s.Ready n)
      (fun _ _ hs ht => ⟨ht.1.startWindow hk hs, ht.1.inCharge_startWindow_ne hk hs ht.2⟩)
      (fun _ _ _ other hs => hs.startWindow other) nd ready ⟨h, mine⟩
  exact kept.2

/-- After a run of starts each window that has started is in charge of its line. -/
theorem inCharge_startWindows {es : List EntryIx} (nd : es.Nodup) (ready : ∀ e ∈ es, s.Ready n e) {f : EntryIx}
    (hf : f ∈ es) : (s.startWindows es).InCharge f (s.startFlag f) := by
  induction es generalizing s with
  | nil => cases hf
  | cons e es ih =>
    obtain ⟨he, hnd⟩ := List.nodup_cons.1 nd
    have first := ready e List.mem_cons_self
    have rest : ∀ d ∈ es, (s.startWindow e).Ready n d := fun d hd =>
      (ready d (List.mem_cons_of_mem e hd)).startWindow (ne_of_mem_of_not_mem hd he)
    have started := h.startWindow hk first
    rcases List.mem_cons.1 hf with rfl | hf
    · exact started.inCharge_startWindows_of_inCharge hk hnd rest (h.inCharge_startWindow hk first)
    · rw [← s.startWindow_startFlag (e := e)]
      exact ih started hnd rest hf

end WindowsRunning

/-! ### The event (R82) -/

theorem exec_windowBoundaryEvent {s : State} (hold : s.hold = none) (due : s.boundaryDue = true) :
    exec .windowBoundaryEvent s = .next s.windowBoundary := by
  have both : (s.hold.isNone && s.boundaryDue) = true := by simp [hold, due]
  exact if_pos both

namespace State

variable (s : State)

theorem windowBoundary_lineOf (e : EntryIx) : s.windowBoundary.lineOf e = s.lineOf e := by
  rw [lineOf, windowBoundary_eq, startWindows_descriptor, s.afterEnds_only.entry, lineOf]

theorem windowBoundary_solidLevel (l : LineIx) (b : Bool) : s.windowBoundary.solidLevel l b = s.solidLevel l b := by
  have lines : s.windowBoundary.lines = s.lines := (ScheduleOnly.windowBoundary s).lines
  simp only [solidLevel, activeLevel, idleLevel, line, lines]

theorem afterEnds_startFlag (e : EntryIx) : s.afterEnds.startFlag e = s.startFlag e := by
  unfold startFlag input
  rw [s.afterEnds_only.entry, s.afterEnds_only.inputs]

end State

namespace CycleInTime

variable {s : State} (h : CycleInTime s)
include h

theorem distinct : s.planEntries.Nodup := h.plan.served.distinct

theorem started_running :
    WindowsRunning (superIndex s.afterEnds.engine.reportedNumber) s.afterEnds.engine.count s.windowBoundary := by
  rw [s.windowBoundary_eq]
  exact h.afterEnds_running.startWindows (superIndex_lt _) (h.afterEnds_planInTime.served.nodup_startingAt _)
    h.startingAt_ready

/-- In the states of the invariants a window that starts is in charge of its line. -/
theorem inCharge_of_starts {e : EntryIx} (starts : e ∈ s.startingAt s.engine.count) :
    s.windowBoundary.InCharge e (s.startFlag e) := by
  have nd := h.afterEnds_planInTime.served.nodup_startingAt s.afterEnds.engine.count
  have mine : e ∈ s.afterEnds.startingAt s.afterEnds.engine.count := by
    rwa [s.afterEnds_only.engine, State.startingAt_afterEnds h.distinct]
  rw [s.windowBoundary_eq, ← s.afterEnds_startFlag]
  exact h.afterEnds_running.inCharge_startWindows (superIndex_lt _) nd h.startingAt_ready mine

/-- A BURST one has an engine of its own. -/
theorem busy_of_starts {e : EntryIx} (starts : e ∈ s.startingAt s.engine.count)
    (burst : (s.entry e).descriptor.isBurst = true) :
    ∃ g j, s.windowBoundary.windowState e = some (.opened (s.startFlag e) (some g))
      ∧ s.windowBoundary.burst g = .busy j ∧ j.window = e := by
  obtain ⟨engine, window⟩ := (h.inCharge_of_starts starts).window
  have same : (s.windowBoundary.entry e).descriptor = (s.entry e).descriptor := by
    rw [State.windowBoundary_eq, State.startWindows_descriptor, s.afterEnds_only.entry]
  have running := h.started_running
  have engineOf : s.windowBoundary.engineOf e = engine := by
    rw [State.engineOf, window]
    rfl
  have assigned := running.engines e ⟨_, window, rfl⟩ (same ▸ burst)
  rw [engineOf] at assigned
  obtain ⟨g, rfl⟩ := Option.isSome_iff_exists.1 assigned
  obtain ⟨j, job, named⟩ := running.served.served e g engineOf
  refine ⟨g, j, window, ?_, named⟩
  cases busy : s.windowBoundary.burst g with
  | idle => simp [busy, BurstEngine.job] at job
  | busy k => rw [Option.some.inj ((congrArg BurstEngine.job busy).symm.trans job)]

end CycleInTime

/-- What the queue of a port receives: the TALLY notices of the ends, then the FIRE notices of the starts. -/
theorem State.windowBoundary_queue {s : State} (served : LinesServed s) (p : Port) :
    s.windowBoundary.queue p = (s.queue p).after
      (s.talliesFor p (s.endingAt s.engine.count) ++ s.windowBoundary.firesFor p (s.startingAt s.engine.count)) := by
  have distinct : s.planEntries.Nodup := served.distinct
  rw [windowBoundary_eq_starts distinct, startWindows_queue _ (nodup_startingAt distinct _), startWindows_firesFor,
    afterEnds, endWindows_queue served.jobsNameWindows (nodup_endingAt distinct _), NoticeQueue.after_append]

/-- Settles O39: the starts of an event are those of the state before its ends, which close OPEN windows alone; two windows
that both cover the offset are on two lines, so a start leaves what the others have taken. -/
theorem boundaryEventEndsThenStarts : Obligations.BoundaryEventEndsThenStarts := by
  intro s hold due distinct
  dsimp only
  rw [← State.endingAt_eq, ← State.startingAt_eq]
  have nd : s.planEntries.Nodup := distinct
  have result : (s.startingAt s.engine.count).foldl State.startWindow
      ((s.endingAt s.engine.count).foldl State.endWindow s) = s.windowBoundary :=
    (State.windowBoundary_eq_starts nd).symm
  rw [result]
  refine ⟨exec_windowBoundaryEvent hold due, .windowBoundary s, ?_, fun w hw => ⟨fun isOpen stop => ?_,
    fun scheduled start => ?_, fun still waiting => ?_⟩, fun e he => ?_, fun served => ⟨?_, fun p => ?_⟩,
    fun sound served timed e starts => ?_⟩
  · rw [State.windowBoundary_eq, State.startWindows_engine, s.afterEnds_only.engine]
  · have opened : s.opened w.entry := ⟨w.state, State.windowState_of_mem nd hw, isOpen⟩
    exact State.windowBoundary_of_ends nd ((State.mem_endingAt nd).2 ⟨opened, stop⟩)
  · have window := State.windowState_of_mem nd hw
    rw [scheduled] at window
    exact State.windowBoundary_of_starts nd ((State.mem_startingAt nd).2 ⟨window, start⟩)
  · have window := State.windowState_of_mem nd hw
    rw [← window]
    refine State.windowBoundary_of_neither nd (fun ends => still ?_) fun starts => waiting ?_
    · obtain ⟨⟨x, hx, isOpen⟩, stop⟩ := (State.mem_endingAt nd).1 ends
      cases window.symm.trans hx
      exact ⟨isOpen, stop⟩
    · have ready := (State.mem_startingAt nd).1 starts
      exact ⟨Option.some.inj (window.symm.trans ready.scheduled), ready.start⟩
  · refine (State.windowBoundary_of_neither nd (fun ends => he ?_) fun starts => he ?_).2
    · obtain ⟨w, hw, entry, -⟩ := State.exists_of_opened ((State.mem_endingAt nd).1 ends).1
      exact List.mem_map.2 ⟨w, hw, entry⟩
    · obtain ⟨w, hw, entry, -⟩ := State.mem_of_windowState ((State.mem_startingAt nd).1 starts).scheduled
      exact List.mem_map.2 ⟨w, hw, entry⟩
  · exact State.windowsEnded served.jobsNameWindows (State.nodup_endingAt nd _) fun e ends =>
      State.planned_of_opened ((State.mem_endingAt nd).1 ends).1
  · exact State.windowBoundary_queue served p
  · have inTime : CycleInTime s := ⟨sound, served, timed⟩
    obtain ⟨-, holding, driven⟩ := inTime.inCharge_of_starts starts
    rw [s.windowBoundary_lineOf] at holding driven
    rw [s.windowBoundary_solidLevel] at driven
    exact ⟨holding, driven, inTime.busy_of_starts starts⟩

end Sys2Proof.Machine
end

