-- ==== Sys2Proof/Proofs/LineRequests.lean ====
section
/-! SUPPORT. CLAIM_LINE, RELEASE_LINE and LINE_INFO: their fields, the tests of CLAIM_LINE, and what each leaves (R97, R98, R100,
R102). -/

namespace Sys2Proof.Machine

/-! ### Fields (R97, R100, R102, R187) -/

section fields

variable {b : Byte} {f : List Byte}

theorem lineOfByte_eq_none (h : 15 < b.toNat) : lineOfByte b = none := by
  unfold lineOfByte
  rw [dif_neg (by omega)]

theorem levelOfByte_eq_none (h : 1 < b.toNat) : levelOfByte b = none := by
  unfold levelOfByte
  split
  · omega
  · omega
  · rfl

theorem levelOfByte_levelByte (v : Level) : levelOfByte (levelByte v) = some v := by cases v <;> rfl

theorem lineFields_eq_none (h : f = [] ∨ 15 < (byteAt f 0).toNat) : lineFields f = none := by
  unfold lineFields
  rcases h with rfl | h
  · rfl
  · rw [lineOfByte_eq_none h, ite_self]

theorem lineFields_eq_some {l : LineIx} (long : f ≠ []) (h : (byteAt f 0).toNat = l.val) : lineFields f = some l := by
  have := List.length_pos_iff.2 long
  rw [lineFields, if_neg (by omega), lineOfByte_eq_some.2 h.symm]

theorem claimLineFields_eq_none (h : f.length < 4 ∨ 15 < (byteAt f 0).toNat ∨ 1 < (byteAt f 1).toNat) :
    claimLineFields f = none := by
  unfold claimLineFields
  rcases h with h | h | h
  · rw [if_pos h]
  · rw [lineOfByte_eq_none h, ite_self]
  · rw [levelOfByte_eq_none h]
    cases lineOfByte (byteAt f 0) <;> exact ite_self _

theorem claimLineFields_eq_some {l : LineIx} {idle : Level} (long : 4 ≤ f.length) (line : (byteAt f 0).toNat = l.val)
    (level : byteAt f 1 = levelByte idle) : claimLineFields f = some (l, idle, word16At f 2) := by
  rw [claimLineFields, if_neg (by omega), lineOfByte_eq_some.2 line.symm, level, levelOfByte_levelByte]

end fields

/-! ### CLAIM_LINE (R97, R98) -/

namespace State

variable {s : State} {l : LineIx} {me : SessionId}

theorem lineUsedByOther_eq_true :
    s.lineUsedByOther l me = true ↔ ∃ e, (s.entry e).isOn l = true ∧ s.ownerOf e ≠ some me := by
  simp [lineUsedByOther, mem_allEntries]

theorem lineInUse_eq_true : s.lineInUse l = true ↔ ∃ e, (s.entry e).isOn l = true := by
  simp [lineInUse, mem_allEntries]

/-- A claim in the words of the statement. -/
theorem claimLine_eq (s : State) (l : LineIx) (me : SessionId) (idle : Level) (gap : Nat) :
    s.claimLine l me idle gap =
      { s with
        lines := s.lines.set l { holder := some me, idle := idle, gap := gap }
        driven := if idle = (s.line l).idle then s.driven else s.driven.set l idle } := by
  unfold claimLine
  dsimp only
  split <;> rfl

end State

section claim

variable {s : State} {me : SessionId} {f : List Byte} {l : LineIx} {idle : Level} {gap : Nat}

theorem claimLineAct_badField (fields : claimLineFields f = none) :
    claimLineAct s me f = { state := s, status := .badField, payload := [] } := by
  rw [claimLineAct, fields]

variable (fields : claimLineFields f = some (l, idle, gap))
include fields

theorem claimLineAct_held (held : s.lineHeldByOther l me = true) :
    claimLineAct s me f = { state := s, status := .lineHeld, payload := [] } := by
  rw [claimLineAct, fields]
  exact if_pos held

theorem claimLineAct_busy (mine : s.lineHeldByOther l me = false)
    (busy : s.lineUsedByOther l me = true
      ∨ ((idle ≠ (s.line l).idle ∨ gap ≠ (s.line l).gap) ∧ s.lineInUse l = true)) :
    claimLineAct s me f = { state := s, status := .lineBusy, payload := [] } := by
  rw [claimLineAct, fields]
  dsimp only
  rw [if_neg (by simp [mine])]
  split_ifs with used changed
  · rfl
  · rfl
  · exact absurd busy (not_or.2 ⟨used, changed⟩)

theorem claimLineAct_takes (mine : s.lineHeldByOther l me = false) (unused : s.lineUsedByOther l me = false)
    (same : (idle = (s.line l).idle ∧ gap = (s.line l).gap) ∨ s.lineInUse l = false) :
    claimLineAct s me f = { state := s.claimLine l me idle gap, status := .ok, payload := [] } := by
  rw [claimLineAct, fields]
  dsimp only
  rw [if_neg (by simp [mine]), if_neg (by simp [unused]), if_neg]
  rintro ⟨changed, used⟩
  rcases same with ⟨hi, hg⟩ | free
  · exact changed.elim (· hi) (· hg)
  · rw [free] at used
    cases used

end claim

/-- Settles O27, by the tests of the request in their order. -/
theorem claimLineTakesTheLine : Obligations.ClaimLineTakesTheLine := by
  intro s p r me taken attached
  have refused {st : Status} (h : claimLineAct (s.take p) me r.fields = { state := s.take p, status := st, payload := [] }) :
      exec (.claimLine p) s = .next (s.answered p r st []) :=
    congrArg Host.Outcome.next (State.answerRequest_of_unchanged taken attached h)
  refine ⟨fun bad => refused (claimLineAct_badField (claimLineFields_eq_none bad)), fun l idle long line level => ?_⟩
  have fields := claimLineFields_eq_some long line level
  refine ⟨fun held => refused (claimLineAct_held fields (State.lineHeldByOther_eq_true.2 held)), fun mine => ?_⟩
  have free : (s.take p).lineHeldByOther l me = false := State.lineHeldByOther_eq_false.2 mine
  refine ⟨fun busy => refused (claimLineAct_busy fields free ?_), fun unused same => ?_⟩
  · exact busy.imp State.lineUsedByOther_eq_true.2 fun ⟨changed, used⟩ => ⟨changed, State.lineInUse_eq_true.2 used⟩
  · have takes := claimLineAct_takes fields free (State.lineUsedByOther_eq_false.2 unused)
      (same.imp id State.lineInUse_eq_false.2)
    refine congrArg Host.Outcome.next ?_
    rw [State.answerRequest_attached taken attached, takes, State.claimLine_eq, ← State.reply_take]
    rfl

/-! ### RELEASE_LINE and LINE_INFO (R100, R102) -/

section lines

variable {s : State} {me : SessionId} {f : List Byte} {l : LineIx}

theorem releaseLineAct_badField (fields : lineFields f = none) :
    releaseLineAct s me f = { state := s, status := .badField, payload := [] } := by
  rw [releaseLineAct, fields]

theorem releaseLineAct_opens (fields : lineFields f = some l) (mine : (s.line l).holder = some me) :
    releaseLineAct s me f =
      { state := s.setLine l { s.line l with holder := none }, status := .ok, payload := [] } := by
  rw [releaseLineAct, fields]
  exact if_pos mine

theorem releaseLineAct_notOwner (fields : lineFields f = some l) (other : (s.line l).holder ≠ some me) :
    releaseLineAct s me f = { state := s, status := .notOwner, payload := [] } := by
  rw [releaseLineAct, fields]
  exact if_neg other

theorem lineInfoAct_badField (fields : lineFields f = none) :
    lineInfoAct s me f = { state := s, status := .badField, payload := [] } := by
  rw [lineInfoAct, fields]

theorem lineInfoAct_reports (fields : lineFields f = some l) :
    lineInfoAct s me f = { state := s, status := .ok, payload := s.lineInfoBytes l } := by
  rw [lineInfoAct, fields]

end lines

/-- RELEASE_LINE of an attached session (R100). -/
theorem releaseLine_answers {s : State} {p : Port} {r : Request} {me : SessionId}
    (taken : s.takenRequest p .releaseLine = some r) (attached : s.attachedSession p = some me) :
    (r.fields = [] ∨ 15 < (byteAt r.fields 0).toNat →
        exec (.releaseLine p) s = .next (s.answered p r .badField []))
      ∧ ∀ l : LineIx, r.fields ≠ [] → (byteAt r.fields 0).toNat = l.val →
          ((s.line l).holder = some me →
            exec (.releaseLine p) s = .next
              { s.answered p r .ok [] with lines := s.lines.set l { s.line l with holder := none } })
          ∧ ((s.line l).holder ≠ some me → exec (.releaseLine p) s = .next (s.answered p r .notOwner [])) := by
  have refused {st : Status} (h : releaseLineAct (s.take p) me r.fields = { state := s.take p, status := st, payload := [] }) :
      exec (.releaseLine p) s = .next (s.answered p r st []) :=
    congrArg Host.Outcome.next (State.answerRequest_of_unchanged taken attached h)
  refine ⟨fun bad => refused (releaseLineAct_badField (lineFields_eq_none bad)), fun l long line => ?_⟩
  have fields := lineFields_eq_some long line
  refine ⟨fun mine => congrArg Host.Outcome.next ?_, fun other => refused (releaseLineAct_notOwner fields other)⟩
  have opens := releaseLineAct_opens (s := s.take p) fields mine
  rw [State.answerRequest_attached taken attached, opens, ← State.reply_take]
  rfl

/-- Settles O28, by the fields of the request and the holder of its line. -/
theorem linesAreReleasedAndReported : Obligations.LinesAreReleasedAndReported := by
  refine ⟨fun s p r me => releaseLine_answers, fun s p r taken attached => ?_⟩
  have answers {st : Status} {b : List Byte} (h : ∀ me, lineInfoAct (s.take p) me r.fields =
      { state := s.take p, status := st, payload := b }) : exec (.lineInfo p) s = .next (s.answered p r st b) :=
    congrArg Host.Outcome.next (State.answerRequest_of_unchanged taken (s.attachedSession_of_attachment attached) (h _))
  exact ⟨fun bad => answers fun _ => lineInfoAct_badField (lineFields_eq_none bad),
    fun l long line => answers fun _ => lineInfoAct_reports (lineFields_eq_some long line)⟩

end Sys2Proof.Machine
end

