-- ==== Sys2Proof/Proofs/BurstPhases.lean ====
section
/-! SUPPORT. The phases of a burst engine's job: what the high time, the low time and a gate event make of it, the level of each
phase, and HIGH_TIME_ELAPSES and LOW_TIME_ELAPSES before and at their times (R87, R107 to R111). -/

namespace Sys2Proof.Machine

/-- A 16-bit saturating counter in the words of the rules, where 65535 is its largest value. -/
theorem saturatingInc_eq_ite (c : BitVec 16) : saturatingInc c = if c.toNat = 65535 then c else c + 1 :=
  if_congr (BitVec.toNat_eq (y := BitVec.allOnes 16)) rfl rfl

/-! ### The job, phase by phase (R107 to R111) -/

namespace BurstJob

variable {j : BurstJob} {n : Nat}

theorem level_of_high (phase : j.phase = .high n) : j.level = oppositeLevel j.idle := by
  rw [level, phase]

theorem level_of_not_high (phase : ∀ n, j.phase ≠ .high n) : j.level = j.idle := by
  unfold level
  split
  · rename_i n high
    exact absurd high (phase n)
  · rfl

theorem highDue_of_high (phase : j.phase = .high n) : j.highDue = decide (j.part.highTime ≤ n) := by
  rw [highDue, phase]

theorem lowDue_of_low (phase : j.phase = .low n) : j.lowDue = decide (j.part.lowTime ≤ n) := by
  rw [lowDue, phase]

/-- After its high time the engine is in SPENT or in LOW, where its line is idle. -/
theorem highElapsed_level (j : BurstJob) : j.highElapsed.level = j.idle := by
  refine level_of_not_high (j := j.highElapsed) fun n => ?_
  by_cases reached : j.part.count = some (saturatingInc j.pulses).toNat <;> simp [highElapsed, reached]

theorem lowElapsed_of_not_closed (gate : j.gate ≠ some false) : j.lowElapsed = { j with phase := .high 0 } := by
  rw [lowElapsed, if_neg gate]

theorem lowElapsed_of_closed (gate : j.gate = some false) : j.lowElapsed = { j with phase := .gateWait } := by
  rw [lowElapsed, if_pos gate]

theorem gateEvent_closing_of_high (phase : j.phase = .high n) :
    j.gateEvent false = { j with gate := some false, phase := .gateWait, closures := saturatingInc j.closures } := by
  simp [gateEvent, phase]

theorem gateEvent_opening_of_high (phase : j.phase = .high n) : j.gateEvent true = { j with gate := some true } := by
  simp [gateEvent, phase]

theorem gateEvent_opening_of_gateWait (phase : j.phase = .gateWait) :
    j.gateEvent true = { j with gate := some true, phase := .high 0 } := by
  simp [gateEvent, phase]

theorem gateEvent_closing_of_gateWait (phase : j.phase = .gateWait) :
    j.gateEvent false = { j with gate := some false } := by
  simp [gateEvent, phase]

theorem gateEvent_of_low_or_spent (b : Bool) (phase : (∃ n, j.phase = .low n) ∨ j.phase = .spent) :
    j.gateEvent b = { j with gate := some b } := by
  obtain ⟨n, low⟩ | spent := phase
  · simp [gateEvent, low]
  · simp [gateEvent, spent]

end BurstJob

/-! ### The commands, before and at their times (R107, R109) -/

section elapses

variable {s : State} {g : EngineIx} {j : BurstJob} (hold : s.hold = none) (busy : s.burst g = .busy j)
include hold busy

theorem exec_highTimeElapses_of_busy :
    exec (.highTimeElapses g) s = if j.highDue then .next (s.setJob g j.highElapsed) else .next s := by
  have arm : exec (.highTimeElapses g) s = execHighTimeElapses g s := rfl
  simp [arm, execHighTimeElapses, busy, BurstEngine.job, hold]

theorem exec_lowTimeElapses_of_busy :
    exec (.lowTimeElapses g) s = if j.lowDue then .next (s.setJob g j.lowElapsed) else .next s := by
  have arm : exec (.lowTimeElapses g) s = execLowTimeElapses g s := rfl
  simp [arm, execLowTimeElapses, busy, BurstEngine.job, hold]

end elapses

/-- Both records that a job leaves, with the line's level given. -/
theorem State.setJob_eq (s : State) (g : EngineIx) {j : BurstJob} {v : Level} (level : j.level = v) :
    s.setJob g j = { s with bursts := s.bursts.set g (.busy j), driven := s.driven.set j.line v } := by
  rw [← level]
  rfl

/-- HIGH_TIME_ELAPSES in HIGH (R107, R108). -/
theorem highTimeElapses_of_high {s : State} {g : EngineIx} {j : BurstJob} {n : Nat} (hold : s.hold = none)
    (busy : s.burst g = .busy j) (phase : j.phase = .high n) :
    (n < j.part.highTime → exec (.highTimeElapses g) s = .next s)
      ∧ (j.part.highTime ≤ n → exec (.highTimeElapses g) s = .next
          { s with
            bursts := s.bursts.set g (.busy j.highElapsed)
            driven := s.driven.set j.line j.idle }) := by
  have acts := exec_highTimeElapses_of_busy hold busy
  rw [BurstJob.highDue_of_high phase] at acts
  refine ⟨fun early => acts.trans (if_neg (by simpa using early)), fun reached => ?_⟩
  rw [acts, decide_eq_true reached, if_pos rfl, s.setJob_eq g j.highElapsed_level]
  rfl

/-- LOW_TIME_ELAPSES in LOW, by the gate (R109). -/
theorem lowTimeElapses_of_low {s : State} {g : EngineIx} {j : BurstJob} {n : Nat} (hold : s.hold = none)
    (busy : s.burst g = .busy j) (phase : j.phase = .low n) :
    (n < j.part.lowTime → exec (.lowTimeElapses g) s = .next s)
      ∧ (j.part.lowTime ≤ n → j.gate ≠ some false →
          exec (.lowTimeElapses g) s = .next
            { s with
              bursts := s.bursts.set g (.busy { j with phase := .high 0 })
              driven := s.driven.set j.line (oppositeLevel j.idle) })
      ∧ (j.part.lowTime ≤ n → j.gate = some false →
          exec (.lowTimeElapses g) s = .next
            { s with
              bursts := s.bursts.set g (.busy { j with phase := .gateWait })
              driven := s.driven.set j.line j.idle }) := by
  have acts := exec_lowTimeElapses_of_busy hold busy
  rw [BurstJob.lowDue_of_low phase] at acts
  refine ⟨fun early => acts.trans (if_neg (by simpa using early)), fun reached gate => ?_, fun reached gate => ?_⟩
  · rw [acts, decide_eq_true reached, if_pos rfl, BurstJob.lowElapsed_of_not_closed gate,
      s.setJob_eq g (BurstJob.level_of_high (n := 0) rfl)]
  · rw [acts, decide_eq_true reached, if_pos rfl, BurstJob.lowElapsed_of_closed gate,
      s.setJob_eq g (BurstJob.level_of_not_high fun _ => BusyPhase.noConfusion)]

/-- Settles O40, by the phase of the engine's job: the elapsed times in HIGH and in LOW, the gate events and the level in each. -/
theorem burstPhases : Obligations.BurstPhases := by
  refine ⟨fun s g j n hold busy phase => ?_, fun s g j n hold busy phase => lowTimeElapses_of_low hold busy phase,
    fun j => ⟨fun n high => ?_, fun wait => ?_, fun b => BurstJob.gateEvent_of_low_or_spent b, fun ⟨n, high⟩ => ?_,
      BurstJob.level_of_not_high⟩⟩
  · rw [← saturatingInc_eq_ite]
    exact highTimeElapses_of_high hold busy phase
  · exact ⟨BurstJob.gateEvent_closing_of_high high, BurstJob.gateEvent_opening_of_high high⟩
  · exact ⟨BurstJob.gateEvent_opening_of_gateWait wait, BurstJob.gateEvent_closing_of_gateWait wait⟩
  · exact BurstJob.level_of_high high

end Sys2Proof.Machine
end

