-- ==== Sys2Proof/Proofs/InputEdges.lean ====
section
/-! SUPPORT. The inputs and their edges: the filter of a raw change (R118, R119), what an edge does at one gated window and what it
leaves of the others (R86), the run of an edge along the plan, and a qualifying edge at the cycle engine (R67, R68). -/

namespace Sys2Proof.Machine

/-! ### The filter (R118, R119) -/

section filter

variable {s : State} {i : InputIx}

theorem exec_rawChange (hold : s.hold = none) : exec (.rawChange i) s = .next (s.rawChange i) :=
  if_pos (Option.isNone_iff_eq_none.2 hold)

theorem exec_qualification (hold : s.hold = none) :
    exec (.qualification i) s = .next (if s.qualificationDue i then s.qualify i else s) := by
  have arm : exec (.qualification i) s = execQualification i s := rfl
  rw [arm, execQualification, hold, apply_ite Host.Outcome.next]
  rfl

namespace State

theorem rawChange_of_unfiltered (width : s.hub.widths.get i = 0) :
    s.rawChange i =
      (s.setInput i
        { raw := oppositeLevel (s.input i).raw, filtered := oppositeLevel (s.input i).raw, timer := none }).handEdge i := by
  rw [rawChange, if_pos width, qualify_setInput]

theorem rawChange_of_stopped (width : s.hub.widths.get i ≠ 0) (stopped : (s.input i).timer = none) :
    s.rawChange i =
      s.setInput i { s.input i with raw := oppositeLevel (s.input i).raw, timer := some 0 } := by
  simp only [rawChange, if_neg width, stopped, setInput, Table.set_set]

theorem rawChange_of_counting (width : s.hub.widths.get i ≠ 0) (counting : (s.input i).timer.isSome = true) :
    s.rawChange i =
      s.setInput i { s.input i with raw := oppositeLevel (s.input i).raw, timer := none } := by
  obtain ⟨n, timer⟩ := Option.isSome_iff_exists.1 counting
  simp only [rawChange, if_neg width, timer, setInput, Table.set_set]

theorem qualificationDue_of_timer {n : Nat} (timer : (s.input i).timer = some n) :
    s.qualificationDue i = (decide (s.hub.widths.get i ≤ n) && decide ((s.input i).raw ≠ (s.input i).filtered)) := by
  rw [qualificationDue, timer]

end State

end filter

/-- Settles O35: a raw change by the width and the timer, a qualification by the count of the timer. -/
theorem inputsAreFiltered : Obligations.InputsAreFiltered := by
  refine ⟨fun s i hold => ⟨fun width => ?_, fun width stopped => ?_, fun width counting => ?_⟩,
    fun s i n hold timer => ⟨fun reached changed => ?_, fun early => ?_⟩⟩
  · rw [exec_rawChange hold, State.rawChange_of_unfiltered width]
    rfl
  · rw [exec_rawChange hold, State.rawChange_of_stopped width stopped]
    rfl
  · rw [exec_rawChange hold, State.rawChange_of_counting width counting]
    rfl
  · have due : s.qualificationDue i = true := by simp [State.qualificationDue_of_timer timer, reached, changed]
    rw [exec_qualification hold, if_pos due]
    rfl
  · have notDue : ¬ s.qualificationDue i = true := by simp [State.qualificationDue_of_timer timer, early]
    rw [exec_qualification hold, if_neg notDue]

/-! ### A changed flag at its line or its engine (R85, R86, R108, R110) -/

namespace State

/-- What follows a changed gate open flag of the window of entry e, assigned g: a SOLID window's line takes its level by the
flag, an engine takes the gate event. -/
def followFlag (s : State) (e : EntryIx) (g : Option EngineIx) (flag : Bool) : State :=
  match g with
  | none => if (s.entry e).descriptor.isBurst then s else s.setDriven (s.lineOf e) (s.solidLevel (s.lineOf e) flag)
  | some b =>
    match (s.burst b).job with
    | none => s
    | some j => s.setJob b (j.gateEvent flag)

section follow

variable {s : State} {e : EntryIx} {flag : Bool}

theorem followFlag_solid (kind : (s.entry e).descriptor.kind = .solid) :
    s.followFlag e none flag = s.setDriven (s.lineOf e) (s.solidLevel (s.lineOf e) flag) := by
  simp [followFlag, Descriptor.isBurst, kindHasBurst, kind]

theorem followFlag_busy {b : EngineIx} {j : BurstJob} (busy : s.burst b = .busy j) :
    s.followFlag e (some b) flag =
      { s with
        bursts := s.bursts.set b (.busy (j.gateEvent flag)), driven := s.driven.set j.line (j.gateEvent flag).level } := by
  obtain ⟨-, line, -⟩ := j.gateEvent_window flag
  simp only [followFlag, busy, BurstEngine.job, setJob, line]
  rfl

variable (s e flag)

theorem followFlag_plan (g : Option EngineIx) : (s.followFlag e g flag).plan = s.plan := by
  unfold followFlag
  split
  · split <;> rfl
  · split <;> rfl

theorem followFlag_notices (g : Option EngineIx) : (s.followFlag e g flag).notices = s.notices := by
  unfold followFlag
  split
  · split <;> rfl
  · split <;> rfl

theorem followFlag_burst_ne {g : Option EngineIx} {b : EngineIx} (other : g ≠ some b) :
    (s.followFlag e g flag).burst b = s.burst b := by
  unfold followFlag
  split
  · split <;> rfl
  · rename_i c
    split
    · rfl
    · exact burst_setBurst_ne s _ fun same => other (same ▸ rfl)

/-- A line that is neither the window's nor its engine's stands. -/
theorem followFlag_driven_ne {g : Option EngineIx} {l : LineIx} (mine : l ≠ s.lineOf e)
    (engine : ∀ b ∈ g, ∀ j, (s.burst b).job = some j → l ≠ j.line) :
    (s.followFlag e g flag).driven.get l = s.driven.get l := by
  unfold followFlag
  split
  · split
    · rfl
    · exact Table.get_set_ne _ _ mine
  · rename_i b
    split
    · rfl
    · rename_i j hj
      obtain ⟨-, line, -⟩ := j.gateEvent_window flag
      refine Table.get_set_ne _ _ ?_
      rw [line]
      exact engine b rfl j hj

end follow

/-! ### An edge at one window (R86) -/

section window

variable {s : State} {i : InputIx} {w : PlannedWindow} {flag : Bool} {g : Option EngineIx} {gate : Gate}

theorem gateWindow_of_not_gated
    (away : w.state.isOpen = false ∨ ∀ g ∈ (s.entry w.entry).descriptor.gate, g.input ≠ i) : gateWindow i s w = s := by
  cases state : w.state with
  | opened flag g =>
    cases gated : (s.entry w.entry).descriptor.gate with
    | none => simp [gateWindow, state, gated]
    | some gate =>
      have elsewhere : gate.input ≠ i := by simpa [state, gated, WindowState.isOpen] using away
      simp [gateWindow, state, gated, elsewhere]
  | scheduled => simp [gateWindow, state]
  | closed => simp [gateWindow, state]
  | cut => simp [gateWindow, state]

section gated

variable (state : w.state = .opened flag g) (gated : (s.entry w.entry).descriptor.gate = some gate)
include state gated

theorem gateWindow_of_same_flag (same : flag = s.gateIsOpen (some gate)) : gateWindow i s w = s := by
  simp [gateWindow, state, gated, same]

theorem gateWindow_of_changed_flag (onInput : gate.input = i) (changed : flag ≠ s.gateIsOpen (some gate)) :
    gateWindow i s w =
      (s.setWindowState w.entry (.opened (s.gateIsOpen (some gate)) g)).followFlag w.entry g
        (s.gateIsOpen (some gate)) := by
  simp only [gateWindow, state, gated, onInput, changed, ne_eq, not_false_eq_true, and_self, if_true]
  rfl

/-- The flag that the edge leaves an OPEN gated window: the new level's on its input, else as it was. -/
theorem gateWindow_windowState_self (planned : s.windowState w.entry = some w.state) :
    (gateWindow i s w).windowState w.entry =
      some (.opened (if gate.input = i then s.gateIsOpen (some gate) else flag) g) := by
  by_cases onInput : gate.input = i
  · rw [if_pos onInput]
    by_cases same : flag = s.gateIsOpen (some gate)
    · rw [gateWindow_of_same_flag state gated same, planned, state, same]
    · rw [gateWindow_of_changed_flag state gated onInput same, windowState_congr (followFlag_plan ..),
        windowState_setWindowState, planned]
      simp
  · have away : gateWindow i s w = s := gateWindow_of_not_gated (.inr (by simpa [gated] using onInput))
    rw [if_neg onInput, away, planned, state]

end gated

variable (s i w)

/-- All that an edge can do at one window. -/
theorem gateWindow_cases :
    gateWindow i s w = s
      ∨ ∃ flag g new, w.state = .opened flag g
          ∧ gateWindow i s w = (s.setWindowState w.entry (.opened new g)).followFlag w.entry g new := by
  by_cases away : w.state.isOpen = false ∨ ∀ g ∈ (s.entry w.entry).descriptor.gate, g.input ≠ i
  · exact .inl (gateWindow_of_not_gated away)
  · obtain ⟨isOpen, onInput⟩ := not_or.1 away
    push Not at onInput
    obtain ⟨gate, gated, onInput⟩ := onInput
    cases state : w.state with
    | opened flag g =>
      by_cases same : flag = s.gateIsOpen (some gate)
      · exact .inl (gateWindow_of_same_flag state gated same)
      · exact .inr ⟨flag, g, _, rfl, gateWindow_of_changed_flag state gated onInput same⟩
    | scheduled | closed | cut => exact absurd (by rw [state]; rfl) isOpen

theorem gateWindow_notices : (gateWindow i s w).notices = s.notices := by
  rcases s.gateWindow_cases i w with same | ⟨flag, g, new, -, follows⟩
  · rw [same]
  · rw [follows, followFlag_notices]
    rfl

variable {s w}

theorem gateWindow_windowState_ne {f : EntryIx} (other : f ≠ w.entry) :
    (gateWindow i s w).windowState f = s.windowState f := by
  rcases s.gateWindow_windowState i w with same | ⟨b, c, g, -, window⟩
  · exact same f
  · simp [window, other]

/-- An edge at one window leaves the engines that are not assigned to it. -/
theorem gateWindow_burst_ne {b : EngineIx} (other : w.state.engine ≠ some b) :
    (gateWindow i s w).burst b = s.burst b := by
  rcases s.gateWindow_cases i w with same | ⟨flag, g, new, state, follows⟩
  · rw [same]
  · rw [follows]
    rw [state] at other
    exact followFlag_burst_ne _ _ _ other

/-- An edge at one window leaves the other lines: its engine drives the line of the window (R104). -/
theorem gateWindow_driven_ne (served : WindowsServed s) (planned : s.windowState w.entry = some w.state) {l : LineIx}
    (other : w.state.isOpen = true → l ≠ s.lineOf w.entry) : (gateWindow i s w).driven.get l = s.driven.get l := by
  rcases s.gateWindow_cases i w with same | ⟨flag, g, new, state, follows⟩
  · rw [same]
  · have mine : l ≠ s.lineOf w.entry := other (by rw [state]; rfl)
    rw [follows]
    refine followFlag_driven_ne _ _ _ mine fun b hb j hj => ?_
    have assigned : s.engineOf w.entry = some b := by
      rw [engineOf, planned, state]
      exact hb
    obtain ⟨k, hk, named⟩ := served.served w.entry b assigned
    obtain rfl : k = j := Option.some.inj (hk.symm.trans hj)
    obtain ⟨-, line, -⟩ := served.engine b k hk
    rw [line, named]
    exact mine

end window

/-! ### An edge along the plan (R86) -/

section plan

variable {i : InputIx} {ws : List PlannedWindow} {w : PlannedWindow}

/-- The windows still to be visited stand as planned after a window has been. -/
theorem planned_gateWindow {t : State} (distinct : ((w :: ws).map fun w => w.entry).Nodup)
    (planned : ∀ v ∈ w :: ws, t.windowState v.entry = some v.state) :
    ∀ v ∈ ws, (gateWindow i t w).windowState v.entry = some v.state := by
  intro v hv
  have other : v.entry ≠ w.entry := fun same => (List.nodup_cons.1 distinct).1 (List.mem_map.2 ⟨v, hv, same⟩)
  rw [gateWindow_windowState_ne i other]
  exact planned v (List.mem_cons_of_mem w hv)

theorem foldl_gateWindow_keeps {P : State → Prop} {t : State} (distinct : (ws.map fun w => w.entry).Nodup)
    (planned : ∀ v ∈ ws, t.windowState v.entry = some v.state)
    (step : ∀ u, ∀ v ∈ ws, u.windowState v.entry = some v.state → P u → P (gateWindow i u v)) (h : P t) :
    P (ws.foldl (gateWindow i) t) := by
  induction ws generalizing t with
  | nil => exact h
  | cons w ws ih =>
    exact ih (List.nodup_cons.1 distinct).2 (planned_gateWindow distinct planned)
      (fun u v hv => step u v (List.mem_cons_of_mem w hv))
      (step t w List.mem_cons_self (planned w List.mem_cons_self) h)

/-- What the visits of the other windows keep, an edge changes as the visit of window w alone does. -/
theorem foldl_gateWindow_reads {α : Type} {read : State → α} {I : State → Prop} {t : State}
    (distinct : (ws.map fun w => w.entry).Nodup) (planned : ∀ v ∈ ws, t.windowState v.entry = some v.state)
    (step : ∀ u, ∀ v ∈ ws, u.windowState v.entry = some v.state → I u → I (gateWindow i u v))
    (other : ∀ u, ∀ v ∈ ws, v.entry ≠ w.entry → u.windowState v.entry = some v.state → I u →
      read (gateWindow i u v) = read u) (hw : w ∈ ws) (h : I t) :
    ∃ u, I u ∧ u.windowState w.entry = some w.state ∧ read u = read t
      ∧ read (ws.foldl (gateWindow i) t) = read (gateWindow i u w) := by
  induction ws generalizing t with
  | nil => cases hw
  | cons v ws ih =>
    obtain ⟨hv, rest⟩ := List.nodup_cons.1 distinct
    have later := planned_gateWindow (i := i) distinct planned
    have visited := step t v List.mem_cons_self (planned v List.mem_cons_self) h
    have stepLater : ∀ u, ∀ x ∈ ws, u.windowState x.entry = some x.state → I u → I (gateWindow i u x) :=
      fun u x hx => step u x (List.mem_cons_of_mem v hx)
    by_cases here : v = w
    · subst here
      have stands : ∀ u, ∀ x ∈ ws, u.windowState x.entry = some x.state → I u → read (gateWindow i u x) = read u :=
        fun u x hx => other u x (List.mem_cons_of_mem v hx) fun same => hv (List.mem_map.2 ⟨x, hx, same⟩)
      have kept : I (ws.foldl (gateWindow i) (gateWindow i t v))
          ∧ read (ws.foldl (gateWindow i) (gateWindow i t v)) = read (gateWindow i t v) :=
        foldl_gateWindow_keeps (P := fun u => I u ∧ read u = read (gateWindow i t v)) rest later
          (fun u x hx standing ⟨hu, same⟩ =>
            ⟨stepLater u x hx standing hu, (stands u x hx standing hu).trans same⟩) ⟨visited, rfl⟩
      exact ⟨t, h, planned v List.mem_cons_self, rfl, kept.2⟩
    · have hw : w ∈ ws := (List.mem_cons.1 hw).resolve_left (Ne.symm here)
      have ne : v.entry ≠ w.entry := fun same => hv (List.mem_map.2 ⟨w, hw, same.symm⟩)
      obtain ⟨u, hu, standing, before, after⟩ :=
        ih rest later stepLater (fun u x hx => other u x (List.mem_cons_of_mem v hx)) hw visited
      exact ⟨u, hu, standing, before.trans (other t v List.mem_cons_self ne (planned v List.mem_cons_self) h), after⟩

end plan

section edge

variable {s : State} {i : InputIx} {w : PlannedWindow}

theorem gateEdge_of_no_plan (plan : s.plan = none) : s.gateEdge i = s := by
  simp [gateEdge, planList, plan]

theorem gateEdge_notices (s : State) (i : InputIx) : (s.gateEdge i).notices = s.notices :=
  List.foldlRecOn (motive := fun t : State => t.notices = s.notices) s.planList _ rfl fun t ht w _ =>
    (t.gateWindow_notices i w).trans ht

theorem gateIsOpen_of_windowsOnly {t : State} (only : WindowsOnly s t) (gate : Option Gate) :
    t.gateIsOpen gate = s.gateIsOpen gate := by
  unfold gateIsOpen input
  rw [only.inputs]

theorem lineOf_of_windowsOnly {t : State} (only : WindowsOnly s t) (e : EntryIx) : t.lineOf e = s.lineOf e := by
  rw [lineOf, only.entry, lineOf]

theorem solidLevel_of_windowsOnly {t : State} (only : WindowsOnly s t) (l : LineIx) (flag : Bool) :
    t.solidLevel l flag = s.solidLevel l flag := by
  simp only [solidLevel, activeLevel, idleLevel, line, only.lines]

/-- The state of a planned window after an edge of its input or of another (R86). -/
theorem gateEdge_windowState (distinct : (s.planList.map fun w => w.entry).Nodup) (hw : w ∈ s.planList) {flag : Bool}
    {g : Option EngineIx} {gate : Gate} (state : w.state = .opened flag g)
    (gated : (s.entry w.entry).descriptor.gate = some gate) :
    (s.gateEdge i).windowState w.entry =
      some (.opened (if gate.input = i then s.gateIsOpen (some gate) else flag) g) := by
  obtain ⟨t, only, standing, -, after⟩ :=
    foldl_gateWindow_reads (read := fun t => t.windowState w.entry) (I := WindowsOnly s) distinct
      (fun v hv => windowState_of_mem distinct hv) (fun t v _ _ ht => ht.trans (t.gateWindow_only i v))
      (fun t v _ other _ _ => gateWindow_windowState_ne i other.symm) hw (.rfl' s)
  rw [← only.entry] at gated
  rw [← gateIsOpen_of_windowsOnly only]
  exact after.trans (gateWindow_windowState_self state gated standing)

/-- Two OPEN windows on lines that are apart. -/
theorem lineOf_ne_of_pairwise
    (apart : s.openEntries.Pairwise fun e g => (s.entry e).descriptor.line ≠ (s.entry g).descriptor.line)
    {v : PlannedWindow} (hv : v ∈ s.planList) (hw : w ∈ s.planList) (vOpen : v.state.isOpen = true)
    (wOpen : w.state.isOpen = true) (other : v.entry ≠ w.entry) : s.lineOf w.entry ≠ s.lineOf v.entry := by
  have symm : Std.Symm fun e g => (s.entry e).descriptor.line ≠ (s.entry g).descriptor.line := ⟨fun _ _ => Ne.symm⟩
  exact apart.forall (mem_openEntries.2 ⟨w, hw, wOpen, rfl⟩) (mem_openEntries.2 ⟨v, hv, vOpen, rfl⟩) other.symm

/-- The line of an OPEN window stands at the visits of the others, which are on other lines (R17). -/
theorem line_stands
    (apart : s.openEntries.Pairwise fun e g => (s.entry e).descriptor.line ≠ (s.entry g).descriptor.line)
    (hw : w ∈ s.planList) (isOpen : w.state.isOpen = true) {u : State} {v : PlannedWindow} (hv : v ∈ s.planList)
    (other : v.entry ≠ w.entry) (only : WindowsOnly s u) (served : WindowsServed u)
    (standing : u.windowState v.entry = some v.state) :
    (gateWindow i u v).driven.get (s.lineOf w.entry) = u.driven.get (s.lineOf w.entry) := by
  refine gateWindow_driven_ne i served standing fun vOpen => ?_
  rw [lineOf_of_windowsOnly only]
  exact lineOf_ne_of_pairwise apart hv hw vOpen isOpen other

end edge

section served

variable {s : State} (served : WindowsServed s) {w : PlannedWindow} (hw : w ∈ s.planList)
include served hw

theorem engineOf_of_mem : s.engineOf w.entry = w.state.engine := by
  rw [engineOf, windowState_of_mem served.distinct hw]
  rfl

/-- The engine of a window stands at the visits of the others, since it serves one window (R104). -/
theorem engine_stands {i : InputIx} {b : EngineIx} (assigned : w.state.engine = some b) {u : State} {v : PlannedWindow}
    (hv : v ∈ s.planList) (other : v.entry ≠ w.entry) : (gateWindow i u v).burst b = u.burst b :=
  gateWindow_burst_ne i fun both => other <|
    served.engineOf_inj ((engineOf_of_mem served hv).trans both) ((engineOf_of_mem served hw).trans assigned)

/-- The job of an assigned engine is on the line of its window, which is a BURST window (R87, R104). -/
theorem job_of_engine {b : EngineIx} (assigned : w.state.engine = some b) :
    ∃ j, (s.burst b).job = some j ∧ j.line = s.lineOf w.entry ∧ (s.entry w.entry).descriptor.isBurst = true := by
  obtain ⟨j, hj, named⟩ := served.served w.entry b ((engineOf_of_mem served hw).trans assigned)
  obtain ⟨-, line, -, burst⟩ := served.engine b j hj
  rw [named] at line burst
  exact ⟨j, hj, line, burst⟩

theorem engine_eq_none_of_solid (kind : (s.entry w.entry).descriptor.kind = .solid) : w.state.engine = none := by
  refine Option.eq_none_iff_forall_ne_some.2 fun b assigned => ?_
  obtain ⟨-, -, -, burst⟩ := job_of_engine served hw assigned
  simp [Descriptor.isBurst, kindHasBurst, kind] at burst

variable {i : InputIx} {flag : Bool} {g : Option EngineIx} {gate : Gate} (state : w.state = .opened flag g)
  (gated : (s.entry w.entry).descriptor.gate = some gate) (onInput : gate.input = i)
  (changed : flag ≠ s.gateIsOpen (some gate))
include state gated onInput changed

/-- What stands at the visits of the other windows, an edge changes as the flag of window w has it followed. -/
theorem gateEdge_follows {α : Type} {read : State → α}
    (other : ∀ u, ∀ v ∈ s.planList, v.entry ≠ w.entry → WindowsOnly s u → WindowsServed u →
      u.windowState v.entry = some v.state → read (gateWindow i u v) = read u) :
    ∃ u, WindowsOnly s u ∧ read u = read s
      ∧ read (s.gateEdge i) =
        read ((u.setWindowState w.entry (.opened (s.gateIsOpen (some gate)) g)).followFlag w.entry g
          (s.gateIsOpen (some gate))) := by
  obtain ⟨u, ⟨only, -⟩, -, before, after⟩ :=
    foldl_gateWindow_reads (I := fun u => WindowsOnly s u ∧ WindowsServed u) served.distinct
      (fun v hv => windowState_of_mem served.distinct hv)
      (fun u v _ standing hu => ⟨hu.1.trans (u.gateWindow_only i v), hu.2.gateWindow i standing⟩)
      (fun u v hv ne standing hu => other u v hv ne hu.1 hu.2 standing) hw ⟨.rfl' s, served⟩
  rw [← only.entry] at gated
  rw [← gateIsOpen_of_windowsOnly only] at changed ⊢
  exact ⟨u, only, before, after.trans (congrArg read (gateWindow_of_changed_flag state gated onInput changed))⟩

variable (apart : s.openEntries.Pairwise fun e g => (s.entry e).descriptor.line ≠ (s.entry g).descriptor.line)
include apart

/-- The line of a SOLID window after an edge that changes its flag (R85, R86). -/
theorem gateEdge_solid (kind : (s.entry w.entry).descriptor.kind = .solid) :
    (s.gateEdge i).driven.get (s.lineOf w.entry) =
      s.solidLevel (s.lineOf w.entry) (s.gateIsOpen (some gate)) := by
  have isOpen : w.state.isOpen = true := by rw [state]; rfl
  obtain ⟨u, only, -, after⟩ :=
    gateEdge_follows served hw state gated onInput changed (read := fun u => u.driven.get (s.lineOf w.entry))
      fun u v hv ne only served standing => line_stands apart hw isOpen hv ne only served standing
  have unassigned : g = none := by
    rw [← engine_eq_none_of_solid served hw kind, state]
    rfl
  subst unassigned
  rw [← only.entry] at kind
  rw [followFlag_solid (s := u.setWindowState ..) kind] at after
  rw [← lineOf_of_windowsOnly only] at after
  rw [← solidLevel_of_windowsOnly only, ← lineOf_of_windowsOnly only]
  exact after.trans (Table.get_set_self ..)

/-- The engine and the line of a BURST window after an edge that changes its flag (R86, R108, R110). -/
theorem gateEdge_burst {b : EngineIx} {j : BurstJob} (assigned : g = some b) (busy : s.burst b = .busy j) :
    (s.gateEdge i).burst b = .busy (j.gateEvent (s.gateIsOpen (some gate)))
      ∧ (s.gateEdge i).driven.get (s.lineOf w.entry) = (j.gateEvent (s.gateIsOpen (some gate))).level := by
  subst assigned
  have isOpen : w.state.isOpen = true := by rw [state]; rfl
  have engine : w.state.engine = some b := by rw [state]; rfl
  obtain ⟨k, hk, line, -⟩ := job_of_engine served hw engine
  obtain rfl : j = k := by simpa [busy, BurstEngine.job] using hk
  obtain ⟨u, only, before, after⟩ :=
    gateEdge_follows served hw state gated onInput changed (read := fun u => (u.burst b, u.driven.get (s.lineOf w.entry)))
      fun u v hv ne only standsServed standing => Prod.ext (engine_stands served hw engine hv ne)
        (line_stands apart hw isOpen hv ne only standsServed standing)
  have busy : u.burst b = .busy j := (congrArg Prod.fst before).trans busy
  rw [followFlag_busy (s := u.setWindowState ..) busy, Prod.mk.injEq] at after
  obtain ⟨burst, driven⟩ := after
  refine ⟨burst.trans (Table.get_set_self ..), driven.trans ?_⟩
  rw [← line]
  exact Table.get_set_self ..

end served

/-! ### A qualifying edge (R67, R68, R121) -/

section edge

variable {s : State} {i : InputIx}

theorem edgeQualifies_eq_true {v : Level} :
    s.edgeQualifies i v = true ↔ s.hub.startLine = i ∧ s.hub.startEdge = edgeTo v := by
  simp [edgeQualifies]

/-- Whether an edge qualifies is judged on what the gates leave as it is. -/
theorem handEdge_eq (s : State) (i : InputIx) :
    s.handEdge i =
      if s.hub.startLine = i ∧ s.hub.startEdge = edgeTo (s.input i).filtered then (s.gateEdge i).qualifyingEdge
      else s.gateEdge i := by
  rw [handEdge]
  exact if_congr edgeQualifies_eq_true rfl rfl

theorem qualifyingEdge_of_ignored
    (ignored : s.hub.startMode = .internal ∨ s.engine.state = .stopped ∨ s.engine.state = .held) :
    s.qualifyingEdge = s := by
  unfold qualifyingEdge
  rcases ignored with mode | state | state
  · rw [mode]
  · rw [state]
    cases s.hub.startMode <;> rfl
  · rw [state]
    cases s.hub.startMode <;> rfl

theorem qualifyingEdge_of_waiting (mode : s.hub.startMode = .external) (state : s.engine.state = .waiting)
    (clear : s.engine.spacing = .clear) : s.qualifyingEdge = s.cycleStart := by
  rw [qualifyingEdge, mode, state, clear]

theorem qualifyingEdge_of_early (mode : s.hub.startMode = .external)
    (early : s.engine.state.inProgress = true ∨ (s.engine.state = .waiting ∧ s.engine.spacing = .counting)) :
    s.qualifyingEdge = s.earlyEdge := by
  unfold qualifyingEdge
  rcases early with progress | ⟨state, spacing⟩
  · cases state : s.engine.state with
    | running | halting => rw [mode]
    | stopped | waiting | held =>
      rw [state] at progress
      cases progress
  · rw [mode, state, spacing]

theorem earlyEdge_queue (s : State) (p : Port) :
    s.earlyEdge.queue p =
      if s.maskHolds p .early then (s.queue p).arrive (.early s.engine.reportedNumber s.eventOffset)
      else s.queue p :=
  queue_broadcast ..

end edge

end State

/-- Settles O36: an edge along the plan, at one window, on the lines and engines it leaves, and at the cycle engine. -/
theorem edgesReachGatesAndTheEngine : Obligations.EdgesReachGatesAndTheEngine := by
  refine ⟨fun s i => ?_, fun s i w => ⟨State.gateWindow_of_not_gated, ?_⟩, ?_,
    fun s => ⟨State.qualifyingEdge_of_ignored, State.qualifyingEdge_of_waiting, fun mode early => ?_⟩⟩
  · have only := s.gateEdge_only i
    refine ⟨.handEdge s i, fun away => ?_, fun line edge => ?_, State.gateEdge_of_no_plan, only.engine, only.entries,
      s.gateEdge_notices i, rfl, fun distinct w hw flag g gate state gated => ?_⟩
    · rw [State.handEdge_eq, if_neg away]
    · rw [State.handEdge_eq, if_pos ⟨line, edge⟩]
    · rw [State.gateEdge_windowState distinct hw state gated]
      split
      · rename_i onInput
        subst onInput
        rfl
      · rfl
  · rintro flag g gate state gated rfl
    refine ⟨State.gateWindow_of_same_flag state gated, fun changed kind none => ?_, fun changed b j assigned busy => ?_⟩
    · subst none
      exact (State.gateWindow_of_changed_flag state gated rfl changed).trans (State.followFlag_solid kind)
    · subst assigned
      exact (State.gateWindow_of_changed_flag state gated rfl changed).trans (State.followFlag_busy busy)
  · rintro s _ served apart w hw flag g gate state gated rfl changed
    exact ⟨State.gateEdge_solid served.windowsServed hw state gated rfl changed apart,
      fun b j => State.gateEdge_burst served.windowsServed hw state gated rfl changed apart⟩
  · rw [State.qualifyingEdge_of_early mode early]
    exact ⟨s.earlyEdge_only, s.earlyEdge_queue⟩

end Sys2Proof.Machine
end

