-- ==== Sys2Proof/Proofs/SessionEnds.lean ====
section
/-! SUPPORT. The end of a session (R139): what it leaves of the sessions, the votes, the notices and the claims, whatever the
port's link and lease timer are; and so DETACH, the lease expiry (R136, R137, R140) and ABANDON (R141, R182). -/

namespace Sys2Proof.Machine

/-! ### A port whose session has ended hears nothing (R139, step 1) -/

namespace State

variable {s : State} {p : Port}

section detached

variable (detached : (s.session p).attachment = none)
include detached

theorem maskHolds_of_detached (k : MaskKind) : s.maskHolds p k = false := by simp [maskHolds, detached]

theorem engineNotices_of_detached (x : EngineState) (n : CycleNumber) : s.engineNotices p x n = [] := by
  simp [engineNotices, maskHolds_of_detached detached]

theorem stopNotices_of_detached : s.stopNotices p = [] := by
  refine List.filterMap_eq_nil_iff.2 fun e _ => ?_
  split
  · simp [hearsLifecycle, maskHolds_of_detached detached]
  · rfl

/-- No notice of the last vote cleared reaches a port with no session. -/
theorem lastVoteCleared_queue_of_detached : s.lastVoteCleared.queue p = s.queue p := by
  have stops : s.enterStopped.queue p = s.queue p := by
    rw [enterStopped_queue, engineNotices_of_detached detached, stopNotices_of_detached detached]
    rfl
  unfold lastVoteCleared
  split
  · exact stops
  · rw [queue_changeEngine, engineNotices_of_detached detached]
    rfl
  · exact stops
  · rfl

end detached

/-! ### The vote that goes with the record -/

theorem dropVote_queue_of_detached {x : Session} (detached : x.attachment = none) :
    (s.dropVote p x).queue p = s.queue p := by
  unfold dropVote
  dsimp only
  split
  · exact lastVoteCleared_queue_of_detached (by rw [session_setSession, detached])
  · rfl

theorem dropVote_windows (x : Session) :
    (s.dropVote p x).plan = s.plan ∧ (s.dropVote p x).holding = s.holding ∧ (s.dropVote p x).driven = s.driven
      ∧ (s.dropVote p x).bursts = s.bursts := by
  unfold dropVote
  dsimp only
  split
  · exact (s.setSession p x).lastVoteCleared_windows
  · exact ⟨rfl, rfl, rfl, rfl⟩

/-! ### The end of a session, field by field (R139) -/

theorem endSession_arbiter (expired : Bool) :
    (s.endSession p expired).arbiter =
      { s.arbiter with claims := s.arbiter.claims.set p (some (s.session p).number) } := by
  rw [endSession_eq]
  dsimp only
  rw [(s.dropVote_only p _).arbiter]
  rfl

theorem endSession_links (expired : Bool) : (s.endSession p expired).links = s.links := by
  rw [endSession_eq]
  exact (s.dropVote_only p _).links

theorem endSession_sessions (expired : Bool) :
    (s.endSession p expired).sessions = s.sessions.set p (s.session p).ended := by
  rw [endSession_eq]
  exact (s.dropVote_only p _).sessions

theorem endSession_windows (expired : Bool) :
    (s.endSession p expired).plan = s.plan ∧ (s.endSession p expired).holding = s.holding
      ∧ (s.endSession p expired).driven = s.driven ∧ (s.endSession p expired).bursts = s.bursts := by
  rw [endSession_eq]
  exact dropVote_windows _

theorem endSession_rest (expired : Bool) :
    (s.endSession p expired).lines = s.lines ∧ (s.endSession p expired).hub = s.hub
      ∧ (s.endSession p expired).peaks = s.peaks ∧ (s.endSession p expired).inputs = s.inputs
      ∧ (s.endSession p expired).resetCause = s.resetCause ∧ (s.endSession p expired).hold = s.hold
      ∧ (s.endSession p expired).pending = s.pending ∧ (s.endSession p expired).freeCount = s.freeCount := by
  have only := s.dropVote_only p (s.session p).ended
  rw [endSession_eq]
  exact ⟨only.lines, only.hub, only.peaks, only.inputs, only.resetCause, only.hold, only.pending, only.freeCount⟩

/-- The queue of a port whose session ends: cleared, and with the EXPIRED notice at an expiry alone (R139, R140). -/
theorem endSession_queue (expired : Bool) :
    (s.endSession p expired).queue p =
      if expired then
        { records := [{ seq := (s.queue p).seq, body := .expired (s.session p).number }]
          seq := (s.queue p).seq + 1
          losses := 0
          inTransfer := none }
      else { s.queue p with records := [], losses := 0, inTransfer := none } := by
  have dropped : (s.dropVote p (s.session p).ended).queue p = s.queue p := dropVote_queue_of_detached rfl
  have cleared : ((s.dropVote p (s.session p).ended).setQueue p (s.queue p).cleared).queue p = (s.queue p).cleared :=
    queue_setQueue ..
  unfold endSession
  dsimp only
  rw [dropped]
  cases expired with
  | false => exact cleared
  | true =>
    have queued := queue_queueNotice ((s.dropVote p (s.session p).ended).setQueue p (s.queue p).cleared) p p
      (.expired (s.session p).number)
    rw [cleared, if_pos rfl] at queued
    exact queued

theorem endSession_queue_ne (expired : Bool) {q : Port} (hq : q ≠ p) :
    (s.endSession p expired).queue q = (s.dropVote p (s.session p).ended).queue q := by
  have cleared (x : NoticeQueue) : ((s.dropVote p (s.session p).ended).setQueue p x).queue q
      = (s.dropVote p (s.session p).ended).queue q := queue_setQueue_ne _ _ hq
  unfold endSession
  cases expired with
  | false => exact cleared _
  | true => exact (queue_setQueue_ne _ _ hq).trans (cleared _)

end State

/-- What is beside the engine, the entries and the other ports' queues is no part of what a vote leaves. -/
theorem VoteGone.of_same {s t v : State} {p : Port} (h : VoteGone s t p) (engine : v.engine = t.engine)
    (entries : v.entries = t.entries) (queues : ∀ q, q ≠ p → v.queue q = t.queue q) : VoteGone s v p where
  engine := by rw [engine]; exact h.engine
  last := by rw [engine]; exact h.last
  restart := by rw [engine]; exact h.restart
  stopped last state := by
    obtain ⟨freed, notices⟩ := h.stopped last state
    exact ⟨entries.trans freed, fun q hq => (queues q hq).trans (notices q hq)⟩
  halting last state := by
    obtain ⟨same, notices⟩ := h.halting last state
    exact ⟨entries.trans same, fun q hq => (queues q hq).trans (notices q hq)⟩
  still none := by
    obtain ⟨still, same, notices⟩ := h.still none
    exact ⟨engine.trans still, entries.trans same, fun q hq => (queues q hq).trans (notices q hq)⟩

namespace SessionEnded

variable {s t : State} {p : Port} {x : NoticeQueue} (h : SessionEnded s t p x)
include h

/-- The port's link is no part of what a session end leaves. -/
theorem setLink (y : Link) : SessionEnded s (t.setLink p y) p x :=
  { h with vote := h.vote.of_same rfl rfl fun _ _ => rfl }

/-- The port's queue may be rewritten after the end, as by an ABANDON (R141). -/
theorem setQueue (y : NoticeQueue) : SessionEnded s (t.setQueue p y) p y :=
  { h with
    queue := State.queue_setQueue ..
    vote := h.vote.of_same rfl rfl fun _ => State.queue_setQueue_ne t y }

end SessionEnded

/-! ### What a session end reads -/

/-- The end of port p's session reads in u what it reads in s: beside the links, the last port served and p's lease timer
nothing has changed, as at the taking of a request or in a frame. -/
structure EndsAlike (s u : State) (p : Port) : Prop where
  same : u = { s with
    links := u.links, sessions := s.sessions.set p (u.session p)
    arbiter := { s.arbiter with lastServed := u.arbiter.lastServed } }
  number : (u.session p).number = (s.session p).number
  vote : u.hasVote p = s.hasVote p

namespace EndsAlike

variable {s u : State} {p : Port}

theorem refl (s : State) (p : Port) : EndsAlike s s p where
  same := by simp [State.session]
  number := rfl
  vote := rfl

theorem setLink (s : State) (p : Port) (x : Link) : EndsAlike s (s.setLink p x) p where
  same := by simp [State.setLink, State.session]
  number := rfl
  vote := rfl

theorem take (s : State) (p : Port) : EndsAlike s (s.take p) p where
  same := by
    rw [State.session_take]
    rfl
  number := by rw [State.session_take, State.restartLease_number]
  vote := s.hasVote_take p p

variable (h : EndsAlike s u p)
include h

theorem stands : u.engine = s.engine ∧ u.entries = s.entries ∧ u.notices = s.notices := by
  rw [h.same]
  exact ⟨rfl, rfl, rfl⟩

theorem ended_sessions :
    u.sessions.set p (u.session p).ended = s.sessions.set p { number := (s.session p).number, attachment := none } := by
  have sessions : u.sessions = s.sessions.set p (u.session p) := congrArg State.sessions h.same
  rw [sessions, Table.set_set, Session.ended, h.number]

theorem session_ne {q : Port} (hq : q ≠ p) : u.session q = s.session q := by
  have sessions : u.sessions = s.sessions.set p (u.session p) := congrArg State.sessions h.same
  rw [State.session, sessions]
  exact Table.get_set_ne _ _ hq

/-- With the record DETACHED the port's vote is gone. -/
theorem voteCleared : VoteCleared s (u.setSession p (u.session p).ended) p := by
  have record {q : Port} (hq : q ≠ p) : (u.setSession p (u.session p).ended).session q = s.session q :=
    (State.session_setSession_ne u _ hq).trans (h.session_ne hq)
  obtain ⟨engine, entries, notices⟩ := h.stands
  exact
    { engine := engine
      entries := entries
      gone := by rw [State.hasVote_eq, State.session_setSession]; rfl
      votes := fun q hq => by rw [State.hasVote_eq, record hq, State.hasVote_eq]
      hears := fun q hq =>
        ⟨State.attachedSession_congr (record hq), fun k => by rw [State.maskHolds, record hq, State.maskHolds]⟩
      queues := fun q _ => congrArg (·.get q) notices }

/-- The engine's act on the vote that goes with the record (R60). -/
theorem dropVote_voteGone : VoteGone s (u.dropVote p (u.session p).ended) p := by
  have last : s.lastVoteAt p ↔ (u.hasVote p && !(u.setSession p (u.session p).ended).anyVote) = true := by
    rw [h.vote]
    exact h.voteCleared.lastVoteAt_iff
  by_cases was : s.lastVoteAt p
  · rw [State.dropVote_of_last (last.1 was)]
    exact h.voteCleared.voteGone_of_last was
  · rw [State.dropVote_of_not_last (last.not.1 was)]
    exact h.voteCleared.voteGone_of_not_last was

/-- The end of the session, in the words of the statements (R139). -/
theorem sessionEnded (expired : Bool) :
    SessionEnded s (u.endSession p expired) p ((u.endSession p expired).queue p) where
  sessions := by rw [State.endSession_sessions, h.ended_sessions]
  queue := rfl
  claims := by rw [State.endSession_arbiter, h.number, h.same]
  executor := by rw [State.endSession_arbiter, h.same]
  vote := h.dropVote_voteGone.of_same (by rw [State.endSession_eq]) (by rw [State.endSession_eq])
    fun _ => State.endSession_queue_ne expired
  windows := by
    obtain ⟨plan, holding, driven, bursts⟩ := u.endSession_windows (p := p) expired
    rw [plan, holding, driven, bursts, h.same]
    exact ⟨rfl, rfl, rfl, rfl⟩
  rest := by
    obtain ⟨lines, hub, peaks, inputs, cause, hold, pending, free⟩ := u.endSession_rest (p := p) expired
    rw [lines, hub, peaks, inputs, cause, hold, pending, free, h.same]
    exact ⟨rfl, rfl, rfl, rfl, rfl, rfl, rfl, rfl⟩

end EndsAlike

/-! ### DETACH and the lease expiry (R136, R137, R140) -/

section ends

variable {s : State} {p : Port}

/-- DETACH (R136): the session ends with no EXPIRED notice, and the reply is OK. -/
theorem exec_detach {r : Request} (taken : s.takenRequest p .detach = some r)
    (attached : (s.session p).attachment.isSome = true) :
    exec (.detach p) s = .next (((s.take p).endSession p false).reply p r .ok []) := by
  refine congrArg Host.Outcome.next ?_
  rw [State.answerRequest_attached taken (s.attachedSession_of_attachment attached)]
  rfl

theorem leaseDue_eq {a : Attachment} (attached : (s.session p).attachment = some a) :
    s.leaseDue p = decide (a.lease * 1000 ≤ a.timer) := by
  rw [State.leaseDue, attached]

theorem exec_leaseExpiry_due (hold : s.hold = none) (due : s.leaseDue p = true) :
    exec (.leaseExpiry p) s = .next (s.endSession p true) := if_pos (by simp [hold, due])

theorem exec_leaseExpiry_early (early : s.leaseDue p = false) : exec (.leaseExpiry p) s = .next s :=
  if_neg (by simp [early])

end ends

/-- Settles O10: each of the two events is a session end, DETACH on the state after its taking. -/
theorem sessionsEndByDetachAndByExpiry : Obligations.SessionsEndByDetachAndByExpiry := by
  refine ⟨fun s p r taken attached => ?_, fun s p a hold attached => ⟨fun due => ?_, fun early => ?_⟩⟩
  · have ended := ((EndsAlike.take s p).sessionEnded false).setLink
    rw [State.endSession_queue] at ended
    refine ⟨_, exec_detach taken attached, ended _, State.reply_links (State.endSession_links false) .., ?_⟩
    rw [State.reply_only]
    dsimp only
    rw [State.endSession_arbiter]
    rfl
  · have ended := (EndsAlike.refl s p).sessionEnded true
    rw [State.endSession_queue] at ended
    refine ⟨_, exec_leaseExpiry_due hold ?_, ended, State.endSession_links true, ?_⟩
    · rw [leaseDue_eq attached, decide_eq_true due]
    · rw [State.endSession_arbiter]
  · exact exec_leaseExpiry_early (by rw [leaseDue_eq attached, decide_eq_false (by omega)])

/-! ### ABANDON: the bytes of the frame (R182) -/

namespace State

variable (s : State) (p : Port)

/-- The session byte of an ABANDON and the bytes after it. -/
theorem exchanges_sessionByte (b : Byte) (more : List Byte) (frame : (s.link p).frame = .abandon none) :
    (b :: more).foldl (State.exchange p) s =
      s.shifted p (.abandon (some b)) (List.replicate (more.length + 1) 0) := by
  have received : State.exchange p s b = s.shifted p (.abandon (some b)) [0] := by
    rw [State.exchange, frame]
    rfl
  rw [List.foldl_cons, received, exchanges_abandon _ p b more (by simp)]
  simp [shifted, List.replicate_succ]

/-- An ABANDON from its frame code on. -/
theorem exchanges_abandonCode (st b : Byte) (more : List Byte) :
    (0x5A :: b :: more).foldl (State.exchange p) (s.setLink p { s.link p with frame := .opened st }) =
      s.setLink p
        { s.link p with frame := .abandon (some b), miso := st :: List.replicate (more.length + 1) 0 } := by
  have code : State.exchange p (s.setLink p { s.link p with frame := .opened st }) 0x5A =
      s.setLink p { s.link p with frame := .abandon none, miso := [st] } := by
    rw [State.exchange, link_setLink]
    dsimp only
    rw [setLink_setLink]
    rfl
  rw [List.foldl_cons, code, exchanges_sessionByte _ p b more (by simp)]
  simp [shifted]

variable {s p}

/-- A part of an ABANDON that leaves its session byte received: the byte is judged at the rise of CSn, and not before
(R182). -/
theorem exec_abandon {b : Byte} {miso : List Byte} {part : FramePart} {u : State}
    (heard : ¬ (s.hold.isSome ∨ (s.link p).frame = .ignoring)) (fallen : s.fallCs p = u)
    (bytes : part.bytes.foldl (State.exchange p) u =
      s.setLink p { s.link p with frame := .abandon (some b), miso := miso }) :
    exec (.abandon p part) s = .next
      (if part.rise then (s.setLink p { s.link p with frame := .idle, miso := miso }).judgeAbandon p b
       else s.setLink p { s.link p with frame := .abandon (some b), miso := miso }) := by
  refine congrArg Host.Outcome.next ?_
  rw [runFrame, if_neg heard, fallen, bytes]
  dsimp only
  rw [link_setLink, raiseCs_abandon _ _ _ b _ rfl]
  rfl

/-! ### ABANDON: the byte judged (R141) -/

/-- A matching ABANDON clears the link (R141). -/
theorem abandonPort_links : (s.abandonPort p).links = s.links.set p (s.link p).abandoned := by
  unfold abandonPort
  dsimp only
  split
  · have links : (s.endSession p false).links = s.links := endSession_links false
    simp [link, links]
  · rfl

theorem abandonPort_lastServed : (s.abandonPort p).arbiter.lastServed = s.arbiter.lastServed := by
  unfold abandonPort
  dsimp only
  split
  · exact congrArg (·.lastServed) (s.endSession_arbiter (p := p) false)
  · rfl

/-- A matching ABANDON at a DETACHED port clears the port, and no session ends (R141). -/
theorem abandonPort_of_detached (x : Link) (detached : (s.session p).attachment = none) :
    (s.setLink p x).abandonPort p =
      (s.setQueue p { records := [], seq := 0, losses := 0, inTransfer := none }).setLink p x.abandoned := by
  rw [abandonPort, session_setLink, detached]
  simp [setQueue_setLink, NoticeQueue.cleared]

theorem judgeAbandon_of_match (x : Link) {b : Byte} (same : b = (s.session p).number) :
    (s.setLink p x).judgeAbandon p b = (s.setLink p x).abandonPort p := if_pos same

/-- A wrong byte is counted as malformed (R182). -/
theorem judgeAbandon_of_mismatch (x : Link) {b : Byte} (other : b ≠ (s.session p).number) :
    (s.setLink p x).judgeAbandon p b = s.setLink p { x with malformed := saturatingInc x.malformed } := by
  rw [judgeAbandon, session_setLink, if_neg other, countMalformed, link_setLink, setLink_setLink]

end State

/-- A matching ABANDON at an ATTACHED port ends the session and clears the port (R141). -/
theorem EndsAlike.sessionEnded_abandonPort {s u : State} {p : Port} (h : EndsAlike s u p)
    (attached : (u.session p).attachment.isSome = true) :
    SessionEnded s (u.abandonPort p) p { records := [], seq := 0, losses := 0, inTransfer := none } := by
  unfold State.abandonPort
  rw [if_pos attached]
  exact ((h.sessionEnded false).setQueue _).setLink _

/-- Settles O11: from each place of the frame its bytes leave the session byte received, which the rise of CSn judges. -/
theorem abandonClearsThePort : Obligations.AbandonClearsThePort := by
  intro s p b more zeros judged
  have judges {c : Instr} {miso : List Byte} (executed : exec c s = .next
      ((s.setLink p { s.link p with frame := .idle, miso := miso }).judgeAbandon p b)) : judged c miso := by
    refine ⟨fun same attached => ⟨_, executed, ?_⟩, fun same detached => executed.trans ?_,
      fun other => executed.trans ?_⟩
    · rw [State.judgeAbandon_of_match _ same]
      refine ⟨(EndsAlike.setLink s p _).sessionEnded_abandonPort attached, ?_, State.abandonPort_lastServed⟩
      rw [State.abandonPort_links, State.link_setLink, State.setLink_links, Table.set_set]
      rfl
    · rw [State.judgeAbandon_of_match _ same, State.abandonPort_of_detached _ detached]
      rfl
    · rw [State.judgeAbandon_of_mismatch _ other]
      rfl
  refine ⟨fun st before => ?_, fun hold frame => ?_, fun hold frame => ?_⟩
  · have executed (rise : Bool) := State.exec_abandon (part := ⟨0x5A :: b :: more, rise⟩)
      (s.notIgnoring_of_beforeCode p before) (s.fallCs_of_beforeCode p before) (s.exchanges_abandonCode p st b more)
    exact ⟨judges (executed true), executed false⟩
  · exact judges (State.exec_abandon (part := ⟨b :: more, true⟩) (by simp [hold, frame])
      (s.fallCs_of_ne p (by simp [frame])) (s.exchanges_sessionByte p b more frame))
  · exact judges (State.exec_abandon (part := ⟨more, true⟩) (by simp [hold, frame])
      (s.fallCs_of_ne p (by simp [frame])) (s.exchanges_abandon p b more frame))

end Sys2Proof.Machine
end

