-- ==== Sys2Proof/Proofs/SessionRequests.lean ====
section
/-! SUPPORT. The requests of the session table that end no session: an unknown code and a DETACHED port (R130), ATTACH
(R132), RENEW (R134) and SET_NOTICES (R135). -/

namespace Sys2Proof.Machine

/-! ### A code that names no request, and a DETACHED port (R130) -/

/-- BAD_KIND, whatever the port's record (R130, step 1). -/
theorem exec_badKind {s : State} {p : Port} {r : Request} (taken : s.takenRequest p .unknown = some r) :
    exec (.badKind p) s = .next (s.answered p r .badKind []) := by
  have arm : exec (.badKind p) s = execBadKind p s := rfl
  rw [arm, execBadKind, taken, ← State.reply_take]

/-- Every request but ATTACH is for the session at its port: it is answered at its taking or begins a flight. -/
theorem exec_takingCommand (s : State) (p : Port) {kind : RequestKind} (attach : kind ≠ .attach)
    (unknown : kind ≠ .unknown) :
    (∃ act, exec (takingCommand p kind) s = .next (s.answerRequest p kind act))
      ∨ ∃ judge, exec (takingCommand p kind) s = .next (s.flyRequest p kind judge) := by
  cases kind with
  | attach => exact absurd rfl attach
  | unknown => exact absurd rfl unknown
  | add | replace | setHub => exact .inr ⟨_, rfl⟩
  | detach | renew | setNotices | withdraw | query | scan | claimLine | releaseLine | lineInfo | run | halt | readHub =>
    exact .inl ⟨_, rfl⟩

/-- Settles O5: what a DETACHED port is answered does not depend on the request's own rule. -/
theorem unknownCodesAndDetachedPortsAnswered : Obligations.UnknownCodesAndDetachedPortsAnswered := by
  refine ⟨fun s p r => exec_badKind, fun s p kind r attach unknown taken detached => ?_⟩
  obtain ⟨act, executed⟩ | ⟨judge, executed⟩ := exec_takingCommand s p attach unknown
  · rw [executed, State.answerRequest_detached taken detached]
  · rw [executed, State.flyRequest_detached taken detached]

/-! ### The fields of ATTACH and SET_NOTICES (R132, R135, R187) -/

section fields

variable {b : Byte} {f : List Byte}

theorem maskOfByte_eq_none (h : 16 ≤ b.toNat) : maskOfByte b = none := if_neg (by omega)

theorem maskOfByte_eq_maskBits (h : b.toNat < 16) : maskOfByte b = some (maskBits b) := if_pos h

theorem attachFields_eq_none
    (h : f.length < 3 ∨ word16At f 0 < 10 ∨ 60000 < word16At f 0 ∨ 16 ≤ (byteAt f 2).toNat) : attachFields f = none := by
  unfold attachFields
  split_ifs with range
  · rfl
  · rw [maskOfByte_eq_none (by omega)]
    rfl

theorem attachFields_eq_some
    (h : ¬ (f.length < 3 ∨ word16At f 0 < 10 ∨ 60000 < word16At f 0 ∨ 16 ≤ (byteAt f 2).toNat)) :
    attachFields f = some (word16At f 0, maskBits (byteAt f 2)) := by
  rw [attachFields, if_neg (by omega), maskOfByte_eq_maskBits (by omega)]
  rfl

theorem setNoticesFields_eq_none (h : f.length < 1 ∨ 16 ≤ (byteAt f 0).toNat) : setNoticesFields f = none := by
  unfold setNoticesFields
  split_ifs with short
  · rfl
  · exact maskOfByte_eq_none (by omega)

theorem setNoticesFields_eq_some (h : ¬ (f.length < 1 ∨ 16 ≤ (byteAt f 0).toNat)) :
    setNoticesFields f = some (maskBits (byteAt f 0)) := by
  rw [setNoticesFields, if_neg (by omega), maskOfByte_eq_maskBits (by omega)]

end fields

/-! ### ATTACH (R132) -/

section attach

variable {s : State} {p : Port} {r : Request}

theorem exec_attach (taken : s.takenRequest p .attach = some r) :
    exec (.attach p) s = .next ((s.take p).attachTaken p r) := by
  have arm : exec (.attach p) s = execAttach p s := rfl
  rw [arm, execAttach, taken]

theorem attachTaken_badField (fields : attachFields r.fields = none) :
    s.attachTaken p r = s.reply p r .badField [] := by
  rw [State.attachTaken, fields]

variable {lease : Nat} {mask : Mask} (fields : attachFields r.fields = some (lease, mask))
include fields

theorem attachTaken_attached (attached : (s.session p).attachment.isSome = true) :
    s.attachTaken p r = s.reply p r .attached [] := by
  rw [State.attachTaken, fields]
  exact if_pos attached

theorem attachTaken_begins (detached : ¬ (s.session p).attachment.isSome = true) :
    s.attachTaken p r = (s.attachSession p lease mask).reply p r .ok [(s.session p).number + 1] := by
  rw [State.attachTaken, fields]
  exact if_neg detached

end attach

/-- A session that is attached at the taking of its ATTACH, with the reply (R132). -/
theorem attachSession_take (s : State) (p : Port) (lease : Nat) (mask : Mask) (r : Request) (st : Status)
    (b : List Byte) :
    ((s.take p).attachSession p lease mask).reply p r st b =
      { s.answered p r st b with
        sessions := s.sessions.set p
          { number := (s.session p).number + 1
            attachment := some { lease := lease, timer := 0, vote := false, mask := mask } }
        notices := s.notices.set p { s.queue p with seq := 0, losses := 0 } } := by
  have records (x : Session) : (s.take p).sessions.set p x = s.sessions.set p x := Table.set_set ..
  rw [State.attachSession, (EndsAlike.take s p).number, ← State.reply_take]
  simp only [State.setSession, records]
  rfl

/-- Settles O7, by the checks of R132 in their order. -/
theorem attachGivesNextSession : Obligations.AttachGivesNextSession := by
  intro s p r taken
  have isSome : ((s.take p).session p).attachment.isSome = (s.session p).attachment.isSome := by
    rw [State.session_take, State.restartLease_isSome]
  rw [exec_attach taken]
  split_ifs with bad attached
  · rw [attachTaken_badField (attachFields_eq_none bad), State.reply_take]
  · rw [attachTaken_attached (attachFields_eq_some bad) (isSome.trans attached), State.reply_take]
  · rw [attachTaken_begins (attachFields_eq_some bad) (isSome ▸ attached), (EndsAlike.take s p).number,
      attachSession_take]

/-! ### RENEW and SET_NOTICES (R134, R135) -/

/-- Settles O8: the taking itself restarts the lease timer. -/
theorem renewRestartsTheLeaseTimer : Obligations.RenewRestartsTheLeaseTimer := fun s _ _ taken attached =>
  congrArg Host.Outcome.next
    (State.answerRequest_of_unchanged taken (s.attachedSession_of_attachment attached) rfl)

section setNotices

variable {s : State} {me : SessionId} {f : List Byte}

theorem setNoticesAct_badField (fields : setNoticesFields f = none) :
    setNoticesAct s me f = { state := s, status := .badField, payload := [] } := by
  rw [setNoticesAct, fields]

theorem setNoticesAct_replaces {mask : Mask} (fields : setNoticesFields f = some mask) :
    setNoticesAct s me f =
      { state := s.setSession me.port ((s.session me.port).withMask mask), status := .ok, payload := [] } := by
  rw [setNoticesAct, fields]

end setNotices

/-- The mask of an ATTACHED record replaced at the taking of a request (R130, R135). -/
theorem setSession_withMask_take (s : State) (p : Port) (mask : Mask) {a : Attachment}
    (attached : (s.session p).attachment = some a) :
    (s.take p).setSession p (((s.take p).session p).withMask mask) =
      { s.take p with
        sessions := s.sessions.set p { s.session p with attachment := some { a with timer := 0, mask := mask } } } := by
  have record : (s.session p).restartLease.withMask mask =
      { s.session p with attachment := some { a with timer := 0, mask := mask } } := by
    simp [Session.restartLease, Session.withMask, attached]
  have records (x : Session) : (s.take p).sessions.set p x = s.sessions.set p x := Table.set_set ..
  rw [State.session_take, record, State.setSession, records]

/-- Settles O9, by the fields of the request. -/
theorem setNoticesReplacesTheMask : Obligations.SetNoticesReplacesTheMask := by
  intro s p r a taken attached
  have mine := s.attachedSession_of_attachment (p := p) (by rw [attached]; rfl)
  split_ifs with bad
  · exact congrArg Host.Outcome.next
      (State.answerRequest_of_unchanged taken mine (setNoticesAct_badField (setNoticesFields_eq_none bad)))
  · refine congrArg Host.Outcome.next ?_
    rw [State.answerRequest_attached taken mine, setNoticesAct_replaces (setNoticesFields_eq_some bad),
      setSession_withMask_take s p _ attached, ← State.reply_take]
    rfl

end Sys2Proof.Machine
end

