-- ==== Sys2Proof/Proofs/NoticeQueues.lean ====
section
/-! SUPPORT. The notice queues: a notice's arrival, the removal of the record in transfer (R154 to R156, R158), the routing of a
notice to its ports (R149, R150), and ATTN (R161). What keeps one queue bounded (R146). -/

namespace Sys2Proof.Machine

/-! ### Arrival and removal (R154 to R156, R158) -/

/-- A loss counter stops at 65535 (R155). -/
theorem saturatingInc_losses (c : BitVec 16) : saturatingInc c = if c.toNat = 65535 then c else c + 1 := by
  have full : c = BitVec.allOnes 16 ↔ c.toNat = 65535 := BitVec.toNat_inj.symm
  simp only [saturatingInc, full]

/-- Settles O42, by the room at the tail and by the losses counted. -/
theorem noticesAreQueuedDroppedAndRemoved : Obligations.NoticesAreQueuedDroppedAndRemoved := by
  refine ⟨fun q b => ⟨q.arrive_of_room b, fun full => ?_⟩, fun q => ⟨q.removeTransferred_of_none, ?_, ?_⟩⟩
  · rw [q.arrive_of_full b full, saturatingInc_losses]
  · intro transfer lossless
    obtain ⟨r, handed⟩ := Option.isSome_iff_exists.1 transfer
    exact q.removeTransferred_of_no_losses handed lossless
  · intro transfer lost full
    obtain ⟨r, handed⟩ := Option.isSome_iff_exists.1 transfer
    exact q.removeTransferred_of_losses handed lost full

/-! ### Routing (R149, R150, R84) -/

/-- Settles O41, by what an owner notice and a broadcast make of each port's queue. -/
theorem noticesAreRouted : Obligations.NoticesAreRouted := by
  intro s kind b
  refine ⟨⟨.broadcast s kind b, s.queue_broadcast kind b⟩, fun o => ⟨.ownerNotice s _ kind b, fun p => ?_⟩, rfl,
    fun _ => rfl⟩
  rw [s.queue_ownerNotice o kind b p]
  refine if_congr ⟨fun ⟨attached, mask⟩ => ⟨?_, attached, mask⟩, fun ⟨_, heard⟩ => heard⟩ rfl rfl
  exact (State.port_of_attachedSession attached).symm

/-! ### ATTN (R161) -/

theorem State.attnLevel_eq_low {s : State} {p : Port} : s.attnLevel p = .low ↔ s.attnAsserted p = true := by
  unfold attnLevel
  split <;> simp_all

theorem State.attnAsserted_iff {s : State} {p : Port} :
    s.attnAsserted p = true ↔ s.hold = none ∧ ((s.link p).replies ≠ [] ∨ (s.queue p).records ≠ []) := by
  simp [attnAsserted, link, queue]

/-- Settles O48: after a reset both queues of every port are empty. -/
theorem attentionFollowsTheQueues : Obligations.AttentionFollowsTheQueues := by
  refine ⟨fun s p => State.attnLevel_eq_low.trans State.attnAsserted_iff, fun cause inputs inh cs cmds n p => ?_⟩
  have released : (State.afterRelease cause inputs inh cs cmds n).attnAsserted p ≠ true := by
    rw [ne_eq, State.attnAsserted_iff, State.afterRelease_link, State.afterRelease_queue]
    simp [Link.afterReset, NoticeQueue.afterReset]
  exact if_neg released

/-! ### One queue bounded (R146, R155, R156, R158) -/

/-- `QueuesBounded` of one queue. -/
structure NoticeQueue.Bounded (q : NoticeQueue) : Prop where
  size : q.records.length ≤ 32
  losses : q.losses ≠ 0 → q.records.length = 32
  transfer : ∀ r ∈ q.inTransfer, q.records.head? = some r

theorem queuesBounded_iff {s : State} : QueuesBounded s ↔ ∀ p, (s.queue p).Bounded :=
  ⟨fun h p => ⟨h.size p, h.losses p, h.transfer p⟩,
    fun h => ⟨fun p => (h p).size, fun p => (h p).losses, fun p => (h p).transfer⟩⟩

namespace NoticeQueue

theorem bounded_cleared (q : NoticeQueue) : q.cleared.Bounded := ⟨Nat.zero_le _, fun h => absurd rfl h, nofun⟩

namespace Bounded

variable {q : NoticeQueue} (h : q.Bounded)
include h

/-- A loss is counted at a full queue alone, and the head stays. -/
theorem arrive (b : NoticeBody) : (q.arrive b).Bounded where
  size := q.arrive_length b h.size
  losses lost := Nat.le_antisymm (q.arrive_length b h.size) (q.arrive_losses_full b h.losses lost)
  transfer r hr := q.arrive_head b (h.transfer r (q.arrive_inTransfer b ▸ hr))

theorem after (bs : List NoticeBody) : (q.after bs).Bounded :=
  List.foldlRecOn bs NoticeQueue.arrive h fun _ hq b _ => hq.arrive b

theorem withSeq (n : Byte) : ({ q with seq := n } : NoticeQueue).Bounded := ⟨h.size, h.losses, h.transfer⟩

theorem clearLosses : ({ q with losses := 0 } : NoticeQueue).Bounded := ⟨h.size, fun lost => absurd rfl lost, h.transfer⟩

theorem handOver : q.handOver.Bounded := ⟨h.size, h.losses, fun _ hr => hr⟩

theorem dropTransfer : ({ q with inTransfer := none } : NoticeQueue).Bounded := ⟨h.size, h.losses, nofun⟩

/-- With losses counted the queue is full, and the LOST notice fills the place that the head leaves. -/
theorem removeTransferred : q.removeTransferred.Bounded := by
  cases transfer : q.inTransfer with
  | none => rwa [q.removeTransferred_of_none transfer]
  | some r =>
    by_cases lost : q.losses = 0
    · rw [q.removeTransferred_of_no_losses transfer lost]
      refine ⟨?_, fun counted => absurd lost counted, nofun⟩
      have := h.size
      simp only [List.length_tail]
      omega
    · have full := h.losses lost
      rw [q.removeTransferred_of_losses transfer lost full]
      refine ⟨?_, fun counted => absurd rfl counted, nofun⟩
      simp only [List.length_append, List.length_tail, List.length_singleton]
      omega

end Bounded

end NoticeQueue

end Sys2Proof.Machine
end

