-- ==== Sys2Proof/Proofs/FetchFrames.lean ====
section
/-! SUPPORT. The bytes of a FETCH (R158, R159, R180): the frame code, the count, and the position of the head record, whose 16th
byte removes the record in transfer. -/

namespace Sys2Proof.Machine

namespace State

variable (s : State) (p : Port)

/-! ### Within a position (R158) -/

/-- The last byte of a position removes the record in transfer, if it is still there. -/
theorem exchange_lastByte (b last : Byte) (frame : (s.link p).frame = .fetch none [last]) :
    State.exchange p s b = (s.setQueue p (s.queue p).removeTransferred).shifted p (.fetch none []) [last] := by
  rw [exchange, frame]
  rfl

/-- Bytes of a position that has begun, up to its end. -/
theorem exchanges_position (rest mosi : List Byte) (frame : (s.link p).frame = .fetch none rest) (begun : rest ≠ [])
    (within : mosi.length ≤ rest.length) :
    mosi.foldl (State.exchange p) s =
      (s.setQueue p (if mosi.length = rest.length then (s.queue p).removeTransferred else s.queue p)).shifted p
        (.fetch none (rest.drop mosi.length)) (rest.take mosi.length) := by
  by_cases ends : mosi.length = rest.length
  · obtain ⟨rest, last, rfl⟩ := (List.eq_nil_or_concat' rest).resolve_left begun
    obtain ⟨mosi, b, rfl⟩ := (List.eq_nil_or_concat' mosi).resolve_left (by rintro rfl; simp at ends)
    have same : mosi.length = rest.length := by simpa using ends
    rw [if_pos ends, List.foldl_append, s.exchanges_fetch p _ mosi frame (by simp [same]), List.foldl_cons, List.foldl_nil,
      exchange_lastByte _ p b last (by simp [same])]
    simp [same, setQueue_setLink, List.take_of_length_le, shifted]
  · rw [if_neg ends, setQueue_queue, s.exchanges_fetch p rest mosi frame (by omega)]

/-! ### The start of a position (R158, R180) -/

/-- The port with the head record handed over and its position begun, before the first byte has gone. -/
def positionBegun : State :=
  (s.setQueue p (s.queue p).handOver).setLink p { s.link p with frame := .fetch none (s.queue p).positionBytes }

/-- The first byte of a position is that of the head record, handed over as the position starts. -/
theorem exchange_firstByte (b : Byte) (frame : (s.link p).frame = .fetch none []) :
    State.exchange p s b = State.exchange p (s.positionBegun p) b := by
  obtain ⟨x, y, more, bytes⟩ : ∃ x y more, (s.queue p).positionBytes = x :: y :: more := by
    have length := positionBytes_length (s.queue p)
    match (s.queue p).positionBytes, length with
    | x :: y :: more, _ => exact ⟨x, y, more, rfl⟩
  simp only [exchange, positionBegun, frame, bytes, link_setLink, shiftFetch, shiftPosition, emit, link_setQueue,
    setLink_setLink]

/-- Bytes of a position from its first on, up to its end. -/
theorem exchanges_newPosition (mosi : List Byte) (frame : (s.link p).frame = .fetch none []) (nonempty : mosi ≠ [])
    (within : mosi.length ≤ 16) :
    mosi.foldl (State.exchange p) s =
      (s.setQueue p
          (if mosi.length = 16 then (s.queue p).handOver.removeTransferred else (s.queue p).handOver)).shifted p
        (.fetch none ((s.queue p).positionBytes.drop mosi.length)) ((s.queue p).positionBytes.take mosi.length) := by
  have length := positionBytes_length (s.queue p)
  have begun : (s.queue p).positionBytes ≠ [] := List.ne_nil_of_length_pos (by omega)
  have first : mosi.foldl (State.exchange p) s = mosi.foldl (State.exchange p) (s.positionBegun p) := by
    obtain ⟨b, more, rfl⟩ := List.exists_cons_of_ne_nil nonempty
    rw [List.foldl_cons, List.foldl_cons, s.exchange_firstByte p b frame]
  rw [first, exchanges_position _ p (s.queue p).positionBytes mosi (by simp [positionBegun]) begun (by omega), length]
  simp [positionBegun, setQueue_setLink, shifted]

/-! ### The frame code and the count (R180) -/

/-- The port after the frame code of a FETCH, which takes the number of records. -/
def fetchOpened (st : Byte) : State := s.setLink p { s.link p with frame := s.fetchFirst p, miso := [st] }

theorem exchange_fetchCode (st : Byte) :
    State.exchange p (s.setLink p { s.link p with frame := .opened st }) 0x53 = s.fetchOpened p st := by
  rw [exchange, link_setLink]
  dsimp only
  rw [setLink_setLink]
  rfl

theorem fetchOpened_frame (st : Byte) :
    ((s.fetchOpened p st).link p).frame = .fetch (some (BitVec.ofNat 8 (s.queue p).records.length)) [] := by
  rw [fetchOpened, link_setLink, fetchFirst]

/-- Bytes shifted out after the frame code. -/
theorem shifted_fetchOpened (st : Byte) (q : NoticeQueue) (f : FrameState) (out : List Byte) :
    ((s.fetchOpened p st).setQueue p q).shifted p f out =
      (s.setQueue p q).setLink p { s.link p with frame := f, miso := st :: out } := by
  simp [fetchOpened, shifted, setQueue_setLink]

theorem exchange_count (b count : Byte) (frame : (s.link p).frame = .fetch (some count) []) :
    State.exchange p s b = s.shifted p (.fetch none []) [count] := by
  rw [exchange, frame]
  rfl

/-- The count and, after it, bytes of the first position, up to its end. -/
theorem exchanges_countAndPosition (b count : Byte) (mosi : List Byte) (frame : (s.link p).frame = .fetch (some count) [])
    (nonempty : mosi ≠ []) (within : mosi.length ≤ 16) :
    (b :: mosi).foldl (State.exchange p) s =
      (s.setQueue p
          (if mosi.length = 16 then (s.queue p).handOver.removeTransferred else (s.queue p).handOver)).shifted p
        (.fetch none ((s.queue p).positionBytes.drop mosi.length))
        (count :: (s.queue p).positionBytes.take mosi.length) := by
  rw [List.foldl_cons, s.exchange_count p b count frame, exchanges_newPosition _ p mosi (by simp) nonempty within]
  simp [shifted, setQueue_setLink]

/-! ### A part of a FETCH -/

/-- The state after a part that leaves a FETCH in frame f, with these bytes shifted out and the queue q: at the rise of CSn the
frame ends, and no record is in transfer (R159). -/
def fetched (rise : Bool) (f : FrameState) (miso : List Byte) (q : NoticeQueue) : State :=
  { s with
    links := s.links.set p { s.link p with frame := if rise then .idle else f, miso := miso }
    notices := s.notices.set p (if rise then { q with inTransfer := none } else q) }

variable {s p}

theorem exec_fetch {n : Nat} {rise : Bool} {u : State} {count : Option Byte} {rest miso : List Byte} {q : NoticeQueue}
    (heard : ¬ (s.hold.isSome ∨ (s.link p).frame = .ignoring)) (fallen : s.fallCs p = u)
    (bytes : (List.replicate n 0x53).foldl (State.exchange p) u =
      (s.setQueue p q).setLink p { s.link p with frame := .fetch count rest, miso := miso }) :
    exec (.fetch p n rise) s = .next (s.fetched p rise (.fetch count rest) miso q) := by
  refine congrArg Host.Outcome.next ?_
  rw [runFrame, if_neg heard, fallen, bytes]
  dsimp only
  rw [link_setLink, raiseCs_fetch _ _ _ count rest _ rfl, queue_setQueue, setQueue_setQueue]
  cases rise <;> rfl

/-- A part that goes on with a FETCH. -/
theorem exec_fetch_on {n : Nat} {rise : Bool} {before count : Option Byte} {left rest out : List Byte} {q : NoticeQueue}
    (hold : s.hold = none) (frame : (s.link p).frame = .fetch before left)
    (bytes : (List.replicate n 0x53).foldl (State.exchange p) s = (s.setQueue p q).shifted p (.fetch count rest) out) :
    exec (.fetch p n rise) s = .next (s.fetched p rise (.fetch count rest) ((s.link p).miso ++ out) q) :=
  exec_fetch (by simp [hold, frame]) (s.fallCs_of_ne p (by simp [frame])) bytes

/-- A part from before the frame code of a FETCH: what it does is what its later bytes do once the code has passed. -/
theorem exec_fetch_from {n : Nat} {rise : Bool} {st : Byte} {count : Option Byte} {rest out : List Byte} {q : NoticeQueue}
    (before : s.beforeCode p st)
    (bytes : (List.replicate n 0x53).foldl (State.exchange p) (s.fetchOpened p st) =
      ((s.fetchOpened p st).setQueue p q).shifted p (.fetch count rest) out) :
    exec (.fetch p (n + 1) rise) s = .next (s.fetched p rise (.fetch count rest) (st :: out) q) := by
  refine exec_fetch (s.notIgnoring_of_beforeCode p before) (s.fallCs_of_beforeCode p before) ?_
  rw [List.replicate_succ, List.foldl_cons, exchange_fetchCode, bytes, shifted_fetchOpened]

end State

/-- Settles O45: from each place of the frame, its bytes up to the end of the position. -/
theorem fetchRemovesAtTheSixteenthByte : Obligations.FetchRemovesAtTheSixteenthByte := by
  intro s p n rise outcome queue position handed
  refine ⟨fun st before within => ?_, fun count hold frame one => ?_, fun hold frame nonempty within => ?_,
    fun rest hold frame begun within => ?_⟩
  · have opened := s.fetchOpened_frame p st
    have kept : (s.fetchOpened p st).setQueue p queue = s.fetchOpened p st := State.setQueue_queue ..
    match n with
    | 0 =>
      refine State.exec_fetch_from (q := queue) (out := []) before ?_
      rw [State.shifted_fetchOpened, State.setQueue_queue]
      rfl
    | 1 =>
      refine State.exec_fetch_from (q := queue) before ?_
      rw [kept, List.replicate_one, List.foldl_cons, State.exchange_count _ p _ _ opened]
      rfl
    | m + 2 =>
      have at16 : m + 2 = 17 ↔ m + 1 = 16 := by omega
      simp only [at16]
      refine State.exec_fetch_from before ?_
      rw [List.replicate_succ, State.exchanges_countAndPosition _ p _ _ _ opened (by simp) (by simp; omega),
        List.length_replicate]
      rfl
  · subst one
    refine State.exec_fetch_on hold frame ?_
    rw [State.setQueue_queue, List.replicate_one, List.foldl_cons, s.exchange_count p _ count frame]
    rfl
  · refine State.exec_fetch_on hold frame ?_
    rw [s.exchanges_newPosition p _ frame (by simpa using nonempty.ne') (by simpa using within), List.length_replicate]
    rfl
  · refine State.exec_fetch_on hold frame ?_
    rw [s.exchanges_position p rest _ frame begun (by simpa using within), List.length_replicate]

end Sys2Proof.Machine
end

