-- ==== Sys2Proof/Proofs/ArrivingNotices.lean ====
section
/-! SUPPORT. What the schedule and the tables do to the notice queues: notices arrive, in some order, and nothing else (R149, R150,
R154). The record in transfer, the removals and the clears are the frames' and the sessions' alone. -/

namespace Sys2Proof.Machine

/-- Notices have arrived at each queue, in some order, and nothing else has been done to it. -/
structure NoticesArrived (s t : State) : Prop where
  queue : ∀ p, ∃ bs, t.queue p = (s.queue p).after bs

namespace NoticesArrived

theorem of_notices {s t : State} (h : t.notices = s.notices) : NoticesArrived s t :=
  ⟨fun p => ⟨[], congrArg (·.get p) h⟩⟩

theorem rfl' (s : State) : NoticesArrived s s := of_notices rfl

theorem trans {s t u : State} (h : NoticesArrived s t) (k : NoticesArrived t u) : NoticesArrived s u := by
  refine ⟨fun p => ?_⟩
  obtain ⟨bs, hbs⟩ := h.queue p
  obtain ⟨cs, hcs⟩ := k.queue p
  exact ⟨bs ++ cs, by rw [hcs, hbs, NoticeQueue.after_append]⟩

theorem foldl {α : Type} {f : State → α → State} (h : ∀ s a, NoticesArrived s (f s a)) (as : List α) (s : State) :
    NoticesArrived s (as.foldl f s) := foldl_related rfl' (fun _ _ _ => trans) h as s

variable (s : State)

theorem queueNotice (p : Port) (b : NoticeBody) : NoticesArrived s (s.queueNotice p b) := by
  refine ⟨fun q => ?_⟩
  rw [State.queue_queueNotice]
  split
  · exact ⟨[b], rfl⟩
  · exact ⟨[], rfl⟩

theorem ownerNotice (o : Option SessionId) (k : MaskKind) (b : NoticeBody) : NoticesArrived s (s.ownerNotice o k b) := by
  unfold State.ownerNotice
  split
  · exact rfl' s
  · split
    · exact queueNotice ..
    · exact rfl' s

/-! ### Windows -/

theorem startWindows (es : List EntryIx) : NoticesArrived s (s.startWindows es) :=
  foldl (fun s e => ⟨fun p => ⟨_, s.startWindow_queue e p⟩⟩) es s

theorem endWindows (es : List EntryIx) : NoticesArrived s (s.endWindows es) :=
  foldl (fun s e => ⟨fun p => ⟨_, s.endWindow_queue e p⟩⟩) es s

theorem windowBoundary : NoticesArrived s s.windowBoundary := (endWindows s _).trans (startWindows _ _)

theorem cutCycle (c : Nat) : NoticesArrived s (s.cutCycle c) :=
  (foldl (fun s e => ⟨fun p => ⟨_, s.cutWindow_queue e c p⟩⟩) s.openEntries s).trans (of_notices rfl)

/-! ### The cycle engine -/

theorem changeEngine (x : EngineState) : NoticesArrived s (s.changeEngine x) := ⟨fun p => ⟨_, s.queue_changeEngine x p⟩⟩

theorem enterStopped : NoticesArrived s s.enterStopped := ⟨fun p => ⟨_, s.enterStopped_queue p⟩⟩

theorem cycleStart : NoticesArrived s s.cycleStart := by
  have planned : NoticesArrived s s.plannedCycle := ⟨fun p => ⟨_, s.plannedCycle_queue p⟩⟩
  exact planned.trans (startWindows ..)

theorem firstVote : NoticesArrived s s.firstVote := by
  unfold State.firstVote
  split
  · split
    · exact changeEngine ..
    · split
      · exact cycleStart s
      · exact changeEngine ..
      · exact changeEngine ..
  · exact changeEngine ..
  · exact rfl' s

theorem lastVoteCleared : NoticesArrived s s.lastVoteCleared := by
  unfold State.lastVoteCleared
  split
  · exact enterStopped s
  · exact changeEngine ..
  · exact enterStopped s
  · exact rfl' s

theorem cycleEnd : NoticesArrived s s.cycleEnd := by
  have ended : NoticesArrived s s.endedCycle := (endWindows s _).trans (of_notices rfl)
  have stopped : NoticesArrived s s.endedCycle.stopTimer := ended.trans (of_notices rfl)
  unfold State.cycleEnd
  dsimp only
  split
  · exact ended.trans (cycleStart _)
  · exact stopped.trans (changeEngine ..)
  · exact stopped.trans (enterStopped _)

theorem spacingEnd : NoticesArrived s s.spacingEnd := by
  have cleared : NoticesArrived s s.clearSpacing.stopTimer := of_notices rfl
  unfold State.spacingEnd
  dsimp only
  split
  · exact cleared.trans (cycleStart _)
  · exact cleared

theorem inhAssert : NoticesArrived s s.inhAssert := by
  have asserted : NoticesArrived s (s.setInh true) := of_notices rfl
  have counted : NoticesArrived s (s.setInh true).countEpisode := of_notices rfl
  have inhibited : NoticesArrived s s.inhibitedCycle := (asserted.trans (cutCycle ..)).trans (of_notices rfl)
  unfold State.inhAssert
  dsimp only
  split
  · exact inhibited.trans (changeEngine ..)
  · exact counted.trans (changeEngine ..)
  · exact inhibited.trans (enterStopped _)
  · exact asserted
  · exact asserted

theorem inhRelease : NoticesArrived s s.inhRelease := by
  have released : NoticesArrived s (s.setInh false) := of_notices rfl
  unfold State.inhRelease
  dsimp only
  split
  · exact released.trans (cycleStart _)
  · exact released.trans (changeEngine ..)
  · exact released.trans (changeEngine ..)
  · exact released

/-! ### Inputs -/

theorem earlyEdge : NoticesArrived s s.earlyEdge := by
  refine ⟨fun p => ?_⟩
  rw [State.earlyEdge_queue]
  split
  · exact ⟨[_], rfl⟩
  · exact ⟨[], rfl⟩

theorem qualifyingEdge : NoticesArrived s s.qualifyingEdge := by
  unfold State.qualifyingEdge
  split
  · exact rfl' s
  · exact cycleStart s
  · exact earlyEdge s
  · exact earlyEdge s
  · exact earlyEdge s
  · exact rfl' s
  · exact rfl' s

theorem handEdge (i : InputIx) : NoticesArrived s (s.handEdge i) := by
  have gates : NoticesArrived s (s.gateEdge i) := of_notices (s.gateEdge_notices i)
  unfold State.handEdge
  dsimp only
  split
  · exact gates.trans (qualifyingEdge _)
  · exact gates

theorem qualify (i : InputIx) : NoticesArrived s (s.qualify i) := by
  have filtered (x : InputChannel) : NoticesArrived s (s.setInput i x) := of_notices rfl
  exact (filtered _).trans (handEdge ..)

theorem rawChange (i : InputIx) : NoticesArrived s (s.rawChange i) := by
  have changed (x : InputChannel) : NoticesArrived s (s.setInput i x) := of_notices rfl
  unfold State.rawChange
  dsimp only
  split
  · exact (changed _).trans (qualify ..)
  · split
    · exact of_notices rfl
    · exact of_notices rfl

theorem rejudgeInput (i : InputIx) : NoticesArrived s (s.rejudgeInput i) := by
  unfold State.rejudgeInput
  split
  · exact qualify s i
  · exact rfl' s

/-! ### Requests answered at their taking -/

theorem dropVote (p : Port) (x : Session) : NoticesArrived s (s.dropVote p x) := by
  have recorded : NoticesArrived s (s.setSession p x) := of_notices rfl
  unfold State.dropVote
  dsimp only
  split
  · exact recorded.trans (lastVoteCleared _)
  · exact recorded

theorem runAct (me : SessionId) (f : List Byte) : NoticesArrived s (runAct s me f).state := by
  have voted (x : Session) : NoticesArrived s (s.setSession me.port x) := of_notices rfl
  unfold Machine.runAct
  dsimp only
  split
  · exact voted _
  · exact (voted _).trans (firstVote _)

theorem setNoticesAct (me : SessionId) (f : List Byte) : NoticesArrived s (setNoticesAct s me f).state := by
  unfold Machine.setNoticesAct
  split <;> exact of_notices rfl

theorem readHubAct (me : SessionId) (f : List Byte) : NoticesArrived s (readHubAct s me f).state := by
  unfold Machine.readHubAct
  split
  · exact rfl' s
  · dsimp only
    split <;> exact of_notices rfl

/-- A withdrawal gives no notice: an entry in force has its RETIRED notice when it becomes FREE (R18, R16). -/
theorem withdrawAct (me : SessionId) (f : List Byte) : NoticesArrived s (withdrawAct s me f).state := by
  unfold Machine.withdrawAct
  split
  · exact rfl' s
  · split
    · unfold State.withdrawEntry State.retireWithdrawn
      split
      · exact rfl' s
      · split
        · exact rfl' s
        · exact of_notices rfl
        · dsimp only
          split <;> exact of_notices rfl
        · exact rfl' s
    · exact rfl' s

theorem cleanup (o : SessionId) : NoticesArrived s (s.cleanup o) := of_notices (by rw [s.cleanup_only])

theorem claimLineAct (me : SessionId) (f : List Byte) : NoticesArrived s (claimLineAct s me f).state :=
  State.claimLineAct_keeps (rfl' s) (fun _ _ _ _ _ _ => of_notices (by rw [State.claimLine_only])) f

theorem releaseLineAct (me : SessionId) (f : List Byte) : NoticesArrived s (releaseLineAct s me f).state := by
  unfold Machine.releaseLineAct
  split
  · exact rfl' s
  · split <;> exact of_notices rfl

/-! ### Completions -/

theorem completeAdd (me : SessionId) (v : Verdict Descriptor) : NoticesArrived s (s.completeAdd me v).state := by
  unfold State.completeAdd
  split
  · exact rfl' s
  · split <;> exact of_notices rfl

theorem replaceFreed (me : SessionId) (d : Descriptor) : NoticesArrived s (s.replaceFreed me d).state := by
  unfold State.replaceFreed
  split <;> exact of_notices rfl

/-- An old entry freed at once has its RETIRED notice (R43). -/
theorem retireReplaced (old : EntryIx) (o : SessionId) : NoticesArrived s (s.retireReplaced old o) := by
  have freed : NoticesArrived s (s.freeEntry old) := of_notices rfl
  unfold State.retireReplaced
  split
  · exact freed.trans (ownerNotice ..)
  · exact of_notices rfl

theorem replaceInForce (me o : SessionId) (old : EntryIx) (d : Descriptor) :
    NoticesArrived s (s.replaceInForce me old o d).state := by
  unfold State.replaceInForce
  split
  · exact rfl' s
  · rename_i e _
    have written : NoticesArrived s (s.writePending e me d) := of_notices rfl
    exact (written.trans (retireReplaced ..)).trans (of_notices rfl)

theorem completeReplace (me : SessionId) (v : Verdict Replacement) : NoticesArrived s (s.completeReplace me v).state := by
  unfold State.completeReplace
  split
  · exact rfl' s
  · rename_i r
    have freed : NoticesArrived s (s.freeEntry r.old) := of_notices rfl
    split
    · exact freed.trans (replaceFreed ..)
    · split
      · exact freed.trans (replaceFreed ..)
      · exact replaceInForce ..
    · exact rfl' s
    · exact rfl' s

theorem completeSetHub (v : Verdict HubRecord) : NoticesArrived s (s.completeSetHub v).state := by
  cases v with
  | refuse st b => exact rfl' s
  | pass hub =>
    have replaced : NoticesArrived s { s with hub := hub } := of_notices rfl
    unfold State.completeSetHub
    dsimp only
    exact replaced.trans (foldl rejudgeInput allInputs _)

end NoticesArrived

end Sys2Proof.Machine
end

