-- ==== Sys2Proof/Proofs/QueueSteps.lean ====
section
/-! SUPPORT. `QueuesBounded` through the frames, the sessions, the resets and the commands, and so every step (R146, R155, R156,
R158). -/

namespace Sys2Proof.Machine

namespace QueuesBounded

variable {s : State} (h : QueuesBounded s)
include h

theorem queue (p : Port) : (s.queue p).Bounded := queuesBounded_iff.1 h p

theorem of_arrived {t : State} (arrived : NoticesArrived s t) : QueuesBounded t := by
  refine queuesBounded_iff.2 fun p => ?_
  obtain ⟨bs, queue⟩ := arrived.queue p
  rw [queue]
  exact (h.queue p).after bs

theorem of_notices {t : State} (notices : t.notices = s.notices) : QueuesBounded t := h.of_arrived (.of_notices notices)

theorem setQueue (p : Port) {x : NoticeQueue} (hx : x.Bounded) : QueuesBounded (s.setQueue p x) := by
  refine queuesBounded_iff.2 fun q => ?_
  by_cases hq : q = p
  · rw [hq, State.queue_setQueue]
    exact hx
  · rw [State.queue_setQueue_ne s x hq]
    exact h.queue q

/-! ### Sessions -/

theorem endSession (p : Port) (expired : Bool) : QueuesBounded (s.endSession p expired) := by
  have cleared (x : NoticeQueue) : QueuesBounded ((s.dropVote p (s.session p).ended).setQueue p x.cleared) :=
    (h.of_arrived (.dropVote ..)).setQueue p x.bounded_cleared
  unfold State.endSession
  cases expired with
  | false => exact (cleared _).of_notices rfl
  | true => exact ((cleared _).of_arrived (.queueNotice _ p (.expired (s.session p).number))).of_notices rfl

/-- A new session has its port's sequence number and loss counter at 0, and the records stay (R132). -/
theorem attachSession (p : Port) (lease : Nat) (mask : Mask) : QueuesBounded (s.attachSession p lease mask) := by
  have recorded (x : Session) : QueuesBounded (s.setSession p x) := h.of_notices rfl
  exact (recorded _).setQueue p ((h.queue p).withSeq 0).clearLosses

theorem abandonPort (p : Port) : QueuesBounded (s.abandonPort p) := by
  have ended : QueuesBounded (if (s.session p).attachment.isSome then s.endSession p false else s) := by
    split
    · exact h.endSession p false
    · exact h
  exact (ended.setQueue p ((NoticeQueue.bounded_cleared _).withSeq 0)).of_notices rfl

/-! ### Frames -/

theorem emit (p : Port) (b : Byte) (f : FrameState) : QueuesBounded (s.emit p b f) := h.of_notices rfl

theorem takeSubmitByte (p : Port) (received : List Byte) (b : Byte) : QueuesBounded (s.takeSubmitByte p received b) := by
  unfold State.takeSubmitByte
  split
  · exact h.emit ..
  · exact h.emit ..
  · unfold State.creditCheck
    split <;> exact h.of_notices rfl

theorem shiftReply (p : Port) (rest : List Byte) : QueuesBounded (s.shiftReply p rest) := by
  unfold State.shiftReply
  split
  · exact h.emit ..
  · unfold State.removeReply
    split <;> exact h.of_notices rfl
  · exact h.emit ..

theorem shiftPosition (p : Port) (rest : List Byte) : QueuesBounded (s.shiftPosition p rest) := by
  unfold State.shiftPosition
  split
  · exact h
  · exact (h.emit ..).setQueue p (h.queue p).removeTransferred
  · exact h.emit ..

theorem shiftFetch (p : Port) (count : Option Byte) (rest : List Byte) : QueuesBounded (s.shiftFetch p count rest) := by
  unfold State.shiftFetch
  split
  · exact h.emit ..
  · exact (h.setQueue p (h.queue p).handOver).shiftPosition p _
  · exact h.shiftPosition ..

theorem shiftStatus (p : Port) (k : Nat) (l : BitVec 16) : QueuesBounded (s.shiftStatus p k l) := by
  unfold State.shiftStatus
  split <;> exact h.emit ..

theorem exchange (p : Port) (b : Byte) : QueuesBounded (State.exchange p s b) := by
  unfold State.exchange
  split
  · exact h.of_notices rfl
  · exact h.takeSubmitByte ..
  · exact h.emit ..
  · exact h.shiftReply ..
  · exact h.shiftFetch ..
  · exact h.shiftStatus ..
  · exact h.emit ..
  · exact h.emit ..
  · exact h.emit ..
  · exact h
  · exact h

theorem fallCs (p : Port) : QueuesBounded (s.fallCs p) := by
  unfold State.fallCs
  split
  · exact h.of_notices rfl
  · exact h

theorem dropTransfer (p : Port) : QueuesBounded (s.dropTransfer p) := h.setQueue p (h.queue p).dropTransfer

theorem countMalformed (p : Port) : QueuesBounded (s.countMalformed p) := h.of_notices rfl

theorem raiseCs (p : Port) (bits : Nat) : QueuesBounded (s.raiseCs p bits) := by
  have idle : QueuesBounded (s.setLink p { s.link p with frame := .idle }) := h.of_notices rfl
  unfold State.raiseCs
  dsimp only
  split
  · exact idle.dropTransfer p
  · unfold State.judgeAbandon
    split
    · exact idle.abandonPort p
    · exact idle.countMalformed p
  · split
    · exact idle.countMalformed p
    · exact idle

theorem runFrame {p : Port} (mine : FrameState → Bool) (part : FramePart) (bits : Nat) :
    QueuesBounded (s.runFrame p mine part bits) := by
  have passed : QueuesBounded (part.bytes.foldl (State.exchange p) (s.fallCs p)) :=
    List.foldlRecOn part.bytes _ (h.fallCs p) fun _ ht b _ => ht.exchange p b
  unfold State.runFrame
  dsimp only
  split_ifs
  · exact h
  · exact passed.raiseCs p bits
  · exact passed
  · exact h

/-- At the start of a reset no record stays in transfer (R147, R174). -/
theorem holdReset (cause : ResetCause) : QueuesBounded (s.holdReset cause) := by
  have held : QueuesBounded { s.stopConditioner with hold := some cause, driven := .fill 16 .low } := h.of_notices rfl
  refine List.foldlRecOn allPorts _ held fun t ht p _ => ?_
  have discarded : QueuesBounded (t.setLink p { t.link p with frame := .idle }) := ht.of_notices rfl
  exact discarded.dropTransfer p

/-! ### Requests and flights -/

theorem take (p : Port) : QueuesBounded (s.take p) := h.of_notices rfl

theorem reply (p : Port) (r : Request) (st : Status) (b : List Byte) : QueuesBounded (s.reply p r st b) := h.of_notices rfl

theorem answerRequest {p : Port} {kind : RequestKind} {act : State → SessionId → List Byte → Answer}
    (acts : ∀ t me f, QueuesBounded t → QueuesBounded (act t me f).state) : QueuesBounded (s.answerRequest p kind act) :=
  State.answerRequest_keeps h (h.take p) (fun me f _ => acts _ me f (h.take p)) fun _ _ _ _ ht => ht.reply ..

/-- A request whose act does no more to the queues than to give notices. -/
theorem answerRequest_of_arrived {p : Port} {kind : RequestKind} {act : State → SessionId → List Byte → Answer}
    (acts : ∀ t me f, NoticesArrived t (act t me f).state) : QueuesBounded (s.answerRequest p kind act) :=
  h.answerRequest fun t me f ht => ht.of_arrived (acts t me f)

theorem flyRequest {p : Port} {kind : RequestKind} {judge : State → SessionId → List Byte → FlightOp} :
    QueuesBounded (s.flyRequest p kind judge) :=
  State.flyRequest_keeps h (h.take p) (fun _ _ _ => (h.take p).of_notices rfl) fun _ _ _ _ ht => ht.reply ..

theorem complete {f : Flight} {act : State → Answer} (acts : ∀ t, NoticesArrived t (act t).state) :
    QueuesBounded (s.complete f act) :=
  have released : QueuesBounded s.releaseExecutor := h.of_notices rfl
  State.complete_keeps released (released.of_arrived (acts _)) (fun _ _ _ _ ht => ht.reply ..)
    fun _ ht => ht.of_notices rfl

/-! ### Commands and steps -/

theorem execAttach (p : Port) : Leads QueuesBounded (execAttach p s) := by
  unfold Machine.execAttach
  split
  · exact h
  · rw [leads_next]
    unfold State.attachTaken
    split
    · exact (h.take p).reply ..
    · split
      · exact (h.take p).reply ..
      · exact ((h.take p).attachSession ..).reply ..

theorem execBadKind (p : Port) : Leads QueuesBounded (execBadKind p s) := by
  unfold Machine.execBadKind
  split
  · exact h
  · exact (h.take p).reply ..

theorem execCleanupClaim (p : Port) : Leads QueuesBounded (execCleanupClaim p s) := by
  have claimed : QueuesBounded (s.takeClaim p) := h.of_notices rfl
  unfold Machine.execCleanupClaim
  split
  · split
    · exact claimed.of_arrived (.cleanup ..)
    · exact h
  · exact h

theorem execAddCompletion : Leads QueuesBounded (execAddCompletion s) := by
  unfold Machine.execAddCompletion
  split
  · split
    · exact leads_ite (fun _ => h.complete fun t => .completeAdd t ..) h
    · exact h
    · exact h
  · exact h

theorem execReplaceCompletion : Leads QueuesBounded (execReplaceCompletion s) := by
  unfold Machine.execReplaceCompletion
  split
  · split
    · exact leads_ite (fun _ => h.complete fun t => .completeReplace t ..) h
    · exact h
    · exact h
  · exact h

theorem execSetHubCompletion : Leads QueuesBounded (execSetHubCompletion s) := by
  unfold Machine.execSetHubCompletion
  split
  · split
    · exact leads_ite (fun _ => h.complete fun t => .completeSetHub t _) h
    · exact h
    · exact h
  · exact h

theorem execHighTimeElapses (g : EngineIx) : Leads QueuesBounded (execHighTimeElapses g s) := by
  unfold Machine.execHighTimeElapses
  split
  · exact leads_ite (fun _ => h.of_notices rfl) h
  · exact h

theorem execLowTimeElapses (g : EngineIx) : Leads QueuesBounded (execLowTimeElapses g s) := by
  unfold Machine.execLowTimeElapses
  split
  · exact leads_ite (fun _ => h.of_notices rfl) h
  · exact h

theorem execRstnAsserted : Leads QueuesBounded (execRstnAsserted s) := by
  unfold Machine.execRstnAsserted
  split
  · exact h.holdReset .pin
  · exact h

theorem execResetRelease (inputs : BitVec 8) (inh : Bool) (cs : BitVec 4) :
    Leads QueuesBounded (execResetRelease inputs inh cs s) := by
  unfold Machine.execResetRelease
  split
  · exact h
  · exact queuesBounded_afterRelease ..

/-- Every command keeps the queues bounded. -/
theorem exec (c : Instr) : Leads QueuesBounded (exec c s) := by
  cases c with
  | attach p => exact h.execAttach p
  | detach p => exact h.answerRequest fun _ me _ ht => ht.endSession me.port false
  | renew p => exact h.answerRequest fun _ _ _ ht => ht
  | setNotices p => exact h.answerRequest_of_arrived .setNoticesAct
  | add p => exact h.flyRequest
  | addCompletion => exact h.execAddCompletion
  | withdraw p => exact h.answerRequest_of_arrived .withdrawAct
  | replace p => exact h.flyRequest
  | replaceCompletion => exact h.execReplaceCompletion
  | query p => exact h.answerRequest fun _ _ _ ht => by rwa [queryAct_state]
  | scan p => exact h.answerRequest fun _ _ _ ht => by rwa [scanAct_state]
  | claimLine p => exact h.answerRequest_of_arrived .claimLineAct
  | releaseLine p => exact h.answerRequest_of_arrived .releaseLineAct
  | lineInfo p => exact h.answerRequest fun _ _ _ ht => by rwa [lineInfoAct_state]
  | run p => exact h.answerRequest_of_arrived .runAct
  | halt p => exact h.answerRequest_of_arrived fun t me _ => .dropVote t me.port _
  | setHub p => exact h.flyRequest
  | setHubCompletion => exact h.execSetHubCompletion
  | readHub p => exact h.answerRequest_of_arrived .readHubAct
  | badKind p => exact h.execBadKind p
  | cleanupClaim p => exact h.execCleanupClaim p
  | submit p mosi => exact h.runFrame _ mosi 0
  | collect p bytes rise => exact h.runFrame _ _ 0
  | fetch p bytes rise => exact h.runFrame _ _ 0
  | status p bytes rise => exact h.runFrame _ _ 0
  | abandon p mosi => exact h.runFrame _ mosi 0
  | malformedFrame p mosi bits => exact h.runFrame _ mosi bits
  | cycleEnd => exact leads_ite (fun _ => h.of_arrived (.cycleEnd s)) h
  | spacingEnd => exact leads_ite (fun _ => h.of_arrived (.spacingEnd s)) h
  | inhAsserted => exact leads_ite (fun _ => h.of_arrived (.inhAssert s)) h
  | inhReleased => exact leads_ite (fun _ => h.of_arrived (.inhRelease s)) h
  | rawChange i => exact leads_ite (fun _ => h.of_arrived (.rawChange s i)) h
  | qualification i => exact leads_ite (fun _ => h.of_arrived (.qualify s i)) h
  | windowBoundaryEvent => exact leads_ite (fun _ => h.of_arrived (.windowBoundary s)) h
  | highTimeElapses g => exact h.execHighTimeElapses g
  | lowTimeElapses g => exact h.execLowTimeElapses g
  | leaseExpiry p => exact leads_ite (fun _ => h.endSession p true) h
  | powerOnReset => exact h.holdReset .power
  | rstnAsserted => exact h.execRstnAsserted
  | resetRelease inputs inh cs => exact h.execResetRelease inputs inh cs
  | csnRiseAfterReset p => exact leads_ite (fun _ => h.of_notices rfl) h

end QueuesBounded

/-- Settles O53: what the schedule and the tables do to a queue is to give it notices; a FETCH hands over the head and removes
it, and a session end, an ATTACH and an ABANDON clear losses with or without the records; each keeps one queue bounded. -/
theorem stepKeepsQueuesBounded : Obligations.StepKeepsQueuesBounded := fun _ _ =>
  step_keeps (fun _ _ h => h.of_notices rfl) (fun _ _ h => h.of_notices rfl) (fun _ _ _ h => h.of_notices rfl)
    fun c _ h => h.exec c

end Sys2Proof.Machine
end

