-- ==== Sys2Proof/Proofs/HubRequests.lean ====
section
/-! SUPPORT. The requests on the hub configuration record: the checks of a SET_HUB in their order (R164 to R166), its
completion with each pending input change judged against its new width (R123, R167, R168), and READ_HUB (R169, R170). -/

namespace Sys2Proof.Machine

/-! ### The checks of a SET_HUB (R164 to R166) -/

namespace State

variable {s : State} {n : Nat}

/-- The lowest-numbered reservation that does not fit a cycle length (R165). -/
theorem firstTooLong_eq_some {e : EntryIx} :
    s.firstTooLong n = some e ↔
      ((s.entry e).state ≠ .free ∧ n < (s.entry e).descriptor.stop)
        ∧ ∀ g < e, (s.entry g).state ≠ .free → (s.entry g).descriptor.stop ≤ n := by
  simp [firstTooLong, find_allEntries_eq_some]

theorem firstTooLong_eq_none :
    s.firstTooLong n = none ↔ ∀ e, (s.entry e).state ≠ .free → (s.entry e).descriptor.stop ≤ n := by
  rw [firstTooLong, find_allEntries_eq_none]
  simp

variable {h x : HubRecord}

theorem judgeHub_span {e : EntryIx} (long : s.firstTooLong h.cycleLength = some e) :
    s.judgeHub h = .refuse .span [BitVec.ofNat 8 e.val, BitVec.ofNat 8 (s.entry e).generation.toNat] := by
  simp [judgeHub, long, handleBytes, handleOf]

/-- Steps 3 and 4, once every reservation fits (R166). -/
theorem judgeHub_of_fits (fits : s.firstTooLong h.cycleLength = none) :
    s.judgeHub h =
      failWithReport (conflictReport s.freeCount (lineFailures s.gapOf h.cycleLength s.nextEpochSet)) .lineClash
        reportBytes
        (failWithReport (conflictReport s.freeCount (railFailures h.capacityA h.capacityB s.nextEpochSet)) .railOver
          railReportBytes (.pass h)) := by
  rw [judgeHub, fits]

/-- Steps 2 to 4 pass exactly when every reservation fits and conditions (a) to (c) hold under the new values. -/
theorem judgeHub_eq_pass :
    s.judgeHub h = .pass x ↔
      (∀ e, (s.entry e).state ≠ .free → (s.entry e).descriptor.stop ≤ h.cycleLength)
        ∧ (ConditionA s.gapOf s.nextEpochSet ∧ ConditionB s.gapOf h.cycleLength s.nextEpochSet)
        ∧ (ConditionC h.capacityA .a s.nextEpochSet ∧ ConditionC h.capacityB .b s.nextEpochSet) ∧ h = x := by
  rw [← firstTooLong_eq_none]
  cases fits : s.firstTooLong h.cycleLength with
  | some e => simp [judgeHub_span fits]
  | none =>
    rw [judgeHub_of_fits fits, failWithReport_eq_pass, failWithReport_eq_pass, conflictReport_eq_none,
      conflictReport_eq_none, lineFailures_eq_nil, railFailures_eq_nil, Verdict.pass.injEq]
    simp

section fits

variable (fits : s.firstTooLong h.cycleLength = none)
include fits

theorem judgeHub_lineClash
    (clash : ¬ (ConditionA s.gapOf s.nextEpochSet ∧ ConditionB s.gapOf h.cycleLength s.nextEpochSet)) :
    ∃ c, conflictReport s.freeCount (lineFailures s.gapOf h.cycleLength s.nextEpochSet) = some c
      ∧ s.judgeHub h = .refuse .lineClash (reportBytes c) := by
  obtain ⟨c, hc⟩ := exists_conflictReport (free := s.freeCount) (mt lineFailures_eq_nil.1 clash)
  exact ⟨c, hc, by rw [judgeHub_of_fits fits, hc, failWithReport_some]⟩

theorem judgeHub_railOver (a : ConditionA s.gapOf s.nextEpochSet)
    (b : ConditionB s.gapOf h.cycleLength s.nextEpochSet)
    (excess : ¬ (ConditionC h.capacityA .a s.nextEpochSet ∧ ConditionC h.capacityB .b s.nextEpochSet)) :
    ∃ c, conflictReport s.freeCount (railFailures h.capacityA h.capacityB s.nextEpochSet) = some c
      ∧ s.judgeHub h = .refuse .railOver (railReportBytes c) := by
  obtain ⟨c, hc⟩ := exists_conflictReport (free := s.freeCount) (mt railFailures_eq_nil.1 excess)
  refine ⟨c, hc, ?_⟩
  rw [judgeHub_of_fits fits, conflictReport_eq_none.2 (lineFailures_eq_nil.2 ⟨a, b⟩), failWithReport_none, hc,
    failWithReport_some]

end fits

variable {f : List Byte}

theorem judgeSetHub_engineRunning (running : s.engine.state ≠ .stopped) :
    s.judgeSetHub f = .refuse .engineRunning [] := by
  simp [judgeSetHub, running, failWhen_true]

theorem judgeSetHub_badField (stopped : s.engine.state = .stopped) (fields : hubFields f = none) :
    s.judgeSetHub f = .refuse .badField [] := by
  simp [judgeSetHub, stopped, fields, failWhen_false]

theorem judgeSetHub_of_fields (stopped : s.engine.state = .stopped) (fields : hubFields f = some h) :
    s.judgeSetHub f = s.judgeHub h := by
  simp [judgeSetHub, stopped, fields, failWhen_false]

theorem judgeSetHub_eq_pass :
    s.judgeSetHub f = .pass h ↔
      s.engine.state = .stopped ∧ hubFields f = some h
        ∧ (∀ e, (s.entry e).state ≠ .free → (s.entry e).descriptor.stop ≤ h.cycleLength)
        ∧ ConditionA s.gapOf s.nextEpochSet ∧ ConditionB s.gapOf h.cycleLength s.nextEpochSet
        ∧ ConditionC h.capacityA .a s.nextEpochSet ∧ ConditionC h.capacityB .b s.nextEpochSet := by
  by_cases stopped : s.engine.state = .stopped
  · cases fields : hubFields f with
    | none => simp [judgeSetHub_badField stopped fields]
    | some g =>
      rw [judgeSetHub_of_fields stopped fields, judgeHub_eq_pass]
      constructor
      · rintro ⟨fits, ⟨a, b⟩, ⟨railA, railB⟩, rfl⟩
        exact ⟨stopped, rfl, fits, a, b, railA, railB⟩
      · rintro ⟨-, ⟨⟩, fits, a, b, railA, railB⟩
        exact ⟨fits, ⟨a, b⟩, ⟨railA, railB⟩, rfl⟩
  · simp [judgeSetHub_engineRunning stopped, stopped]

end State

/-- Settles O23, by the steps in their order. -/
theorem setHubChecksInOrder : Obligations.SetHubChecksInOrder := by
  refine ⟨fun s f h => State.judgeSetHub_eq_pass, fun s f => ⟨State.judgeSetHub_engineRunning, fun stopped =>
    ⟨State.judgeSetHub_badField stopped, fun h fields => ?_⟩⟩⟩
  rw [State.judgeSetHub_of_fields stopped fields]
  refine ⟨fun e occupied long lowest => ?_, fun fits => ?_⟩
  · exact State.judgeHub_span (State.firstTooLong_eq_some.2 ⟨⟨occupied, long⟩, lowest⟩)
  · have fits := State.firstTooLong_eq_none.2 fits
    exact ⟨State.judgeHub_lineClash fits, State.judgeHub_railOver fits⟩

/-! ### The completion of a SET_HUB (R123, R167, R168) -/

/-- An input whose pending change has been judged against a width: at or above it, the change has qualified (R123). -/
def InputChannel.judged (c : InputChannel) (width : Nat) : InputChannel :=
  match c.timer with
  | none => c
  | some n => if width ≤ n ∧ c.raw ≠ c.filtered then { c with filtered := c.raw, timer := none } else c

namespace InputChannel

variable {c : InputChannel} {width : Nat}

theorem judged_of_reached {n : Nat} (timer : c.timer = some n) (reached : width ≤ n) (changed : c.raw ≠ c.filtered) :
    c.judged width = { c with filtered := c.raw, timer := none } := by
  simp [judged, timer, reached, changed]

theorem judged_of_not_due
    (waits : c.timer = none ∨ c.raw = c.filtered ∨ ∃ n, c.timer = some n ∧ n < width) : c.judged width = c := by
  unfold judged
  split
  · rfl
  · rename_i n timer
    refine if_neg fun ⟨reached, changed⟩ => ?_
    obtain stopped | same | ⟨m, counting, early⟩ := waits
    · simp [timer] at stopped
    · exact changed same
    · rw [timer, Option.some.injEq] at counting
      omega

end InputChannel

namespace State

section resting

variable {s : State} (stopped : s.engine.state = .stopped) (plan : s.plan = none)
include stopped plan

/-- With the engine STOPPED and no plan an edge reaches no window and no cycle. -/
theorem handEdge_of_resting (i : InputIx) : s.handEdge i = s := by
  rw [handEdge_eq, gateEdge_of_no_plan plan, qualifyingEdge_of_ignored (.inr (.inl stopped)), ite_self]

theorem rejudgeInput_of_resting (i : InputIx) :
    s.rejudgeInput i = s.setInput i ((s.input i).judged (s.hub.widths.get i)) := by
  have quiet (x : InputChannel) : (s.setInput i x).handEdge i = s.setInput i x :=
    handEdge_of_resting (s := s.setInput i x) stopped plan i
  have same : s.setInput i (s.input i) = s := by rw [setInput, input, Table.set_get_self]
  unfold rejudgeInput qualify
  rw [quiet]
  cases timer : (s.input i).timer with
  | none => simp [qualificationDue, InputChannel.judged, timer, same]
  | some n =>
    rw [qualificationDue_of_timer timer]
    simp only [InputChannel.judged, timer, Bool.and_eq_true, decide_eq_true_eq]
    split_ifs
    · rfl
    · exact same.symm

/-- Each input of a run without repetition is judged once, against its own width, and nothing else changes. -/
theorem rejudgeInputs_of_resting {is : List InputIx} (distinct : is.Nodup) :
    ∃ inputs, is.foldl rejudgeInput s = { s with inputs := inputs }
      ∧ ∀ j, inputs.get j = if j ∈ is then (s.input j).judged (s.hub.widths.get j) else s.input j := by
  induction is generalizing s with
  | nil => exact ⟨s.inputs, rfl, fun j => rfl⟩
  | cons i is ih =>
    obtain ⟨fresh, distinct⟩ := List.nodup_cons.1 distinct
    rw [List.foldl_cons, rejudgeInput_of_resting stopped plan]
    obtain ⟨inputs, run, read⟩ :=
      ih (s := s.setInput i ((s.input i).judged (s.hub.widths.get i))) stopped plan distinct
    refine ⟨inputs, run, fun j => ?_⟩
    rw [read, setInput_hub]
    by_cases same : j = i
    · subst same
      rw [if_neg fresh, if_pos List.mem_cons_self, input_setInput]
    · rw [input_setInput_ne s _ same]
      simp [same]

end resting

theorem exec_setHubCompletion {s : State} {f : Flight} {v : Verdict HubRecord} (hold : s.hold = none)
    (hf : s.arbiter.executor = some f) (hop : f.op = .setHub v) :
    exec .setHubCompletion s = .next (s.complete f fun t => t.completeSetHub v) := by
  simp [exec, execSetHubCompletion, hf, hop, hold]

/-- A SET_HUB that has passed replaces the record, and judges each input against its new width (R123, R167). -/
theorem complete_setHub_pass {s : State} {f : Flight} {h : HubRecord}
    (attached : s.attachedSession f.session.port = some f.session) (stopped : s.engine.state = .stopped)
    (plan : s.plan = none) :
    ∃ inputs, (s.complete f fun t => t.completeSetHub (.pass h)) = { s.landed f .ok [] with hub := h, inputs := inputs }
      ∧ ∀ i, inputs.get i = (s.input i).judged (h.widths.get i) := by
  obtain ⟨inputs, run, read⟩ :=
    rejudgeInputs_of_resting (s := { s.releaseExecutor with hub := h }) stopped plan (is := allInputs)
      (List.nodup_finRange 8)
  refine ⟨inputs, ?_, fun i => (read i).trans (if_pos (List.mem_finRange i))⟩
  rw [complete_of_attached s (by simp [isAttached, attached]), completeSetHub, run]
  rfl

end State

/-- Settles O24: with the engine STOPPED and no plan a qualification writes its own input alone. -/
theorem setHubCompletionReplacesTheRecord : Obligations.SetHubCompletionReplacesTheRecord := by
  intro s f v hold hf hop
  rw [State.exec_setHubCompletion hold hf hop]
  refine ⟨fun ended => congrArg _ (State.complete_discarded ended), fun attached => ⟨?_, ?_⟩⟩
  · rintro st b rfl
    exact congrArg _ (State.complete_landed attached rfl)
  · rintro h rfl stopped plan
    obtain ⟨inputs, replaced, judged⟩ := State.complete_setHub_pass (h := h) attached stopped plan
    exact ⟨_, congrArg _ replaced, rfl, fun i =>
      ⟨fun c timer reached changed => (judged i).trans (InputChannel.judged_of_reached timer reached changed),
        fun waits => (judged i).trans (InputChannel.judged_of_not_due waits)⟩⟩

/-! ### READ_HUB (R169, R170) -/

section readHub

variable {f : List Byte}

theorem flagOfByte_eq_none {b : Byte} (large : 1 < b.toNat) : flagOfByte b = none := by
  unfold flagOfByte
  split
  · omega
  · omega
  · rfl

theorem clearFlagFields_of_ne_nil (present : f ≠ []) : clearFlagFields f = flagOfByte (byteAt f 0) :=
  if_neg (by simpa using present)

theorem clearFlagFields_eq_none (bad : f = [] ∨ 1 < (byteAt f 0).toNat) : clearFlagFields f = none := by
  by_cases empty : f = []
  · rw [empty]
    rfl
  · rw [clearFlagFields_of_ne_nil empty, flagOfByte_eq_none (bad.resolve_left empty)]

theorem clearFlagFields_zero (present : f ≠ []) (zero : (byteAt f 0).toNat = 0) : clearFlagFields f = some false := by
  rw [clearFlagFields_of_ne_nil present, flagOfByte, zero]
  rfl

theorem clearFlagFields_one (present : f ≠ []) (one : (byteAt f 0).toNat = 1) : clearFlagFields f = some true := by
  rw [clearFlagFields_of_ne_nil present, flagOfByte, one]
  rfl

namespace State

variable (s : State) (p q : Port)

/-- The taking of a request is no part of what the status shows of a port. -/
theorem portStatusBytes_take : (s.take p).portStatusBytes q = s.portStatusBytes q := by
  have record : ((s.take p).session q).attachment.isSome = (s.session q).attachment.isSome
      ∧ ((s.take p).session q).number = (s.session q).number := by
    by_cases same : q = p
    · rw [same, session_take]
      exact ⟨restartLease_isSome _, restartLease_number _⟩
    · have other : (s.take p).session q = s.session q := Table.get_set_ne _ _ same
      rw [other]
      exact ⟨rfl, rfl⟩
  obtain ⟨attached, number⟩ := record
  rw [portStatusBytes, attached, number, hasVote_take, portStatusBytes]

theorem malformed_take : ((s.take p).link q).malformed = (s.link q).malformed := by
  have link : (s.take p).link q = if q = p then { s.link p with requests := (s.link p).requests.tail } else s.link q :=
    Table.get_set ..
  rw [link]
  split_ifs with same
  · rw [same]
  · rfl

theorem hubStatusBytes_take : (s.take p).hubStatusBytes q = s.hubStatusBytes q := by
  have ports : (s.take p).portStatusBytes = s.portStatusBytes := funext fun q => portStatusBytes_take s p q
  rw [hubStatusBytes, ports, malformed_take]
  rfl

end State

variable {s : State} {me : SessionId}

theorem readHubAct_badField (fields : clearFlagFields f = none) :
    readHubAct s me f = { state := s, status := .badField, payload := [] } := by
  rw [readHubAct, fields]

theorem readHubAct_of_fields {clear : Bool} (fields : clearFlagFields f = some clear) :
    readHubAct s me f =
      { state := if clear then s.clearCounters else s, status := .ok, payload := s.hubStatusBytes me.port } := by
  rw [readHubAct, fields]

end readHub

/-- Settles O25, by the clear flag: the status is of the state after the taking, which it does not show. -/
theorem readHubReportsAndClears : Obligations.ReadHubReportsAndClears := by
  intro s p r taken attached
  have mine := s.attachedSession_of_attachment attached
  refine ⟨fun bad => ?_, fun present zero => ?_, fun present one => ?_⟩ <;> refine congrArg Host.Outcome.next ?_
  · exact State.answerRequest_of_unchanged taken mine (readHubAct_badField (clearFlagFields_eq_none bad))
  · refine State.answerRequest_of_unchanged taken mine ?_
    rw [readHubAct_of_fields (clearFlagFields_zero present zero), State.hubStatusBytes_take]
    rfl
  · rw [State.answerRequest_attached taken mine, readHubAct_of_fields (clearFlagFields_one present one),
      State.hubStatusBytes_take, ← State.reply_take]
    rfl

end Sys2Proof.Machine
end

