-- ==== Sys2Proof/Proofs/Resets.lean ====
section
/-! SUPPORT. The resets: the part from the start of a reset on (R127, R171, R172, R174), the commands that find it held, and
the release (R172). -/

namespace Sys2Proof.Machine

/-! ### The start of a reset (R127, R172, R174) -/

namespace State

variable (s : State) (cause : ResetCause)

/-- Besides the levels, the conditioner and the marker of the reset, what a reset starts with is the links and the
notices. -/
theorem holdReset_only :
    TransferOnly { s.stopConditioner with hold := some cause, driven := .fill 16 .low } (s.holdReset cause) :=
  foldl_related TransferOnly.rfl' (fun _ _ _ => .trans)
    (fun t p => (TransferOnly.setLink t p _).trans (.setQueue ..)) allPorts _

theorem holdReset_driven : (s.holdReset cause).driven = .fill 16 .low := by rw [holdReset_only]

theorem holdReset_inputs : (s.holdReset cause).inputs = s.inputs.map fun c => { c with timer := none } := by
  rw [holdReset_only, stopConditioner_inputs]

theorem holdReset_hub : (s.holdReset cause).hub = { s.hub with widths := HubRecord.afterReset.widths } := by
  rw [holdReset_only, stopConditioner_hub]

theorem holdReset_link (p : Port) : (s.holdReset cause).link p = { s.link p with frame := .idle } :=
  (Table.get_foldl links (fun _ => ()) (fun _ k => { k with frame := .idle }) (fun _ _ => rfl) (fun _ _ => rfl)
    nodup_allPorts _ p).trans (if_pos (mem_allPorts p))

theorem holdReset_queue (p : Port) : (s.holdReset cause).queue p = { s.queue p with inTransfer := none } :=
  (Table.get_foldl notices (fun _ => ()) (fun _ q => { q with inTransfer := none }) (fun _ _ => rfl) (fun _ _ => rfl)
    nodup_allPorts _ p).trans (if_pos (mem_allPorts p))

/-- What a reset starts with: the outputs, the conditioner, the frames and the transfers, and nothing else (log 9). -/
theorem holdReset_spec :
    s.holdReset cause =
        { s with
          hold := some cause, driven := (s.holdReset cause).driven, links := (s.holdReset cause).links
          notices := (s.holdReset cause).notices, inputs := (s.holdReset cause).inputs
          hub := { s.hub with widths := (s.holdReset cause).hub.widths } }
      ∧ (∀ l, (s.holdReset cause).driven.get l = .low)
      ∧ (∀ i, (s.holdReset cause).input i = { s.input i with timer := none } ∧ (s.holdReset cause).hub.widths.get i = 4)
      ∧ (∀ p, (s.holdReset cause).link p = { s.link p with frame := .idle }
          ∧ (s.holdReset cause).queue p = { s.queue p with inTransfer := none }) := by
  refine ⟨?_, fun l => ?_, fun i => ⟨?_, ?_⟩, fun p => ⟨s.holdReset_link cause p, s.holdReset_queue cause p⟩⟩
  · rw [holdReset_driven, holdReset_inputs, holdReset_hub]
    exact s.holdReset_only cause
  · rw [holdReset_driven, Table.get_fill]
  · rw [input, holdReset_inputs, Table.get_map]
    rfl
  · rw [holdReset_hub]
    exact Table.get_fill ..

end State

/-! ### Commands while the part is held (R172, R174) -/

section held

variable {s : State} (held : s.hold.isSome = true)
include held

namespace State

theorem takenRequest_of_held (p : Port) (kind : RequestKind) : s.takenRequest p kind = none := by
  rw [takenRequest, s.nextTaking_of_hold held]
  rfl

theorem answerRequest_of_held (p : Port) (kind : RequestKind) (act : State → SessionId → List Byte → Answer) :
    s.answerRequest p kind act = s := s.answerRequest_of_none (takenRequest_of_held held p kind)

theorem flyRequest_of_held (p : Port) (kind : RequestKind) (judge : State → SessionId → List Byte → FlightOp) :
    s.flyRequest p kind judge = s := by
  rw [flyRequest, takenRequest_of_held held]

theorem runFrame_of_held (p : Port) (mine : FrameState → Bool) (part : FramePart) (bits : Nat) :
    s.runFrame p mine part bits = s := if_pos (.inl held)

end State

/-- An event that waits for the release. -/
theorem ite_isNone_and_of_held (due : Bool) (t : State) :
    (if (s.hold.isNone && due) = true then .next t else .next s : Host.Outcome State Fault Refusal) = .next s :=
  if_neg (by simp [Option.isSome_iff_ne_none.1 held])

/-- A completion, or a raw change, that waits for the release. -/
theorem ite_isNone_of_held (t : State) :
    (if s.hold.isNone = true then .next t else .next s : Host.Outcome State Fault Refusal) = .next s :=
  if_neg (by simp [Option.isSome_iff_ne_none.1 held])

theorem execAttach_of_held (p : Port) : execAttach p s = .next s := by
  rw [execAttach, State.takenRequest_of_held held]

theorem execBadKind_of_held (p : Port) : execBadKind p s = .next s := by
  rw [execBadKind, State.takenRequest_of_held held]

theorem execCleanupClaim_of_held (p : Port) : execCleanupClaim p s = .next s := by
  rw [execCleanupClaim, s.nextTaking_of_hold held]
  rfl

/-- Whatever flight the executor holds, no completion is taken. -/
theorem completions_of_held :
    execAddCompletion s = .next s ∧ execReplaceCompletion s = .next s ∧ execSetHubCompletion s = .next s := by
  unfold execAddCompletion execReplaceCompletion execSetHubCompletion
  cases s.arbiter.executor with
  | none => exact ⟨rfl, rfl, rfl⟩
  | some f =>
    dsimp only
    cases f.op with
    | add v => exact ⟨ite_isNone_of_held held _, rfl, rfl⟩
    | replace v => exact ⟨rfl, ite_isNone_of_held held _, rfl⟩
    | setHub v => exact ⟨rfl, rfl, ite_isNone_of_held held _⟩

theorem burstTimes_of_held (g : EngineIx) :
    execHighTimeElapses g s = .next s ∧ execLowTimeElapses g s = .next s := by
  unfold execHighTimeElapses execLowTimeElapses
  cases (s.burst g).job with
  | none => exact ⟨rfl, rfl⟩
  | some j => exact ⟨ite_isNone_and_of_held held _ _, ite_isNone_and_of_held held _ _⟩

theorem execRstnAsserted_of_held : execRstnAsserted s = .next s := by
  obtain ⟨cause, hold⟩ := Option.isSome_iff_exists.1 held
  rw [execRstnAsserted, hold]

/-- While the part is held every command but POWER_ON_RESET and the release changes nothing (log 4). -/
theorem exec_of_held {c : Instr} (power : c ≠ .powerOnReset)
    (release : ∀ inputs inh cs, c ≠ .resetRelease inputs inh cs) :
    exec c s = .next s := by
  obtain ⟨addCompletion, replaceCompletion, setHubCompletion⟩ := completions_of_held held
  cases c with
  | attach p => exact execAttach_of_held held p
  | badKind p => exact execBadKind_of_held held p
  | cleanupClaim p => exact execCleanupClaim_of_held held p
  | detach p | renew p | setNotices p | withdraw p | query p | scan p | claimLine p | releaseLine p | lineInfo p | run p
  | halt p | readHub p => exact congrArg _ (State.answerRequest_of_held held p _ _)
  | add p | replace p | setHub p => exact congrArg _ (State.flyRequest_of_held held p _ _)
  | addCompletion => exact addCompletion
  | replaceCompletion => exact replaceCompletion
  | setHubCompletion => exact setHubCompletion
  | submit p | collect p | fetch p | status p | abandon p | malformedFrame p =>
    exact congrArg _ (State.runFrame_of_held held p _ _ _)
  | rawChange i => exact ite_isNone_of_held held _
  | cycleEnd | spacingEnd | inhAsserted | inhReleased | qualification | windowBoundaryEvent | leaseExpiry
  | csnRiseAfterReset => exact ite_isNone_and_of_held held _ _
  | highTimeElapses g => exact (burstTimes_of_held held g).1
  | lowTimeElapses g => exact (burstTimes_of_held held g).2
  | powerOnReset => exact absurd rfl power
  | rstnAsserted => exact execRstnAsserted_of_held held
  | resetRelease inputs inh cs => exact absurd rfl (release inputs inh cs)

end held

/-- Settles O49: a reset starts with the levels, the conditioner, the frames and the transfers, and what finds the part held
waits for the release. -/
theorem resetHoldsThePart : Obligations.ResetHoldsThePart := by
  intro s
  refine ⟨⟨_, rfl, s.holdReset_spec .power⟩, fun free => ⟨_, ?_, s.holdReset_spec .pin⟩, fun held =>
    ⟨execRstnAsserted_of_held held, fun c => exec_of_held held⟩⟩
  have arm : exec .rstnAsserted s = execRstnAsserted s := rfl
  rw [arm, execRstnAsserted, free]

/-! ### The release (R172) -/

theorem exec_resetRelease_of_hold {s : State} {cause : ResetCause} (hold : s.hold = some cause) (inputs : BitVec 8)
    (inh : Bool) (cs : BitVec 4) :
    exec (.resetRelease inputs inh cs) s = .next (.afterRelease cause inputs inh cs s.pending s.freeCount) := by
  have arm : exec (.resetRelease inputs inh cs) s = execResetRelease inputs inh cs s := rfl
  rw [arm, execResetRelease, hold]

theorem exec_resetRelease_of_free {s : State} (free : s.hold = none) (inputs : BitVec 8) (inh : Bool) (cs : BitVec 4) :
    exec (.resetRelease inputs inh cs) s = .next s := by
  have arm : exec (.resetRelease inputs inh cs) s = execResetRelease inputs inh cs s := rfl
  rw [arm, execResetRelease, free]

/-- Settles O50: the release leaves the state after a reset, whose records are read one by one. -/
theorem resetReleaseSetsTheResetValues : Obligations.ResetReleaseSetsTheResetValues := by
  refine ⟨fun s inputs inh cs => ⟨fun cause hold => ?_, fun free => exec_resetRelease_of_free free inputs inh cs⟩,
    fun cause inputs inh cs cmds n => ?_⟩
  · refine ⟨_, exec_resetRelease_of_hold hold inputs inh cs, rfl, rfl, rfl, rfl, fun i => ?_, fun p => ?_, _, _, rfl⟩
    · exact State.afterRelease_input ..
    · rw [State.afterRelease_link]
      rfl
  · refine ⟨State.afterRelease_entry _ _ _ _ _ _, fun l => ⟨State.afterRelease_line .., ?_, ?_⟩, rfl, rfl,
      State.afterRelease_burst _ _ _ _ _ _, ⟨rfl, rfl, rfl, rfl, rfl, rfl, Table.get_fill _⟩, rfl,
      State.afterRelease_session _ _ _ _ _ _, State.afterRelease_queue _ _ _ _ _ _, fun p => ?_, rfl, rfl, afterReset_claims⟩
    · exact State.afterRelease_holding ..
    · exact State.afterRelease_driven ..
    · rw [State.afterRelease_link]
      exact ⟨rfl, rfl, rfl, rfl, rfl⟩

end Sys2Proof.Machine
end

