-- ==== Sys2Proof/Proofs/LinksStanding.lean ====
section
/-! SUPPORT. What leaves every link and the executor as they stand. A request is answered, or a flight completes, with such an act
between the taking and the reply, so that the links are those of `State.answered` or `State.landed`. -/

namespace Sys2Proof.Machine

/-- The links and the executor are as they were. -/
structure LinksStand (s t : State) : Prop where
  links : t.links = s.links
  executor : t.arbiter.executor = s.arbiter.executor

namespace LinksStand

theorem rfl' (s : State) : LinksStand s s := ⟨rfl, rfl⟩

theorem trans {s t u : State} (h : LinksStand s t) (k : LinksStand t u) : LinksStand s u :=
  ⟨k.links.trans h.links, k.executor.trans h.executor⟩

theorem foldl {α : Type} {f : State → α → State} (h : ∀ s a, LinksStand s (f s a)) (as : List α) (s : State) :
    LinksStand s (as.foldl f s) := foldl_related rfl' (fun _ _ _ => trans) h as s

theorem of_scheduleOnly {s t : State} (only : ScheduleOnly s t) : LinksStand s t :=
  ⟨only.links, congrArg (·.executor) only.arbiter⟩

theorem of_reservesOnly {s t : State} (only : ReservesOnly s t) : LinksStand s t := ⟨by rw [only], by rw [only]⟩

/-- Two states with the same links and executor answer alike. -/
theorem reply {s t : State} (h : LinksStand s t) (p : Port) (r : Request) (st : Status) (b : List Byte) :
    LinksStand (s.reply p r st b) (t.reply p r st b) :=
  ⟨by simp only [State.reply, State.setLink, State.link, h.links], h.executor⟩

variable (s : State)

/-! ### Sessions and votes -/

theorem endSession (p : Port) (expired : Bool) : LinksStand s (s.endSession p expired) :=
  ⟨State.endSession_links expired, by rw [State.endSession_arbiter]⟩

theorem setSession (p : Port) (x : Session) : LinksStand s (s.setSession p x) := ⟨rfl, rfl⟩

theorem dropVote (p : Port) (x : Session) : LinksStand s (s.dropVote p x) :=
  (setSession s p x).trans (.of_scheduleOnly (s.dropVote_only p x))

theorem runAct (me : SessionId) (f : List Byte) : LinksStand s (runAct s me f).state := by
  unfold Machine.runAct
  dsimp only
  split
  · exact setSession ..
  · exact (setSession ..).trans (.of_scheduleOnly (.firstVote _))

theorem setNoticesAct (me : SessionId) (f : List Byte) : LinksStand s (setNoticesAct s me f).state := by
  unfold Machine.setNoticesAct
  split <;> exact ⟨rfl, rfl⟩

/-! ### Inputs and the hub record -/

theorem readHubAct (me : SessionId) (f : List Byte) : LinksStand s (readHubAct s me f).state := by
  unfold Machine.readHubAct
  split
  · exact rfl' s
  · dsimp only
    split <;> exact ⟨rfl, rfl⟩

theorem setInput (i : InputIx) (x : InputChannel) : LinksStand s (s.setInput i x) := ⟨rfl, rfl⟩

theorem qualify (i : InputIx) : LinksStand s (s.qualify i) :=
  (setInput ..).trans (.of_scheduleOnly (s.qualify_only i))

theorem rawChange (i : InputIx) : LinksStand s (s.rawChange i) := by
  unfold State.rawChange
  dsimp only
  split
  · exact (setInput ..).trans (qualify ..)
  · split <;> exact ⟨rfl, rfl⟩

theorem rejudgeInput (i : InputIx) : LinksStand s (s.rejudgeInput i) := by
  unfold State.rejudgeInput
  split
  · exact qualify s i
  · exact rfl' s

theorem completeSetHub (v : Verdict HubRecord) : LinksStand s (s.completeSetHub v).state := by
  cases v with
  | refuse st b => exact rfl' s
  | pass hub =>
    have replaced : LinksStand s { s with hub := hub } := ⟨rfl, rfl⟩
    unfold State.completeSetHub
    dsimp only
    exact replaced.trans (foldl rejudgeInput allInputs _)

end LinksStand

end Sys2Proof.Machine
end

