-- ==== Sys2Proof/Proofs/CreditSteps.lean ====
section
/-! SUPPORT. `CreditsAccounted` through the takings, the flights, the frames, the resets and the commands, and so every step
(R177, R178, R179, R184, R185). -/

namespace Sys2Proof.Machine

/-! ### One link -/

/-- The request that a flight holds in service at port p (R184). -/
def servedAt (flight : Option Flight) (p : Port) : Option Request :=
  flight.bind fun f => if f.session.port = p then some f.request else none

theorem servedAt_self (f : Flight) : servedAt (some f) f.session.port = some f.request := by simp [servedAt]

theorem servedAt_ne {f : Flight} {p : Port} (other : p ≠ f.session.port) : servedAt (some f) p = none := by
  simp [servedAt, other.symm]

/-- `CreditsAccounted` of one link, with this request in service. -/
structure Link.Accounted (k : Link) (served : Option Request) : Prop where
  sum : k.credits + k.requests.length + k.serving + k.replies.length = 4
  service : k.inService = served

theorem creditsAccounted_iff {s : State} :
    CreditsAccounted s ↔ ∀ p, (s.link p).Accounted (servedAt s.arbiter.executor p) :=
  ⟨fun h p => ⟨h.sum p, h.service p⟩, fun h => ⟨fun p => (h p).sum, fun p => (h p).service⟩⟩

namespace Link.Accounted

variable {k : Link} {served : Option Request} (h : k.Accounted served)
include h

/-- The frame, the record of the bytes and the malformed-frame counter hold no credit. -/
theorem withFrame (f : FrameState) (miso : List Byte) (malformed : BitVec 8) :
    ({ k with frame := f, miso := miso, malformed := malformed } : Link).Accounted served := ⟨h.sum, h.service⟩

/-- A request that joins for a credit (R177). -/
theorem submitted (r : Request) (credit : 0 < k.credits) :
    ({ k with requests := k.requests ++ [r], credits := k.credits - 1 } : Link).Accounted served := by
  refine ⟨?_, h.service⟩
  have sum := h.sum
  simp only [serving, List.length_append, List.length_singleton] at sum ⊢
  omega

/-- A reply that leaves and returns its credit (R179). -/
theorem collected {r : Reply} {rest : List Reply} (replies : k.replies = r :: rest) :
    ({ k with replies := rest, credits := k.credits + 1 } : Link).Accounted served := by
  refine ⟨?_, h.service⟩
  have sum := h.sum
  simp only [replies, List.length_cons, serving] at sum ⊢
  omega

/-- The queues cleared, with their credits returned (R141). -/
theorem abandoned : k.abandoned.Accounted served := by
  refine ⟨?_, h.service⟩
  have sum := h.sum
  show k.credits + k.requests.length + k.replies.length + 0 + k.serving + 0 = 4
  omega

/-- The request in service answered (R185). -/
theorem landed {r : Request} (held : served = some r) (reply : Reply) :
    ({ k with inService := none, replies := k.replies ++ [reply] } : Link).Accounted none := by
  refine ⟨?_, rfl⟩
  have sum := h.sum
  simp only [serving, h.service, held, Option.isSome_some, Option.isSome_none, if_true, Bool.false_eq_true, if_false,
    List.length_append, List.length_singleton] at sum ⊢
  omega

/-- The reply of the request in service discarded, and its credit returned (R51). -/
theorem discarded {r : Request} (held : served = some r) :
    ({ k with inService := none, credits := k.credits + 1 } : Link).Accounted none := by
  refine ⟨?_, rfl⟩
  have sum := h.sum
  simp only [serving, h.service, held, Option.isSome_some, Option.isSome_none, if_true, Bool.false_eq_true, if_false]
    at sum ⊢
  omega

end Link.Accounted

namespace Link.Accounted

variable {k : Link} (h : k.Accounted none) {r : Request} {rest : List Request} (queued : k.requests = r :: rest)
include h queued

/-- The oldest request answered at its taking: its reply has its credit. -/
theorem answered (st : Status) (b : List Byte) : (k.answered r st b).Accounted none := by
  refine ⟨?_, rfl⟩
  have sum := h.sum
  simp only [serving, h.service, queued, Link.answered, Option.isSome_none, Bool.false_eq_true, if_false, List.tail_cons,
    List.length_cons, List.length_append, List.length_nil] at sum ⊢
  omega

/-- The oldest request in service: it keeps its credit. -/
theorem inFlight : ({ k with requests := k.requests.tail, inService := some r } : Link).Accounted (some r) := by
  refine ⟨?_, rfl⟩
  have sum := h.sum
  simp only [serving, h.service, queued, Option.isSome_some, Option.isSome_none, if_true, Bool.false_eq_true, if_false,
    List.tail_cons, List.length_cons] at sum ⊢
  omega

end Link.Accounted

namespace CreditsAccounted

variable {s : State} (h : CreditsAccounted s)
include h

theorem link (p : Port) : (s.link p).Accounted (servedAt s.arbiter.executor p) := creditsAccounted_iff.1 h p

theorem of_stand {t : State} (stand : LinksStand s t) : CreditsAccounted t := by
  refine creditsAccounted_iff.2 fun p => ?_
  rw [State.link, stand.links, stand.executor]
  exact h.link p

/-- One link and the executor written: the other links serve as they did. -/
theorem of_set {t : State} {p : Port} {x : Link} (links : t.links = s.links.set p x)
    (hx : x.Accounted (servedAt t.arbiter.executor p))
    (others : ∀ q, q ≠ p → servedAt t.arbiter.executor q = servedAt s.arbiter.executor q) : CreditsAccounted t := by
  refine creditsAccounted_iff.2 fun q => ?_
  by_cases hq : q = p
  · rw [hq, State.link, links, Table.get_set_self]
    exact hx
  · rw [State.link, links, Table.get_set_ne _ _ hq, others q hq]
    exact h.link q

theorem setLink (p : Port) {x : Link} (hx : x.Accounted (servedAt s.arbiter.executor p)) :
    CreditsAccounted (s.setLink p x) := h.of_set rfl hx fun _ _ => rfl

/-! ### Takings and flights -/

section taken

variable {p : Port} {kind : RequestKind} {r : Request} (taken : s.takenRequest p kind = some r)
include taken

theorem answered (st : Status) (b : List Byte) : CreditsAccounted (s.answered p r st b) := by
  obtain ⟨-, ⟨rest, queued⟩, -, free, -⟩ := s.takenRequest_spec taken
  have unserved := h.link p
  rw [free] at unserved
  refine h.of_set rfl ?_ fun _ _ => rfl
  show Link.Accounted _ (servedAt s.arbiter.executor p)
  rw [free]
  exact unserved.answered queued st b

/-- A request taken, an act that leaves the links, and the reply. -/
theorem reply_take {t : State} (stand : LinksStand (s.take p) t) (st : Status) (b : List Byte) :
    CreditsAccounted (t.reply p r st b) :=
  (s.reply_take p r st b ▸ h.answered taken st b : CreditsAccounted ((s.take p).reply p r st b)).of_stand
    (stand.reply ..)

theorem inFlight {me : SessionId} (port : me.port = p) (op : FlightOp) : CreditsAccounted (s.inFlight p me r op) := by
  obtain ⟨-, ⟨rest, queued⟩, -, free, -⟩ := s.takenRequest_spec taken
  subst port
  have unserved := h.link me.port
  rw [free] at unserved
  refine h.of_set rfl ?_ fun q other => ?_
  · exact servedAt_self ⟨me, r, op, 0⟩ ▸ unserved.inFlight queued
  · rw [free]
    exact servedAt_ne other

end taken

theorem answerRequest {p : Port} {kind : RequestKind} {act : State → SessionId → List Byte → Answer}
    (acts : ∀ t me f, LinksStand t (act t me f).state) : CreditsAccounted (s.answerRequest p kind act) := by
  unfold State.answerRequest
  split
  · exact h
  · rename_i r taken
    split
    · exact h.reply_take taken (.rfl' _) ..
    · exact h.reply_take taken (acts ..) ..

theorem flyRequest {p : Port} {kind : RequestKind} {judge : State → SessionId → List Byte → FlightOp} :
    CreditsAccounted (s.flyRequest p kind judge) := by
  unfold State.flyRequest
  split
  · exact h
  · rename_i r taken
    split
    · exact h.reply_take taken (.rfl' _) ..
    · rename_i me found
      rw [State.beginFlight_take]
      exact h.inFlight taken (State.port_of_attachedSession found) _

section completes

variable {f : Flight} (flight : s.arbiter.executor = some f)
include flight

/-- The request of the flight is in service at its port, and at no other. -/
theorem serves : (s.link f.session.port).Accounted (some f.request) := by
  have served := h.link f.session.port
  rwa [flight, servedAt_self] at served

theorem landed (st : Status) (b : List Byte) : CreditsAccounted (s.landed f st b) := by
  refine h.of_set rfl ((h.serves flight).landed rfl _) fun q other => ?_
  rw [flight, servedAt_ne other]
  rfl

theorem discarded : CreditsAccounted (s.discarded f) := by
  refine h.of_set rfl ((h.serves flight).discarded rfl) fun q other => ?_
  rw [flight, servedAt_ne other]
  rfl

theorem complete {act : State → Answer} (acts : ∀ t, LinksStand t (act t).state) :
    CreditsAccounted (s.complete f act) := by
  unfold State.complete
  split
  · exact (h.landed flight _ _).of_stand ((acts s.releaseExecutor).reply ..)
  · exact h.discarded flight

end completes

/-! ### Frames -/

/-- What writes no more of a link than its frame, the record of the bytes and the malformed-frame counter. -/
theorem setFrame (p : Port) (f : FrameState) (miso : List Byte) (malformed : BitVec 8) :
    CreditsAccounted (s.setLink p { s.link p with frame := f, miso := miso, malformed := malformed }) :=
  h.setLink p ((h.link p).withFrame ..)

theorem setQueue (p : Port) (q : NoticeQueue) : CreditsAccounted (s.setQueue p q) := h.of_stand ⟨rfl, rfl⟩

theorem emit (p : Port) (b : Byte) (f : FrameState) : CreditsAccounted (s.emit p b f) := h.setFrame ..

theorem creditCheck (p : Port) (r : Request) : CreditsAccounted (s.creditCheck p r) := by
  unfold State.creditCheck
  split
  · exact h.setLink p ((h.link p).submitted r ‹_›)
  · exact h

theorem takeSubmitByte (p : Port) (received : List Byte) (b : Byte) :
    CreditsAccounted (s.takeSubmitByte p received b) := by
  unfold State.takeSubmitByte
  split
  · exact h.emit ..
  · exact h.emit ..
  · exact (h.creditCheck ..).emit ..

theorem removeReply (p : Port) : CreditsAccounted (s.removeReply p) := by
  unfold State.removeReply
  split
  · exact h
  · exact h.setLink p ((h.link p).collected ‹_›)

theorem shiftReply (p : Port) (rest : List Byte) : CreditsAccounted (s.shiftReply p rest) := by
  unfold State.shiftReply
  split
  · exact h.emit ..
  · exact (h.emit ..).removeReply p
  · exact h.emit ..

theorem shiftPosition (p : Port) (rest : List Byte) : CreditsAccounted (s.shiftPosition p rest) := by
  unfold State.shiftPosition
  split
  · exact h
  · exact (h.emit ..).setQueue ..
  · exact h.emit ..

theorem shiftFetch (p : Port) (count : Option Byte) (rest : List Byte) :
    CreditsAccounted (s.shiftFetch p count rest) := by
  unfold State.shiftFetch
  split
  · exact h.emit ..
  · exact (h.setQueue ..).shiftPosition ..
  · exact h.shiftPosition ..

theorem shiftStatus (p : Port) (k : Nat) (l : BitVec 16) : CreditsAccounted (s.shiftStatus p k l) := by
  unfold State.shiftStatus
  split <;> exact h.emit ..

theorem exchange (p : Port) (b : Byte) : CreditsAccounted (State.exchange p s b) := by
  unfold State.exchange
  split
  · exact h.setFrame ..
  · exact h.takeSubmitByte ..
  · exact h.emit ..
  · exact h.shiftReply ..
  · exact h.shiftFetch ..
  · exact h.shiftStatus ..
  · exact h.emit ..
  · exact h.emit ..
  · exact h.emit ..
  · exact h
  · exact h

theorem fallCs (p : Port) : CreditsAccounted (s.fallCs p) := by
  unfold State.fallCs
  split
  · exact h.setFrame ..
  · exact h

/-- A matching ABANDON: the end of the session leaves the links, and the credits of the cleared queues return (R141). -/
theorem abandonPort (p : Port) : CreditsAccounted (s.abandonPort p) := by
  have ended : CreditsAccounted (if (s.session p).attachment.isSome then s.endSession p false else s) := by
    split
    · exact h.of_stand (.endSession s p false)
    · exact h
  exact (ended.setQueue p _).setLink p (ended.link p).abandoned

theorem raiseCs (p : Port) (bits : Nat) : CreditsAccounted (s.raiseCs p bits) := by
  have idle : CreditsAccounted (s.setLink p { s.link p with frame := .idle }) := h.setFrame ..
  unfold State.raiseCs
  dsimp only
  split
  · exact idle.setQueue ..
  · unfold State.judgeAbandon
    split
    · exact idle.abandonPort p
    · exact idle.setFrame ..
  · split
    · exact idle.setFrame ..
    · exact idle

theorem runFrame {p : Port} (mine : FrameState → Bool) (part : FramePart) (bits : Nat) :
    CreditsAccounted (s.runFrame p mine part bits) := by
  have passed : CreditsAccounted (part.bytes.foldl (State.exchange p) (s.fallCs p)) :=
    List.foldlRecOn part.bytes _ (h.fallCs p) fun _ ht b _ => ht.exchange p b
  unfold State.runFrame
  dsimp only
  split_ifs
  · exact h
  · exact passed.raiseCs p bits
  · exact passed
  · exact h

/-! ### Resets and the clock -/

theorem holdReset (cause : ResetCause) : CreditsAccounted (s.holdReset cause) := by
  refine creditsAccounted_iff.2 fun p => ?_
  rw [s.holdReset_link, s.holdReset_only]
  exact (h.link p).withFrame ..

/-- A tick counts in the flight, and leaves its port and its request. -/
theorem tick : CreditsAccounted s.tick := by
  refine creditsAccounted_iff.2 fun p => ?_
  have served : servedAt s.tick.arbiter.executor p = servedAt s.arbiter.executor p := by
    rw [State.tick]
    dsimp only
    cases s.arbiter.executor <;> rfl
  rw [served]
  exact h.link p

/-! ### Commands and steps -/

theorem execAttach (p : Port) : Leads CreditsAccounted (execAttach p s) := by
  unfold Machine.execAttach
  split
  · exact h
  · rename_i r taken
    rw [leads_next]
    unfold State.attachTaken
    split
    · exact h.reply_take taken (.rfl' _) ..
    · split
      · exact h.reply_take taken (.rfl' _) ..
      · exact h.reply_take (t := (s.take p).attachSession ..) taken ⟨rfl, rfl⟩ ..

theorem execBadKind (p : Port) : Leads CreditsAccounted (execBadKind p s) := by
  unfold Machine.execBadKind
  split
  · exact h
  · exact h.reply_take ‹_› (.rfl' _) ..

theorem execCleanupClaim (p : Port) : Leads CreditsAccounted (execCleanupClaim p s) := by
  have claimed : CreditsAccounted (s.takeClaim p) := h.of_stand ⟨rfl, rfl⟩
  unfold Machine.execCleanupClaim
  split
  · split
    · exact claimed.of_stand (.of_reservesOnly (.cleanup ..))
    · exact h
  · exact h

theorem execAddCompletion : Leads CreditsAccounted (execAddCompletion s) := by
  unfold Machine.execAddCompletion
  split
  · split
    · exact leads_ite (fun _ => h.complete ‹_› fun _ => .of_reservesOnly (.completeAdd ..)) h
    · exact h
    · exact h
  · exact h

theorem execReplaceCompletion : Leads CreditsAccounted (execReplaceCompletion s) := by
  unfold Machine.execReplaceCompletion
  split
  · split
    · exact leads_ite (fun _ => h.complete ‹_› fun _ => .of_reservesOnly (.completeReplace ..)) h
    · exact h
    · exact h
  · exact h

theorem execSetHubCompletion : Leads CreditsAccounted (execSetHubCompletion s) := by
  unfold Machine.execSetHubCompletion
  split
  · split
    · exact leads_ite (fun _ => h.complete ‹_› fun t => .completeSetHub t _) h
    · exact h
    · exact h
  · exact h

theorem execHighTimeElapses (g : EngineIx) : Leads CreditsAccounted (execHighTimeElapses g s) := by
  unfold Machine.execHighTimeElapses
  split
  · exact leads_ite (fun _ => h.of_stand ⟨rfl, rfl⟩) h
  · exact h

theorem execLowTimeElapses (g : EngineIx) : Leads CreditsAccounted (execLowTimeElapses g s) := by
  unfold Machine.execLowTimeElapses
  split
  · exact leads_ite (fun _ => h.of_stand ⟨rfl, rfl⟩) h
  · exact h

theorem execRstnAsserted : Leads CreditsAccounted (execRstnAsserted s) := by
  unfold Machine.execRstnAsserted
  split
  · exact h.holdReset .pin
  · exact h

theorem execResetRelease (inputs : BitVec 8) (inh : Bool) (cs : BitVec 4) :
    Leads CreditsAccounted (execResetRelease inputs inh cs s) := by
  unfold Machine.execResetRelease
  split
  · exact h
  · exact creditsAccounted_afterRelease ..

/-- Every command keeps the credits accounted. -/
theorem exec (c : Instr) : Leads CreditsAccounted (exec c s) := by
  cases c with
  | attach p => exact h.execAttach p
  | detach p => exact h.answerRequest fun t me _ => .endSession t me.port false
  | renew p => exact h.answerRequest fun t _ _ => .rfl' t
  | setNotices p => exact h.answerRequest .setNoticesAct
  | add p => exact h.flyRequest
  | addCompletion => exact h.execAddCompletion
  | withdraw p => exact h.answerRequest fun _ _ _ => .of_reservesOnly (.withdrawAct ..)
  | replace p => exact h.flyRequest
  | replaceCompletion => exact h.execReplaceCompletion
  | query p => exact h.answerRequest fun t me f => by rw [queryAct_state]; exact .rfl' t
  | scan p => exact h.answerRequest fun t me f => by rw [scanAct_state]; exact .rfl' t
  | claimLine p => exact h.answerRequest fun _ _ _ => .of_reservesOnly (.claimLineAct ..)
  | releaseLine p => exact h.answerRequest fun _ _ _ => .of_reservesOnly (.releaseLineAct ..)
  | lineInfo p => exact h.answerRequest fun t me f => by rw [lineInfoAct_state]; exact .rfl' t
  | run p => exact h.answerRequest .runAct
  | halt p => exact h.answerRequest fun t me _ => .dropVote t me.port _
  | setHub p => exact h.flyRequest
  | setHubCompletion => exact h.execSetHubCompletion
  | readHub p => exact h.answerRequest .readHubAct
  | badKind p => exact h.execBadKind p
  | cleanupClaim p => exact h.execCleanupClaim p
  | submit p mosi => exact h.runFrame _ mosi 0
  | collect p bytes rise => exact h.runFrame _ _ 0
  | fetch p bytes rise => exact h.runFrame _ _ 0
  | status p bytes rise => exact h.runFrame _ _ 0
  | abandon p mosi => exact h.runFrame _ mosi 0
  | malformedFrame p mosi bits => exact h.runFrame _ mosi bits
  | cycleEnd => exact leads_ite (fun _ => h.of_stand (.of_scheduleOnly (.cycleEnd s))) h
  | spacingEnd => exact leads_ite (fun _ => h.of_stand (.of_scheduleOnly (.spacingEnd s))) h
  | inhAsserted => exact leads_ite (fun _ => h.of_stand (.of_scheduleOnly (.inhAssert s))) h
  | inhReleased => exact leads_ite (fun _ => h.of_stand (.of_scheduleOnly (.inhRelease s))) h
  | rawChange i => exact leads_ite (fun _ => h.of_stand (.rawChange s i)) h
  | qualification i => exact leads_ite (fun _ => h.of_stand (.qualify s i)) h
  | windowBoundaryEvent => exact leads_ite (fun _ => h.of_stand (.of_scheduleOnly (.windowBoundary s))) h
  | highTimeElapses g => exact h.execHighTimeElapses g
  | lowTimeElapses g => exact h.execLowTimeElapses g
  | leaseExpiry p => exact leads_ite (fun _ => h.of_stand (.endSession s p true)) h
  | powerOnReset => exact h.holdReset .power
  | rstnAsserted => exact h.execRstnAsserted
  | resetRelease inputs inh cs => exact h.execResetRelease inputs inh cs
  | csnRiseAfterReset p => exact leads_ite (fun _ => h.setFrame ..) h

end CreditsAccounted

/-- Settles O52: a credit goes with a request from the queue into service and into its reply, and returns when the reply is
collected or discarded or the queues are cleared; nothing else writes a link's queues. -/
theorem stepKeepsCreditsAccounted : Obligations.StepKeepsCreditsAccounted := fun _ _ =>
  step_keeps (fun _ _ h => h.of_stand ⟨rfl, rfl⟩) (fun _ _ h => h.of_stand ⟨rfl, rfl⟩) (fun _ _ _ h => h.tick)
    fun c _ h => h.exec c

end Sys2Proof.Machine
end

