-- ==== Sys2Proof/Proofs/ArbiterTurn.lean ====
section
/-! SUPPORT. What the arbiter takes next: the claim of the lowest port, else the request of the first port in the turn of the
ports (R183). -/

namespace Sys2Proof.Machine

/-- A search of the ports in ascending order finds the lowest one that passes the test. -/
theorem find_allPorts_eq_some {test : Port → Bool} {p : Port} :
    allPorts.find? test = some p ↔ test p = true ∧ ∀ q < p, test q = false := by
  rw [allPorts, ← Fin.find?_eq_find?_finRange, Fin.find?_eq_some_iff]

/-- The turn of the ports: the places after the last one served, counted from 1 to 4. -/
theorem portsAfter_eq (p : Port) : portsAfter p = (List.range' 1 4).map fun d => p + Fin.ofNat 4 d := by
  revert p
  decide

/-- A search in the turn of the ports finds the first place that passes the test. -/
theorem find_portsAfter {test : Port → Bool} {p : Port} {d : Nat} (from1 : 1 ≤ d) (to4 : d ≤ 4)
    (passes : test (p + Fin.ofNat 4 d) = true) (before : ∀ c, 1 ≤ c → c < d → test (p + Fin.ofNat 4 c) = false) :
    (portsAfter p).find? test = some (p + Fin.ofNat 4 d) := by
  have found : (List.range' 1 4).find? (test ∘ fun d => p + Fin.ofNat 4 d) = some d := by
    refine List.find?_range'_eq_some.2 ⟨passes, List.mem_range'_1.2 ⟨from1, by omega⟩, fun c hc hd => ?_⟩
    exact Bool.not_eq_true' _ ▸ before c hc hd
  rw [portsAfter_eq, List.find?_map, found]
  rfl

namespace State

variable {s : State} (free : s.arbiter.executor = none) (hold : s.hold = none)
include free hold

theorem nextTaking_of_claim {p : Port} (claimed : (s.arbiter.claims.get p).isSome = true)
    (lowest : ∀ q < p, s.arbiter.claims.get q = none) : s.nextTaking = some (.claim p) := by
  have found : (allPorts.find? fun q => (s.arbiter.claims.get q).isSome) = some p :=
    find_allPorts_eq_some.2 ⟨claimed, fun q hq => by rw [lowest q hq]; rfl⟩
  simp [nextTaking, free, hold, found]

theorem nextTaking_of_unclaimed (unclaimed : ∀ p, s.arbiter.claims.get p = none) :
    s.nextTaking =
      ((portsAfter s.arbiter.lastServed).find? fun p => !(s.link p).requests.isEmpty).map Taking.request := by
  have found : (allPorts.find? fun q => (s.arbiter.claims.get q).isSome) = none :=
    List.find?_eq_none.2 fun q _ => by simp [unclaimed q]
  simp [nextTaking, free, hold, found]

omit free hold in
/-- The oldest request of the port that is next. -/
theorem takenRequest_of_next {p : Port} {r : Request} {rest : List Request} (next : s.nextTaking = some (.request p))
    (queued : (s.link p).requests = r :: rest) : s.takenRequest p (kindOfCode r.code) = some r := by
  simp [takenRequest, next, queued]

end State

/-- Settles O4: a held executor or a reset, then the claims in ascending order, then the requests in the turn of the ports. -/
theorem arbiterTakesClaimsThenPortsInTurn : Obligations.ArbiterTakesClaimsThenPortsInTurn := by
  intro s
  refine ⟨fun held => held.elim s.nextTaking_of_held s.nextTaking_of_hold, fun free hold =>
    ⟨fun p claimed lowest => State.nextTaking_of_claim free hold claimed lowest, fun unclaimed => ⟨?_, fun empty => ?_⟩⟩⟩
  · intro d from1 to4 before r rest queued
    have found := find_portsAfter (test := fun p => !(s.link p).requests.isEmpty) (p := s.arbiter.lastServed) from1 to4
      (by rw [queued]; rfl) fun c hc hd => by rw [before c hc hd]; rfl
    have next : s.nextTaking = some (.request (s.arbiter.lastServed + Fin.ofNat 4 d)) := by
      rw [State.nextTaking_of_unclaimed free hold unclaimed, found]
      rfl
    exact ⟨next, State.takenRequest_of_next next queued⟩
  · rw [State.nextTaking_of_unclaimed free hold unclaimed, List.find?_eq_none.2 fun p _ => by simp [empty p]]
    rfl

end Sys2Proof.Machine
end

