-- ==== Sys2Proof/Proofs/RecordLayouts.lean ====
section
/-! SUPPORT. Where the bytes of each record stand (R187, 10.8): quantities, the hub record and the hub status, descriptors and
entry records, replies, and the codes. -/

namespace Sys2Proof.Machine

/-! ### Quantities -/

@[simp] theorem bytesOf_length (n v : Nat) : (bytesOf n v).length = n := by
  induction n generalizing v with
  | zero => rfl
  | succ n ih => rw [bytesOf, List.length_cons, ih]

/-- Least significant byte first. -/
theorem bytesOf_getD {n i : Nat} (v : Nat) (h : i < n) : (bytesOf n v).getD i 0 = BitVec.ofNat 8 (v / 256 ^ i) := by
  induction i generalizing n v with
  | zero =>
    obtain ⟨n, rfl⟩ := Nat.exists_eq_add_one.2 h
    rw [bytesOf, List.getD_cons_zero, Nat.pow_zero, Nat.div_one]
  | succ i ih =>
    obtain ⟨n, rfl⟩ := Nat.exists_eq_add_one.2 (Nat.zero_lt_of_lt h)
    rw [bytesOf, List.getD_cons_succ, ih _ (by omega), Nat.div_div_eq_div_mul, Nat.pow_succ']

/-! ### The hub record and the hub status (R169) -/

theorem hubBytes_length (h : HubRecord) : (hubBytes h).length = 16 := by
  simp [hubBytes, h.widths.size_eq]

theorem hubBytes_width (h : HubRecord) (i : InputIx) : (hubBytes h).getD (8 + i.val) 0 = BitVec.ofNat 8 (h.widths.get i) := by
  have size : h.widths.cells.length = 8 := h.widths.size_eq
  have tail : (hubBytes h).getD (8 + i.val) 0 = (h.widths.cells.map (BitVec.ofNat 8)).getD i.val 0 :=
    byteAt_append_add (n := 8) rfl i.val
  rw [tail]
  simp [Table.get, size]

namespace State

variable (s : State) (p : Port)

/-- The 12 bytes of the hub status before the hub record. -/
def statusBeforeHub : List Byte :=
  bytesOf 2 identityCode ++ [revision, resetCauseByte s.resetCause, engineStateByte s.engine.state]
    ++ bytesOf 4 s.engine.reportedNumber.toNat
    ++ [BitVec.ofNat 8 (superIndex s.engine.reportedNumber), flagByte s.engine.restart, flagByte s.engine.inhAsserted]

/-- The 26 bytes of the hub status after the hub record. -/
def statusAfterHub : List Byte :=
  allPorts.flatMap s.portStatusBytes
    ++ [BitVec.ofNat 8 (s.countEntries fun x => x.state.isFree), BitVec.ofNat 8 (s.countEntries fun x => x.state.isPending),
        BitVec.ofNat 8 (s.countEntries fun x => x.state.isActive),
        BitVec.ofNat 8 (s.countEntries fun x => x.state.isRetiring)]
    ++ [BitVec.ofNat 8 s.peaks.a, BitVec.ofNat 8 s.peaks.b]
    ++ [BitVec.ofNat 8 (weigh (decide (s.burst 0 ≠ .idle)) 1 + weigh (decide (s.burst 1 ≠ .idle)) 2)]
    ++ bytesOf 2 s.engine.earlyEdges.toNat ++ bytesOf 2 s.engine.inhibitEpisodes.toNat ++ bytesOf 2 s.engine.cuts.toNat
    ++ [(s.link p).malformed]

theorem hubStatusBytes_eq : s.hubStatusBytes p = s.statusBeforeHub ++ (hubBytes s.hub ++ s.statusAfterHub p) := by
  simp only [hubStatusBytes, statusBeforeHub, statusAfterHub, List.append_assoc]

theorem statusBeforeHub_length : s.statusBeforeHub.length = 12 := rfl

theorem statusAfterHub_length : (s.statusAfterHub p).length = 26 := rfl

theorem hubStatusBytes_length : (s.hubStatusBytes p).length = 54 := by
  rw [hubStatusBytes_eq, List.length_append, List.length_append, statusBeforeHub_length, hubBytes_length,
    statusAfterHub_length]

theorem hubStatusBytes_hub : ((s.hubStatusBytes p).drop 12).take 16 = hubBytes s.hub := by
  rw [hubStatusBytes_eq, List.drop_left' s.statusBeforeHub_length, List.take_left' (hubBytes_length _)]

theorem hubStatusBytes_drop (i : Nat) : (s.hubStatusBytes p).drop (28 + i) = (s.statusAfterHub p).drop i := by
  have before : (s.statusBeforeHub ++ hubBytes s.hub).length = 28 := by
    rw [List.length_append, statusBeforeHub_length, hubBytes_length]
  rw [hubStatusBytes_eq, ← List.append_assoc, ← List.drop_drop, List.drop_left' before]

theorem hubStatusBytes_getD (i : Nat) : (s.hubStatusBytes p).getD (28 + i) 0 = (s.statusAfterHub p).getD i 0 := by
  have before : (s.statusBeforeHub ++ hubBytes s.hub).length = 28 := by
    rw [List.length_append, statusBeforeHub_length, hubBytes_length]
  rw [hubStatusBytes_eq, ← List.append_assoc]
  exact byteAt_append_add before i

/-- The table has 48 entries, so a byte holds the count of those in one state. -/
theorem toNat_countEntries (test : Entry → Bool) :
    (BitVec.ofNat 8 (s.countEntries test)).toNat = (allEntries.filter fun e => test (s.entry e)).length := by
  have most : s.countEntries test ≤ 48 := (List.length_filter_le _ _).trans_eq (List.length_finRange ..)
  rw [BitVec.toNat_ofNat, Nat.mod_eq_of_lt (by omega), countEntries]

theorem hubStatusBytes_port (q : Port) :
    ((s.hubStatusBytes p).drop (28 + 3 * q.val)).take 3 =
      [flagByte (s.session q).attachment.isSome, (s.session q).number, flagByte (s.hasVote q)] := by
  rw [hubStatusBytes_drop]
  match q with
  | 0 | 1 | 2 | 3 => rfl

theorem hubStatusBytes_counts :
    (((s.hubStatusBytes p).drop 40).take 4).map BitVec.toNat =
      [((allEntries.filter fun e => (s.entry e).state.isFree).length),
       ((allEntries.filter fun e => (s.entry e).state.isPending).length),
       ((allEntries.filter fun e => (s.entry e).state.isActive).length),
       ((allEntries.filter fun e => (s.entry e).state.isRetiring).length)] := by
  rw [s.hubStatusBytes_drop p 12]
  change [(BitVec.ofNat 8 (s.countEntries _)).toNat, (BitVec.ofNat 8 (s.countEntries _)).toNat,
    (BitVec.ofNat 8 (s.countEntries _)).toNat, (BitVec.ofNat 8 (s.countEntries _)).toNat] = _
  simp only [toNat_countEntries]

theorem bits_of_weights (first second : Bool) :
    let busy : Byte := BitVec.ofNat 8 (weigh first 1 + weigh second 2)
    busy.getLsbD 0 = first ∧ busy.getLsbD 1 = second := by
  revert first second
  decide

theorem hubStatusBytes_busy :
    ((s.hubStatusBytes p).getD 46 0).getLsbD 0 = decide (s.burst 0 ≠ .idle)
      ∧ ((s.hubStatusBytes p).getD 46 0).getLsbD 1 = decide (s.burst 1 ≠ .idle) := by
  rw [s.hubStatusBytes_getD p 18]
  exact bits_of_weights ..

end State

/-! ### Descriptors and entry records -/

theorem gateIsHigh_eq (gate : Option Gate) :
    gateIsHigh gate = decide (∃ i, gate = some { input := i, level := .high }) := by
  rw [Bool.eq_iff_iff, decide_eq_true_iff]
  cases gate with
  | none => simp [gateIsHigh]
  | some g =>
    obtain ⟨input, level⟩ := g
    simp [gateIsHigh]

/-- A descriptor's flags byte has its four flags and no reserved bit; the other bytes stand as listed. -/
theorem descriptorBytes_layout (d : Descriptor) : ∃ flags : Byte,
    flags.toNat < 16 ∧ flags.getLsbD 0 = d.notify ∧ flags.getLsbD 1 = d.gate.isSome
    ∧ flags.getLsbD 2 = decide (∃ i, d.gate = some { input := i, level := .high }) ∧ flags.getLsbD 3 = d.isBurst
    ∧ descriptorBytes d =
        [BitVec.ofNat 8 d.line.val, if d.isBurst then 1 else 0] ++ bytesOf 3 d.start ++ bytesOf 3 d.duration
          ++ [BitVec.ofNat 8 d.period.ticks, d.pattern, railByte d.rail, BitVec.ofNat 8 d.draw, flags]
          ++ bytesOf 2 d.label.toNat ++ [BitVec.ofNat 8 ((d.gate.map fun g => g.input.val).getD 0)]
          ++ burstBytes d.kind := by
  obtain ⟨range, notify, gated, high, burst⟩ := flags_of_weights d.notify d.gate.isSome (gateIsHigh d.gate) d.isBurst
  refine ⟨descriptorFlags d, range, notify, gated, high.trans (gateIsHigh_eq _), burst, ?_⟩
  have kind : kindByte d.kind = if d.isBurst then 1 else 0 := by
    rw [Descriptor.isBurst]
    cases d.kind <;> rfl
  unfold descriptorBytes
  rw [kind]
  cases d.gate <;> rfl

theorem ownerBytes_length (o : Option SessionId) : (ownerBytes o).length = 2 := by
  cases o <;> rfl

section entryRecord

variable (e : EntryIx) (x : Entry)

/-- The 5 bytes of an entry record before its descriptor. -/
def entryRecordHead : List Byte :=
  [BitVec.ofNat 8 e.val, BitVec.ofNat 8 x.generation.toNat, entryStateByte x.state] ++ ownerBytes x.state.owner

theorem entryRecordBytes_eq :
    entryRecordBytes e x =
      entryRecordHead e x ++ (descriptorBytes x.descriptor ++ (bytesOf 2 x.fireCount.toNat ++ [entryReasonByte x.state])) := by
  simp [entryRecordBytes, entryRecordHead, handleBytes]

theorem entryRecordHead_length : (entryRecordHead e x).length = 5 := by
  rw [entryRecordHead, List.length_append, ownerBytes_length]
  rfl

theorem entryRecordBytes_length : (entryRecordBytes e x).length = 29 := by
  rw [entryRecordBytes_eq, List.length_append, List.length_append, entryRecordHead_length, descriptorBytes_length]
  rfl

theorem entryRecordBytes_head : (entryRecordBytes e x).take 5 = entryRecordHead e x := by
  rw [entryRecordBytes_eq, List.take_left' (entryRecordHead_length e x)]

theorem entryRecordBytes_descriptor : ((entryRecordBytes e x).drop 5).take 21 = descriptorBytes x.descriptor := by
  rw [entryRecordBytes_eq, List.drop_left' (entryRecordHead_length e x), List.take_left' (descriptorBytes_length _)]

theorem entryRecordBytes_tail :
    (entryRecordBytes e x).drop 26 = bytesOf 2 x.fireCount.toNat ++ [entryReasonByte x.state] := by
  have before : (entryRecordHead e x ++ descriptorBytes x.descriptor).length = 26 := by
    rw [List.length_append, entryRecordHead_length, descriptorBytes_length]
  rw [entryRecordBytes_eq, ← List.append_assoc, List.drop_left' before]

end entryRecord

/-! ### Replies and the codes (10.8) -/

theorem collectBytes_eq (r : Reply) :
    collectBytes r = BitVec.ofNat 8 (3 + r.payload.length) :: r.tag :: r.code :: statusCode r.status :: r.payload := by
  rw [collectBytes, replyBytes, List.length_cons, List.length_cons, List.length_cons, Nat.add_comm 3]

theorem kindOfCode_unknown (c : Byte)
    (other : c ∉ [(0x01 : Byte), 0x02, 0x03, 0x04, 0x10, 0x11, 0x12, 0x13, 0x14, 0x20, 0x21, 0x22, 0x30, 0x31, 0x40, 0x41]) :
    kindOfCode c = .unknown := by
  unfold kindOfCode
  split
  case h_17 => rfl
  all_goals
    rename_i code
    exact absurd other (by simp [← BitVec.toNat_inj, code])

/-- Settles O26: the hub status and an entry record are read as the blocks that they are written of; a notice record of each kind
is computed, with the zeros that fill it. -/
theorem layoutsOfRecords : Obligations.LayoutsOfRecords := by
  refine ⟨fun s p => ?status,
    ⟨fun e x => ⟨entryRecordBytes_length e x, descriptorBytes_length _, entryRecordBytes_head e x,
        entryRecordBytes_descriptor e x, entryRecordBytes_tail e x⟩,
      descriptorBytes_layout, ⟨rfl, fun _ => rfl⟩, fun h => ⟨hubBytes_length h, rfl, hubBytes_width h⟩,
      ⟨rfl, fun _ => rfl, fun _ => ⟨rfl, rfl⟩⟩, collectBytes_eq⟩,
    fun q h label n pulses => ?notices, ?codes⟩
  case status =>
    obtain ⟨first, second⟩ := s.hubStatusBytes_busy p
    refine ⟨s.hubStatusBytes_length p, ?_, ?_, s.hubStatusBytes_hub p, s.hubStatusBytes_port p, s.hubStatusBytes_counts p,
      congrArg (·.take 2) (s.hubStatusBytes_drop p 16), first, second, congrArg (·.take 6) (s.hubStatusBytes_drop p 19),
      s.hubStatusBytes_getD p 25⟩
    · rw [State.hubStatusBytes_eq]
      rfl
    · rw [State.hubStatusBytes_eq]
      rfl
  case notices =>
    exact ⟨fun _ _ _ _ _ => rfl, fun _ _ _ => rfl, fun _ => rfl, rfl, fun _ => ⟨rfl, rfl⟩, fun _ => rfl, fun _ => rfl,
      fun _ => rfl, fun _ => rfl⟩
  case codes =>
    exact ⟨fun n v => ⟨bytesOf_length n v, fun i hi => bytesOf_getD v hi⟩, rfl, ⟨rfl, kindOfCode_unknown⟩, rfl,
      fun _ _ => ⟨rfl, rfl⟩, rfl, rfl, rfl, rfl, rfl, rfl, rfl, rfl, fun _ => rfl⟩

end Sys2Proof.Machine
end

