-- ==== Sys2Proof/Proofs/FrameParts.lean ====
section
/-! SUPPORT. A part of a frame, from before its code or gone on with: what its bytes do after the code, and the rise of CSn, or a
part that follows (R174 to R176, log 6). -/

namespace Sys2Proof.Machine

/-- A frame that ends here, after this many bits of a further byte, without an effect: an answered SUBMIT, a COLLECT, a STATUS,
or no frame at all (R174). -/
def FrameState.endsQuietly (bits : Nat) : FrameState → Prop
  | .collect _ | .status _ _ | .answered _ => True
  | .opened _ => bits = 0
  | _ => False

namespace State

/-! ### The port within a frame -/

/-- The state with port p in frame f, with these bytes shifted out. -/
def atFrame (s : State) (p : Port) (f : FrameState) (miso : List Byte) : State :=
  s.setLink p { s.link p with frame := f, miso := miso }

section atFrame

variable (s : State) (p : Port) (f : FrameState) (miso : List Byte)

@[simp] theorem atFrame_link : (s.atFrame p f miso).link p = { s.link p with frame := f, miso := miso } :=
  link_setLink ..

theorem atFrame_self {f : FrameState} (frame : (s.link p).frame = f) : s.atFrame p f (s.link p).miso = s := by
  subst frame
  exact s.setLink_link p

theorem shifted_atFrame (g : FrameState) (out : List Byte) :
    (s.atFrame p f miso).shifted p g out = s.atFrame p g (miso ++ out) := by
  rw [shifted, atFrame_link]
  exact setLink_setLink ..

theorem atFrame_setLink (x : Link) :
    (s.setLink p x).atFrame p f miso = s.setLink p { x with frame := f, miso := miso } := by
  rw [atFrame, link_setLink, setLink_setLink]

theorem setLink_atFrame (x : Link) : (s.atFrame p f miso).setLink p x = s.setLink p x := setLink_setLink ..

theorem emit_atFrame (b : Byte) (g : FrameState) : (s.atFrame p f miso).emit p b g = s.atFrame p g (miso ++ [b]) := by
  rw [emit, atFrame_link]
  exact setLink_setLink ..

/-- The byte that is the frame code (R175). -/
theorem exchange_code (st code : Byte) :
    State.exchange p (s.atFrame p (.opened st) miso) code = s.atFrame p (s.frameOfCode p code) [st] := by
  have reads : (s.atFrame p (.opened st) miso).frameOfCode p code = s.frameOfCode p code := by
    simp only [frameOfCode, collectFirst, fetchFirst, atFrame_link]
    rfl
  rw [exchange, atFrame_link]
  dsimp only
  rw [reads]
  exact setLink_setLink ..

/-- The rise of CSn at the end of a frame that ends without an effect. -/
theorem raiseCs_atFrame (bits : Nat)
    (quiet : f.endsQuietly bits) : (s.atFrame p f miso).raiseCs p bits = s.atFrame p .idle miso :=
  s.raiseCs_quiet p { s.link p with frame := f, miso := miso } bits quiet

/-- The rise of CSn at the end of a frame that is malformed for its form (R176). -/
theorem raiseCs_atFrame_malformed (bits : Nat) (malformed : f.endsMalformed bits = true) :
    (s.atFrame p f miso).raiseCs p bits =
      s.setLink p
        { s.link p with frame := .idle, miso := miso, malformed := saturatingInc (s.link p).malformed } :=
  s.raiseCs_malformed p { s.link p with frame := f, miso := miso } bits malformed

end atFrame

section code

variable (s : State) (p : Port)

theorem frameOfCode_submit : s.frameOfCode p 0x51 = .submit [] := rfl

theorem frameOfCode_collect : s.frameOfCode p 0x52 = s.collectFirst p := rfl

theorem frameOfCode_status : s.frameOfCode p 0x54 = .status 0 0 := rfl

theorem frameOfCode_abandon : s.frameOfCode p 0x5A = .abandon none := rfl

theorem frameOfCode_unknown {code : Byte} (other : code ∉ [(0x51 : Byte), 0x52, 0x53, 0x54, 0x5A]) :
    s.frameOfCode p code = .unknown := by
  simp only [List.mem_cons, List.not_mem_nil, or_false, not_or] at other
  obtain ⟨submit, collect, fetch, status, abandon⟩ := other
  simp only [frameOfCode, submit, collect, fetch, status, abandon, if_false]

theorem collectFirst_nil (empty : (s.link p).replies = []) : s.collectFirst p = .collect [] := by
  rw [collectFirst, empty]

theorem collectFirst_cons {r : Reply} {rest : List Reply} (replies : (s.link p).replies = r :: rest) :
    s.collectFirst p = .collect (collectBytes r) := by
  rw [collectFirst, replies]

end code

/-! ### A part of a frame -/

/-- What a part does in state s once CSn has fallen and the frame code, if it is in the part, has passed: u is the state then, and
these bytes are still to come. -/
def partFrom (s u : State) (p : Port) (mine : FrameState → Bool) (more : List Byte) (rise : Bool) (bits : Nat) : State :=
  let t := more.foldl (State.exchange p) u
  if mine (t.link p).frame then if rise then t.raiseCs p bits else t else s

section part

variable {s : State} {p : Port} (mine : FrameState → Bool) (more : List Byte) (rise : Bool) (bits : Nat)

theorem runFrame_open {st : Byte} (before : s.beforeCode p st) :
    s.runFrame p mine ⟨more, rise⟩ bits =
      s.partFrom (s.atFrame p (.opened st) (s.link p).miso) p mine more rise bits :=
  s.runFrame_of_beforeCode p before mine ⟨more, rise⟩ bits

theorem runFrame_code {st : Byte} (before : s.beforeCode p st) (code : Byte) :
    s.runFrame p mine ⟨code :: more, rise⟩ bits =
      s.partFrom (s.atFrame p (s.frameOfCode p code) [st]) p mine more rise bits := by
  rw [runFrame_open mine (code :: more) rise bits before, partFrom, List.foldl_cons, exchange_code, partFrom]

theorem runFrame_on {f : FrameState} (hold : s.hold = none) (frame : (s.link p).frame = f) (begun : f ≠ .idle)
    (heard : f ≠ .ignoring) :
    s.runFrame p mine ⟨more, rise⟩ bits =
      s.partFrom (s.atFrame p f (s.link p).miso) p mine more rise bits := by
  rw [s.atFrame_self p frame]
  subst frame
  exact s.runFrame_of_inFrame p hold begun heard mine ⟨more, rise⟩ bits

/-- A part whose bytes leave a frame that its row can be. -/
theorem partFrom_of_fits {u t : State} {mine : FrameState → Bool} {more : List Byte}
    (bytes : more.foldl (State.exchange p) u = t) (fits : mine (t.link p).frame = true) :
    s.partFrom u p mine more rise bits = if rise then t.raiseCs p bits else t := by
  rw [partFrom, bytes]
  exact if_pos fits

/-- A part whose bytes leave a frame that its row cannot be (log 4). -/
theorem partFrom_of_not_fits {u : State} {mine : FrameState → Bool} {more : List Byte}
    (other : mine ((more.foldl (State.exchange p) u).link p).frame = false) :
    s.partFrom u p mine more rise bits = s := by
  rw [partFrom]
  exact if_neg (by simp [other])

/-- A part after which the frame goes on, or ends without an effect. -/
theorem partFrom_quiet {u v : State} {mine : FrameState → Bool} {more : List Byte} {f : FrameState} {miso : List Byte}
    (bytes : more.foldl (State.exchange p) u = v.atFrame p f miso) (fits : mine f = true)
    (quiet : f.endsQuietly bits) :
    s.partFrom u p mine more rise bits = v.atFrame p (if rise then .idle else f) miso := by
  rw [partFrom_of_fits rise bits bytes (by rwa [atFrame_link])]
  cases rise with
  | false => rfl
  | true => exact v.raiseCs_atFrame p f miso bits quiet

/-- A part after which the frame goes on, or ends malformed. -/
theorem partFrom_malformed {u v : State} {mine : FrameState → Bool} {more : List Byte} {f : FrameState} {miso : List Byte}
    (bytes : more.foldl (State.exchange p) u = v.atFrame p f miso) (fits : mine f = true)
    (malformed : f.endsMalformed bits = true) :
    s.partFrom u p mine more rise bits =
      v.setLink p
        { v.link p with
          frame := if rise then .idle else f, miso := miso
          malformed := if rise then saturatingInc (v.link p).malformed else (v.link p).malformed } := by
  rw [partFrom_of_fits rise bits bytes (by rwa [atFrame_link])]
  cases rise with
  | false => rfl
  | true => exact v.raiseCs_atFrame_malformed p f miso bits malformed

end part

end State

end Sys2Proof.Machine
end

