-- ==== Sys2Proof/Proofs/StatusFrames.lean ====
section
/-! SUPPORT. STATUS (R181) and the bits of the port status byte (R175). -/

namespace Sys2Proof.Machine

/-- The flags of a status byte are its bits 7 to 3, and its low three bits hold up to 4 credits. -/
theorem statusByte_of_weights (attached ready notices running losses : Bool) {credits : Nat} (most : credits ≤ 4) :
    let b : Byte := BitVec.ofNat 8
      (weigh attached 128 + weigh ready 64 + weigh notices 32 + weigh running 16 + weigh losses 8 + credits)
    b.getLsbD 7 = attached ∧ b.getLsbD 6 = ready ∧ b.getLsbD 5 = notices ∧ b.getLsbD 4 = running ∧ b.getLsbD 3 = losses
      ∧ b.toNat % 8 = credits := by
  have table : ∀ c : Fin 5, ∀ attached ready notices running losses : Bool,
      let b : Byte := BitVec.ofNat 8
        (weigh attached 128 + weigh ready 64 + weigh notices 32 + weigh running 16 + weigh losses 8 + c.val)
      b.getLsbD 7 = attached ∧ b.getLsbD 6 = ready ∧ b.getLsbD 5 = notices ∧ b.getLsbD 4 = running
        ∧ b.getLsbD 3 = losses ∧ b.toNat % 8 = c.val := by decide
  exact table ⟨credits, by omega⟩ attached ready notices running losses

theorem not_isEmpty_eq {α : Type} (l : List α) [Decidable (l ≠ [])] : (!l.isEmpty) = decide (l ≠ []) := by
  cases l <;> simp

theorem engineRunningFlag_eq (x : EngineState) :
    engineRunningFlag x = decide (x = .running ∨ x = .halting ∨ x = .waiting) := by
  cases x <;> rfl

namespace State

variable {s : State} {p : Port}

theorem statusByte_atFrame (f : FrameState) (miso : List Byte) : (s.atFrame p f miso).statusByte p = s.statusByte p :=
  s.statusByte_setLink p _ rfl rfl

/-- The bytes of a STATUS up to the rise of CSn, from its kth on. -/
theorem partFrom_status (k : Nat) (losses : BitVec 16) (miso more : List Byte) :
    s.partFrom (s.atFrame p (.status k losses) miso) p FrameState.fitsStatus more true 0 =
      s.atFrame p .idle
        (miso ++ (List.range more.length).map fun i =>
          ([s.statusByte p, (s.session p).number]
            ++ bytesOf 2 (if k ≤ 2 then (s.queue p).losses else losses).toNat).getD (k + i) 0) := by
  obtain ⟨k', losses', bytes⟩ := (s.atFrame p (.status k losses) miso).exchanges_status p k losses more (by simp)
  rw [statusByte_atFrame, shifted_atFrame] at bytes
  exact partFrom_quiet true 0 bytes rfl trivial

end State

/-- Settles O46: from each place of the frame its bytes, and the status byte by its weights. -/
theorem statusReadsThePortAndItsByte : Obligations.StatusReadsThePortAndItsByte := by
  refine ⟨?parts, fun s p most => ?byte⟩
  case parts =>
    intro s p n outcome
    refine ⟨fun st before => congrArg Host.Outcome.next ?_, fun k losses hold frame => congrArg Host.Outcome.next ?_⟩
    · rw [List.replicate_succ, State.runFrame_code _ _ _ _ before, State.frameOfCode_status, State.partFrom_status,
        List.length_replicate]
      rfl
    · rw [State.runFrame_on _ _ _ _ hold frame (by simp) (by simp), State.partFrom_status, List.length_replicate]
      rfl
  case byte =>
    obtain ⟨attached, ready, notices, running, losses, credits⟩ := statusByte_of_weights (s.session p).attachment.isSome
      (!(s.link p).replies.isEmpty) (!(s.queue p).records.isEmpty) (engineRunningFlag s.engine.state)
      ((s.queue p).losses != 0) most
    refine ⟨attached, ready.trans (not_isEmpty_eq _), notices.trans (not_isEmpty_eq _), running.trans (engineRunningFlag_eq _),
      losses.trans ?_, credits⟩
    rw [Bool.eq_iff_iff, bne_iff_ne, decide_eq_true_iff, Nat.pos_iff_ne_zero, ne_eq, ne_eq, ← BitVec.toNat_inj]
    rfl

end Sys2Proof.Machine
end

