-- ==== Sys2Proof/Proofs/CollectFrames.lean ====
section
/-! SUPPORT. COLLECT (R179): the bytes of the oldest reply, which leaves with its last byte. -/

namespace Sys2Proof.Machine

namespace State

variable {s : State} {p : Port}

/-- The last byte of the reply in transfer: the reply leaves and its credit returns. -/
theorem exchange_lastReplyByte {r : Reply} {rest : List Reply} {miso : List Byte} (last b : Byte)
    (replies : (s.link p).replies = r :: rest) :
    State.exchange p (s.atFrame p (.collect [last]) miso) b =
      (s.setLink p { s.link p with replies := rest, credits := (s.link p).credits + 1 }).atFrame p (.collect [])
        (miso ++ [last]) := by
  simp [exchange, atFrame, shiftReply, removeReply, emit, replies]

/-- The bytes of a reply and the zeros after it. -/
theorem exchanges_reply {r : Reply} {rest : List Reply} {bytes more miso : List Byte} (nonempty : bytes ≠ [])
    (whole : bytes.length ≤ more.length) (replies : (s.link p).replies = r :: rest) :
    more.foldl (State.exchange p) (s.atFrame p (.collect bytes) miso) =
      (s.setLink p { s.link p with replies := rest, credits := (s.link p).credits + 1 }).atFrame p (.collect [])
        (miso ++ (List.range more.length).map fun i => bytes.getD i 0) := by
  obtain ⟨bytes, last, rfl⟩ := (List.eq_nil_or_concat' bytes).resolve_left nonempty
  obtain ⟨before, b, after, rfl, size⟩ :
      ∃ before b after, more = before ++ b :: after ∧ before.length = bytes.length := by
    have place : bytes.length < more.length := by simpa using whole
    refine ⟨more.take bytes.length, more[bytes.length], more.drop (bytes.length + 1), ?_, by simp; omega⟩
    rw [← List.drop_eq_getElem_cons place, List.take_append_drop]
  have bytes_before := exchanges_collect (s.atFrame p (.collect (bytes ++ [last])) miso) p (bytes ++ [last]) before (by simp)
    (.inr (by simp [size]))
  rw [shifted_atFrame, size, List.drop_left] at bytes_before
  rw [List.foldl_append, bytes_before, List.foldl_cons, exchange_lastReplyByte last b replies,
    exchanges_collect _ p [] after (by simp) (.inl rfl), shifted_atFrame, List.drop_nil]
  refine congrArg _ ?_
  rw [List.length_append, List.length_cons, size, Nat.add_comm after.length, List.range_add, List.range_add]
  simp [Function.comp_def]

end State

/-- Settles O44: a COLLECT whose bytes end before the last of the reply, or come after it, and one whose bytes hold it. -/
theorem collectTakesTheOldestReply : Obligations.CollectTakesTheOldestReply := by
  intro s p n rise outcome
  have shifts {c : Instr} {shifted bytes : List Byte}
      (executed : exec c s = .next
        (s.partFrom (s.atFrame p (.collect bytes) shifted) p FrameState.fitsCollect (List.replicate n 0x52) rise 0)) :
      outcome c shifted bytes := by
    refine ⟨fun short => executed.trans (congrArg _ ?_), fun nonempty whole r rest replies =>
      executed.trans (congrArg _ ?_)⟩
    · have bytes_out := State.exchanges_collect (s.atFrame p (.collect bytes) shifted) p bytes (List.replicate n 0x52) (by simp)
        (by simpa using short)
      rw [State.shifted_atFrame, List.length_replicate] at bytes_out
      exact State.partFrom_quiet rise 0 bytes_out rfl trivial
    · have bytes_out := State.exchanges_reply (more := List.replicate n 0x52) (miso := shifted) nonempty (by simpa using whole)
        replies
      rw [List.length_replicate] at bytes_out
      rw [State.partFrom_quiet rise 0 bytes_out rfl trivial, List.drop_eq_nil_of_le whole, State.atFrame_setLink]
      rfl
  refine ⟨fun st before => ⟨fun empty => shifts ?_, fun r rest replies => shifts ?_⟩, fun bytes hold frame => shifts ?_⟩
  · rw [← s.collectFirst_nil p empty, ← s.frameOfCode_collect, ← State.runFrame_code _ _ _ _ before]
    rfl
  · rw [← s.collectFirst_cons p replies, ← s.frameOfCode_collect, ← State.runFrame_code _ _ _ _ before]
    rfl
  · exact congrArg _ (State.runFrame_on _ _ _ _ hold frame (by simp) (by simp))

end Sys2Proof.Machine
end

