-- ==== Sys2Proof/Proofs/SubmitFrames.lean ====
section
/-! SUPPORT. SUBMIT (R177): the byte that decides it, a bad length or the last of the payload, and the bytes after it. -/

namespace Sys2Proof.Machine

/-! ### What decides a SUBMIT -/

theorem submitShort_nil : SubmitShort [] := .inl rfl

theorem submitShort_cons {n : Byte} {payload : List Byte} :
    SubmitShort (n :: payload) ↔ 2 ≤ n.toNat ∧ n.toNat ≤ 40 ∧ payload.length < n.toNat := by
  refine ⟨fun short => ?_, fun ⟨least, most, more⟩ => .inr ⟨n, payload, rfl, least, most, more⟩⟩
  obtain empty | ⟨m, rest, same, short⟩ := short
  · cases empty
  · obtain ⟨rfl, rfl⟩ := List.cons.inj same
    exact short

/-- A bad length is the first byte of its frame: what came before it is nothing. -/
theorem SubmitShort.eq_nil_of_badLength {received mosi payload : List Byte} {n : Byte} (short : SubmitShort received)
    (bytes : received ++ mosi = n :: payload) (bad : n.toNat < 2 ∨ 40 < n.toNat) : received = [] := by
  obtain _ | ⟨m, rest⟩ := received
  · rfl
  · obtain ⟨rfl, -⟩ := List.cons.inj (List.cons_append ▸ bytes)
    have := submitShort_cons.1 short
    omega

/-- The last payload byte of a complete frame, among the bytes that complete it. -/
theorem SubmitShort.exists_last {received mosi payload : List Byte} {n : Byte} (short : SubmitShort received)
    (bytes : received ++ mosi = n :: payload) (least : 2 ≤ n.toNat) (most : n.toNat ≤ 40)
    (whole : n.toNat ≤ payload.length) :
    ∃ before b after, mosi = before ++ b :: after ∧ SubmitShort (received ++ before)
      ∧ received ++ before ++ [b] = n :: payload.take n.toNat := by
  have start : received.length ≤ n.toNat := by
    obtain _ | ⟨m, rest⟩ := received
    · exact Nat.zero_le _
    · obtain ⟨rfl, -⟩ := List.cons.inj (List.cons_append ▸ bytes)
      have := submitShort_cons.1 short
      simp only [List.length_cons]
      omega
  have size : received.length + mosi.length = payload.length + 1 := by
    rw [← List.length_append, bytes, List.length_cons]
  have place : n.toNat - received.length < mosi.length := by omega
  have upTo (k : Nat) : received ++ mosi.take k = (n :: payload).take (received.length + k) := by
    rw [← bytes, List.take_length_add_append]
  refine ⟨mosi.take (n.toNat - received.length), mosi[n.toNat - received.length],
    mosi.drop (n.toNat - received.length + 1), ?_, ?_, ?_⟩
  · rw [← List.drop_eq_getElem_cons place, List.take_append_drop]
  · rw [upTo, Nat.add_sub_of_le start, show n.toNat = n.toNat - 1 + 1 by omega, List.take_succ_cons, submitShort_cons]
    exact ⟨least, most, by rw [List.length_take]; omega⟩
  · rw [List.append_assoc, ← List.take_succ_eq_append_getElem place, upTo, ← Nat.add_assoc, Nat.add_sub_of_le start,
      List.take_succ_cons]

/-- The result byte in its place, among zeros. -/
theorem result_in_place (zeros more place : Nat) (result : Byte) (received : Nat) (at_place : received + zeros = place) :
    List.replicate zeros 0 ++ (List.range more).map (fun i => if i = 0 then result else 0) =
      (List.range (zeros + more)).map fun i => if received + i = place then result else 0 := by
  subst at_place
  rw [List.range_add, List.map_append, List.map_map]
  congr 1
  · refine (List.eq_replicate_iff.2 ⟨by simp, fun b hb => ?_⟩).symm
    obtain ⟨i, hi, rfl⟩ := List.mem_map.1 hb
    rw [List.mem_range] at hi
    exact if_neg (by omega)
  · simp

namespace State

variable {s : State} {p : Port}

/-- The credit check and the frame, one after the other. -/
theorem emit_creditCheck (r : Request) (f g : FrameState) (miso : List Byte) :
    ((s.atFrame p f miso).creditCheck p r).emit p 0 g = (s.creditCheck p r).atFrame p g (miso ++ [0]) := by
  unfold creditCheck
  rw [atFrame_link]
  dsimp only
  split
  · rw [emit, setLink_atFrame, link_setLink, setLink_setLink, atFrame_setLink]
  · exact emit_atFrame ..

theorem creditCheck_none (r : Request) (credits : (s.link p).credits = 0) : s.creditCheck p r = s :=
  if_neg (by omega)

theorem creditCheck_some (r : Request) (credit : 0 < (s.link p).credits) :
    s.creditCheck p r =
      s.setLink p { s.link p with requests := (s.link p).requests ++ [r], credits := (s.link p).credits - 1 } :=
  if_pos credit

/-- The byte that decides a SUBMIT leaves state v and this result, which is the byte that follows. -/
def Decides (s v : State) (p : Port) (received : List Byte) (b result : Byte) : Prop :=
  ∀ miso, (s.atFrame p (.submit received) miso).takeSubmitByte p received b =
    v.atFrame p (.answered result) (miso ++ [0])

theorem decides_badLength {n : Byte} (bad : n.toNat < 2 ∨ 40 < n.toNat) : Decides s s p [] n 0x02 := fun miso => by
  rw [takeSubmitByte, List.nil_append, submitShape_of_badLength [] bad]
  exact emit_atFrame ..

/-- The last payload byte: the request is of the payload that the length says, whatever follows (R177). -/
theorem decides_complete {received payload : List Byte} {n b : Byte} (least : 2 ≤ n.toNat) (most : n.toNat ≤ 40)
    (whole : n.toNat ≤ payload.length) (bytes : received ++ [b] = n :: payload.take n.toNat) :
    Decides s
      (s.creditCheck p
        { tag := byteAt payload 0, code := byteAt payload 1, fields := (payload.take n.toNat).drop 2 })
      p received b (s.creditResult p) := fun miso => by
  have taken : (payload.take n.toNat).length = n.toNat := by rw [List.length_take]; omega
  have tag : byteAt (payload.take n.toNat) 0 = byteAt payload 0 := by
    simp [byteAt, show 0 < n.toNat by omega]
  have code : byteAt (payload.take n.toNat) 1 = byteAt payload 1 := by
    simp [byteAt, show 1 < n.toNat by omega]
  have result : (s.atFrame p (.submit received) miso).creditResult p = s.creditResult p := by
    rw [creditResult, atFrame_link, creditResult]
  rw [takeSubmitByte, bytes, submitShape_of_complete least most taken.ge]
  dsimp only
  rw [tag, code, List.take_take, Nat.min_self, result, emit_creditCheck]

/-- The bytes of a SUBMIT that is decided within them. -/
theorem exchanges_decided {v : State} {received before after miso : List Byte} {b result : Byte}
    (short : SubmitShort (received ++ before)) (decides : Decides s v p (received ++ before) b result) :
    (before ++ b :: after).foldl (State.exchange p) (s.atFrame p (.submit received) miso) =
      v.atFrame p (.answered (if after = [] then result else 0))
        (miso ++ (List.range (before ++ b :: after).length).map fun i =>
          if received.length + i = received.length + before.length + 1 then result else 0) := by
  have byte (m : List Byte) : State.exchange p (s.atFrame p (.submit (received ++ before)) m) b =
      v.atFrame p (.answered result) (m ++ [0]) := by
    rw [State.exchange, atFrame_link]
    exact decides m
  have size : (before ++ b :: after).length = before.length + 1 + after.length := by
    rw [List.length_append, List.length_cons]
    omega
  rw [size, ← result_in_place _ _ _ result received.length (Nat.add_assoc ..).symm, List.foldl_append,
    exchanges_submit _ p received before (by simp) short, shifted_atFrame, List.foldl_cons, byte,
    exchanges_answered _ p result after (by simp), shifted_atFrame, List.replicate_succ']
  simp only [List.append_assoc]

section parts

variable {received mosi m : List Byte} (rise : Bool)

/-- A part within which its SUBMIT is decided: the result stands in the place after the deciding byte. -/
theorem partFrom_decided {v : State} {before after : List Byte} {b result : Byte} (split : mosi = before ++ b :: after)
    (short : SubmitShort (received ++ before)) (decides : Decides s v p (received ++ before) b result) :
    s.partFrom (s.atFrame p (.submit received) m) p FrameState.fitsSubmit mosi rise 0 =
      v.atFrame p (if rise then .idle else .answered (if after = [] then result else 0))
        (m ++ (List.range mosi.length).map fun i =>
          if received.length + i = received.length + before.length + 1 then result else 0) := by
  rw [split]
  exact partFrom_quiet rise 0 (exchanges_decided short decides) rfl trivial

/-- A part with the last payload byte of its SUBMIT. -/
theorem partFrom_complete {n : Byte} {payload : List Byte} (short : SubmitShort received)
    (bytes : received ++ mosi = n :: payload) (least : 2 ≤ n.toNat) (most : n.toNat ≤ 40)
    (whole : n.toNat ≤ payload.length) :
    s.partFrom (s.atFrame p (.submit received) m) p FrameState.fitsSubmit mosi rise 0 =
      (s.creditCheck p
          { tag := byteAt payload 0, code := byteAt payload 1, fields := (payload.take n.toNat).drop 2 }).atFrame p
        (if rise then .idle else .answered (if payload.length = n.toNat then s.creditResult p else 0))
        (m ++ (List.range mosi.length).map fun i =>
          if received.length + i = n.toNat + 1 then s.creditResult p else 0) := by
  obtain ⟨before, b, after, split, short, last⟩ := short.exists_last bytes least most whole
  have place : received.length + before.length + 1 = n.toNat + 1 := by
    have size := congrArg List.length last
    simp only [List.length_append, List.length_cons, List.length_nil, List.length_take] at size
    omega
  have ends : after = [] ↔ payload.length = n.toNat := by
    have size := congrArg List.length bytes
    rw [split] at size
    simp only [List.length_append, List.length_cons] at size
    rw [← List.length_eq_zero_iff]
    omega
  rw [partFrom_decided rise split short (decides_complete least most whole last)]
  simp only [ends, place]

/-- A part after which its SUBMIT is not decided: it goes on, or was cut short. -/
theorem partFrom_short (still : SubmitShort (received ++ mosi)) :
    s.partFrom (s.atFrame p (.submit received) m) p FrameState.fitsSubmit mosi rise 0 =
      s.setLink p
        { s.link p with
          frame := if rise then .idle else .submit (received ++ mosi), miso := m ++ List.replicate mosi.length 0
          malformed := if rise then saturatingInc (s.link p).malformed else (s.link p).malformed } := by
  have bytes := exchanges_submit (s.atFrame p (.submit received) m) p received mosi (by simp) still
  rw [shifted_atFrame] at bytes
  exact partFrom_malformed rise 0 bytes rfl rfl

end parts

end State

/-- Settles O43: the bytes do not decide the frame, or one among them does, a bad length or the last of the payload, or the frame
was decided before them. -/
theorem submitQueuesForACredit : Obligations.SubmitQueuesForACredit := by
  intro s p mosi rise frame outcome
  have submits {c : Instr} {received m : List Byte} (short : SubmitShort received)
      (executed : exec c s = .next
        (s.partFrom (s.atFrame p (.submit received) m) p FrameState.fitsSubmit mosi rise 0)) :
      outcome c (received ++ mosi) fun place result =>
        m ++ (List.range mosi.length).map fun i => if received.length + i = place then result else 0 := by
    refine ⟨fun still => executed.trans (congrArg _ ?_), fun n payload bytes => ⟨fun bad => executed.trans (congrArg _ ?_),
      fun least most whole credits => executed.trans (congrArg _ ?_),
      fun least most whole credit => executed.trans (congrArg _ ?_)⟩⟩
    · have zeros : (List.range mosi.length).map (fun i => if received.length + i = (received ++ mosi).length then 0 else 0)
          = List.replicate mosi.length (0 : Byte) := by simp
      rw [State.partFrom_short rise still, ← zeros]
      rfl
    · obtain rfl := short.eq_nil_of_badLength bytes bad
      obtain rfl := bytes
      exact State.partFrom_decided (before := []) rise rfl submitShort_nil (State.decides_badLength bad)
    · have result : s.creditResult p = 0x01 := if_neg (by omega)
      rw [State.partFrom_complete rise short bytes least most whole, State.creditCheck_none _ credits, result]
      rfl
    · have result : s.creditResult p = 0x00 := if_pos credit
      rw [State.partFrom_complete rise short bytes least most whole, State.creditCheck_some _ credit, result,
        State.atFrame_setLink, ite_self]
      rfl
  refine ⟨fun st before => ?_, fun received hold inFrame short => ?_, fun result hold inFrame => ?_⟩
  · have submitted := submits (c := .submit p ⟨0x51 :: mosi, rise⟩) (m := [st]) submitShort_nil
      (congrArg _ (State.runFrame_code _ _ _ _ before 0x51))
    simp only [List.length_nil, Nat.zero_add] at submitted
    exact submitted
  · exact submits short (congrArg _ (State.runFrame_on _ _ _ _ hold inFrame (by simp) (by simp)))
  · have bytes_out := State.exchanges_answered (s.atFrame p (.answered result) (s.link p).miso) p result mosi (by simp)
    rw [State.shifted_atFrame] at bytes_out
    refine congrArg _ ((State.runFrame_on _ _ _ _ hold inFrame (by simp) (by simp)).trans ?_)
    exact State.partFrom_quiet rise 0 bytes_out rfl trivial

end Sys2Proof.Machine
end

