-- ==== Sys2Proof/Proofs/MalformedFrames.lean ====
section
/-! SUPPORT. Frames that are malformed by their form (R175, R176), frames without an effect (R174), and a frame in two parts
(log 6). -/

namespace Sys2Proof.Machine

namespace State

variable (s : State) (p : Port) (st : Byte)

/-- The state after the first bytes of a frame that stood before its code. -/
def openedBytes (mosi : List Byte) : State := mosi.foldl (State.exchange p) (s.atFrame p (.opened st) (s.link p).miso)

theorem openedBytes_append (a b : List Byte) :
    s.openedBytes p st (a ++ b) = b.foldl (State.exchange p) (s.openedBytes p st a) := List.foldl_append ..

theorem openedBytes_hold (mosi : List Byte) : (s.openedBytes p st mosi).hold = s.hold := by
  have only : TransferOnly (s.atFrame p (.opened st) (s.link p).miso) (s.openedBytes p st mosi) :=
    foldl_related TransferOnly.rfl' (fun _ _ _ => .trans) (fun t b => .exchange t p b) mosi _
  rw [only]
  rfl

end State

/-! ### The frames of one row -/

/-- The frames that a code begins at port p, within which every later byte stays. -/
structure Row (p : Port) (code : Byte) (within : FrameState → Prop) : Prop where
  code : ∀ s : State, within (s.frameOfCode p code)
  byte : ∀ (s : State) (b : Byte), within (s.link p).frame → within ((State.exchange p s b).link p).frame
  begun : ∀ f, within f → f ≠ .idle ∧ f ≠ .ignoring

namespace Row

variable (p : Port)

theorem submit : Row p 0x51 fun f => (∃ received, f = .submit received) ∨ ∃ result, f = .answered result where
  code _ := .inl ⟨[], rfl⟩
  byte s b h := by
    obtain ⟨-, submitted, answered, -⟩ := s.exchange_frame p b _ rfl
    obtain ⟨received, frame⟩ | ⟨result, frame⟩ := h
    · exact submitted received frame
    · exact .inr ⟨0, answered result frame⟩
  begun f h := by obtain ⟨received, rfl⟩ | ⟨result, rfl⟩ := h <;> simp

theorem collect : Row p 0x52 fun f => ∃ rest, f = .collect rest where
  code s := by
    cases replies : (s.link p).replies with
    | nil => exact ⟨_, s.collectFirst_nil p replies⟩
    | cons r rest => exact ⟨_, s.collectFirst_cons p replies⟩
  byte s b h := by
    obtain ⟨-, -, -, collected, -⟩ := s.exchange_frame p b _ rfl
    obtain ⟨rest, frame⟩ := h
    exact collected rest frame
  begun f h := by obtain ⟨rest, rfl⟩ := h; simp

theorem fetch : Row p 0x53 fun f => ∃ count rest, f = .fetch count rest where
  code _ := ⟨_, _, rfl⟩
  byte s b h := by
    obtain ⟨-, -, -, -, fetched, -⟩ := s.exchange_frame p b _ rfl
    obtain ⟨count, rest, frame⟩ := h
    exact ⟨none, fetched count rest frame⟩
  begun f h := by obtain ⟨count, rest, rfl⟩ := h; simp

theorem status : Row p 0x54 fun f => ∃ k losses, f = .status k losses where
  code _ := ⟨0, 0, rfl⟩
  byte s b h := by
    obtain ⟨-, -, -, -, -, shifted, -⟩ := s.exchange_frame p b _ rfl
    obtain ⟨k, losses, frame⟩ := h
    exact shifted k losses frame
  begun f h := by obtain ⟨k, losses, rfl⟩ := h; simp

theorem abandon : Row p 0x5A fun f => ∃ session, f = .abandon session where
  code _ := ⟨none, rfl⟩
  byte s b h := by
    obtain ⟨-, -, -, -, -, -, abandoned, -⟩ := s.exchange_frame p b _ rfl
    obtain ⟨session, frame⟩ := h
    obtain ⟨byte, received⟩ := abandoned session frame
    exact ⟨some byte, received⟩
  begun f h := by obtain ⟨session, rfl⟩ := h; simp

theorem unknown {code : Byte} (other : code ∉ [(0x51 : Byte), 0x52, 0x53, 0x54, 0x5A]) :
    Row p code fun f => f = .unknown where
  code s := s.frameOfCode_unknown p other
  byte s b h := by
    obtain ⟨-, -, -, -, -, -, -, unknown⟩ := s.exchange_frame p b _ rfl
    exact unknown h
  begun f h := by subst h; simp

variable {p} {code : Byte} {within : FrameState → Prop} (row : Row p code within) {s : State}
include row

theorem bytes (more : List Byte) {t : State} (h : within (t.link p).frame) :
    within ((more.foldl (State.exchange p) t).link p).frame :=
  List.foldlRecOn (motive := fun u : State => within (u.link p).frame) more _ h fun u hu b _ => row.byte u b hu

variable {st : Byte} {mosi : List Byte} (head : ∀ c ∈ mosi.head?, c = code)
include head

/-- From before the code, the bytes leave the frame before its code or one of the row. -/
theorem openedBytes_frame :
    (mosi = [] ∧ ((s.openedBytes p st mosi).link p).frame = .opened st)
      ∨ within ((s.openedBytes p st mosi).link p).frame := by
  unfold State.openedBytes
  cases mosi with
  | nil => exact .inl ⟨rfl, by rw [List.foldl_nil, State.atFrame_link]⟩
  | cons c more =>
    obtain rfl := head c rfl
    refine .inr ?_
    rw [List.foldl_cons, State.exchange_code]
    exact row.bytes more (by rw [State.atFrame_link]; exact row.code s)

theorem openedBytes_begun :
    ((s.openedBytes p st mosi).link p).frame ≠ .idle ∧ ((s.openedBytes p st mosi).link p).frame ≠ .ignoring := by
  obtain ⟨-, frame⟩ | frame := row.openedBytes_frame (s := s) (st := st) head
  · rw [frame]
    exact ⟨by simp, by simp⟩
  · exact row.begun _ frame

theorem openedBytes_fits {mine : FrameState → Bool} (opened : mine (.opened st) = true ∨ mosi ≠ [])
    (fits : ∀ f, within f → mine f = true) : mine ((s.openedBytes p st mosi).link p).frame = true := by
  obtain ⟨empty, frame⟩ | frame := row.openedBytes_frame (s := s) (st := st) head
  · rw [frame]
    exact opened.resolve_right fun nonempty => nonempty empty
  · exact fits _ frame

omit head in
/-- A frame in two parts, the first without the rise of CSn, does what it does in one when nothing comes between (log 6). -/
theorem runFrame_split (before : s.beforeCode p st) {a b : List Byte} (head : ∀ c ∈ (a ++ b).head?, c = code)
    {first second : FrameState → Bool} (opened : first (.opened st) = true) (fits : ∀ f, within f → first f = true)
    (opened' : second (.opened st) = true ∨ a ++ b ≠ []) (fits' : ∀ f, within f → second f = true)
    (rise : Bool) (bits bits' : Nat) :
    (s.runFrame p first ⟨a, false⟩ bits).runFrame p second ⟨b, rise⟩ bits' =
      s.runFrame p second ⟨a ++ b, rise⟩ bits' := by
  have head_first : ∀ c ∈ a.head?, c = code := fun c hc => head c (by
    obtain ⟨more, rfl⟩ := List.head?_eq_some_iff.1 hc
    rfl)
  have first_part : s.runFrame p first ⟨a, false⟩ bits = s.openedBytes p st a :=
    (State.runFrame_open first a false bits before).trans
      (State.partFrom_of_fits false bits rfl (row.openedBytes_fits head_first (.inl opened) fits))
  have both_fit := row.openedBytes_fits (s := s) head opened' fits'
  have both := (State.runFrame_open second (a ++ b) rise bits' before).trans (State.partFrom_of_fits rise bits' rfl both_fit)
  obtain ⟨begun, heard⟩ := row.openedBytes_begun (s := s) (st := st) head_first
  have second_part := (s.openedBytes p st a).runFrame_of_inFrame p ((s.openedBytes_hold p st a).trans before.1) begun heard
    second ⟨b, rise⟩ bits'
  rw [s.openedBytes_append] at both_fit
  rw [first_part, both, second_part, List.foldl_append]
  exact if_pos both_fit

end Row

/-- `Row.runFrame_split`, as the two commands give the parts. -/
theorem Row.exec_split {p : Port} {code : Byte} {within : FrameState → Prop} (row : Row p code within) {s t : State}
    {st : Byte} (before : s.beforeCode p st) {a b : List Byte} (head : ∀ c ∈ (a ++ b).head?, c = code)
    {mine : FrameState → Bool} (opened : mine (.opened st) = true) (fits : ∀ f, within f → mine f = true) (rise : Bool)
    (first : (.next (s.runFrame p mine ⟨a, false⟩ 0) : Host.Outcome State Fault Refusal) = .next t) :
    (.next (t.runFrame p mine ⟨b, rise⟩ 0) : Host.Outcome State Fault Refusal) =
      .next (s.runFrame p mine ⟨a ++ b, rise⟩ 0) := by
  obtain rfl := Host.Outcome.next.inj first
  exact congrArg _ (row.runFrame_split before head opened fits (.inl opened) fits rise 0 0)

theorem head_replicate_append (m n : Nat) (code : Byte) :
    ∀ c ∈ (List.replicate m code ++ List.replicate n code).head?, c = code := by
  intro c hc
  rw [List.replicate_append_replicate] at hc
  exact List.eq_of_mem_replicate (List.mem_of_mem_head? hc)

/-! ### The form of a frame (R176) -/

namespace State

variable {s : State} {p : Port}

/-- A SUBMIT that is complete, or whose length is bad, is answered. -/
theorem exchanges_long {bytes : List Byte} (long : ¬ SubmitShort bytes) (miso : List Byte) :
    ∃ (v : State) (result : Byte) (out : List Byte),
      bytes.foldl (State.exchange p) (s.atFrame p (.submit []) miso) = v.atFrame p (.answered result) out := by
  obtain _ | ⟨n, payload⟩ := bytes
  · exact absurd submitShort_nil long
  · by_cases bad : n.toNat < 2 ∨ 40 < n.toNat
    · exact ⟨s, _, _, exchanges_decided (received := []) (before := []) submitShort_nil (decides_badLength bad)⟩
    · have whole : n.toNat ≤ payload.length := by
        rw [submitShort_cons] at long
        omega
      have least : 2 ≤ n.toNat := by omega
      have most : n.toNat ≤ 40 := by omega
      obtain ⟨before, b, after, split, short, last⟩ := submitShort_nil.exists_last (mosi := n :: payload) rfl least most whole
      rw [split]
      exact ⟨_, _, _, exchanges_decided short (decides_complete least most whole last)⟩

/-- What the bytes of a frame that is malformed by its form leave. -/
theorem exchanges_malformedForm {mosi : List Byte} {bits : Nat} (form : MalformedForm mosi bits) (st : Byte)
    (miso : List Byte) :
    ∃ f, f.endsMalformed bits = true ∧ mosi.foldl (State.exchange p) (s.atFrame p (.opened st) miso) =
      s.atFrame p f (if mosi = [] then miso else st :: List.replicate (mosi.length - 1) 0) := by
  obtain ⟨rfl, bit⟩ | ⟨code, rest, rfl, other | ⟨rfl, short⟩ | ⟨rfl, rfl⟩⟩ := form
  · exact ⟨.opened st, decide_eq_true bit, rfl⟩
  · refine ⟨.unknown, rfl, ?_⟩
    rw [List.foldl_cons, exchange_code, frameOfCode_unknown s p other, exchanges_unknown _ p rest (by simp), shifted_atFrame]
    rfl
  · refine ⟨.submit rest, rfl, ?_⟩
    rw [List.foldl_cons, exchange_code, frameOfCode_submit, exchanges_submit _ p [] rest (by simp) short, shifted_atFrame]
    rfl
  · exact ⟨.abandon none, rfl, s.exchange_code p miso st 0x5A⟩

/-- A frame of good form does not end malformed. -/
theorem endsMalformed_of_goodForm {mosi : List Byte} {bits : Nat} (good : ¬ MalformedForm mosi bits) (st : Byte)
    (miso : List Byte) :
    ((mosi.foldl (State.exchange p) (s.atFrame p (.opened st) miso)).link p).frame.endsMalformed bits = false := by
  cases mosi with
  | nil =>
    rw [List.foldl_nil, atFrame_link]
    exact decide_eq_false fun bit => good (.inl ⟨rfl, bit⟩)
  | cons code rest =>
    have known : code ∈ [(0x51 : Byte), 0x52, 0x53, 0x54, 0x5A] := by
      by_contra other
      exact good (.inr ⟨code, rest, rfl, .inl other⟩)
    rw [List.foldl_cons, exchange_code]
    simp only [List.mem_cons, List.not_mem_nil, or_false] at known
    obtain rfl | rfl | rfl | rfl | rfl := known
    · have long : ¬ SubmitShort rest := fun short => good (.inr ⟨_, rest, rfl, .inr (.inl ⟨rfl, short⟩)⟩)
      obtain ⟨v, result, out, answered⟩ := exchanges_long (s := s) (p := p) long [st]
      rw [frameOfCode_submit, answered, atFrame_link]
      rfl
    · obtain ⟨more, frame⟩ := (Row.collect p).bytes (t := s.atFrame p (s.frameOfCode p 0x52) [st]) rest
        (by rw [atFrame_link]; exact (Row.collect p).code s)
      rw [frame]
      rfl
    · obtain ⟨count, more, frame⟩ := (Row.fetch p).bytes (t := s.atFrame p (s.frameOfCode p 0x53) [st]) rest
        (by rw [atFrame_link]; exact (Row.fetch p).code s)
      rw [frame]
      rfl
    · obtain ⟨k, losses, frame⟩ := (Row.status p).bytes (t := s.atFrame p (s.frameOfCode p 0x54) [st]) rest
        (by rw [atFrame_link]; exact (Row.status p).code s)
      rw [frame]
      rfl
    · obtain _ | ⟨b, more⟩ := rest
      · exact absurd (.inr ⟨_, [], rfl, .inr (.inr ⟨rfl, rfl⟩)⟩) good
      · rw [frameOfCode_abandon, exchanges_sessionByte _ p b more (by simp), shifted_atFrame, atFrame_link]
        rfl

/-- The fall of CSn alone (R175). -/
theorem runFrame_fall (hold : s.hold = none) (idle : (s.link p).frame = .idle) {mine : FrameState → Bool}
    (opened : mine (.opened (s.statusByte p)) = true) (bits : Nat) :
    s.runFrame p mine ⟨[], false⟩ bits = s.setLink p { s.link p with frame := .opened (s.statusByte p) } := by
  rw [runFrame_open mine [] false bits ⟨hold, .inl ⟨idle, rfl⟩⟩, partFrom_of_fits false bits rfl (by simpa using opened)]
  rfl

/-- A frame without an SCLK edge (R174). -/
theorem runFrame_noEdge {st : Byte} (before : s.beforeCode p st) {mine : FrameState → Bool}
    (opened : mine (.opened st) = true) :
    s.runFrame p mine ⟨[], true⟩ 0 = s.setLink p { s.link p with frame := .idle } :=
  (runFrame_open mine [] true 0 before).trans (partFrom_quiet true 0 rfl opened rfl)

/-- The bytes of a frame whose code, or whose SUBMIT or ABANDON so far, is malformed as it stands. -/
theorem exchanges_stillMalformed {f : FrameState} {mosi : List Byte} (miso : List Byte) (bits : Nat)
    (h : f = .unknown
      ∨ (∃ received, f = .submit received ∧ SubmitShort received ∧ SubmitShort (received ++ mosi))
      ∨ (f = .abandon none ∧ mosi = [])) :
    f ≠ .idle ∧ f ≠ .ignoring ∧ ∃ g, g.endsMalformed bits = true ∧
      mosi.foldl (State.exchange p) (s.atFrame p f miso) = s.atFrame p g (miso ++ List.replicate mosi.length 0) := by
  obtain rfl | ⟨received, rfl, -, short⟩ | ⟨rfl, rfl⟩ := h
  · refine ⟨by simp, by simp, .unknown, rfl, ?_⟩
    rw [exchanges_unknown _ p mosi (by simp), shifted_atFrame]
  · refine ⟨by simp, by simp, .submit (received ++ mosi), rfl, ?_⟩
    rw [exchanges_submit _ p received mosi (by simp) short, shifted_atFrame]
  · exact ⟨by simp, by simp, .abandon none, rfl, by simp⟩

end State

/-- Settles O47: the frame before its code, what its bytes leave by its form, and the frames of each row, within which two parts
follow each other. -/
theorem malformedAndSplitFrames : Obligations.MalformedAndSplitFrames := by
  refine ⟨fun s p => ?forms, fun s t p st m n a b bits rise before => ?parts⟩
  case forms =>
    intro counted
    refine ⟨fun hold idle => ?falls, fun st before mosi bits => ⟨fun form => ?_, fun good => ?_, ?edges⟩,
      fun mosi bits hold frame => ?_, fun hold ignoring => ?_⟩
    case falls =>
      simp only [List.forall_mem_cons, List.not_mem_nil, false_implies, implies_true, and_true]
      have fall (mine : FrameState → Bool) (opened : mine (.opened (s.statusByte p)) = true) :=
        congrArg (Host.Outcome.next (φ := Fault) (ρ := Refusal)) (State.runFrame_fall hold idle opened 0)
      exact ⟨fall _ rfl, fall _ rfl, fall _ rfl, fall _ rfl, fall _ rfl, fall _ rfl⟩
    case edges =>
      simp only [List.forall_mem_cons, List.not_mem_nil, false_implies, implies_true, and_true]
      have edge (mine : FrameState → Bool) (opened : mine (.opened st) = true) :=
        congrArg (Host.Outcome.next (φ := Fault) (ρ := Refusal)) (State.runFrame_noEdge before opened)
      exact ⟨edge _ rfl, edge _ rfl, edge _ rfl, edge _ rfl, edge _ rfl⟩
    · obtain ⟨f, malformed, bytes⟩ := State.exchanges_malformedForm (s := s) (p := p) form st (s.link p).miso
      exact congrArg _ ((State.runFrame_open _ mosi true bits before).trans
        (State.partFrom_malformed true bits bytes malformed malformed))
    · exact congrArg _ ((State.runFrame_open _ mosi true bits before).trans
        (State.partFrom_of_not_fits true bits (State.endsMalformed_of_goodForm good st _)))
    · obtain ⟨begun, heard, f, malformed, bytes⟩ :=
        State.exchanges_stillMalformed (s := s) (p := p) (s.link p).miso bits frame
      exact congrArg _ ((State.runFrame_on _ mosi true bits hold rfl begun heard).trans
        (State.partFrom_malformed true bits bytes malformed malformed))
    · exact if_pos (by simp [hold, ignoring])
  case parts =>
    refine ⟨fun first => ?_, fun first => ?_, fun first => ?_, fun head first => ?_, fun head first => ?_,
      fun head first => ?_⟩
    · have whole := (Row.collect p).exec_split before (head_replicate_append m n 0x52) rfl
        (by rintro _ ⟨rest, rfl⟩; rfl) rise first
      rw [List.replicate_append_replicate] at whole
      exact whole
    · have whole := (Row.fetch p).exec_split before (head_replicate_append m n 0x53) rfl
        (by rintro _ ⟨count, rest, rfl⟩; rfl) rise first
      rw [List.replicate_append_replicate] at whole
      exact whole
    · have whole := (Row.status p).exec_split before (head_replicate_append m n 0x54) rfl
        (by rintro _ ⟨k, losses, rfl⟩; rfl) rise first
      rw [List.replicate_append_replicate] at whole
      exact whole
    · exact (Row.submit p).exec_split before (by simp [head]) rfl
        (by rintro _ (⟨received, rfl⟩ | ⟨result, rfl⟩) <;> rfl) rise first
    · exact (Row.abandon p).exec_split before (by simp [head]) rfl (by rintro _ ⟨session, rfl⟩; rfl) rise first
    · obtain ⟨code, head, other⟩ := head
      obtain rfl := Host.Outcome.next.inj first
      have nonempty : a ++ b ≠ [] := by
        intro empty
        rw [empty] at head
        cases head
      exact congrArg _ ((Row.unknown p other).runFrame_split before (fun c hc => Option.mem_unique hc head) rfl
        (by rintro _ rfl; rfl) (.inr nonempty) (by rintro _ rfl; rfl) rise 0 bits)

end Sys2Proof.Machine
end

