-- ==== Sys2Proof/Proofs/CommandQueue.lean ====
section
/-! SUPPORT. Every command answers a next state, and the queue of commands is no part of what it changes: only a step
takes the front command from the queue. -/

namespace Sys2Proof.Machine

/-- Settles O1: a step reads the queue first. -/
theorem stepRunsFrontCommand : Obligations.StepRunsFrontCommand := by
  intro c rest s queue
  rw [step, queue]

/-- The outcome is a next state, whose queue of commands is cs. -/
def AnswersWith (cs : List Instr) (o : Host.Outcome State Fault Refusal) : Prop := ∃ t, o = .next t ∧ t.pending = cs

theorem answersWith_next {cs : List Instr} {t : State} (h : t.pending = cs) : AnswersWith cs (.next t) := ⟨t, rfl, h⟩

/-- An event that happens, or a stutter. -/
theorem answersWith_ite {c : Prop} [Decidable c] {s t : State} (h : t.pending = s.pending) :
    AnswersWith s.pending (if c then .next t else .next s) := by
  split
  · exact answersWith_next h
  · exact answersWith_next rfl

/-! ### The queue through what the commands are made of -/

theorem TransferOnly.pending {s t : State} (h : TransferOnly s t) : t.pending = s.pending := by rw [h]

theorem ReservesOnly.pending {s t : State} (h : ReservesOnly s t) : t.pending = s.pending := by rw [h]

namespace State

variable (s : State) (p : Port) (i : InputIx) (me : SessionId) (f : List Byte)

theorem endSession_pending (expired : Bool) : (s.endSession p expired).pending = s.pending := by
  obtain ⟨-, -, -, -, -, -, pending, -⟩ := s.endSession_rest (p := p) expired
  exact pending

theorem qualify_pending : (s.qualify i).pending = s.pending := (s.qualify_only i).pending

theorem rawChange_pending : (s.rawChange i).pending = s.pending := by
  unfold rawChange
  dsimp only
  split
  · exact qualify_pending ..
  · split <;> rfl

theorem rejudgeInput_pending : (s.rejudgeInput i).pending = s.pending := by
  unfold rejudgeInput
  split
  · exact s.qualify_pending i
  · rfl

theorem completeSetHub_pending (v : Verdict HubRecord) : (s.completeSetHub v).state.pending = s.pending := by
  cases v with
  | refuse st b => rfl
  | pass hub =>
    exact foldl_related (R := fun t u : State => u.pending = t.pending) (fun _ => rfl) (fun _ _ _ h k => k.trans h)
      rejudgeInput_pending allInputs { s with hub := hub }

theorem runAct_pending : (runAct s me f).state.pending = s.pending := by
  unfold runAct
  dsimp only
  split
  · rfl
  · exact (ScheduleOnly.firstVote _).pending

theorem haltAct_pending : (haltAct s me f).state.pending = s.pending := (s.dropVote_only me.port _).pending

theorem setNoticesAct_pending : (setNoticesAct s me f).state.pending = s.pending := by
  unfold setNoticesAct
  split <;> rfl

theorem readHubAct_pending : (readHubAct s me f).state.pending = s.pending := by
  unfold readHubAct
  split
  · rfl
  · dsimp only
    split <;> rfl

theorem attachTaken_pending (r : Request) : (s.attachTaken p r).pending = s.pending := by
  unfold attachTaken
  split
  · rfl
  · split <;> rfl

theorem holdReset_pending (cause : ResetCause) : (s.holdReset cause).pending = s.pending :=
  (s.holdReset_only cause).pending

/-! ### Requests, completions and frames -/

variable {s p}

theorem answerRequest_pending {kind : RequestKind} {act : State → SessionId → List Byte → Answer}
    (acts : ∀ t me f, (act t me f).state.pending = t.pending) : (s.answerRequest p kind act).pending = s.pending :=
  answerRequest_keeps (P := fun t => t.pending = s.pending) rfl rfl (fun me f _ => acts _ me f) fun _ _ _ _ h => h

theorem flyRequest_pending {kind : RequestKind} {judge : State → SessionId → List Byte → FlightOp} :
    (s.flyRequest p kind judge).pending = s.pending :=
  flyRequest_keeps (P := fun t => t.pending = s.pending) rfl rfl (fun _ _ _ => rfl) fun _ _ _ _ h => h

theorem complete_pending {g : Flight} {act : State → Answer} (acts : ∀ t, (act t).state.pending = t.pending) :
    (s.complete g act).pending = s.pending :=
  complete_keeps (P := fun t => t.pending = s.pending) rfl (acts _) (fun _ _ _ _ h => h) fun _ h => h

theorem runFrame_pending {mine : FrameState → Bool} {part : FramePart} {bits : Nat} :
    (s.runFrame p mine part bits).pending = s.pending :=
  runFrame_keeps (P := fun t => t.pending = s.pending) (fun _ _ only h => only.pending.trans h)
    (fun t h => (t.endSession_pending p false).trans h) rfl mine part bits

end State

/-! ### The commands -/

section commands

variable (s : State)

theorem execAttach_answers (p : Port) : AnswersWith s.pending (execAttach p s) := by
  unfold execAttach
  split
  · exact answersWith_next rfl
  · exact answersWith_next (State.attachTaken_pending ..)

theorem execBadKind_answers (p : Port) : AnswersWith s.pending (execBadKind p s) := by
  unfold execBadKind
  split <;> exact answersWith_next rfl

theorem execCleanupClaim_answers (p : Port) : AnswersWith s.pending (execCleanupClaim p s) := by
  unfold execCleanupClaim
  split
  · split
    · exact answersWith_next (ReservesOnly.cleanup ..).pending
    · exact answersWith_next rfl
  · exact answersWith_next rfl

/-- Whatever flight the executor holds. -/
theorem completions_answer :
    AnswersWith s.pending (execAddCompletion s) ∧ AnswersWith s.pending (execReplaceCompletion s)
      ∧ AnswersWith s.pending (execSetHubCompletion s) := by
  have quiet : AnswersWith s.pending (.next s) := answersWith_next rfl
  unfold execAddCompletion execReplaceCompletion execSetHubCompletion
  cases s.arbiter.executor with
  | none => exact ⟨quiet, quiet, quiet⟩
  | some f =>
    dsimp only
    cases f.op with
    | add v =>
      exact ⟨answersWith_ite (State.complete_pending fun t => (ReservesOnly.completeAdd t _ v).pending), quiet, quiet⟩
    | replace v =>
      exact ⟨quiet, answersWith_ite (State.complete_pending fun t => (ReservesOnly.completeReplace t _ v).pending),
        quiet⟩
    | setHub v => exact ⟨quiet, quiet, answersWith_ite (State.complete_pending fun t => t.completeSetHub_pending v)⟩

theorem burstTimes_answer (g : EngineIx) :
    AnswersWith s.pending (execHighTimeElapses g s) ∧ AnswersWith s.pending (execLowTimeElapses g s) := by
  unfold execHighTimeElapses execLowTimeElapses
  cases (s.burst g).job with
  | none => exact ⟨answersWith_next rfl, answersWith_next rfl⟩
  | some j => exact ⟨answersWith_ite rfl, answersWith_ite rfl⟩

theorem execRstnAsserted_answers : AnswersWith s.pending (execRstnAsserted s) := by
  unfold execRstnAsserted
  split
  · exact answersWith_next (s.holdReset_pending .pin)
  · exact answersWith_next rfl

theorem execResetRelease_answers (inputs : BitVec 8) (inh : Bool) (cs : BitVec 4) :
    AnswersWith s.pending (execResetRelease inputs inh cs s) := by
  unfold execResetRelease
  split <;> exact answersWith_next rfl

/-- Every command answers a next state with the queue as it was. -/
theorem exec_answers (c : Instr) : AnswersWith s.pending (exec c s) := by
  obtain ⟨addCompletion, replaceCompletion, setHubCompletion⟩ := completions_answer s
  cases c with
  | attach p => exact execAttach_answers s p
  | detach p => exact answersWith_next (State.answerRequest_pending fun t me _ => t.endSession_pending me.port false)
  | renew p => exact answersWith_next (State.answerRequest_pending fun _ _ _ => rfl)
  | setNotices p => exact answersWith_next (State.answerRequest_pending State.setNoticesAct_pending)
  | withdraw p =>
    exact answersWith_next (State.answerRequest_pending fun t me f => (ReservesOnly.withdrawAct t me f).pending)
  | query p => exact answersWith_next (State.answerRequest_pending fun _ _ _ => by rw [queryAct_state])
  | scan p => exact answersWith_next (State.answerRequest_pending fun _ _ _ => by rw [scanAct_state])
  | claimLine p =>
    exact answersWith_next (State.answerRequest_pending fun t me f => (ReservesOnly.claimLineAct t me f).pending)
  | releaseLine p =>
    exact answersWith_next (State.answerRequest_pending fun t me f => (ReservesOnly.releaseLineAct t me f).pending)
  | lineInfo p => exact answersWith_next (State.answerRequest_pending fun _ _ _ => by rw [lineInfoAct_state])
  | run p => exact answersWith_next (State.answerRequest_pending State.runAct_pending)
  | halt p => exact answersWith_next (State.answerRequest_pending State.haltAct_pending)
  | readHub p => exact answersWith_next (State.answerRequest_pending State.readHubAct_pending)
  | add p | replace p | setHub p => exact answersWith_next State.flyRequest_pending
  | addCompletion => exact addCompletion
  | replaceCompletion => exact replaceCompletion
  | setHubCompletion => exact setHubCompletion
  | badKind p => exact execBadKind_answers s p
  | cleanupClaim p => exact execCleanupClaim_answers s p
  | submit p | collect p | fetch p | status p | abandon p | malformedFrame p =>
    exact answersWith_next State.runFrame_pending
  | cycleEnd => exact answersWith_ite (ScheduleOnly.cycleEnd s).pending
  | spacingEnd => exact answersWith_ite (ScheduleOnly.spacingEnd s).pending
  | inhAsserted => exact answersWith_ite (ScheduleOnly.inhAssert s).pending
  | inhReleased => exact answersWith_ite (ScheduleOnly.inhRelease s).pending
  | rawChange i => exact answersWith_ite (s.rawChange_pending i)
  | qualification i => exact answersWith_ite (s.qualify_pending i)
  | windowBoundaryEvent => exact answersWith_ite (ScheduleOnly.windowBoundary s).pending
  | highTimeElapses g => exact (burstTimes_answer s g).1
  | lowTimeElapses g => exact (burstTimes_answer s g).2
  | leaseExpiry p => exact answersWith_ite (s.endSession_pending p true)
  | powerOnReset => exact answersWith_next (s.holdReset_pending .power)
  | rstnAsserted => exact execRstnAsserted_answers s
  | resetRelease inputs inh cs => exact execResetRelease_answers s inputs inh cs
  | csnRiseAfterReset p => exact answersWith_ite rfl

end commands

/-- Settles O2: each command, by what it is made of. -/
theorem everyCommandAnswersNext : Obligations.EveryCommandAnswersNext := fun c s => exec_answers s c

end Sys2Proof.Machine
end

