-- ==== Sys2Proof/Proofs/Stutters.lean ====
section
/-! SUPPORT. A command whose event cannot happen changes nothing (log 4): a taking that is not the arbiter's, an event before
its time, a completion without its flight, and a part of a frame that is another row's. -/

namespace Sys2Proof.Machine

/-! ### Takings -/

namespace State

variable {s : State} {p : Port} {kind : RequestKind}

theorem flyRequest_of_none {judge : State → SessionId → List Byte → FlightOp} (absent : s.takenRequest p kind = none) :
    s.flyRequest p kind judge = s := by
  rw [flyRequest, absent]

end State

/-- A taking that is not the arbiter's next. -/
theorem exec_takingCommand_of_none {s : State} {p : Port} {kind : RequestKind} (absent : s.takenRequest p kind = none) :
    exec (takingCommand p kind) s = .next s := by
  by_cases attach : kind = .attach
  · subst attach
    have arm : exec (takingCommand p .attach) s = execAttach p s := rfl
    rw [arm, execAttach, absent]
  · by_cases unknown : kind = .unknown
    · subst unknown
      have arm : exec (takingCommand p .unknown) s = execBadKind p s := rfl
      rw [arm, execBadKind, absent]
    · obtain ⟨act, executed⟩ | ⟨judge, executed⟩ := exec_takingCommand s p attach unknown
      · rw [executed, s.answerRequest_of_none absent]
      · rw [executed, State.flyRequest_of_none absent]

/-! ### Events before their time -/

/-- An event that is not due, in reset or not. -/
theorem ite_isNone_and_of_not_due {s t : State} {due : Bool} (early : due = false) :
    (if (s.hold.isNone && due) = true then .next t else .next s : Host.Outcome State Fault Refusal) = .next s :=
  if_neg (by simp [early])

theorem burstTimes_early (s : State) (g : EngineIx) :
    (s.highDue g = false → execHighTimeElapses g s = .next s)
      ∧ (s.lowDue g = false → execLowTimeElapses g s = .next s) := by
  unfold execHighTimeElapses execLowTimeElapses State.highDue State.lowDue
  cases (s.burst g).job with
  | none => exact ⟨fun _ => rfl, fun _ => rfl⟩
  | some j => exact ⟨ite_isNone_and_of_not_due, ite_isNone_and_of_not_due⟩

/-! ### Completions without a flight of their kind -/

theorem completions_of_other (s : State) :
    ((∀ f ∈ s.arbiter.executor, ∀ v, f.op ≠ .add v) → execAddCompletion s = .next s)
      ∧ ((∀ f ∈ s.arbiter.executor, ∀ v, f.op ≠ .replace v) → execReplaceCompletion s = .next s)
      ∧ ((∀ f ∈ s.arbiter.executor, ∀ v, f.op ≠ .setHub v) → execSetHubCompletion s = .next s) := by
  unfold execAddCompletion execReplaceCompletion execSetHubCompletion
  cases s.arbiter.executor with
  | none => exact ⟨fun _ => rfl, fun _ => rfl, fun _ => rfl⟩
  | some f =>
    dsimp only
    cases op : f.op with
    | add v => exact ⟨fun other => absurd op (other f rfl v), fun _ => rfl, fun _ => rfl⟩
    | replace v => exact ⟨fun _ => rfl, fun other => absurd op (other f rfl v), fun _ => rfl⟩
    | setHub v => exact ⟨fun _ => rfl, fun _ => rfl, fun other => absurd op (other f rfl v)⟩

/-! ### Frames of another row -/

/-- What a frame can be after one more byte: once the frame code is received, a frame of the same code. -/
inductive FrameState.Next : FrameState → FrameState → Prop
  | opened (status : Byte) (g : FrameState) : Next (.opened status) g
  | submit (received more : List Byte) : Next (.submit received) (.submit more)
  | decided (received : List Byte) (result : Byte) : Next (.submit received) (.answered result)
  | answered (result : Byte) : Next (.answered result) (.answered 0)
  | collect (rest more : List Byte) : Next (.collect rest) (.collect more)
  | fetch (count : Option Byte) (rest more : List Byte) : Next (.fetch count rest) (.fetch none more)
  | status (k k' : Nat) (losses losses' : BitVec 16) : Next (.status k losses) (.status k' losses')
  | abandon (session : Option Byte) (byte : Byte) : Next (.abandon session) (.abandon (some byte))
  | unknown : Next .unknown .unknown
  | idle : Next .idle .idle
  | ignoring : Next .ignoring .ignoring

/-- Once the frame code is received, the row that a frame is of does not change. -/
theorem FrameState.Next.same_row {f g : FrameState} (next : FrameState.Next f g) :
    (∃ status, f = .opened status)
      ∨ (g.fitsSubmit = f.fitsSubmit ∧ g.fitsCollect = f.fitsCollect ∧ g.fitsFetch = f.fitsFetch
        ∧ g.fitsStatus = f.fitsStatus ∧ g.fitsAbandon = f.fitsAbandon) := by
  cases next with
  | opened status => exact .inl ⟨status, rfl⟩
  | _ => exact .inr ⟨rfl, rfl, rfl, rfl, rfl⟩

/-- A row is left for good when a frame that it cannot be does not become one that it can be. -/
def LeftForGood (mine : FrameState → Bool) : Prop := ∀ f g, FrameState.Next f g → mine f = false → mine g = false

/-- A row that any frame can be before its code, and then those of its own code. -/
theorem leftForGood_of_fits {mine : FrameState → Bool}
    (h : ∀ f g, FrameState.Next f g → (∃ status, f = .opened status) ∨ mine g = mine f)
    (opened : ∀ status, mine (.opened status) = true) : LeftForGood mine := by
  intro f g next other
  obtain ⟨status, rfl⟩ | same := h f g next
  · exact absurd (opened status) (by simp [other])
  · rw [same, other]

theorem leftForGood_fitsSubmit : LeftForGood FrameState.fitsSubmit :=
  leftForGood_of_fits (fun _ _ next => next.same_row.imp_right fun ⟨same, _⟩ => same) fun _ => rfl

theorem leftForGood_fitsCollect : LeftForGood FrameState.fitsCollect :=
  leftForGood_of_fits (fun _ _ next => next.same_row.imp_right fun ⟨_, same, _⟩ => same) fun _ => rfl

theorem leftForGood_fitsFetch : LeftForGood FrameState.fitsFetch :=
  leftForGood_of_fits (fun _ _ next => next.same_row.imp_right fun ⟨_, _, same, _⟩ => same) fun _ => rfl

theorem leftForGood_fitsStatus : LeftForGood FrameState.fitsStatus :=
  leftForGood_of_fits (fun _ _ next => next.same_row.imp_right fun ⟨_, _, _, same, _⟩ => same) fun _ => rfl

theorem leftForGood_fitsAbandon : LeftForGood FrameState.fitsAbandon :=
  leftForGood_of_fits (fun _ _ next => next.same_row.imp_right fun ⟨_, _, _, _, same⟩ => same) fun _ => rfl

/-- A frame whose form is good, whatever bits of a further byte there are, stays so. -/
theorem leftForGood_endsMalformed : LeftForGood (FrameState.endsMalformed 1) := by
  intro f g next good
  cases next with
  | opened | submit | decided | unknown => cases good
  | _ => rfl

theorem endsMalformed_of_good {f : FrameState} (good : f.endsMalformed 1 = false) (bits : Nat) :
    f.endsMalformed bits = false := by
  cases f with
  | opened => cases good
  | abandon session =>
    cases session with
    | none => cases good
    | some b => rfl
  | _ => exact good

namespace State

variable (s : State) (p : Port)

theorem exchange_next (b : Byte) : FrameState.Next (s.link p).frame ((exchange p s b).link p).frame := by
  obtain ⟨-, submitted, answered, collected, fetched, shifted, abandoned, unknown⟩ := s.exchange_frame p b _ rfl
  cases frame : (s.link p).frame with
  | idle =>
    have same : exchange p s b = s := by rw [exchange, frame]
    rw [same, frame]
    exact .idle
  | ignoring =>
    have same : exchange p s b = s := by rw [exchange, frame]
    rw [same, frame]
    exact .ignoring
  | opened status => exact .opened ..
  | submit received =>
    obtain ⟨more, after⟩ | ⟨result, after⟩ := submitted received frame
    · rw [after]
      exact .submit ..
    · rw [after]
      exact .decided ..
  | answered result =>
    rw [answered result frame]
    exact .answered _
  | collect rest =>
    obtain ⟨more, after⟩ := collected rest frame
    rw [after]
    exact .collect ..
  | fetch count rest =>
    obtain ⟨more, after⟩ := fetched count rest frame
    rw [after]
    exact .fetch ..
  | status k losses =>
    obtain ⟨k', losses', after⟩ := shifted k losses frame
    rw [after]
    exact .status ..
  | abandon session =>
    obtain ⟨byte, after⟩ := abandoned session frame
    rw [after]
    exact .abandon ..
  | unknown =>
    rw [unknown frame]
    exact .unknown

variable {s p}

/-- No byte brings a frame back to a row that it has left. -/
theorem exchanges_other {mine : FrameState → Bool} (left : LeftForGood mine) (bytes : List Byte)
    (other : mine (s.link p).frame = false) : mine ((bytes.foldl (exchange p) s).link p).frame = false :=
  List.foldlRecOn (motive := fun t : State => mine (t.link p).frame = false) bytes _ other
    fun t stays b _ => left _ _ (t.exchange_next p b) stays

/-- A part that finds a frame of another row in progress, or SCLK ignored. -/
theorem runFrame_of_other {mine row : FrameState → Bool} (left : LeftForGood row)
    (within : ∀ f, row f = false → mine f = false) (busy : (s.link p).frame ≠ .idle)
    (other : row (s.link p).frame = false) (part : FramePart) (bits : Nat) : s.runFrame p mine part bits = s := by
  have stays := within _ (exchanges_other left part.bytes other)
  rw [runFrame, s.fallCs_of_ne p busy]
  split
  · rfl
  · exact if_neg (by simp [stays])

/-- A part whose first byte is another row's frame code. -/
theorem runFrame_of_otherCode {mine : FrameState → Bool} (left : LeftForGood mine) {st code : Byte}
    (before : s.beforeCode p st) (other : mine (s.frameOfCode p code) = false) (more : List Byte) (rise : Bool)
    (bits : Nat) : s.runFrame p mine ⟨code :: more, rise⟩ bits = s := by
  rw [runFrame_code mine more rise bits before]
  exact partFrom_of_not_fits rise bits (exchanges_other left more (by rwa [atFrame_link]))

theorem collectFirst_fits (s : State) (p : Port) :
    (s.collectFirst p).fitsSubmit = false ∧ (s.collectFirst p).fitsAbandon = false := by
  unfold collectFirst
  split <;> exact ⟨rfl, rfl⟩

theorem frameOfCode_fitsSubmit {code : Byte} (other : code ≠ 0x51) : (s.frameOfCode p code).fitsSubmit = false := by
  rw [frameOfCode, if_neg other]
  split_ifs
  · exact (s.collectFirst_fits p).1
  all_goals rfl

theorem frameOfCode_fitsAbandon {code : Byte} (other : code ≠ 0x5A) : (s.frameOfCode p code).fitsAbandon = false := by
  unfold frameOfCode
  split_ifs
  · rfl
  · exact (s.collectFirst_fits p).2
  all_goals rfl

end State

/-- Settles O6: takings, events, completions and frames, each by why its event cannot happen. -/
theorem commandWithoutItsEventStutters : Obligations.CommandWithoutItsEventStutters := by
  intro s
  obtain ⟨addCompletion, replaceCompletion, setHubCompletion⟩ := completions_of_other s
  refine ⟨fun p kind => exec_takingCommand_of_none, fun p other => if_neg other, ite_isNone_and_of_not_due,
    ite_isNone_and_of_not_due, ite_isNone_and_of_not_due, fun i => ite_isNone_and_of_not_due,
    fun g => (burstTimes_early s g).1, fun g => (burstTimes_early s g).2, fun p => exec_leaseExpiry_early,
    fun asserted => ?asserted, ite_isNone_and_of_not_due, addCompletion, replaceCompletion, setHubCompletion,
    fun p busy mosi bits n rise => ?frames, fun p st code mosi rise before => ?codes,
    fun p st mosi bits before good => ?form, fun p heard => ?heard,
    fun hold inputs inh cs => exec_resetRelease_of_free hold inputs inh cs⟩
  case asserted => exact ite_isNone_and_of_not_due (by rw [asserted]; rfl)
  case frames =>
    exact ⟨fun other => congrArg _ (State.runFrame_of_other leftForGood_fitsSubmit (fun _ => id) busy other _ _),
      fun other => congrArg _ (State.runFrame_of_other leftForGood_fitsAbandon (fun _ => id) busy other _ _),
      fun other => congrArg _ (State.runFrame_of_other leftForGood_endsMalformed
        (fun _ good => endsMalformed_of_good good _) busy other _ _),
      fun other => congrArg _ (State.runFrame_of_other leftForGood_fitsCollect (fun _ => id) busy other _ _),
      fun other => congrArg _ (State.runFrame_of_other leftForGood_fitsFetch (fun _ => id) busy other _ _),
      fun other => congrArg _ (State.runFrame_of_other leftForGood_fitsStatus (fun _ => id) busy other _ _)⟩
  case codes =>
    exact ⟨fun other => congrArg _ (State.runFrame_of_otherCode leftForGood_fitsSubmit before
        (State.frameOfCode_fitsSubmit other) mosi rise 0),
      fun other => congrArg _ (State.runFrame_of_otherCode leftForGood_fitsAbandon before
        (State.frameOfCode_fitsAbandon other) mosi rise 0)⟩
  case form =>
    exact congrArg _ ((State.runFrame_open _ mosi true bits before).trans
      (State.partFrom_of_not_fits true bits (State.endsMalformed_of_goodForm good st _)))
  case heard => exact ite_isNone_and_of_not_due (decide_eq_false heard)

end Sys2Proof.Machine
end
